-- ==== Sys2Proof/Word.lean ====
section
/-! DEFINITION. The machine words of Hjelurn: a register is 64 bits, an instruction or crossing word 32 (R18, R55, R102). -/

namespace Sys2Proof

/-- A scalar register, an address, a special register (R55). -/
abbrev Word := BitVec 64

/-- An instruction word (R18), a crossing word (R102), a cold register (R119). -/
abbrev Word32 := BitVec 32

/-- A byte of warm memory (R4). -/
abbrev Byte := BitVec 8

/-- A tensor handle (R90). -/
abbrev HandleBits := BitVec 256

end Sys2Proof
end

