-- ==== Sys2Proof/Syntax.lean ====
section
/-! DEFINITION. The syntax: one constructor of `Instr` per row of the opcode table. The first group are the Hjelurn
words (R48 to R54), the second the steps of a link program (R224), the third the module's events. A reserved
code of a field has no constructor, so it cannot be written down; what is left to check is in WellFormed. -/

namespace Sys2Proof

/-- A core of the module, 0 to 63 (R13). -/
abbrev CoreId := Fin 64
/-- A die number, warm or cold, 0 to 3 (R12). -/
abbrev DieId := Fin 4
/-- An Ozpex port, 0 to 7 (R13). -/
abbrev PortId := Fin 8
/-- A module of the pod, 0 to 63 (R206). -/
abbrev ModuleId := Fin 64
/-- A scalar register name s0 to s63 (R25). -/
abbrev SReg := BitVec 6
/-- A predicate name p0 to p7 (R25). -/
abbrev PReg := BitVec 3
/-- A handle name h0 to h15 (R25). -/
abbrev HReg := BitVec 4
/-- The nt field: 0 for none, n1 to n7 (R25). -/
abbrev NtField := BitVec 3

/-- The five engines that have a queue (R19, R20). -/
inductive Engine where
  | a | g | m | l | y
  deriving DecidableEq, Repr

/-- The four widths of a type code or a store (R27, R34). -/
inductive Width where
  | b8 | b16 | b32 | b64
  deriving DecidableEq, Repr

/-- A type code ty: natural or signed, and a width (R27). -/
structure ScalarType where
  natural : Bool
  width : Width
  deriving DecidableEq, Repr

/-- The conditions of CMP and CMPI (R30). -/
inductive Cond where
  | eq | ne | lt | ge | le | gt
  deriving DecidableEq, Repr

/-- A guard: a predicate and its inversion (R33). -/
structure Guard where
  pred : PReg
  invert : Bool
  deriving DecidableEq, Repr

/-- The sizes of a literal (R32). -/
inductive LitSize where
  | i32 | n32 | w64
  deriving DecidableEq, Repr

/-- The completion counters WAITC may name (R28). -/
abbrev CounterSel := Engine

/-- The engines an RDV waits for (R39). -/
structure EngineMask where
  a : Bool
  g : Bool
  m : Bool
  l : Bool
  y : Bool
  deriving DecidableEq, Repr

/-- The handle fields of HSET and HGET (R35). -/
inductive HField where
  | base | fmt | flags | dims | st1 | st2 | st3
  deriving DecidableEq, Repr

/-- The four scopes (R157). -/
inductive Scope where
  | core | die | module | pod
  deriving DecidableEq, Repr

/-- The ordering of an atomic (R34). -/
inductive AtomicOrd where
  | relaxed | acquire | release | acqrel
  deriving DecidableEq, Repr

/-- The forms of COPY (R278). -/
inductive CopyForm where
  | plain | redAdd | redMin | redMax | s24
  deriving DecidableEq, Repr

/-- The message classes (R211). -/
inductive MsgClass where
  | d | v | f
  deriving DecidableEq, Repr

/-- The reductions of SENDRED (R38). -/
inductive Reduction where
  | add | min | max
  deriving DecidableEq, Repr

/-- The kinds of FENCE (R166). -/
inductive FenceKind where
  | w | r | rw | sc
  deriving DecidableEq, Repr

/-- The roles of PHREG (R175). -/
inductive PhaserRole where
  | sig | wait | both
  deriving DecidableEq, Repr

/-- The ranges of TLBI (R97). -/
inductive TlbiRange where
  | page | kind | all
  deriving DecidableEq, Repr

/-- The readings of HEATR (R117). -/
inductive HeatSel where
  | total | thr | fill | budget
  deriving DecidableEq, Repr

/-- A master of the owner window: the CXL host or the management controller (R257). -/
inductive Master where
  | host | controller
  deriving DecidableEq, Repr

/-- The budget message of a guard: the other module's number, rack, share, cap and demand in 0.5 W (R253). -/
structure BudgetMsg where
  peer : ModuleId
  rack : Nat
  share : Nat
  cap : Nat
  demand : Nat
  deriving DecidableEq, Repr

/-- What a port receives from the module its slot joined, in one guard's control flits (R215). -/
structure CtlMsg where
  /-- 0 in the guard's first wc, when the flits leave; 1 when the relock is due, 48 wc on; 2 when the flits land, F + 1 wc on -/
  stage : Fin 3
  /-- the module that the slot joined, or this module where it joined none -/
  peer : ModuleId
  /-- relay segments of this module at the peer that the peer reports forwarded (R212) -/
  relayFreed : Bool
  /-- the peer reports that it discarded the message it held for this module (R232) -/
  relayFailed : Bool
  /-- sequence numbers of relayed .v messages of this module that the peer reports landed (R213) -/
  acks : List Nat
  /-- generation of a drain marker from the peer (R228) -/
  marker : Option (BitVec 8)
  /-- the peer announces a retraining, and the interval in which its port will be off, once fixed (R237) -/
  peerTrains : Bool
  peerOff : Option (Nat × Nat)
  /-- the peer acknowledges this port's announcement (R237) -/
  trainAck : Bool
  /-- the budget message, when the two modules share a rack (R253) -/
  budget : Option BudgetMsg
  /-- the receiver did not relock within 48 wc (R234) -/
  relockFailed : Bool
  deriving DecidableEq, Repr

/-- What kind of message lands on a port from a peer (R217 to R220). -/
inductive InboundKind where
  /-- bytes of a SEND -/
  | data
  /-- elements of a SENDRED: the reduction and the element format code (R218) -/
  | reduce (op : Reduction) (efmt : BitVec 4)
  /-- a PULL request: source byte count, reply class and the peer's relay permission (R219, R325) -/
  | pullRequest (bytes : Nat) (cls : MsgClass) (relayOk : Bool)
  /-- bytes of a reply to the PULL numbered `pull` of this module (R219) -/
  | pullReply (pull : Nat)
  /-- a message that this module is to forward to `dest`, with the reduction and format of a SENDRED (R212) -/
  | relay (dest : ModuleId) (red : Option (Reduction × BitVec 4))
  deriving DecidableEq, Repr

/-- A message that lands on a port from another module: the pod's other modules are outside the model, so its
content is an input. Its flits land wc by wc (R209). -/
structure InboundMsg where
  source : ModuleId
  cls : MsgClass
  seq : BitVec 16
  kind : InboundKind
  /-- the packed offset of its first byte in its transfer; of a reply, in the destination tensor -/
  addr : Nat
  /-- the physical pieces that its bytes go to, or that a PULL reads, in order: first byte and length (R216) -/
  places : List (Nat × Nat)
  payload : List Byte
  /-- the bits that it moves in a wc, which its header names (R238); 0 for a message that lands in one wc -/
  width : Nat
  /-- wcs in which its flits have landed before this one -/
  wcs : Nat
  /-- payload bytes that have landed in their place -/
  landed : Nat
  /-- it came by way of an intermediate (R212) -/
  relayed : Bool
  /-- last message of its transfer -/
  last : Bool
  /-- where the last byte of its whole transfer lands (R220) -/
  lastAt : Nat
  /-- accession tag stamped at landing (R98) -/
  stamp : Option (BitVec 6)
  /-- notify descriptor that travels with the transfer, 0 for none (R220) -/
  notify : Word
  /-- the marker generation of its source behind which it does not stand: its bytes land before that marker arrives (R229) -/
  ahead : BitVec 8
  deriving DecidableEq, Repr

/-- A landing: of a message this module sent (its number on the port), or of one that came in (R209); and what one that has landed does
behind the updates and words of the cores in its wc: its ring publication and a reply's place in its queue (R172, R219). -/
inductive Landing where
  | outbound (number : Nat)
  | inbound (msg : InboundMsg)
  | landed (msg : InboundMsg)
  deriving DecidableEq, Repr

/-- The causes of an alarm (R262). -/
inductive AlarmCause where
  | tamper | glitch
  | coldDie (die : DieId)
  deriving DecidableEq, Repr

/-- Where a memory or flit error lies: a die and an address (R263, R264). -/
structure ErrorSite where
  die : Option DieId
  unit : Option (Fin 16)
  addr : Word
  deriving DecidableEq, Repr

/-- A host access through CXL.mem, to DEV (R256). -/
inductive HostAccess where
  | read (addr : Nat) (bytes : Nat)
  | write (addr : Nat) (bytes : List Byte)
  deriving DecidableEq, Repr

/-- The rows of the opcode table. -/
inductive Instr where
  -- S engine (R48)
  | nop
  | add (ty : ScalarType) (d a b : SReg)
  | sub (ty : ScalarType) (d a b : SReg)
  | mul (ty : ScalarType) (d a b : SReg)
  | mulh (ty : ScalarType) (d a b : SReg)
  | mulhn (ty : ScalarType) (d a b : SReg)
  | div (ty : ScalarType) (d a b : SReg)
  | divn (ty : ScalarType) (d a b : SReg)
  | rem (ty : ScalarType) (d a b : SReg)
  | remn (ty : ScalarType) (d a b : SReg)
  | and (ty : ScalarType) (d a b : SReg)
  | or (ty : ScalarType) (d a b : SReg)
  | xor (ty : ScalarType) (d a b : SReg)
  | shl (ty : ScalarType) (d a b : SReg)
  | shr (ty : ScalarType) (d a b : SReg)
  | sha (ty : ScalarType) (d a b : SReg)
  | clz (ty : ScalarType) (d a : SReg)
  | popc (ty : ScalarType) (d a : SReg)
  | min (ty : ScalarType) (d a b : SReg)
  | minn (ty : ScalarType) (d a b : SReg)
  | max (ty : ScalarType) (d a b : SReg)
  | maxn (ty : ScalarType) (d a b : SReg)
  | cmp (cond : Cond) (ty : ScalarType) (pd : PReg) (a b : SReg)
  | plog (pd pa pb : PReg) (fn : BitVec 4)
  | sel (guard : Guard) (d a b : SReg)
  | mov (d a : SReg)
  | lit (size : LitSize) (d : SReg) (off : BitVec 15)
  | sts (guard : Guard) (w : Width) (v a : SReg) (off : BitVec 5)
  | b (guard : Guard) (off : BitVec 19)
  | call (guard : Guard) (off : BitVec 19)
  | ret (guard : Guard)
  | jr (guard : Guard) (a : SReg)
  | loop (c : SReg) (off : BitVec 17)
  | waitc (sel : CounterSel) (a : SReg)
  | rdv (mask : EngineMask)
  | fmt (a : SReg)
  | hset (f : HField) (hd : HReg) (sa : SReg)
  | hget (f : HField) (sa : SReg) (ha : HReg)
  | hmov (hd ha : HReg)
  | hoff (hd ha : HReg) (sa : SReg)
  | hslice (k : BitVec 2) (hd ha : HReg) (sa sb : SReg)
  | addi (d a : SReg) (imm : BitVec 12)
  | andi (d a : SReg) (imm : BitVec 12)
  | ori (d a : SReg) (imm : BitVec 12)
  | xori (d a : SReg) (imm : BitVec 12)
  | shli (d a : SReg) (n : BitVec 6)
  | shri (d a : SReg) (n : BitVec 6)
  | shai (d a : SReg) (n : BitVec 6)
  | cmpi (cond : Cond) (pd : PReg) (a : SReg) (imm : BitVec 12)
  | movi (d : SReg) (imm : BitVec 12)
  | movhi (d a : SReg) (imm : BitVec 12)
  | lds (ty : ScalarType) (d a : SReg) (off : BitVec 9)
  -- A engine (R49)
  | ld (acquire : Bool) (scope : Scope) (ty : ScalarType) (q1 : Bool) (sa : SReg)
  | st (guard : Guard) (release : Bool) (scope : Scope) (w : Width) (v a : SReg)
  | copy (form : CopyForm) (ha hb : HReg) (nt : NtField)
  | gath (ha hb : HReg) (nt : NtField)
  | scat (ha hb : HReg) (nt : NtField)
  | feed (ha : HReg) (ch q : BitVec 3) (nt : NtField)
  | take (ha : HReg) (ch q : BitVec 3) (nt : NtField)
  | xin (row : Bool) (ha : HReg) (sa : SReg) (nt : NtField)
  | xout (row : Bool) (ha : HReg) (sa : SReg) (nt : NtField)
  | seqt (ha : HReg) (sa : SReg) (nt : NtField)
  -- G engine (R50)
  | gcfg (ha : HReg) (nt : NtField)
  | gswap (nt : NtField)
  | gswapat (sa : SReg) (nt : NtField)
  | grun (sa : SReg) (nt : NtField)
  | ghalt (nt : NtField)
  | gfill (sa : SReg) (nt : NtField)
  | gset (outmask : Bool) (sa : SReg) (nt : NtField)
  | glink (south part : Bool) (nt : NtField)
  | gstat (sa : SReg) (nt : NtField)
  -- M engine (R51)
  | lease (ha : HReg) (nt : NtField)
  | free (nt : NtField)
  | shelf (ha : HReg) (nt : NtField)
  | mmaStream (ha hb : HReg) (sa : SReg) (nt : NtField)
  | mmaShelf (ha : HReg) (sa : SReg) (nt : NtField)
  | norm (nt : NtField)
  | accz (nt : NtField)
  | accsv (ha : HReg) (nt : NtField)
  | accld (ha : HReg) (nt : NtField)
  | drain (add : Bool) (ha : HReg) (nt : NtField)
  -- L engine (R52)
  | send (port : BitVec 3) (cls : MsgClass) (ha : HReg) (sa : SReg) (nt : NtField)
  | sendred (port : BitVec 3) (op : Reduction) (unordered : Bool) (ha : HReg) (sa : SReg) (nt : NtField)
  | pull (port : BitVec 3) (cls : MsgClass) (ha : HReg) (sa : SReg) (nt : NtField)
  | cal (port : BitVec 3) (sa : SReg)
  | lprog (port : BitVec 3) (ha : HReg) (nt : NtField)
  | lstart (port : BitVec 3) (sa : SReg) (nt : NtField)
  | lphase (wait : Bool) (sa : SReg)
  | lmark (port : BitVec 3)
  | lhold (port : BitVec 3) (release : Bool)
  | lshed (port : BitVec 3) (sa : SReg)
  | lgate (port : BitVec 3) (sa : SReg)
  | lwake (port : BitVec 3) (sa : SReg)
  | lidle (port : BitVec 3) (sa : SReg)
  -- Y engine (R53)
  | aadd (guard : Guard) (ord : AtomicOrd) (scope : Scope) (wide : Bool) (v a : SReg)
  | amin (guard : Guard) (ord : AtomicOrd) (scope : Scope) (wide natural : Bool) (v a : SReg)
  | amax (guard : Guard) (ord : AtomicOrd) (scope : Scope) (wide natural : Bool) (v a : SReg)
  | axchg (guard : Guard) (ord : AtomicOrd) (scope : Scope) (wide : Bool) (v a : SReg)
  | acas (guard : Guard) (ord : AtomicOrd) (scope : Scope) (wide : Bool) (v a : SReg)
  | fence (kind : FenceKind) (scope : Scope)
  | phreg (role : PhaserRole) (a : SReg)
  | phdrop (a : SReg)
  | phsig (a : SReg)
  | phwait (a b : SReg)
  | pharr (a : SReg)
  | phbyt (a b : SReg)
  | rninit (a b : SReg)
  | rnclm (d a : SReg)
  | rnpub (a b : SReg)
  | rntake (d a : SReg)
  | rnret (a b : SReg)
  | rnwaitf (a : SReg)
  | rnwaite (a : SReg)
  -- X engine (R54)
  | trap (code : BitVec 11)
  | eret
  | halt
  | yield
  | sprd (x y : SReg) (code : BitVec 11)
  | spwr (x y : SReg) (code : BitVec 11)
  | tlbi (range : TlbiRange) (x : SReg)
  | icinv (all : Bool) (x : SReg)
  | heatr (sel : HeatSel) (x : SReg)
  | bkpt (code : BitVec 11)
  -- link-program steps (R224)
  | linkEnd
  | linkSend (cls : MsgClass) (src dst : BitVec 4) (srcOff dstOff : BitVec 2)
  | linkWait (slot : BitVec 8) (off : BitVec 20)
  | linkWake (mask : BitVec 16)
  | linkGate (mask : BitVec 16)
  | setk (k : BitVec 2) (value : BitVec 16)
  | linkLoop (k : BitVec 2) (target : BitVec 8)
  | seta (a : BitVec 2) (value : BitVec 24)
  | adda (a : BitVec 2) (value : BitVec 24)
  | parm (a : BitVec 2)
  -- events of a core and its engines
  | illegalWord (w : Word32)
  | icacheLineFill (c : CoreId)
  | engineIssue (c : CoreId) (e : Engine)
  | retirement (c : CoreId) (e : Engine) (number : Nat)
  | heldWordPasses (c : CoreId)
  | outboundQueueStore (c : CoreId) (q1 : Bool)
  | asyncTrapTaken (c : CoreId)
  | preemption (c : CoreId)
  | imageSaveEnd (c : CoreId)
  | taskResume (c : CoreId)
  -- events of launch and scheduling
  | taskDispatch
  | workQueueTailLoss (queue : Fin 32768) (tail : Word32)
  | graphAdmission (queue : Fin 32768)
  | completionRecordWrite (graph : Nat)
  | quotaPeriodStart (graph : Nat)
  -- events of the meter, the grid and the array
  | meterWindowStart
  | meterCycle
  | channelWordMove (c : CoreId)
  | gridPass (c : CoreId)
  | xinLanding (c : CoreId)
  | xoutRead (c : CoreId)
  | gcfgLoadEnd (c : CoreId)
  | boardSwap (c : CoreId)
  | boardDrained (c : CoreId)
  | spineEdgeJoin (c : CoreId)
  | spineEdgePart (c : CoreId)
  | arrayArbitration (d : DieId)
  | leaseTermEnd (d : DieId)
  | spillSaveEnd (d : DieId)
  | spillRestoreEnd (d : DieId)
  -- events of the fabric
  | slotBoundary
  | guardControlExchange (p : PortId) (msg : CtlMsg)
  | rackShareApply
  | messageAdmission (p : PortId)
  | messageLanding (p : PortId) (what : Landing)
  | linkProgramStart (p : PortId)
  | calendarSwitch
  | relockWindow
  | newEpoch
  | retrainStart (p : PortId)
  | retrainEnd (p : PortId)
  | messageBoundary (p : PortId)
  | groupWakeEnd (p : PortId) (mask : BitVec 16)
  -- events of optics and power
  | monitorIntervalEnd
  | orngWrite (n : Fin 1152) (value : Word)
  | droop (k : Fin 16)
  | droopInjectionStop (k : Fin 16) (recovered : Bool)
  | warmBudgetWindowEnd
  -- events of the owner window
  | oclaim (m : Master)
  | ohand (m : Master) (value : Word)
  | handoverTimeout
  | ptbrWrite (m : Master) (value : Word)
  | hbudgetWrite (m : Master) (value : Word)
  | bswitch (m : Master) (value : Word)
  | ostop (m : Master) (value : Word)
  | opre (m : Master) (value : Word)
  | rtset (m : Master) (value : Word)
  | ownerRegisterWrite (m : Master) (offset : BitVec 14) (value : Word)
  | ago (m : Master)
  | attestationDone
  | fwgo (m : Master) (value : Word)
  -- alarms, errors, host memory, bring-up
  | alarm (cause : AlarmCause)
  | eccError (correctable : Bool) (site : ErrorSite)
  | flitError (correctable : Bool) (site : ErrorSite)
  | cxlLinkError
  | crossingParityError (c : CoreId)
  | hostMemoryAccess (access : HostAccess)
  | powerOn
  | moduleReset
  | coldReady
  | coldExcursion (d : DieId)
  | idleGapEnd (p : PortId)
  deriving DecidableEq, Repr

end Sys2Proof
end

