-- ==== Sys2Proof/WellFormed.lean ====
section
/-! DEFINITION. Which terms of `Instr` are words the device accepts: the types an instruction accepts (R48), and the
register constraints of R34, R36 and R40. Reserved codes cannot be written as terms at all. -/

namespace Sys2Proof

/-- The accepted type is signed (R48, column Types: i). -/
def ScalarType.isSigned (ty : ScalarType) : Bool := !ty.natural

/-- The two widths an atomic accepts are the constructor's Boolean; its v must not be queue-mapped (R40). -/
def plainDest (r : SReg) : Bool := decide (r.toNat < 60)

/-- h(b+1) is used, so hb must be even (R36). -/
def evenHandle (h : HReg) : Bool := h.toNat % 2 == 0

/-- The v of ACAS is even and at most 58 (R34). -/
def casPair (v : SReg) : Bool := decide (v.toNat % 2 = 0 ∧ v.toNat ≤ 58)

/-- A word the device does not trap as illegal (R40). Link steps and events are always well formed. -/
def Instr.wf : Instr → Bool
  | .mulh ty _ _ _ | .div ty _ _ _ | .rem ty _ _ _ | .sha ty _ _ _ | .min ty _ _ _ | .max ty _ _ _ => ty.isSigned
  | .mulhn ty _ _ _ | .divn ty _ _ _ | .remn ty _ _ _ | .shr ty _ _ _ | .minn ty _ _ _ | .maxn ty _ _ _ => ty.natural
  | .clz ty _ _ | .popc ty _ _ => ty.natural
  | .loop c _ => plainDest c
  | .copy form _ hb _ => form != .s24 || evenHandle hb
  | .gath _ hb _ | .scat _ hb _ => evenHandle hb
  | .gstat sa _ => plainDest sa
  | .cal _ sa => plainDest sa
  | .lphase _ sa => plainDest sa
  | .aadd _ _ _ _ v _ | .axchg _ _ _ _ v _ => plainDest v
  | .amin _ _ _ _ _ v _ | .amax _ _ _ _ _ v _ => plainDest v
  | .acas _ _ _ _ v _ => casPair v
  | .rnclm d _ | .rntake d _ => plainDest d
  | _ => true

end Sys2Proof
end

