-- ==== Sys2Proof/Decode.lean ====
section
/-! DEFINITION. From words to instructions and back. `decode` is total on 32-bit words and rejects by name (R40);
`decodeLink` reads a step of a link program (R224). `encode` is written from the same tables (R28 to R39, R48 to
R54), with every RES bit zero, as ozas writes it. -/

namespace Sys2Proof

/-! ## Fields -/

/-- Why a word is no instruction (R40), or a step is no step (R224, R225). -/
inductive Illegal where
  | noEngine
  | noOpcode
  | reservedCode
  | typeNotAccepted
  | registerConstraint
  | reservedStep
  | nonZeroReserved
  deriving DecidableEq, Repr

/-- Bits [31:29]. -/
def engOf (w : Word32) : BitVec 3 := w.extractLsb' 29 3
/-- Bits [28:23]. -/
def opOf (w : Word32) : BitVec 6 := w.extractLsb' 23 6
/-- The first register field of RRR, RI, literal, branch-count and system: [22:17]. -/
def fieldD (w : Word32) : BitVec 6 := w.extractLsb' 17 6
/-- The second register field of RRR, RI and system: [16:11]. -/
def fieldA (w : Word32) : BitVec 6 := w.extractLsb' 11 6
/-- The third register field of RRR: [10:5]. -/
def fieldB (w : Word32) : BitVec 6 := w.extractLsb' 5 6
/-- The type or kind code of RRR: [4:2]. -/
def fieldTy (w : Word32) : BitVec 3 := w.extractLsb' 2 3
/-- The 12-bit immediate of RI: word[23] and [10:0] (R29). -/
def fieldImm (w : Word32) : BitVec 12 := w.extractLsb' 23 1 ++ w.extractLsb' 0 11
/-- The guard at [22:19] (R33). -/
def fieldGuard (w : Word32) : Guard := { pred := w.extractLsb' 20 3, invert := w.getLsbD 19 }
/-- The guarded format's v: [18:13]. -/
def fieldV (w : Word32) : BitVec 6 := w.extractLsb' 13 6
/-- The guarded format's a: [12:7], which is also sa of the grid-word and link formats. -/
def fieldGA (w : Word32) : BitVec 6 := w.extractLsb' 7 6
/-- ha at [22:19] of engine commands and grid words, hd of the handle format. -/
def fieldHa (w : Word32) : HReg := w.extractLsb' 19 4
/-- hb at [18:15] of engine commands, ha of the handle format. -/
def fieldHb (w : Word32) : HReg := w.extractLsb' 15 4
/-- c at [14:12] of engine commands. -/
def fieldC (w : Word32) : BitVec 3 := w.extractLsb' 12 3
/-- m at [11:9] of engine commands. -/
def fieldM (w : Word32) : BitVec 3 := w.extractLsb' 9 3
/-- sa at [8:3] of engine commands, sb of the handle format. -/
def fieldCSa (w : Word32) : SReg := w.extractLsb' 3 6
/-- nt at [2:0] of engine commands, f of the handle format. -/
def fieldNt (w : Word32) : BitVec 3 := w.extractLsb' 0 3
/-- sa at [14:9] of the handle format. -/
def fieldHSa (w : Word32) : SReg := w.extractLsb' 9 6
/-- nt at [6:4] of the grid-word and link formats. -/
def fieldGNt (w : Word32) : NtField := w.extractLsb' 4 3
/-- c at [18:16] of the grid-word format. -/
def fieldGC (w : Word32) : BitVec 3 := w.extractLsb' 16 3
/-- m at [15:13] of the grid-word format. -/
def fieldGM (w : Word32) : BitVec 3 := w.extractLsb' 13 3
/-- port at [22:20] of the link format. -/
def fieldPort (w : Word32) : BitVec 3 := w.extractLsb' 20 3
/-- m at [19:17] of the link format. -/
def fieldLM (w : Word32) : BitVec 3 := w.extractLsb' 17 3
/-- ha at [16:13] of the link format. -/
def fieldLHa (w : Word32) : HReg := w.extractLsb' 13 4
/-- code of the system format: [10:0]. -/
def fieldCode (w : Word32) : BitVec 11 := w.extractLsb' 0 11

/-! ## Codes -/

/-- Width codes (R27, R34). -/
def Width.ofBits (b : BitVec 2) : Width :=
  match b with | 0#2 => .b8 | 1#2 => .b16 | 2#2 => .b32 | _ => .b64
def Width.toBits : Width → BitVec 2
  | .b8 => 0 | .b16 => 1 | .b32 => 2 | .b64 => 3
/-- Type codes (R27). -/
def ScalarType.ofBits (b : BitVec 3) : ScalarType :=
  { natural := b.getLsbD 2, width := Width.ofBits (b.extractLsb' 0 2) }
def ScalarType.toBits (ty : ScalarType) : BitVec 3 := BitVec.ofBool ty.natural ++ ty.width.toBits
/-- Condition codes (R30). -/
def Cond.ofBits (b : BitVec 3) : Option Cond :=
  match b with
  | 0#3 => some .eq | 1#3 => some .ne | 2#3 => some .lt | 3#3 => some .ge | 4#3 => some .le | 5#3 => some .gt
  | _ => none
def Cond.toBits : Cond → BitVec 3
  | .eq => 0 | .ne => 1 | .lt => 2 | .ge => 3 | .le => 4 | .gt => 5
def Guard.toBits (g : Guard) : BitVec 4 := g.pred ++ BitVec.ofBool g.invert
/-- Literal sizes (R32). -/
def LitSize.ofBits (b : BitVec 2) : Option LitSize :=
  match b with | 0#2 => some .i32 | 1#2 => some .n32 | 2#2 => some .w64 | _ => none
def LitSize.toBits : LitSize → BitVec 2
  | .i32 => 0 | .n32 => 1 | .w64 => 2
/-- Counter selectors (R28). -/
def Engine.ofBits (b : BitVec 3) : Option Engine :=
  match b with | 0#3 => some .a | 1#3 => some .g | 2#3 => some .m | 3#3 => some .l | 4#3 => some .y | _ => none
def Engine.toBits : Engine → BitVec 3
  | .a => 0 | .g => 1 | .m => 2 | .l => 3 | .y => 4
/-- RDV masks at code[5:1], bit k for the engine whose eng code is k (R19, R39). -/
def EngineMask.ofCode (c : BitVec 11) : EngineMask :=
  { a := c.getLsbD 1, g := c.getLsbD 2, m := c.getLsbD 3, l := c.getLsbD 4, y := c.getLsbD 5 }
def EngineMask.toCode (k : EngineMask) : BitVec 11 :=
  0#5 ++ BitVec.ofBool k.y ++ BitVec.ofBool k.l ++ BitVec.ofBool k.m ++ BitVec.ofBool k.g ++ BitVec.ofBool k.a ++ 0#1
/-- Handle field selectors (R35). -/
def HField.ofBits (b : BitVec 3) : Option HField :=
  match b with
  | 0#3 => some .base | 1#3 => some .fmt | 2#3 => some .flags | 3#3 => some .dims | 4#3 => some .st1
  | 5#3 => some .st2 | 6#3 => some .st3 | _ => none
def HField.toBits : HField → BitVec 3
  | .base => 0 | .fmt => 1 | .flags => 2 | .dims => 3 | .st1 => 4 | .st2 => 5 | .st3 => 6
/-- Scopes (R34). -/
def Scope.ofBits (b : BitVec 2) : Scope :=
  match b with | 0#2 => .core | 1#2 => .die | 2#2 => .module | _ => .pod
def Scope.toBits : Scope → BitVec 2
  | .core => 0 | .die => 1 | .module => 2 | .pod => 3
/-- Orders of an atomic (R34). -/
def AtomicOrd.ofBits (b : BitVec 2) : AtomicOrd :=
  match b with | 0#2 => .relaxed | 1#2 => .acquire | 2#2 => .release | _ => .acqrel
def AtomicOrd.toBits : AtomicOrd → BitVec 2
  | .relaxed => 0 | .acquire => 1 | .release => 2 | .acqrel => 3
/-- Forms of COPY (R49). -/
def CopyForm.ofBits (b : BitVec 3) : Option CopyForm :=
  match b with
  | 0#3 => some .plain | 1#3 => some .redAdd | 2#3 => some .redMin | 3#3 => some .redMax | 4#3 => some .s24
  | _ => none
def CopyForm.toBits : CopyForm → BitVec 3
  | .plain => 0 | .redAdd => 1 | .redMin => 2 | .redMax => 3 | .s24 => 4
/-- Message classes (R38, R224). -/
def MsgClass.ofBits (b : BitVec 3) : Option MsgClass :=
  match b with | 0#3 => some .d | 1#3 => some .v | 2#3 => some .f | _ => none
def MsgClass.toBits : MsgClass → BitVec 3
  | .d => 0 | .v => 1 | .f => 2
/-- Reductions of SENDRED (R38). -/
def Reduction.ofBits (b : BitVec 2) : Option Reduction :=
  match b with | 0#2 => some .add | 1#2 => some .min | 2#2 => some .max | _ => none
def Reduction.toBits : Reduction → BitVec 2
  | .add => 0 | .min => 1 | .max => 2
/-- Kinds of FENCE (R39). -/
def FenceKind.ofBits (b : BitVec 3) : Option FenceKind :=
  match b with | 0#3 => some .w | 1#3 => some .r | 2#3 => some .rw | 3#3 => some .sc | _ => none
def FenceKind.toBits : FenceKind → BitVec 3
  | .w => 0 | .r => 1 | .rw => 2 | .sc => 3
/-- Roles of PHREG (R53). -/
def PhaserRole.ofBits (b : BitVec 3) : Option PhaserRole :=
  match b with | 0#3 => some .sig | 1#3 => some .wait | 2#3 => some .both | _ => none
def PhaserRole.toBits : PhaserRole → BitVec 3
  | .sig => 0 | .wait => 1 | .both => 2
/-- Ranges of TLBI (R39). -/
def TlbiRange.ofBits (b : BitVec 2) : Option TlbiRange :=
  match b with | 0#2 => some .page | 1#2 => some .kind | 2#2 => some .all | _ => none
def TlbiRange.toBits : TlbiRange → BitVec 2
  | .page => 0 | .kind => 1 | .all => 2
/-- Selectors of HEATR (R39). -/
def HeatSel.ofBits (b : BitVec 3) : Option HeatSel :=
  match b with | 0#3 => some .total | 1#3 => some .thr | 2#3 => some .fill | 3#3 => some .budget | _ => none
def HeatSel.toBits : HeatSel → BitVec 3
  | .total => 0 | .thr => 1 | .fill => 2 | .budget => 3
/-- A one-bit selector in a 3-bit field whose values 2 to 7 are reserved (R49 to R52). -/
def flag3 (b : BitVec 3) : Option Bool :=
  match b with | 0#3 => some false | 1#3 => some true | _ => none
def flag3Bits (b : Bool) : BitVec 3 := if b then 1 else 0

/-! ## Decode -/

/-- A reserved code traps (R40). -/
def orReserved (o : Option Instr) : Except Illegal Instr :=
  match o with
  | some i => .ok i
  | none => .error .reservedCode

/-- The word of a signed-only operation. -/
def signedOnly (ty : ScalarType) (i : Instr) : Except Illegal Instr :=
  if ty.natural then .error .typeNotAccepted else .ok i
/-- The word of a natural-only operation. -/
def naturalOnly (ty : ScalarType) (i : Instr) : Except Illegal Instr :=
  if ty.natural then .ok i else .error .typeNotAccepted
/-- A word with a register constraint (R40). -/
def constrained (ok : Bool) (i : Instr) : Except Illegal Instr :=
  if ok then .ok i else .error .registerConstraint

/-- The S engine (R48). -/
def decodeS (w : Word32) : Except Illegal Instr :=
  let ty := ScalarType.ofBits (fieldTy w)
  let d := fieldD w
  let a := fieldA w
  let b := fieldB w
  match opOf w with
  | 0x01#6 => .ok .nop
  | 0x02#6 => .ok (.add ty d a b)
  | 0x03#6 => .ok (.sub ty d a b)
  | 0x04#6 => .ok (.mul ty d a b)
  | 0x05#6 => signedOnly ty (.mulh ty d a b)
  | 0x06#6 => naturalOnly ty (.mulhn ty d a b)
  | 0x07#6 => signedOnly ty (.div ty d a b)
  | 0x08#6 => naturalOnly ty (.divn ty d a b)
  | 0x09#6 => signedOnly ty (.rem ty d a b)
  | 0x0a#6 => naturalOnly ty (.remn ty d a b)
  | 0x0b#6 => .ok (.and ty d a b)
  | 0x0c#6 => .ok (.or ty d a b)
  | 0x0d#6 => .ok (.xor ty d a b)
  | 0x0e#6 => .ok (.shl ty d a b)
  | 0x0f#6 => naturalOnly ty (.shr ty d a b)
  | 0x10#6 => signedOnly ty (.sha ty d a b)
  | 0x11#6 => naturalOnly ty (.clz ty d a)
  | 0x12#6 => naturalOnly ty (.popc ty d a)
  | 0x13#6 => signedOnly ty (.min ty d a b)
  | 0x14#6 => naturalOnly ty (.minn ty d a b)
  | 0x15#6 => signedOnly ty (.max ty d a b)
  | 0x16#6 => naturalOnly ty (.maxn ty d a b)
  | 0x17#6 => orReserved ((Cond.ofBits (w.extractLsb' 17 3)).map fun c => .cmp c ty (w.extractLsb' 20 3) a b)
  | 0x18#6 => .ok (.plog (w.extractLsb' 20 3) (w.extractLsb' 14 3) (w.extractLsb' 8 3) (w.extractLsb' 4 4))
  | 0x19#6 => .ok (.sel { pred := w.extractLsb' 2 3, invert := w.getLsbD 1 } d a b)
  | 0x1a#6 => .ok (.mov d a)
  | 0x1b#6 => orReserved ((LitSize.ofBits (w.extractLsb' 15 2)).map fun z => .lit z d (w.extractLsb' 0 15))
  | 0x1c#6 => .ok (.sts (fieldGuard w) (Width.ofBits (w.extractLsb' 5 2)) (fieldV w) (fieldGA w) (w.extractLsb' 0 5))
  | 0x1d#6 => .ok (.b (fieldGuard w) (w.extractLsb' 0 19))
  | 0x1e#6 => .ok (.call (fieldGuard w) (w.extractLsb' 0 19))
  | 0x1f#6 => .ok (.ret (fieldGuard w))
  | 0x20#6 => .ok (.jr (fieldGuard w) (fieldV w))
  | 0x21#6 => constrained (plainDest d) (.loop d (w.extractLsb' 0 17))
  | 0x22#6 => orReserved ((Engine.ofBits (fieldTy w)).map fun c => .waitc c a)
  | 0x23#6 => .ok (.rdv (EngineMask.ofCode (fieldCode w)))
  | 0x24#6 => .ok (.fmt a)
  | 0x25#6 => orReserved ((HField.ofBits (fieldNt w)).map fun f => .hset f (fieldHa w) (fieldHSa w))
  | 0x26#6 => orReserved ((HField.ofBits (fieldNt w)).map fun f => .hget f (fieldHSa w) (fieldHb w))
  | 0x27#6 => .ok (.hmov (fieldHa w) (fieldHb w))
  | 0x28#6 => .ok (.hoff (fieldHa w) (fieldHb w) (fieldHSa w))
  | 0x29#6 =>
    if w.getLsbD 2 then .error .reservedCode
    else .ok (.hslice (w.extractLsb' 0 2) (fieldHa w) (fieldHb w) (fieldHSa w) (fieldCSa w))
  | 0x2a#6 | 0x2b#6 => .ok (.addi d a (fieldImm w))
  | 0x2c#6 | 0x2d#6 => .ok (.andi d a (fieldImm w))
  | 0x2e#6 | 0x2f#6 => .ok (.ori d a (fieldImm w))
  | 0x30#6 | 0x31#6 => .ok (.xori d a (fieldImm w))
  | 0x32#6 | 0x33#6 => .ok (.shli d a (w.extractLsb' 0 6))
  | 0x34#6 | 0x35#6 => .ok (.shri d a (w.extractLsb' 0 6))
  | 0x36#6 | 0x37#6 => .ok (.shai d a (w.extractLsb' 0 6))
  | 0x38#6 | 0x39#6 =>
    orReserved ((Cond.ofBits (w.extractLsb' 17 3)).map fun c => .cmpi c (w.extractLsb' 20 3) a (fieldImm w))
  | 0x3a#6 | 0x3b#6 => .ok (.movi d (fieldImm w))
  | 0x3c#6 | 0x3d#6 => .ok (.movhi d a (fieldImm w))
  | 0x3e#6 | 0x3f#6 =>
    .ok (.lds (ScalarType.ofBits (w.extractLsb' 23 1 ++ w.extractLsb' 9 2)) d a (w.extractLsb' 0 9))
  | _ => .error .noOpcode

/-- The A engine (R49). -/
def decodeA (w : Word32) : Except Illegal Instr :=
  let ha := fieldHa w
  let hb := fieldHb w
  let c := fieldC w
  let m := fieldM w
  let sa := fieldCSa w
  let nt := fieldNt w
  match opOf w with
  | 0x01#6 =>
    match w.extractLsb' 9 2 with
    | 0#2 => .ok (.ld false (Scope.ofBits (w.extractLsb' 15 2)) (ScalarType.ofBits c) (w.getLsbD 11) sa)
    | 1#2 => .ok (.ld true (Scope.ofBits (w.extractLsb' 15 2)) (ScalarType.ofBits c) (w.getLsbD 11) sa)
    | _ => .error .reservedCode
  | 0x02#6 =>
    match w.extractLsb' 3 2 with
    | 0#2 => .ok (.st (fieldGuard w) false (Scope.ofBits (w.extractLsb' 1 2)) (Width.ofBits (w.extractLsb' 5 2))
        (fieldV w) (fieldGA w))
    | 2#2 => .ok (.st (fieldGuard w) true (Scope.ofBits (w.extractLsb' 1 2)) (Width.ofBits (w.extractLsb' 5 2))
        (fieldV w) (fieldGA w))
    | _ => .error .reservedCode
  | 0x03#6 =>
    match CopyForm.ofBits m with
    | some .s24 => constrained (evenHandle hb) (.copy .s24 ha hb nt)
    | some f => .ok (.copy f ha hb nt)
    | none => .error .reservedCode
  | 0x04#6 => constrained (evenHandle hb) (.gath ha hb nt)
  | 0x05#6 => constrained (evenHandle hb) (.scat ha hb nt)
  | 0x06#6 => .ok (.feed ha c m nt)
  | 0x07#6 => .ok (.take ha c m nt)
  | 0x08#6 => orReserved ((flag3 m).map fun r => .xin r ha sa nt)
  | 0x09#6 => orReserved ((flag3 m).map fun r => .xout r ha sa nt)
  | 0x0a#6 => .ok (.seqt ha sa nt)
  | _ => .error .noOpcode

/-- The G engine (R50). -/
def decodeG (w : Word32) : Except Illegal Instr :=
  let sa := fieldGA w
  let nt := fieldGNt w
  match opOf w with
  | 0x01#6 => .ok (.gcfg (fieldHa w) nt)
  | 0x02#6 => .ok (.gswap nt)
  | 0x03#6 => .ok (.gswapat sa nt)
  | 0x04#6 => .ok (.grun sa nt)
  | 0x05#6 => .ok (.ghalt nt)
  | 0x06#6 => .ok (.gfill sa nt)
  | 0x07#6 => orReserved ((flag3 (fieldGM w)).map fun r => .gset r sa nt)
  | 0x08#6 =>
    orReserved (match flag3 (fieldGC w), flag3 (fieldGM w) with
      | some e, some p => some (.glink e p nt)
      | _, _ => none)
  | 0x09#6 => constrained (plainDest sa) (.gstat sa nt)
  | _ => .error .noOpcode

/-- The M engine (R51). -/
def decodeM (w : Word32) : Except Illegal Instr :=
  let ha := fieldHa w
  let nt := fieldNt w
  match opOf w with
  | 0x01#6 => .ok (.lease ha nt)
  | 0x02#6 => .ok (.free nt)
  | 0x03#6 => .ok (.shelf ha nt)
  | 0x04#6 =>
    if w.getLsbD 9 then .ok (.mmaShelf ha (fieldCSa w) nt) else .ok (.mmaStream ha (fieldHb w) (fieldCSa w) nt)
  | 0x05#6 => .ok (.norm nt)
  | 0x06#6 => .ok (.accz nt)
  | 0x07#6 => .ok (.accsv ha nt)
  | 0x08#6 => .ok (.accld ha nt)
  | 0x09#6 => orReserved ((flag3 (fieldM w)).map fun r => .drain r ha nt)
  | _ => .error .noOpcode

/-- The L engine (R52). -/
def decodeL (w : Word32) : Except Illegal Instr :=
  let port := fieldPort w
  let m := fieldLM w
  let ha := fieldLHa w
  let sa := fieldGA w
  let nt := fieldGNt w
  match opOf w with
  | 0x01#6 => orReserved ((MsgClass.ofBits m).map fun c => .send port c ha sa nt)
  | 0x02#6 =>
    orReserved ((Reduction.ofBits (m.extractLsb' 0 2)).map fun r => .sendred port r (m.getLsbD 2) ha sa nt)
  | 0x03#6 => orReserved ((MsgClass.ofBits m).map fun c => .pull port c ha sa nt)
  | 0x04#6 => constrained (plainDest sa) (.cal port sa)
  | 0x05#6 => .ok (.lprog port ha nt)
  | 0x06#6 => .ok (.lstart port sa nt)
  | 0x07#6 =>
    match flag3 m with
    | some x => constrained (plainDest sa) (.lphase x sa)
    | none => .error .reservedCode
  | 0x08#6 => .ok (.lmark port)
  | 0x09#6 => orReserved ((flag3 m).map fun x => .lhold port x)
  | 0x0a#6 => .ok (.lshed port sa)
  | 0x0b#6 => .ok (.lgate port sa)
  | 0x0c#6 => .ok (.lwake port sa)
  | 0x0d#6 => .ok (.lidle port sa)
  | _ => .error .noOpcode

/-- The order, scope and width fields of an atomic: w must be 2 or 3 (R34). -/
def decodeAtomic (w : Word32) (ok : Bool) (mk : Guard → AtomicOrd → Scope → Bool → SReg → SReg → Instr) :
    Except Illegal Instr :=
  if w.getLsbD 6 then
    constrained ok (mk (fieldGuard w) (AtomicOrd.ofBits (w.extractLsb' 3 2)) (Scope.ofBits (w.extractLsb' 1 2))
      (w.getLsbD 5) (fieldV w) (fieldGA w))
  else .error .reservedCode

/-- The Y engine (R53). -/
def decodeY (w : Word32) : Except Illegal Instr :=
  let a := fieldA w
  let b := fieldB w
  let s := w.getLsbD 0
  match opOf w with
  | 0x01#6 => decodeAtomic w (plainDest (fieldV w)) .aadd
  | 0x02#6 => decodeAtomic w (plainDest (fieldV w)) fun g o c x v a => .amin g o c x s v a
  | 0x03#6 => decodeAtomic w (plainDest (fieldV w)) fun g o c x v a => .amax g o c x s v a
  | 0x04#6 => decodeAtomic w (plainDest (fieldV w)) .axchg
  | 0x05#6 => decodeAtomic w (casPair (fieldV w)) .acas
  | 0x06#6 => orReserved ((FenceKind.ofBits (w.extractLsb' 0 3)).map fun k => .fence k (Scope.ofBits (w.extractLsb' 3 2)))
  | 0x07#6 => orReserved ((PhaserRole.ofBits (fieldTy w)).map fun r => .phreg r a)
  | 0x08#6 => .ok (.phdrop a)
  | 0x09#6 => .ok (.phsig a)
  | 0x0a#6 => .ok (.phwait a b)
  | 0x0b#6 => .ok (.pharr a)
  | 0x0c#6 => .ok (.phbyt a b)
  | 0x0d#6 => .ok (.rninit a b)
  | 0x0e#6 => constrained (plainDest (fieldD w)) (.rnclm (fieldD w) a)
  | 0x0f#6 => .ok (.rnpub a b)
  | 0x10#6 => constrained (plainDest (fieldD w)) (.rntake (fieldD w) a)
  | 0x11#6 => .ok (.rnret a b)
  | 0x12#6 => .ok (.rnwaitf a)
  | 0x13#6 => .ok (.rnwaite a)
  | _ => .error .noOpcode

/-- The X engine (R54). -/
def decodeX (w : Word32) : Except Illegal Instr :=
  let x := fieldD w
  let code := fieldCode w
  match opOf w with
  | 0x01#6 => .ok (.trap code)
  | 0x02#6 => .ok .eret
  | 0x03#6 => .ok .halt
  | 0x04#6 => .ok .yield
  | 0x05#6 => .ok (.sprd x (fieldA w) code)
  | 0x06#6 => .ok (.spwr x (fieldA w) code)
  | 0x07#6 => orReserved ((TlbiRange.ofBits (w.extractLsb' 0 2)).map fun r => .tlbi r x)
  | 0x08#6 => .ok (.icinv (w.getLsbD 0) x)
  | 0x09#6 => orReserved ((HeatSel.ofBits (w.extractLsb' 0 3)).map fun h => .heatr h x)
  | 0x0a#6 => .ok (.bkpt code)
  | _ => .error .noOpcode

/-- A word of a program, or the reason it traps as illegal (R19, R40). -/
def decode (w : Word32) : Except Illegal Instr :=
  match engOf w with
  | 0#3 => decodeS w
  | 1#3 => decodeA w
  | 2#3 => decodeG w
  | 3#3 => decodeM w
  | 4#3 => decodeL w
  | 5#3 => decodeY w
  | 6#3 => decodeX w
  | _ => .error .noEngine

/-- A step whose RES field must be zero (R225). -/
def stepIf (ok : Bool) (i : Instr) : Except Illegal Instr :=
  if ok then .ok i else .error .nonZeroReserved

/-- A step word of a link program (R224). A reserved step or class and a non-zero RES field reject the image (R225). -/
def decodeLink (w : Word32) : Except Illegal Instr :=
  match w.extractLsb' 28 4 with
  | 0x0#4 => stepIf (w.extractLsb' 0 28 == 0) .linkEnd
  | 0x1#4 =>
    match MsgClass.ofBits (0#1 ++ w.extractLsb' 26 2) with
    | some c =>
      stepIf (w.extractLsb' 0 14 == 0)
        (.linkSend c (w.extractLsb' 22 4) (w.extractLsb' 18 4) (w.extractLsb' 16 2) (w.extractLsb' 14 2))
    | none => .error .reservedCode
  | 0x2#4 => .ok (.linkWait (w.extractLsb' 20 8) (w.extractLsb' 0 20))
  | 0x3#4 => stepIf (w.extractLsb' 16 12 == 0) (.linkWake (w.extractLsb' 0 16))
  | 0x4#4 => stepIf (w.extractLsb' 16 12 == 0) (.linkGate (w.extractLsb' 0 16))
  | 0x5#4 => stepIf (w.extractLsb' 16 10 == 0) (.setk (w.extractLsb' 26 2) (w.extractLsb' 0 16))
  | 0x6#4 => stepIf (w.extractLsb' 8 18 == 0) (.linkLoop (w.extractLsb' 26 2) (w.extractLsb' 0 8))
  | 0x7#4 => stepIf (w.extractLsb' 24 2 == 0) (.seta (w.extractLsb' 26 2) (w.extractLsb' 0 24))
  | 0x8#4 => stepIf (w.extractLsb' 24 2 == 0) (.adda (w.extractLsb' 26 2) (w.extractLsb' 0 24))
  | 0x9#4 => stepIf (w.extractLsb' 0 26 == 0) (.parm (w.extractLsb' 26 2))
  | _ => .error .reservedStep

/-- The instruction a word of the opcode table stands for: a Hjelurn word where it is one, else a link step. Both kinds share the
32-bit codes, and what tells them apart is where they lie (R18, R224; DEDUCED, log 24). -/
def decodeTableWord (nbits w : Nat) : Option Instr :=
  if nbits ≤ 32 then
    let word := BitVec.ofNat 32 (w % 2 ^ nbits)
    match decode word with
    | .ok i => some i
    | .error _ => (decodeLink word).toOption
  else none

/-! ## Encode -/

/-- RRR (R28). -/
def encRRR (eng : BitVec 3) (op d a b : BitVec 6) (ty : BitVec 3) : Word32 := eng ++ op ++ d ++ a ++ b ++ ty ++ 0#2
/-- RI (R29): the pair's even opcode, imm[11] in word[23]. -/
def encRI (op : BitVec 5) (d a : BitVec 6) (imm : BitVec 12) : Word32 :=
  0#3 ++ op ++ imm.extractLsb' 11 1 ++ d ++ a ++ imm.extractLsb' 0 11
/-- Guarded (R34). -/
def encGuarded (eng : BitVec 3) (op : BitVec 6) (g : Guard) (v a : BitVec 6) (w : BitVec 2) (aux : BitVec 5) : Word32 :=
  eng ++ op ++ g.toBits ++ v ++ a ++ w ++ aux
/-- Handle (R35). -/
def encHandle (op : BitVec 6) (hd ha : HReg) (sa sb : BitVec 6) (f : BitVec 3) : Word32 :=
  0#3 ++ op ++ hd ++ ha ++ sa ++ sb ++ f
/-- Engine command (R36). -/
def encCommand (eng : BitVec 3) (op : BitVec 6) (ha hb : HReg) (c m : BitVec 3) (sa : BitVec 6) (nt : BitVec 3) : Word32 :=
  eng ++ op ++ ha ++ hb ++ c ++ m ++ sa ++ nt
/-- Grid word (R37). -/
def encGrid (op : BitVec 6) (ha : HReg) (c m : BitVec 3) (sa : BitVec 6) (nt : BitVec 3) : Word32 :=
  2#3 ++ op ++ ha ++ c ++ m ++ sa ++ nt ++ 0#4
/-- Link (R38). -/
def encLink (op : BitVec 6) (port m : BitVec 3) (ha : HReg) (sa : BitVec 6) (nt : BitVec 3) : Word32 :=
  4#3 ++ op ++ port ++ m ++ ha ++ sa ++ nt ++ 0#4
/-- System (R39). -/
def encSystem (eng : BitVec 3) (op x y : BitVec 6) (code : BitVec 11) : Word32 := eng ++ op ++ x ++ y ++ code
/-- An atomic (R34). -/
def encAtomic (op : BitVec 6) (g : Guard) (o : AtomicOrd) (c : Scope) (wide : Bool) (v a : SReg) (s : Bool) : Word32 :=
  encGuarded 5 op g v a (1#1 ++ BitVec.ofBool wide) (o.toBits ++ c.toBits ++ BitVec.ofBool s)

/-- The word of a Hjelurn instruction or of a link step, RES bits zero; none for an event of the module. -/
def encode : Instr → Option Word32
  | .nop => some (encRRR 0 0x01 0 0 0 0)
  | .add ty d a b => some (encRRR 0 0x02 d a b ty.toBits)
  | .sub ty d a b => some (encRRR 0 0x03 d a b ty.toBits)
  | .mul ty d a b => some (encRRR 0 0x04 d a b ty.toBits)
  | .mulh ty d a b => some (encRRR 0 0x05 d a b ty.toBits)
  | .mulhn ty d a b => some (encRRR 0 0x06 d a b ty.toBits)
  | .div ty d a b => some (encRRR 0 0x07 d a b ty.toBits)
  | .divn ty d a b => some (encRRR 0 0x08 d a b ty.toBits)
  | .rem ty d a b => some (encRRR 0 0x09 d a b ty.toBits)
  | .remn ty d a b => some (encRRR 0 0x0a d a b ty.toBits)
  | .and ty d a b => some (encRRR 0 0x0b d a b ty.toBits)
  | .or ty d a b => some (encRRR 0 0x0c d a b ty.toBits)
  | .xor ty d a b => some (encRRR 0 0x0d d a b ty.toBits)
  | .shl ty d a b => some (encRRR 0 0x0e d a b ty.toBits)
  | .shr ty d a b => some (encRRR 0 0x0f d a b ty.toBits)
  | .sha ty d a b => some (encRRR 0 0x10 d a b ty.toBits)
  | .clz ty d a => some (encRRR 0 0x11 d a 0 ty.toBits)
  | .popc ty d a => some (encRRR 0 0x12 d a 0 ty.toBits)
  | .min ty d a b => some (encRRR 0 0x13 d a b ty.toBits)
  | .minn ty d a b => some (encRRR 0 0x14 d a b ty.toBits)
  | .max ty d a b => some (encRRR 0 0x15 d a b ty.toBits)
  | .maxn ty d a b => some (encRRR 0 0x16 d a b ty.toBits)
  | .cmp c ty pd a b => some (encRRR 0 0x17 (pd ++ c.toBits) a b ty.toBits)
  | .plog pd pa pb fn => some (0#3 ++ 0x18#6 ++ pd ++ 0#3 ++ pa ++ 0#3 ++ pb ++ fn ++ 0#4)
  | .sel g d a b => some (0#3 ++ 0x19#6 ++ d ++ a ++ b ++ g.pred ++ BitVec.ofBool g.invert ++ 0#1)
  | .mov d a => some (encRRR 0 0x1a d a 0 0)
  | .lit z d off => some (0#3 ++ 0x1b#6 ++ d ++ z.toBits ++ off)
  | .sts g w v a off => some (encGuarded 0 0x1c g v a w.toBits off)
  | .b g off => some (0#3 ++ 0x1d#6 ++ g.toBits ++ off)
  | .call g off => some (0#3 ++ 0x1e#6 ++ g.toBits ++ off)
  | .ret g => some (0#3 ++ 0x1f#6 ++ g.toBits ++ 0#19)
  | .jr g a => some (0#3 ++ 0x20#6 ++ g.toBits ++ a ++ 0#13)
  | .loop c off => some (0#3 ++ 0x21#6 ++ c ++ off)
  | .waitc c a => some (encRRR 0 0x22 0 a 0 c.toBits)
  | .rdv k => some (encSystem 0 0x23 0 0 k.toCode)
  | .fmt a => some (encRRR 0 0x24 0 a 0 0)
  | .hset f hd sa => some (encHandle 0x25 hd 0 sa 0 f.toBits)
  | .hget f sa ha => some (encHandle 0x26 0 ha sa 0 f.toBits)
  | .hmov hd ha => some (encHandle 0x27 hd ha 0 0 0)
  | .hoff hd ha sa => some (encHandle 0x28 hd ha sa 0 0)
  | .hslice k hd ha sa sb => some (encHandle 0x29 hd ha sa sb (0#1 ++ k))
  | .addi d a imm => some (encRI 0x15 d a imm)
  | .andi d a imm => some (encRI 0x16 d a imm)
  | .ori d a imm => some (encRI 0x17 d a imm)
  | .xori d a imm => some (encRI 0x18 d a imm)
  | .shli d a n => some (encRI 0x19 d a (0#6 ++ n))
  | .shri d a n => some (encRI 0x1a d a (0#6 ++ n))
  | .shai d a n => some (encRI 0x1b d a (0#6 ++ n))
  | .cmpi c pd a imm => some (encRI 0x1c (pd ++ c.toBits) a imm)
  | .movi d imm => some (encRI 0x1d d 0 imm)
  | .movhi d a imm => some (encRI 0x1e d a imm)
  | .lds ty d a off => some (encRI 0x1f d a (ty.toBits ++ off))
  | .ld acq sc ty q1 sa =>
    some (encCommand 1 0x01 0 (0#2 ++ sc.toBits) ty.toBits (BitVec.ofBool q1 ++ 0#1 ++ BitVec.ofBool acq) sa 0)
  | .st g rel sc w v a =>
    some (encGuarded 1 0x02 g v a w.toBits (BitVec.ofBool rel ++ 0#1 ++ sc.toBits ++ 0#1))
  | .copy f ha hb nt => some (encCommand 1 0x03 ha hb 0 f.toBits 0 nt)
  | .gath ha hb nt => some (encCommand 1 0x04 ha hb 0 0 0 nt)
  | .scat ha hb nt => some (encCommand 1 0x05 ha hb 0 0 0 nt)
  | .feed ha ch q nt => some (encCommand 1 0x06 ha 0 ch q 0 nt)
  | .take ha ch q nt => some (encCommand 1 0x07 ha 0 ch q 0 nt)
  | .xin r ha sa nt => some (encCommand 1 0x08 ha 0 0 (flag3Bits r) sa nt)
  | .xout r ha sa nt => some (encCommand 1 0x09 ha 0 0 (flag3Bits r) sa nt)
  | .seqt ha sa nt => some (encCommand 1 0x0a ha 0 0 0 sa nt)
  | .gcfg ha nt => some (encGrid 0x01 ha 0 0 0 nt)
  | .gswap nt => some (encGrid 0x02 0 0 0 0 nt)
  | .gswapat sa nt => some (encGrid 0x03 0 0 0 sa nt)
  | .grun sa nt => some (encGrid 0x04 0 0 0 sa nt)
  | .ghalt nt => some (encGrid 0x05 0 0 0 0 nt)
  | .gfill sa nt => some (encGrid 0x06 0 0 0 sa nt)
  | .gset r sa nt => some (encGrid 0x07 0 0 (flag3Bits r) sa nt)
  | .glink e p nt => some (encGrid 0x08 0 (flag3Bits e) (flag3Bits p) 0 nt)
  | .gstat sa nt => some (encGrid 0x09 0 0 0 sa nt)
  | .lease ha nt => some (encCommand 3 0x01 ha 0 0 0 0 nt)
  | .free nt => some (encCommand 3 0x02 0 0 0 0 0 nt)
  | .shelf ha nt => some (encCommand 3 0x03 ha 0 0 0 0 nt)
  | .mmaStream ha hb sa nt => some (encCommand 3 0x04 ha hb 0 0 sa nt)
  | .mmaShelf ha sa nt => some (encCommand 3 0x04 ha 0 0 1 sa nt)
  | .norm nt => some (encCommand 3 0x05 0 0 0 0 0 nt)
  | .accz nt => some (encCommand 3 0x06 0 0 0 0 0 nt)
  | .accsv ha nt => some (encCommand 3 0x07 ha 0 0 0 0 nt)
  | .accld ha nt => some (encCommand 3 0x08 ha 0 0 0 0 nt)
  | .drain add ha nt => some (encCommand 3 0x09 ha 0 0 (flag3Bits add) 0 nt)
  | .send p c ha sa nt => some (encLink 0x01 p c.toBits ha sa nt)
  | .sendred p r u ha sa nt => some (encLink 0x02 p (BitVec.ofBool u ++ r.toBits) ha sa nt)
  | .pull p c ha sa nt => some (encLink 0x03 p c.toBits ha sa nt)
  | .cal p sa => some (encLink 0x04 p 0 0 sa 0)
  | .lprog p ha nt => some (encLink 0x05 p 0 ha 0 nt)
  | .lstart p sa nt => some (encLink 0x06 p 0 0 sa nt)
  | .lphase x sa => some (encLink 0x07 0 (flag3Bits x) 0 sa 0)
  | .lmark p => some (encLink 0x08 p 0 0 0 0)
  | .lhold p r => some (encLink 0x09 p (flag3Bits r) 0 0 0)
  | .lshed p sa => some (encLink 0x0a p 0 0 sa 0)
  | .lgate p sa => some (encLink 0x0b p 0 0 sa 0)
  | .lwake p sa => some (encLink 0x0c p 0 0 sa 0)
  | .lidle p sa => some (encLink 0x0d p 0 0 sa 0)
  | .aadd g o c x v a => some (encAtomic 0x01 g o c x v a false)
  | .amin g o c x s v a => some (encAtomic 0x02 g o c x v a s)
  | .amax g o c x s v a => some (encAtomic 0x03 g o c x v a s)
  | .axchg g o c x v a => some (encAtomic 0x04 g o c x v a false)
  | .acas g o c x v a => some (encAtomic 0x05 g o c x v a false)
  | .fence k c => some (encSystem 5 0x06 0 0 (0#6 ++ c.toBits ++ k.toBits))
  | .phreg r a => some (encRRR 5 0x07 0 a 0 r.toBits)
  | .phdrop a => some (encRRR 5 0x08 0 a 0 0)
  | .phsig a => some (encRRR 5 0x09 0 a 0 0)
  | .phwait a b => some (encRRR 5 0x0a 0 a b 0)
  | .pharr a => some (encRRR 5 0x0b 0 a 0 0)
  | .phbyt a b => some (encRRR 5 0x0c 0 a b 0)
  | .rninit a b => some (encRRR 5 0x0d 0 a b 0)
  | .rnclm d a => some (encRRR 5 0x0e d a 0 0)
  | .rnpub a b => some (encRRR 5 0x0f 0 a b 0)
  | .rntake d a => some (encRRR 5 0x10 d a 0 0)
  | .rnret a b => some (encRRR 5 0x11 0 a b 0)
  | .rnwaitf a => some (encRRR 5 0x12 0 a 0 0)
  | .rnwaite a => some (encRRR 5 0x13 0 a 0 0)
  | .trap c => some (encSystem 6 0x01 0 0 c)
  | .eret => some (encSystem 6 0x02 0 0 0)
  | .halt => some (encSystem 6 0x03 0 0 0)
  | .yield => some (encSystem 6 0x04 0 0 0)
  | .sprd x y c => some (encSystem 6 0x05 x y c)
  | .spwr x y c => some (encSystem 6 0x06 x y c)
  | .tlbi r x => some (encSystem 6 0x07 x 0 (0#9 ++ r.toBits))
  | .icinv all x => some (encSystem 6 0x08 x 0 (0#10 ++ BitVec.ofBool all))
  | .heatr h x => some (encSystem 6 0x09 x 0 (0#8 ++ h.toBits))
  | .bkpt c => some (encSystem 6 0x0a 0 0 c)
  | .linkEnd => some 0
  | .linkSend c s d a b => some (1#4 ++ c.toBits.extractLsb' 0 2 ++ s ++ d ++ a ++ b ++ 0#14)
  | .linkWait slot off => some (2#4 ++ slot ++ off)
  | .linkWake mask => some (3#4 ++ 0#12 ++ mask)
  | .linkGate mask => some (4#4 ++ 0#12 ++ mask)
  | .setk k v => some (5#4 ++ k ++ 0#10 ++ v)
  | .linkLoop k t => some (6#4 ++ k ++ 0#18 ++ t)
  | .seta a v => some (7#4 ++ a ++ 0#2 ++ v)
  | .adda a v => some (8#4 ++ a ++ 0#2 ++ v)
  | .parm a => some (9#4 ++ a ++ 0#26)
  | _ => none

end Sys2Proof
end

