-- ==== Sys2Proof/Config.lean ====
section
/-! DEFINITION. What an implementation fixes and the manual does not give. Every constant here is opaque: nothing in
Lean can evaluate it, so a statement holds for each of its values. The counter `State.free` picks a fresh one. -/

namespace Sys2Proof.Config

/-- A free natural number, for the choice numbered by the first argument and the use numbered by the second: a
latency below its bound (R41, R44), old or new in a shadow (R41), the victim of a translation-buffer fill (R96).
DESIGN CHOICE, log 5. -/
opaque freeNat : Nat → Nat → Nat

/-- A physical reading in the numbering of `freeNat`: a ring monitor (R248), the warm draw of a window (R252).
DESIGN CHOICE, log 5. -/
opaque reading : Nat → Nat → Nat

/-- SHA-512 of a byte string, as 64 bytes; the manual names the function and does not define it (R260, R261).
PRESUMED, log 25. -/
opaque sha512 : List Byte → Vector Byte 64

/-- The signature bytes of an attestation over a message; the salt and the fused key make it free (R261).
DESIGN CHOICE, log 25. -/
opaque signature : Nat → List Byte → Vector Byte 512

/-- Whether the signatures of the firmware image at an address verify, stage by stage (R260). DESIGN CHOICE, log 25. -/
opaque firmwareVerifies : Nat → Word → Bool

/-- The version of a firmware image, and the 64-step rollback fuse count (R260). DESIGN CHOICE, log 25. -/
opaque firmwareVersion : Nat → Word → Nat
opaque rollbackCount : Nat

/-- The boot stages of a firmware image (R261). DESIGN CHOICE, log 25. -/
opaque bootStages : Nat → List (List Byte)

/-- The fused identity key and certificate, read at 0x3000 to 0x3fff (R257). DESIGN CHOICE, log 25. -/
opaque idcert : Nat → Byte

end Sys2Proof.Config
end

