-- ==== Sys2Proof/Machine/State.lean ====
section
/-! DEFINITION. The state of one module as plain data, its reset, and the two reason types. The shape follows the
manual's own tables; INVENTORY.md lists every field with its rule and its reset value. -/

namespace Sys2Proof.Machine

open Sys2Proof

/-! ## Reasons to stop -/

/-- Why the machine stops with a fault. -/
inductive Fault where
  /-- Raised by a translation whose leaf names a DEV physical address at or above 256 GiB. The manual gives the
  stacks 256 GiB (R13, R15) and no fault for such a leaf (R95). Safe: the machine stops where nothing is stated. -/
  | noSuchDevAddress (addr : Nat)
  deriving DecidableEq, Repr

/-- Why the model gives no meaning. -/
inductive Refusal where
  /-- An instruction that Dispatch rejects by name. Safe. -/
  | notModelled (mnemonic : String)
  deriving DecidableEq, Repr

/-! ## Memory -/

/-- The warm bytes of the module in one physical numbering: DEV at its own addresses below 2^38, scratchpad `c` at
0x40_0000_0000 + c * 0x40_0000 (R216), HOST at 2^63 plus its address (R187). Addresses rise strictly and no entry
is zero; an address that is not listed reads zero (log 2). -/
abbrev Memory := List Host.Cell

/-! ## Translation (R94 to R96) -/

/-- The kinds of a page (R94). -/
inductive PageKind where
  | dev | host | peer
  deriving DecidableEq, Repr

/-- The ordering kinds of a page (R94, R160). -/
inductive PageOrd where
  | so | rc | un
  deriving DecidableEq, Repr

/-- One translated page: virtual base and size, the base in its kind's space, and the leaf's fields (R94). -/
structure PageMap where
  /-- which fill of a translation buffer made it (the model's own mark, so that no two fills are equal) -/
  fill : Nat
  va : Nat
  size : Nat
  pa : Nat
  kind : PageKind
  ord : PageOrd
  readOnly : Bool
  relay : Bool
  module : ModuleId
  deriving DecidableEq, Repr

/-- An entry of the translation buffer: its page, its in-flight count, and whether an invalidation has struck it
while it was pinned, so that later enqueues walk anew (R96, R97). -/
structure TlbEntry where
  page : PageMap
  pins : Nat
  stale : Bool
  deriving DecidableEq, Repr

/-! ## The control processor -/

/-- A register whose result is still inside its bound: reads may see the old value lane by lane (R41, R300). -/
structure Shadow where
  /-- true for a handle, false for a scalar register -/
  handle : Bool
  reg : Nat
  old : HandleBits
  /-- the first wc in which a read sees the new value -/
  landsAt : Nat
  deriving DecidableEq, Repr

/-- A cached line of 64 bytes (R357). -/
structure ILine where
  /-- virtual address / 64 -/
  line : Nat
  bytes : Vector Byte 64
  deriving DecidableEq, Repr

/-- A line that is filling: the wc in which the fill ends, the bytes it read, and whether fetch began it (R302, R357, R358). -/
structure LineFill where
  line : ILine
  endAt : Nat
  byFetch : Bool
  deriving DecidableEq, Repr

/-- Why the issue stage holds the word at its head (R22, R26, R43, R166). -/
inductive Hold where
  | pop (q : Fin 4)
  | push (q : Fin 4)
  | scoreboard (landsAt : Nat)
  | counter (sel : Engine) (target : BitVec 32)
  | rendezvous (mask : EngineMask)
  | formatFull
  | queueFull (e : Engine)
  | allPinned
  | fence
  | earlierY
  | ringFilled (block : Nat)
  | ringFree (block : Nat)
  | phasePast (block : Nat) (phase : BitVec 32)
  | phaseMoved (block : Nat) (phase : BitVec 32) (fresh : Bool)
  | taskEnd
  | unpinned (pages : List (CoreId × PageMap))
  deriving DecidableEq, Repr

/-- A shelf tag: BASE, EFMT, D0, D1, ST1, GEN and the scratchpad generation; the core is the tag's owner (R148). -/
structure ShelfTag where
  base : Word
  efmt : BitVec 4
  d0 : Nat
  d1 : Nat
  st1 : BitVec 32
  gen : BitVec 3
  g : Word
  deriving DecidableEq, Repr

/-- Where a word of an engine queue stands (R20, R21). -/
inductive EntryStatus where
  | waiting
  | issued (at_ : Nat)
  | retired
  deriving DecidableEq, Repr

/-- Physical bytes a command touches on one kind of page (R160). -/
structure Touch where
  lo : Nat
  len : Nat
  ord : PageOrd
  write : Bool
  /-- T of the space that the access names (R44, R87) -/
  bound : Nat
  deriving DecidableEq, Repr

/-- An exact number: (−1)^neg × m × 2^e. A zero has a sign. -/
structure Exact where
  neg : Bool
  m : Nat
  e : Int
  deriving DecidableEq, Repr

/-- What a code of BF16 or FP32 stands for. -/
inductive FVal where
  | nan
  | inf (neg : Bool)
  | fin (x : Exact)
  deriving DecidableEq, Repr

/-- A value with the FP32 code that a NaN carries on, and whether an operand gave that NaN (R75). -/
structure Tagged where
  value : FVal
  nan : Nat
  given : Bool
  deriving DecidableEq, Repr

/-- What one element of a command does where it lands: bytes, a nibble of a byte (R70), a reduction of the old value (R184), or a sum
that DRAIN.add rounds once (R82, R153). -/
inductive Effect where
  | bytes (bs : List Byte)
  | nibble (high : Bool) (v : Nat)
  | reduce (op : Reduction) (efmt v : Nat)
  | addTo (y : Tagged) (ofmt : Nat) (towardZero : Bool)
  deriving DecidableEq, Repr

/-- Where one access of a command goes: physical addresses (one for each copy, R89) with the nibble of a 4-bit element, its bytes and its
page's ordering kind; the element of a table that an index names, once access `by_` has read that index (R286, R331); or the first or the
second position of a group of COPY.s24, once access `by_` has read its metadata byte (R279). -/
inductive Place where
  | known (addrs : List Nat) (nibble : Option Bool) (len : Nat) (ord : PageOrd)
  | indexed (by_ : Nat)
  | picked (by_ row first : Nat) (second : Bool) (reach : List Touch)
  deriving DecidableEq, Repr

/-- What one access of a command does: a read; the landing of an effect that is known; of the value that access `from_` reads, written or
combined by a reduction (R184); of such a value once it has been read. -/
inductive Access where
  | read
  | land (e : Effect)
  | put (from_ : Nat) (red : Option Reduction)
  | value (v : Nat) (red : Option Reduction)
  deriving DecidableEq, Repr

/-- One access that a command has still to perform (R156): its place in walk order, the element it belongs to, where it goes and what it
does, the bytes that a BYT descriptor counts for it (R178), and the run of accesses that take effect in the order written, if it belongs to
one. -/
structure MemOp where
  k : Nat
  elem : Nat
  place : Place
  what : Access
  counts : Nat
  chain : Option Nat
  deriving DecidableEq, Repr

/-- One entry of an engine queue, with what its enqueue captured (R20, R96, R198). -/
structure QEntry where
  /-- words enqueued to this engine by the task before it (R23) -/
  number : Nat
  /-- place in program order over all queues of the core -/
  order : Nat
  /-- the task instance of the core that enqueued it, with its graph, node and serial -/
  epoch : Nat
  graph : Nat
  node : Nat
  serial : Nat
  instr : Instr
  pc : Word
  /-- the address or scalar operand -/
  sa : Word
  /-- the data operand: v, b, or the captured word of a second register -/
  v : Word
  /-- s(v+1) of ACAS -/
  z : Word
  guardTrue : Bool
  /-- the notify descriptor, 0 for none (R177) -/
  notify : Word
  handles : List HandleBits
  /-- multicast mask of the window the command writes (R89) -/
  mcMask : BitVec 16
  /-- the translations taken at enqueue (R96) -/
  pages : List PageMap
  /-- every byte the command may touch -/
  touch : List Touch
  /-- its reads are acquires; its writes are releases (R164) -/
  acquire : Bool
  release : Bool
  /-- the scope of a scalar form, or of the destination through which its release performs (R159, R164) -/
  scope : Scope
  /-- runs of bytes that an issued command has read already, by the physical address of their first; the first run that holds a byte
  counts (R156) -/
  seen : List (Nat × List Byte)
  /-- an issued command has performed every read that it could before its retirement (R156) -/
  performed : Bool
  /-- the accesses of an issued tensor command that have still to perform, in walk order (R156, R160) -/
  ops : List MemOp
  /-- the scope at which its writes to DEV or HOST have performed before they land: the core's outbound path, or its die, lets nothing of
  that scope see the bytes without them (R157) -/
  accepted : Option Scope
  /-- the line whose tag did not match when it came to its issue (R99) -/
  mismatch : Option Nat
  /-- the popped format word (R84, R266) -/
  fmtWord : Word
  /-- tag formed at enqueue by SHELF, or of the shelf an MMA.shelf reads (R148, R149) -/
  tag : Option ShelfTag
  /-- XIN, XOUT: words; LD: value read; L words: result -/
  result : Word
  status : EntryStatus
  deriving DecidableEq, Repr

/-- An outbound queue entry (R65): value, the wc it lands, the count of A words enqueued before it, push order. -/
structure OutEntry where
  value : Word
  landsAt : Nat
  afterA : Nat
  serial : Nat
  deriving DecidableEq, Repr

/-- A stream channel in use (R101, R109). -/
structure Channel where
  /-- number of the A word that holds the channel -/
  number : Nat
  take : Bool
  queue : Fin 8
  /-- words moved so far, and the stream's length N (R102) -/
  moved : Nat
  length : Nat
  /-- the wc of its first move -/
  startAt : Nat
  /-- the low half of a 64-bit element that a TAKE holds -/
  half : Word32
  /-- words ever pushed to the input buffer when a FEED has moved its last -/
  endAt : Nat
  deriving DecidableEq, Repr

/-- An input gate buffer: words waiting warm, words ever pushed, words ever crossed (R103, R104). -/
structure InBuffer where
  words : List Word32
  pushed : Nat
  crossed : Nat
  deriving DecidableEq, Repr

/-- An output gate buffer with its reserved places (R103). -/
structure OutBuffer where
  words : List Word32
  reserved : Nat
  deriving DecidableEq, Repr

/-- The lease states (R142). -/
inductive LeaseState where
  | idle | waiting | active | saving | suspended | restoring
  deriving DecidableEq, Repr

/-- The lease of a core, and what the control processor keeps for it (R80, R142, R148, R285). -/
structure Lease where
  state : LeaseState
  /-- the state reckoned in program order at enqueue: true when a lease stands (R285) -/
  reckoned : Bool
  spillBase : Word
  spillSpace : BitVec 3
  spillPages : List PageMap
  /-- headroom shadow H -/
  headroom : Nat
  /-- tags of the two shelves at issue -/
  tags : Vector (Option ShelfTag) 2
  /-- current shelf at issue -/
  current : Fin 2
  /-- tag of the shelf that is current in program order at enqueue -/
  enqueued : Option ShelfTag
  /-- the lease in program order: the place of its LEASE and its spill area (R154) -/
  since : Nat
  area : List Touch
  /-- address and XSLOT of the LEASE word, which a failed check at resume reports (R155) -/
  pc : Word
  slot : BitVec 8
  deriving DecidableEq, Repr

/-- A trap that waits for an S-queue boundary (R201). -/
structure PendingTrap where
  code : BitVec 8
  info : Word
  slot : BitVec 8
  addr : Word
  deriving DecidableEq, Repr

/-- What a core's control processor is doing (R193, R197, R199). A draining core has stopped its task, and what had started, or
stands before a precise fault, runs on (R23, R204). -/
inductive CoreMode where
  | free | running | saving | resuming | draining
  deriving DecidableEq, Repr

/-- The tile task on a core (R193, R194). -/
structure Task where
  graph : Nat
  node : Nat
  serial : Nat
  slot : Nat
  deriving DecidableEq, Repr

/-- One core: control processor, engine queues, channels, gate buffers (R13, R55). -/
structure CoreState where
  regs : Vector Word 64
  preds : BitVec 8
  handles : Vector HandleBits 16
  inQ : Vector (List Word) 4
  outQ : Vector (List OutEntry) 4
  /-- pushes made, for the order across q2 and q3 (R226) -/
  pushes : Nat
  /-- cc.a, cc.g, cc.m, cc.l, cc.y -/
  counters : Vector (BitVec 32) 5
  fmtQ : List Word
  pc : Word
  squeue : List (Word × Word32)
  shadows : List Shadow
  held : Option Hold
  issueAt : Nat
  /-- the wc in which fetch restarts at the target of a branch (R24, R358) -/
  fetchAt : Nat
  /-- most recently used first (R357) -/
  icache : List ILine
  filling : List LineFill
  tlb : List TlbEntry
  /-- the engine queues A, G, M, L, Y: entries not yet counted by the completion counter -/
  queues : Vector (List QEntry) 5
  /-- words enqueued per engine since dispatch -/
  enqueued : Vector Nat 5
  /-- entries that retired in this wc, whose places are free from the next (R21) -/
  freed : Vector Nat 5
  /-- engine words enqueued over all queues -/
  order : Nat
  /-- the task instance that runs, which a resumed task keeps, and the instances dispatched so far -/
  epoch : Nat
  epochs : Nat
  checked : Bool
  qptr : Vector Word 2
  mcw : Vector (BitVec 16) 4
  hthr : Word
  hfill : Word
  heatEnable : Bool
  heatLevel : BitVec 32
  channels : Vector (Option Channel) 8
  inBuf : Vector InBuffer 8
  outBuf : Vector OutBuffer 8
  xpc : Word
  xcause : BitVec 8
  xinfo : Word
  xslot : BitVec 8
  inh : Bool
  traps : List PendingTrap
  /-- the cause of a pre-emption that is ordered or under way (R360) -/
  preempt : Option (BitVec 8)
  /-- saved engine words that failed their check at resume, with the later words of their queues (R199) -/
  stayed : Vector (List QEntry) 5
  /-- cold words of the image that have still to cross (R141) -/
  coldLeft : Nat
  /-- words of an image's cold state that came wrong on their way inward, each by a number that says which one (R263) -/
  coldWrong : List (Nat × Word32)
  lease : Lease
  /-- scratchpad generation g (R148) -/
  gen : Word
  rxn : BitVec 9
  rxlost : BitVec 32
  task : Option Task
  mode : CoreMode
  /-- dirty bits of the s, h and q groups (R199) -/
  dirtyS : Bool
  dirtyH : Bool
  dirtyQ : Bool
  /-- image slot address and generation whose lines the scratchpad still holds untouched by another task -/
  holds : Option (Nat × BitVec 32)
  deriving DecidableEq, Repr

/-! ## The grid (R118 to R141) -/

/-- One element as one board sees it (R119). -/
structure ElemState where
  /-- link inputs N, E, S, W -/
  links : Vector Word32 4
  /-- FB, FC, IB, CB, MB, VW, VL, DB -/
  latches : Vector Word32 8
  /-- FR, IR, CR, MR, VR, VP, DR -/
  results : Vector Word32 7
  flag : Bool
  /-- pulse of the last DIV or SQRT trigger that was taken (R125) -/
  lastDiv : Option Nat
  deriving DecidableEq, Repr

/-- Where a value in flight lands. -/
inductive FlightPort where
  | cold (r : Fin 4)
  | link (side : Fin 4)
  | latch (l : Fin 8)
  | result (r : Fin 7)
  /-- CR and F together, from a compare -/
  | compare
  /-- one lane of VP: lane number and lane width in bits -/
  | vpLane (lane width : Nat)
  deriving DecidableEq, Repr

/-- A value that lands at the start of a pulse (R122, R124). -/
structure Flight where
  at_ : Nat
  elem : Fin 128
  port : FlightPort
  value : Word32
  deriving DecidableEq, Repr

/-- The states of a board (R131). -/
inductive BoardStatus where
  | ready | loading | rejected | draining
  deriving DecidableEq, Repr

/-- One board: its image and its own element state (R129, R131). A missing move word is the null word. -/
structure Board where
  ii : Nat
  vgate : Bool
  program : Vector (List Word32) 128
  status : BoardStatus
  elems : Vector ElemState 128
  flights : List Flight
  deriving DecidableEq, Repr

/-- The states of a vitrine row (R128). -/
inductive RowStatus where
  | empty | filling | full | held
  deriving DecidableEq, Repr

/-- What one pass of the grid is (R126, R131, R134). -/
inductive PassKind where
  | iteration | filler | idle | drain
  deriving DecidableEq, Repr

/-- A pass: its kind, the vitrine row its iteration holds, the G word it serves (place in program order), the masks its
request was formed under, its first pulse, and whether it is the first pass after a swap (R126, R131, R134). -/
structure PassRecord where
  kind : PassKind
  row : Option (Fin 2)
  number : Nat
  inMask : BitVec 8
  outMask : BitVec 8
  pulse : Nat
  swaps : Bool
  deriving DecidableEq, Repr

/-- A GRUN or GFILL that has not retired (R133, R136, R137). `left = none` is an unbounded GRUN; no request formed after
the wc `haltAt` admits for it. -/
structure AdmitOrder where
  number : Nat
  fill : Bool
  left : Option Nat
  haltAt : Option Nat
  deriving DecidableEq, Repr

/-- An XIN or XOUT that crosses (R107, R108): its A word, row or word, its GRID address, the words, the wc of its first
request with the wcs of its bound that come before it, whether the meter has granted it, the wc in which its last word crosses, the first boundary it may act at as a
wc, and whether it has read. -/
structure CrossState where
  number : Nat
  inward : Bool
  row : Bool
  place : Word
  words : List Word32
  startAt : Nat
  spent : Nat
  granted : Bool
  lastAt : Nat
  readyAt : Nat
  done : Bool
  deriving DecidableEq, Repr

/-- A GCFG that loads (R130): the words that have crossed, those left, and the wc of its first request. -/
structure LoadState where
  number : Nat
  words : List Word32
  left : Nat
  startAt : Nat
  deriving DecidableEq, Repr

/-- The cold grid of a core (R118, R119, R128, R131, R137, R138). -/
structure Grid where
  front : Board
  back : Board
  cold : Vector (Vector Word32 4) 128
  vitrine : Vector (Vector Word32 64) 2
  rows : Vector RowStatus 2
  rp : Fin 2
  /-- the last passes, most recent first -/
  history : List PassRecord
  /-- the passes that the last request decided for the next wc, and the pass that runs over from one wc into the next with the
  pulses it has run (R124) -/
  plan : List PassRecord
  running : Option PassRecord
  ran : Nat
  /-- pulse (16 * wc + pulse) at which the next pass begins -/
  nextPulse : Nat
  admits : List AdmitOrder
  inMask : BitVec 8
  outMask : BitVec 8
  icnt : BitVec 32
  dov : Bool
  ign : Bool
  joinNorth : Bool
  joinSouth : Bool
  /-- a swap that waits: its G word, and the count it names or none -/
  swap : Option (Nat × Option Word)
  /-- a GLINK that waits: its G word, south, part -/
  edge : Option (Nat × Bool × Bool)
  crossing : List CrossState
  load : Option LoadState
  /-- words booked on the inbound and outbound lanes (R103): entry k is the wc `clock + k` -/
  laneIn : List Nat
  laneOut : List Nat
  /-- rows that come free at a pulse (R128) -/
  frees : List (Nat × Fin 2)
  /-- the last wc in which the grid makes a request, once pre-emption has struck (R141) -/
  freezeAt : Option Nat
  deriving DecidableEq, Repr

/-! ## The matrix array (R77, R142 to R144) -/

/-- One accumulator row: 32 mantissas with one exponent and one guard word (R77). -/
structure AccRow where
  m : Vector (BitVec 48) 32
  e : BitVec 12
  g : BitVec 5
  sp : Bool
  deriving DecidableEq, Repr

/-- A command that crosses at an array, wc by wc (R359): the core, its M word (place in program order) or none for a
spill, the direction, its bits and those moved, an MMA's pulses and those run, a charge without bits (NORM, ACCZ; units of
0.2 fJ), and the wc of its first request. -/
structure Stream where
  core : CoreId
  number : Option Nat
  inward : Bool
  bits : Nat
  moved : Nat
  pulses : Nat
  ran : Nat
  charge : Nat
  startAt : Nat
  deriving DecidableEq, Repr

/-- A matrix array. Accumulator row (i, g) is number 8 * i + g. -/
structure MxArray where
  rows : Vector AccRow 2048
  shelves : Vector (Vector Byte 8192) 2
  holder : Option (Fin 16)
  last : Fin 16
  termWords : Nat
  termStart : Nat
  streams : List Stream
  /-- words of a spill image that came wrong on their way inward, each by a number that says which one (R263) -/
  wrong : List (Nat × Word)
  deriving DecidableEq, Repr

/-! ## The meter (R110 to R115) -/

/-- The heat-load meter; amounts are in units of 0.2 fJ except the registers. -/
structure Meter where
  total : Nat
  /-- the total as it stood at the start of this wc (R115) -/
  atStart : Nat
  /-- total of the last completed window, in fJ -/
  last : Nat
  /-- the budget in force, in fJ -/
  budget : Nat
  /-- HBUDGET as the owner wrote it -/
  written : Word
  /-- written budgets that wait for a window, each with the wc in which it landed (R259) -/
  pending : List (Nat × Nat)
  deriving DecidableEq, Repr

/-! ## The fabric (R206 to R241) -/

/-- A calendar with its timing: peer of slot j of port p, or idle (R206, R230). -/
structure Bank where
  slen : Nat
  guard : Nat
  slots : Nat
  flight : Nat
  epoch : Nat
  pod : Nat
  calendar : Vector (Vector (Option ModuleId) 63) 8
  deriving DecidableEq, Repr

/-- The phases of a port (R231). -/
inductive PortPhase where
  | run | dark | relock
  deriving DecidableEq, Repr

/-- The states of a transmit group (R242). -/
inductive GroupStatus where
  | asleep | gated | waking | on
  deriving DecidableEq, Repr

/-- What a message of this module carries (R217 to R219). -/
inductive MsgBody where
  | data
  | reduce (op : Reduction) (efmt : BitVec 4)
  /-- the class of the reply, and whether it may relay (R325) -/
  | pullRequest (cls : MsgClass) (relayOk : Bool)
  | pullReply
  /-- a message held here for forwarding -/
  | forwarded (msg : InboundMsg)
  deriving DecidableEq, Repr

/-- A message of a port's send queues (R209, R210). -/
structure Msg where
  /-- the port's own count of messages -/
  number : Nat
  dest : ModuleId
  cls : MsgClass
  seq : BitVec 16
  body : MsgBody
  /-- the L word it belongs to, or none for a reply, a forwarded message or a sequencer step; and the task instance of that word -/
  owner : Option (CoreId × Nat)
  /-- the LSTART whose program's step appended it (R166, R313) -/
  stepOf : Option (CoreId × Nat)
  epoch : Nat
  graph : Option Nat
  handle : HandleBits
  pages : List PageMap
  /-- first byte of the packed payload, and payload bytes -/
  offset : Nat
  bytes : Nat
  /-- a send: the PEER address of its first byte -/
  dst : Nat
  /-- a reply: the physical pieces that the whole reply reads (R216, R219) -/
  places : List (Nat × Nat)
  relayOk : Bool
  last : Bool
  held : Bool
  /-- the core that reads the source -/
  core : CoreId
  /-- the wc of its admission and the bits that it moves in a wc, once admitted (R238) -/
  admittedAt : Nat
  width : Nat
  /-- the bytes whose flits have left, as they were read (R335) -/
  payload : List Byte
  /-- the intermediate that a relayed message took, and whether it has been reported forwarded (R212) -/
  via : Option ModuleId
  forwarded : Bool
  /-- the wc of its landing, once admitted -/
  landsAt : Nat
  deriving DecidableEq, Repr

/-- One handle entry of a link program with its pinned pages (R224, R225). -/
structure LinkEntry where
  handle : HandleBits
  pages : List PageMap
  deriving DecidableEq, Repr

/-- A loaded link program (R224). -/
structure LinkProgram where
  /-- the core whose LPROG loaded it and pinned its pages -/
  core : CoreId
  entries : List LinkEntry
  steps : List Instr
  /-- its pages are pinned, until the program's first END (R225) -/
  pinned : Bool
  deriving DecidableEq, Repr

/-- A port's sequencer (R224 to R226). -/
structure Sequencer where
  program : Option LinkProgram
  /-- the LSTART that runs or waits: core, number, and the phase value it names -/
  owner : Option (CoreId × Nat × Word)
  running : Bool
  step : Nat
  k : Vector (BitVec 16) 4
  a : Vector (BitVec 32) 4
  deriving DecidableEq, Repr

/-- A PULL of this module whose reply has not landed whole (R219): its number, its L word, the port, the peer and the
bytes left. -/
structure Pull where
  number : Nat
  core : CoreId
  order : Nat
  port : PortId
  peer : ModuleId
  left : Nat
  /-- its reads at the peer have performed (R166) -/
  read : Bool
  /-- packed ranges that have landed: offset and bytes -/
  got : List (Nat × Nat)
  deriving DecidableEq, Repr

/-- A gating order that waits for a message boundary (R244): its mask, and the L word or a GATE step. -/
structure GateOrder where
  mask : BitVec 16
  owner : Option (CoreId × Nat)
  dropped : Bool
  deriving DecidableEq, Repr

/-- An Ozpex port. -/
structure Port where
  phase : PortPhase
  held : Bool
  mgen : BitVec 8
  train : Bool
  rtdue : Bool
  rtcnt : BitVec 16
  shed : Word
  sheds : List (Word × CoreId × Nat)
  groups : Vector GroupStatus 16
  drops : BitVec 16
  lastDrop : BitVec 16
  gates : List GateOrder
  /-- the send queues of all destinations in one list, in enqueue order -/
  queue : List Msg
  /-- messages admitted and not yet landed -/
  flying : List Msg
  sent : Nat
  /-- the wc in which the previous admission's flits have all left -/
  busyUntil : Nat
  seqOut : Vector (BitVec 16) 64
  /-- unacknowledged sequence numbers per destination -/
  unacked : Vector (List (BitVec 16)) 64
  /-- next sequence number to land, per source -/
  seqIn : Vector (BitVec 16) 64
  /-- this module's relay segment at an intermediate is in use -/
  relayBusy : Vector Bool 64
  /-- the relayed .v of this module to a destination that is unacknowledged (R212) -/
  relayV : Vector (Option (BitVec 16)) 64
  /-- relayed messages of this module that have landed and that no guard has reported forwarded yet (R212, R228) -/
  reports : List Msg
  /-- lines that two messages of one transfer share, of which one message has landed: the source, the line, and the packed offset at
  which the messages meet (R98, R217) -/
  halves : List (ModuleId × Nat × Nat)
  /-- messages of other modules held here, oldest first (R212) -/
  relays : List InboundMsg
  /-- early relayed .v messages held for their predecessors (R213) -/
  reseq : List InboundMsg
  /-- markers still to send: peer, generation, and the message count each stands behind; the latest sent to each peer since it joined
  the calendar (R228) -/
  markDue : List (ModuleId × BitVec 8 × Nat)
  markSent : Vector (Option (BitVec 8)) 64
  /-- latest marker generation received per module -/
  markGot : Vector (Option (BitVec 8)) 64
  /-- declared gaps: first wc, last wc + 1, and the LIDLE that declares it -/
  gaps : List (Nat × Nat × Option (CoreId × Nat))
  /-- peers to which the announcement of a retraining has gone and the wc of its landing, and those that have acknowledged it (R237) -/
  announced : List (ModuleId × Nat)
  trainAcks : List ModuleId
  /-- the first wc after the retraining in progress -/
  trainUntil : Option Nat
  /-- intervals in which a peer's port is off (R237): peer, first wc, last wc + 1 -/
  peerOff : List (ModuleId × Nat × Nat)
  /-- flits received and flits corrected in this rotation (R235) -/
  received : Nat
  corrected : Nat
  seqr : Sequencer
  params : List Word
  deriving DecidableEq, Repr

/-- The module's side of the fabric (R207, R230). -/
structure Fabric where
  self : ModuleId
  active : Option Bank
  /-- RSLEN, RGUARD as they read when no bank is active -/
  slen : Nat
  guard : Nat
  rrbase : Word
  /-- the pending bank's registers: calendar bytes, then BSLEN BGUARD BCNT BFLT BEPOCH BN BSWITCH (R257) -/
  calbank : Vector Byte 512
  bregs : Vector Word 7
  /-- the change that was loaded: TSW, new epoch, bank (R230) -/
  change : Option (Nat × Nat × Bank)
  /-- the wc in which the latest change applied (R232) -/
  switchedAt : Nat
  rsw : Word
  pulls : List Pull
  nextPull : Nat
  deriving DecidableEq, Repr

/-! ## Optics and power (R242 to R255) -/

/-- A ring register with the wavelength that it serves by its WL in effect (R247 to R249). -/
structure Ring where
  pd : BitVec 16
  wl : BitVec 5
  htr : BitVec 12
  serves : BitVec 5
  /-- the wc of the last heater write (R248) -/
  htrAt : Nat
  deriving DecidableEq, Repr

/-- Rails, budgets and shares. -/
structure Power where
  pwbud : BitVec 16
  /-- what the transmit groups have drawn in this window so far, in mW by wc (R242, R252) -/
  drawn : Nat
  pwarm : BitVec 16
  crsel : BitVec 16
  /-- clusters that the budget step moved low (R252) -/
  stepped : BitVec 16
  /-- clusters forced high until the window ends (R251) -/
  forced : BitVec 16
  ovr : Bool
  drpev : Vector Word 16
  drpfrc : Vector Word 16
  /-- wcs injected in this window, per cluster -/
  injected : Vector Nat 16
  /-- wc at which the present injection began -/
  injecting : Vector (Option Nat) 16
  rklim : BitVec 16
  rkshr : BitVec 16
  rkid : Word
  /-- owner values that wait for the window boundary: PWBUD, RKLIM, RKID (R259) -/
  nextPwbud : Option (BitVec 16)
  nextRklim : Option (BitVec 16)
  nextRkid : Option Word
  /-- a share that takes effect at the guard's last wc (R253) -/
  nextShare : Option (BitVec 16)
  deriving DecidableEq, Repr

/-! ## Launch and scheduling (R186 to R205) -/

/-- The walk orders of a loop nest (R193). -/
inductive WalkOrder where
  | row | column | morton
  deriving DecidableEq, Repr

/-- A node of an admitted graph (R190, R192). -/
structure Node where
  entry : Word
  nest : Bool
  order : WalkOrder
  bounds : Vector Nat 4
  succ : List Nat
  count : Nat
  /-- tuples dispatched, tuples ended -/
  placed : Nat
  ended : Nat
  deriving DecidableEq, Repr

/-- A task saved in an image slot. Its snapshot keeps beside the slot what has no place in it (R198, log 12). -/
structure SavedTask where
  slot : Nat
  core : CoreId
  task : Task
  cause : BitVec 8
  readyAt : Nat
  /-- its core is loading it -/
  resuming : Bool
  snapshot : CoreState
  grid : Grid
  deriving DecidableEq, Repr

/-- How a graph ends, once it has begun to end (R204). -/
structure GraphEnd where
  status : BitVec 8
  code : BitVec 8
  addr : Word
  info : Word
  node : Nat
  core : CoreId
  serial : Nat
  deriving DecidableEq, Repr

/-- An active graph (R189, R192, R204, R205). -/
structure Graph where
  id : Nat
  queue : Nat
  colophon : Word
  pri : Nat
  chk : Bool
  hpt : Bool
  handler : Word
  record : Word
  /-- where RECORD translated at admission -/
  recordAt : Nat
  quota : Word
  period : Nat
  cmask : Word
  images : Word
  slots : Nat
  /-- idle gaps per port: offset and length (R189, R236) -/
  hints : Vector (Nat × Nat) 8
  nodes : List Node
  /-- the first wc in which its items can be dispatched (R188) -/
  readyAt : Nat
  /-- slots held by tasks -/
  used : List Nat
  saved : List SavedTask
  pend : Int
  failed : Nat
  /-- in units of 0.2 fJ -/
  quse : Nat
  overdraft : Nat
  exhausted : Bool
  ending : Option GraphEnd
  deriving DecidableEq, Repr

/-- What the front end knows of a work queue (R187, R188, R195). -/
structure WatchedQueue where
  queue : Nat
  /-- the type-10 record has been written -/
  reported : Bool
  /-- an entry is being read and checked -/
  busy : Bool
  deriving DecidableEq, Repr

/-- The scheduler's turn at one priority (R195). -/
structure Turn where
  pri : Nat
  /-- last queue served -/
  last : Nat
  /-- the queue whose turn it is and the items it may still place -/
  current : Option (Nat × Nat)
  deriving DecidableEq, Repr

/-- Scheduling state of the module. -/
structure Sched where
  watched : List WatchedQueue
  graphs : List Graph
  nextGraph : Nat
  turns : List Turn
  /-- candidates as queue and priority, with the wc from which the waiting time counts -/
  since : List ((Nat × Nat) × Nat)
  deriving DecidableEq, Repr

/-! ## Owner window and module services (R257 to R265) -/

/-- The owner window's registers. -/
structure Owner where
  own : BitVec 2
  /-- the wc of a host's claim, which stands once its wc has ended without one of the controller (R258), and the host's writes that wait
  with it -/
  claimAt : Option Nat
  waits : List Instr
  ohand : BitVec 2
  handDeadline : Option Nat
  orej : Word
  mstat : BitVec 5
  ptbr : Word
  wqtab : Word
  ostop : Word
  opre : Word
  errbase : Word
  errsz : Word
  errhead : Word
  errtail : Word
  errlost : Word
  /-- events of each record type since its last record -/
  events : Vector (BitVec 32) 16
  ecccnt : Word
  feccnt : Word
  rtycnt : Word
  parcnt : Word
  anonce : Vector Byte 64
  busy : Bool
  done : Bool
  nokey : Bool
  /-- the wc in which an alarm's erasure of the identity key is done (R262) -/
  eraseAt : Option Nat
  /-- what the attestation in progress signs (R261) -/
  asked : List Byte
  aresp : Vector Byte 512
  meas : Vector Byte 64
  log : List (Vector Byte 64)
  loglen : Word
  sess : Word
  alpol : Word
  fwaddr : Word
  fwgo : Word
  /-- an image that verified and runs from the next reset (R260) -/
  fwNext : Option Word
  /-- the image that verified, and the one that runs: the address it came from and the model's own number of it, 0 for the first
  (R260, R261) -/
  fwNextKey : Nat
  fwAddr : Word
  fwKey : Nat
  /-- the wc in which a bring-up step ends, and its MSTAT bit (R265) -/
  stepAt : Option (Nat × Fin 5)
  deriving DecidableEq, Repr

/-! ## The module -/

/-- The descriptor of a word that has retired, which is still to act (R172, R178): the core and the word's place in program order, the task
instance that enqueued it with its graph, node and serial, and the word's XSLOT and address. -/
structure Note where
  core : CoreId
  order : Nat
  epoch : Nat
  graph : Nat
  node : Nat
  serial : Nat
  notify : Word
  slot : BitVec 8
  pc : Word
  deriving DecidableEq, Repr

/-- The state of the module. -/
structure State where
  /-- wc since power-on; GCYC is its low 64 bits (R14) -/
  clock : Nat
  /-- the model's own counter of free values (log 5) -/
  free : Nat
  /-- events due now, and inputs from outside, in order (log 1) -/
  agenda : List Instr
  /-- events to come, by wc, ascending (log 1) -/
  timers : List (Nat × Instr)
  /-- cores that have still to issue in this wc (log 1) -/
  turn : List CoreId
  /-- sequencers that have still to step in this wc (log 1) -/
  portTurn : List PortId
  /-- the other events of this wc, in the order of their keys, once the cores and the sequencers have had their turn (log 1) -/
  closing : List Instr
  /-- how far the wc has come: 0 its writes have still to land, 1 they have, 2 the grids' words that are over retire too, 3 its reads have
  performed (log 1) -/
  stage : Nat
  /-- descriptors of words that have retired in this wc, which act in core order and then in program order (R172) -/
  notes : List Note
  /-- cores whose word reads memory as it issues, behind everything that lands in this wc (R62, R156) -/
  late : List CoreId
  /-- the core whose word is executed -/
  cur : CoreId
  /-- the port whose sequencer steps -/
  curPort : PortId
  mem : Memory
  /-- stores of the S engine that land in the next wc: address and bytes (R62) -/
  stores : List (Nat × List Byte)
  /-- scratchpad lines (physical address / 256) whose dirty bit is clear, ascending (R199) -/
  cleanLines : List Nat
  /-- accession tags that are not 0, by physical line, ascending (R98) -/
  tags : List (Nat × BitVec 6)
  cores : Vector CoreState 64
  grids : Vector Grid 64
  arrays : Vector MxArray 4
  meter : Meter
  fabric : Fabric
  ports : Vector Port 8
  rings : Vector Ring 1152
  power : Power
  sched : Sched
  owner : Owner
  /-- phaser blocks updated in this wc, whose phase is tested when the wc ends (R181) -/
  tests : List Nat
  /-- what the last read of the host gave it (R256) -/
  hostData : List Byte
  deriving DecidableEq, Repr

/-! ## Reset -/

/-- No lease (R142); H and the tags are clear as after FREE (R284). -/
def Lease.reset : Lease :=
  { state := .idle, reckoned := false, spillBase := 0, spillSpace := 0, spillPages := [], headroom := 0,
    tags := Vector.replicate 2 none, current := 0, enqueued := none, since := 0, area := [], pc := 0, slot := 0 }

/-- A core with its dispatch values (R55, R56, R69, R115, R202) and no task. DESIGN CHOICE, log 3. -/
def CoreState.reset : CoreState :=
  { regs := Vector.replicate 64 0
    preds := 1
    handles := Vector.replicate 16 0
    inQ := Vector.replicate 4 []
    outQ := Vector.replicate 4 []
    pushes := 0
    counters := Vector.replicate 5 0
    fmtQ := []
    pc := 0
    squeue := []
    shadows := []
    held := none
    issueAt := 0
    fetchAt := 0
    icache := []
    filling := []
    tlb := []
    queues := Vector.replicate 5 []
    enqueued := Vector.replicate 5 0
    freed := Vector.replicate 5 0
    order := 0
    epoch := 0
    epochs := 0
    checked := false
    qptr := Vector.replicate 2 0
    mcw := Vector.replicate 4 0
    hthr := 0
    hfill := 0
    heatEnable := false
    heatLevel := 0
    channels := Vector.replicate 8 none
    inBuf := Vector.replicate 8 { words := [], pushed := 0, crossed := 0 }
    outBuf := Vector.replicate 8 { words := [], reserved := 0 }
    xpc := 0
    xcause := 0
    xinfo := 0
    xslot := 0
    inh := false
    traps := []
    preempt := none
    stayed := Vector.replicate 5 []
    coldLeft := 0
    coldWrong := []
    lease := Lease.reset
    gen := 0
    rxn := 0
    rxlost := 0
    task := none
    mode := .free
    dirtyS := true
    dirtyH := true
    dirtyQ := true
    holds := none }

/-- An element with every latch, input, result and F at 0 (R141). -/
def ElemState.zero : ElemState :=
  { links := Vector.replicate 4 0, latches := Vector.replicate 8 0, results := Vector.replicate 7 0, flag := false,
    lastDiv := none }

/-- A board of null words with II = 16 and VGATE = 0 (R131). -/
def Board.null : Board :=
  { ii := 16, vgate := false, program := Vector.replicate 128 [], status := .ready,
    elems := Vector.replicate 128 ElemState.zero, flights := [] }

/-- The grid at dispatch (R141). -/
def Grid.reset : Grid :=
  { front := Board.null, back := Board.null
    cold := Vector.replicate 128 (Vector.replicate 4 0)
    vitrine := Vector.replicate 2 (Vector.replicate 64 0)
    rows := Vector.replicate 2 .empty
    rp := 0
    history := []
    plan := []
    running := none
    ran := 0
    nextPulse := 0
    admits := []
    inMask := 0xff
    outMask := 0xff
    icnt := 0
    dov := false
    ign := false
    joinNorth := false
    joinSouth := false
    swap := none
    edge := none
    crossing := []
    load := none
    laneIn := []
    laneOut := []
    frees := []
    freezeAt := none }

/-- An accumulator row after ACCZ, which is also its reset (R77). -/
def AccRow.zero : AccRow :=
  { m := Vector.replicate 32 0, e := 0x800, g := 0, sp := false }

/-- An array at power-on and reset: the ACCZ state, zero codes, no holder, last holder local core 15 (R77, R143). -/
def MxArray.reset : MxArray :=
  { rows := Vector.replicate 2048 AccRow.zero
    shelves := Vector.replicate 2 (Vector.replicate 8192 0)
    holder := none
    last := 15
    termWords := 0
    termStart := 0
    streams := [], wrong := [] }

/-- The meter at reset: the static term, budget 6.0 W (R110, R115). DESIGN CHOICE for the total, log 4. -/
def Meter.reset : Meter :=
  { total := 2304000000, atStart := 2304000000, last := 0, budget := 3072000000, written := 3072000000, pending := [] }

/-- A sequencer without a program (R225). -/
def Sequencer.reset : Sequencer :=
  { program := none, owner := none, running := false, step := 0, k := Vector.replicate 4 0, a := Vector.replicate 4 0 }

/-- A port at power-on: RUN, every group ASLEEP, DRN 1 (R241, R242, R245). -/
def Port.reset : Port :=
  { phase := .run
    held := false
    mgen := 0
    train := false
    rtdue := false
    rtcnt := 0
    shed := 0
    sheds := []
    groups := Vector.replicate 16 .asleep
    drops := 0
    lastDrop := 0
    gates := []
    queue := []
    flying := []
    sent := 0
    busyUntil := 0
    seqOut := Vector.replicate 64 0
    unacked := Vector.replicate 64 []
    seqIn := Vector.replicate 64 0
    relayBusy := Vector.replicate 64 false
    relayV := Vector.replicate 64 none
    relays := []
    reports := []
    halves := []
    reseq := []
    markDue := []
    markSent := Vector.replicate 64 none
    markGot := Vector.replicate 64 (some 0)
    gaps := []
    announced := []
    trainAcks := []
    trainUntil := none
    peerOff := []
    received := 0
    corrected := 0
    seqr := Sequencer.reset
    params := [] }

/-- The fabric before the first calendar load (R207, R230). -/
def Fabric.reset : Fabric :=
  { self := 0
    active := none
    slen := 10000
    guard := 240
    rrbase := 0
    calbank := Vector.replicate 512 0
    bregs := Vector.replicate 7 0
    change := none, switchedAt := 0
    rsw := 0
    pulls := []
    nextPull := 0 }

/-- Ring number n of the module: 18 rings to a fibre; WL is i for i < 16 and 16 for a spare (R247). -/
def Ring.reset (n : Nat) : Ring :=
  let i := n % 18
  let wl : BitVec 5 := if i < 16 then BitVec.ofNat 5 i else 16
  { pd := 0, wl := wl, htr := 0, serves := wl, htrAt := 0 }

/-- Power registers at reset (R255). -/
def Power.reset : Power :=
  { pwbud := 3200
    drawn := 0
    pwarm := 0
    crsel := 0xffff
    stepped := 0
    forced := 0
    ovr := false
    drpev := Vector.replicate 16 0
    drpfrc := Vector.replicate 16 0
    injected := Vector.replicate 16 0
    injecting := Vector.replicate 16 none
    rklim := 0
    rkshr := 0
    rkid := 0
    nextPwbud := none
    nextRklim := none
    nextRkid := none
    nextShare := none }

/-- No graph, no queue watched. -/
def Sched.reset : Sched :=
  { watched := [], graphs := [], nextGraph := 0, turns := [], since := [] }

/-- The owner window at reset (R257). -/
def Owner.reset : Owner :=
  { own := 0
    claimAt := none
    waits := []
    ohand := 0
    handDeadline := none
    orej := 0
    mstat := 0
    ptbr := 0
    wqtab := 0
    ostop := 0
    opre := 0
    errbase := 0
    errsz := 0
    errhead := 0
    errtail := 0
    errlost := 0
    events := Vector.replicate 16 0
    ecccnt := 0
    feccnt := 0
    rtycnt := 0
    parcnt := 0
    anonce := Vector.replicate 64 0
    busy := false
    done := false
    nokey := false
    eraseAt := none
    asked := []
    aresp := Vector.replicate 512 0
    meas := Vector.replicate 64 0
    log := []
    loglen := 0
    sess := 0
    alpol := 0
    fwaddr := 0
    fwgo := 0
    fwNext := none
    fwNextKey := 0
    fwAddr := 0
    fwKey := 0
    stepAt := none }

/-- The module right after reset: nothing has been brought up, dispatched or stored. -/
def State.reset : State :=
  { clock := 0
    free := 0
    agenda := []
    timers := []
    turn := []
    portTurn := []
    closing := []
    stage := 0
    notes := []
    late := []
    cur := 0
    curPort := 0
    mem := []
    stores := []
    cleanLines := []
    tags := []
    cores := Vector.replicate 64 CoreState.reset
    grids := Vector.replicate 64 Grid.reset
    arrays := Vector.replicate 4 MxArray.reset
    meter := Meter.reset
    fabric := Fabric.reset
    ports := Vector.replicate 8 Port.reset
    rings := Vector.ofFn (fun n : Fin 1152 => Ring.reset n)
    power := Power.reset
    sched := Sched.reset
    owner := Owner.reset
    tests := []
    hostData := [] }

end Sys2Proof.Machine
end

