-- ==== Sys2Proof/Machine/Ops.lean ====
section
/-! DEFINITION. The named operations over memory, cores, graphs and timers, and taking a trap and returning from one
(R200, R201, R204). Every meaning is written over these. -/

namespace Sys2Proof.Machine

open Sys2Proof

/-- What a step answers. -/
abbrev Out := Host.Outcome State Fault Refusal

/-- A number put in its place in a rising list, which holds it once. -/
def insertRising (n : Nat) : List Nat → List Nat
  | [] => [n]
  | x :: rest => if n < x then n :: x :: rest else if n = x then x :: rest else x :: insertRising n rest

/-- Numbers in ascending order, each once. -/
def ascending (ns : List Nat) : List Nat := ns.foldr insertRising []

/-! ## Memory (R4, R87, R187) -/

/-- What an address that is not listed reads as. DESIGN CHOICE, log 2. -/
def Memory.unlisted : Byte := 0

/-- Reading one byte. -/
def Memory.read (m : Memory) (a : Nat) : Byte :=
  match m.find? (fun cell => cell.1 == a) with
  | some cell => cell.2
  | none => Memory.unlisted

/-- Putting a cell in its place in a list of rising addresses. -/
def Memory.insert (cell : Host.Cell) : Memory → Memory
  | [] => [cell]
  | x :: rest => if cell.1 < x.1 then cell :: x :: rest else x :: Memory.insert cell rest

/-- Writing one byte; writing what an unlisted address reads as removes the entry. -/
def Memory.write (m : Memory) (a : Nat) (b : Byte) : Memory :=
  let others := m.filter (fun cell => cell.1 != a)
  if b = Memory.unlisted then others else Memory.insert (a, b) others

/-- The canonical form: addresses rise strictly and no entry equals what an unlisted address reads as. -/
def Memory.wf : Memory → Bool
  | [] => true
  | [x] => x.2 != Memory.unlisted
  | x :: y :: rest => x.2 != Memory.unlisted && decide (x.1 < y.1) && Memory.wf (y :: rest)

/-- n bytes from a. -/
def Memory.readBytes (m : Memory) (a n : Nat) : List Byte := (List.range n).map fun i => m.read (a + i)

/-- Writing consecutive bytes. -/
def Memory.writeBytes (m : Memory) : Nat → List Byte → Memory
  | _, [] => m
  | a, b :: rest => Memory.writeBytes (m.write a b) (a + 1) rest

/-- The number a little-endian byte string stands for (R4). -/
def leNat : List Byte → Nat
  | [] => 0
  | b :: rest => b.toNat + 256 * leNat rest

/-- The n low bytes of a number, least significant first (R4). -/
def leBytes : Nat → Nat → List Byte
  | 0, _ => []
  | n + 1, v => BitVec.ofNat 8 v :: leBytes n (v / 256)

/-- The first physical address of scratchpad c (R216). -/
def scratchBase (c : Nat) : Nat := 0x4000000000 + c * 0x400000
/-- The bytes of a scratchpad. -/
def scratchSize : Nat := 0x400000
/-- The first physical address of HOST (R187). -/
def hostBase : Nat := 0x8000000000000000
/-- The bytes of DEV (R187). -/
def devSize : Nat := 0x4000000000
/-- The bytes of HOST (R94). -/
def hostSize : Nat := 0x80000000000

/-- The scratchpad line of a physical address, when it is a scratchpad address. -/
def scratchLine (a : Nat) : Option Nat :=
  if 0x4000000000 ≤ a ∧ a < 0x4000000000 + 64 * 0x400000 then some (a / 256) else none

/-- An event that follows in its place in the wc in which it comes up: a retirement, or a landing at a port. -/
def closes : Instr → Bool
  | .retirement _ _ _ | .messageLanding _ _ => true
  | _ => false

/-- The place of an event in the second half of a wc. First come the grids and the streams, landings by port and then source (R221), arrays
that are free (R143), and the words of the A, M and L queues that retire. Behind the stamps of the wc (R98) come the engines, then boundary
and admission of each port, which see the words and the steps of their wc (R210, R244) and not what lands in it (R325). Words of the Y queue
retire by core and then in program order (R172), and those of the G queue, whose next one issues in a later wc (section 07's worked steps).
Last come what the ports' landings do behind the cores (R172, R219), the completion records, the meter, the scheduler, and what the host
reads. -/
def closeKey : Instr → Nat × Nat × Nat
  | .messageLanding p (.inbound m) => (1, p.val, m.source.val)
  | .messageLanding p (.outbound n) => (1, p.val, 64 + n)
  | .arrayArbitration d => (2, d.val, 0)
  | .retirement c .g n => (5, c.val, n)
  | .retirement c .y n => (5, c.val, n)
  | .retirement c _ n => (3, c.val, n)
  | .engineIssue c _ => (4, c.val, 0)
  | .messageBoundary p => (4, 64, 2 * p.val)
  | .messageAdmission p => (4, 64, 2 * p.val + 1)
  | .messageLanding p (.landed m) => (6, p.val, m.source.val)
  | .completionRecordWrite g => (6, 8, g)
  | .meterCycle => (7, 0, 0)
  | .preemption c => (8, 0, c.val)
  | .taskDispatch => (8, 1, 0)
  | .hostMemoryAccess _ => (9, 0, 0)
  | _ => (0, 0, 0)

/-- How far the wc must have come for an event of a key. -/
def stageFor (k : Nat × Nat × Nat) : Nat := if k.1 < 4 then 0 else if k.1 < 5 then 1 else if k.1 < 7 then 2 else 3

/-- A key comes before another. -/
def keyLt (a b : Nat × Nat × Nat) : Bool :=
  decide (a.1 < b.1 ∨ (a.1 = b.1 ∧ (a.2.1 < b.2.1 ∨ (a.2.1 = b.2.1 ∧ a.2.2 < b.2.2))))

/-- An event takes its place among those that are left of the wc, behind those of its own key. -/
def insertClosing (e : Instr) (es : List Instr) : List Instr :=
  let stays := fun x => !(keyLt (closeKey e) (closeKey x))
  es.takeWhile stays ++ e :: es.dropWhile stays

namespace State

/-- One byte of warm memory by its physical number. -/
def loadByte (s : State) (a : Nat) : Byte := s.mem.read a
/-- A little-endian value of n bytes. -/
def load (s : State) (a n : Nat) : Nat := leNat (s.mem.readBytes a n)

/-- A store of bytes: they land whole, and a scratchpad line they touch is dirty (R156, R199). -/
def storeBytes (s : State) (a : Nat) (bs : List Byte) : State :=
  { s with
    mem := s.mem.writeBytes a bs
    cleanLines := s.cleanLines.filter fun l => !(decide (a / 256 ≤ l ∧ l ≤ (a + bs.length - 1) / 256)) }

/-- A store that a word of the S engine issues lands in the next wc (R62). -/
def storeLater (s : State) (a n v : Nat) : State := { s with stores := s.stores ++ [(a, leBytes n v)] }

/-- The stores of the S engine land (R62; DEDUCED, log 14). -/
def landStores (s : State) : State := { s.stores.foldl (fun t p => t.storeBytes p.1 p.2) s with stores := [] }

/-- A store of a little-endian value of n bytes. -/
def store (s : State) (a n v : Nat) : State := s.storeBytes a (leBytes n v)

/-- The tag of the scratchpad line that holds a physical address (R98). -/
def tagOf (s : State) (line : Nat) : BitVec 6 :=
  match s.tags.find? (fun t => t.1 == line) with
  | some t => t.2
  | none => 0

/-- Stamping one line (R98). -/
def setTag (s : State) (line : Nat) (tag : BitVec 6) : State :=
  let others := s.tags.filter fun t => t.1 != line
  { s with tags := if tag = 0 then others
                   else others.takeWhile (fun t => t.1 < line) ++ (line, tag) :: others.dropWhile (fun t => t.1 < line) }

/-! ## Free values (log 5) -/

/-- A free number for the choice tagged `tag` at this point of the run. -/
def freeNat (s : State) (tag : Nat) : Nat := Config.freeNat tag s.free
/-- The next use takes fresh values. -/
def bump (s : State) : State := { s with free := s.free + 1 }

/-! ## Cores -/

def core (s : State) (c : CoreId) : CoreState := s.cores[c]
def putCore (s : State) (c : CoreId) (x : CoreState) : State := { s with cores := s.cores.set c x }
def onCore (s : State) (c : CoreId) (f : CoreState → CoreState) : State := s.putCore c (f (s.core c))
/-- The core whose word is executed. -/
def me (s : State) : CoreState := s.cores[s.cur]
def onMe (s : State) (f : CoreState → CoreState) : State := s.onCore s.cur f
def grid (s : State) (c : CoreId) : Grid := s.grids[c]
def putGrid (s : State) (c : CoreId) (x : Grid) : State := { s with grids := s.grids.set c x }
def onGrid (s : State) (c : CoreId) (f : Grid → Grid) : State := s.putGrid c (f (s.grid c))
def array (s : State) (d : DieId) : MxArray := s.arrays[d]
def onArray (s : State) (d : DieId) (f : MxArray → MxArray) : State := { s with arrays := s.arrays.set d (f (s.array d)) }
def port (s : State) (p : PortId) : Port := s.ports[p]
def onPort (s : State) (p : PortId) (f : Port → Port) : State := { s with ports := s.ports.set p (f (s.port p)) }

/-- The global cycle counter: 64 bits, wrapping (R14). -/
def count (s : State) : Nat := s.clock % 2 ^ 64
/-- Its value as a word. -/
def gcyc (s : State) : Word := BitVec.ofNat 64 s.clock

/-! ## Timers and the agenda (log 1) -/

/-- An event at the wc `at_`, behind those already due then. -/
def timer (s : State) (at_ : Nat) (e : Instr) : State :=
  { s with timers := s.timers.takeWhile (fun t => t.1 ≤ at_) ++ (at_, e) :: s.timers.dropWhile (fun t => t.1 ≤ at_) }

/-- An event that follows in this wc: at once, or in its place among those that are left of it. -/
def soon (s : State) (e : Instr) : State :=
  if closes e then { s with closing := insertClosing e s.closing } else { s with agenda := s.agenda ++ [e] }

/-! ## Graphs -/

def graphById (s : State) (g : Nat) : Option Graph := s.sched.graphs.find? fun x => x.id == g
def onGraph (s : State) (g : Nat) (f : Graph → Graph) : State :=
  { s with sched := { s.sched with graphs := s.sched.graphs.map fun x => if x.id == g then f x else x } }
/-- The graph of a core's task. -/
def graphOf (s : State) (c : CoreId) : Option Graph :=
  match (s.core c).task with
  | some t => s.graphById t.graph
  | none => none

end State

/-- Die of a core (R13). -/
def dieOf (c : CoreId) : DieId := ⟨c.val / 16, by have := c.isLt; omega⟩
/-- Local core index (R13). -/
def localOf (c : CoreId) : Fin 16 := ⟨c.val % 16, by omega⟩
/-- The core of a die and a local index (R13). -/
def coreOf (d : DieId) (l : Fin 16) : CoreId := ⟨d.val * 16 + l.val, by have := d.isLt; have := l.isLt; omega⟩

/-- Index of an engine's queue and counter. -/
def engIdx : Engine → Fin 5
  | .a => 0 | .g => 1 | .m => 2 | .l => 3 | .y => 4

/-- The eng code of an engine (R19), as XSLOT holds it (R202). -/
def engCode : Engine → BitVec 3
  | .a => 1 | .g => 2 | .m => 3 | .l => 4 | .y => 5

namespace CoreState

/-- The task's engine words go on issuing and making requests: it runs, or it has been stopped and what started completes. -/
def works (x : CoreState) : Bool := x.mode == .running || x.mode == .draining

def queue (x : CoreState) (e : Engine) : List QEntry := x.queues[engIdx e]
def putQueue (x : CoreState) (e : Engine) (q : List QEntry) : CoreState := { x with queues := x.queues.set (engIdx e) q }

/-- Words of an engine that the running task enqueued and that have not retired (R21, R203). -/
def unretired (x : CoreState) (e : Engine) : List QEntry :=
  (x.queue e).filter fun q => q.status != .retired && q.epoch == x.epoch

/-- Entries of an engine's queue in use: enqueued and unretired, whichever task enqueued them, and those that retired in this
wc (R21). -/
def occupancy (x : CoreState) (e : Engine) : Nat :=
  ((x.queue e).filter fun q => q.status != .retired).length + x.freed[engIdx e]

/-- A read of a handle lane by lane sees no shadow once its bound has passed; expired shadows are dropped. -/
def liveShadows (x : CoreState) (now : Nat) : List Shadow := x.shadows.filter fun h => decide (now < h.landsAt)

/-- The word at the head of the S queue has taken effect; issue goes on with the next in the following wc (R20, R24). -/
def advance (x : CoreState) (now : Nat) : CoreState :=
  { x with pc := x.pc + 4, squeue := x.squeue.drop 1, held := none, issueAt := now + 1 }

/-- A taken branch restarts fetch at the target, whose word issues 3 wc later, and later by a fill when its line is absent
(R24, R358). -/
def branchTo (x : CoreState) (target : Word) (now : Nat) : CoreState :=
  { x with pc := target, squeue := [], held := none, issueAt := now + 3, fetchAt := now + 3 }

/-- A pending trap, kept in ascending code order (R201). -/
def addTrap (x : CoreState) (t : PendingTrap) : CoreState :=
  { x with traps := x.traps.takeWhile (fun u => u.code.toNat ≤ t.code.toNat) ++
      t :: x.traps.dropWhile (fun u => u.code.toNat ≤ t.code.toNat) }

/-- Issue goes on at an address that is not the following word, and fetch restarts there (R201, R302). -/
def resumeAt (x : CoreState) (target : Word) (now : Nat) : CoreState :=
  { x with pc := target, squeue := [], held := none, issueAt := now + 1, fetchAt := now + 1 }

end CoreState

namespace State

/-- The word has taken effect on the executing core. -/
def advance (s : State) : State := s.onMe fun x => x.advance s.clock

/-- The word at the head is held: it has not taken effect (R22). -/
def hold (s : State) (h : Hold) : State := s.onMe fun x => { x with held := some h }

/-- Releasing one pin of each page; an entry that an invalidation struck leaves with its last pin (R96, R97). -/
def unpinPages (s : State) (c : CoreId) (ps : List PageMap) : State :=
  match ps with
  | [] => s
  | _ => s.onCore c fun x =>
    { x with
      tlb := (x.tlb.map fun e => { e with pins := e.pins - (ps.filter fun p => p == e.page).length }).filter
        fun e => !(e.stale && e.pins == 0) }

end State

/-- The bytes that a send or PULL added to its graph's PEND at enqueue (R204, R325). -/
def QEntry.owes (q : QEntry) : Nat :=
  match q.instr with
  | .send _ _ _ _ _ | .sendred _ _ _ _ _ _ | .pull _ _ _ _ _ => q.z.toNat
  | _ => 0

/-- Words of the running task that no engine has issued. -/
def CoreState.unissued (x : CoreState) (e : Engine) : List QEntry :=
  (x.queue e).filter fun q => q.status == .waiting && q.epoch == x.epoch

/-- Saved words of a core still wait for a check. -/
def CoreState.hasStayed (x : CoreState) : Bool := x.stayed.toList.any fun q => !q.isEmpty

/-- GHALT on the runs of a grid: an unbounded GRUN admits nothing after the request of wc `last`; an earlier stop stands
(R137, R289, R296). -/
def Grid.stopRuns (g : Grid) (last : Nat) : Grid :=
  { g with admits := g.admits.map fun a => if a.left = none ∧ a.haltAt = none then { a with haltAt := some last } else a }

/-- The engines in the order of their codes. -/
def engines : List Engine := [.a, .g, .m, .l, .y]

namespace State

/-! ## Ending a task or a graph by force (R204) -/

/-- Words are discarded: their pins go, and what they owe their graph comes off its PEND (DEDUCED, log 69). -/
def discard (s : State) (c : CoreId) (qs : List QEntry) : State :=
  qs.foldl (fun s q => (s.unpinPages c q.pages).onGraph q.graph fun g => { g with pend := g.pend - q.owes }) s

/-- A PHARR that a core gives up gives its own signal back where its phase has not moved: a held word has not taken effect (R182). -/
def unsignal (s : State) (c : CoreId) : State :=
  match (s.core c).held with
  | some (.phaseMoved p b true) =>
    let bit : BitVec 16 := BitVec.ofNat 16 (2 ^ (localOf c).val)
    if s.load p 4 = b.toNat then s.store (p + 12) 2 (BitVec.ofNat 16 (s.load (p + 12) 2) &&& ~~~bit).toNat else s
  | _ => s

/-- The core stops its task: its S queue stops, and what has started completes. Words that no engine has issued are discarded,
but for the words before a precise fault, which run on (R23, R204). -/
def stopCore (s : State) (c : CoreId) (precise : Bool := false) : State :=
  let x := s.core c
  let t := (s.unsignal c).discard c ((if precise then [] else engines.flatMap x.unissued) ++ x.stayed.toList.flatten)
  let u := t.onCore c fun x =>
    { x with
      mode := .draining, held := none, squeue := [], traps := [], preempt := none, shadows := [], coldLeft := 0
      stayed := Vector.replicate 5 []
      queues := if precise then x.queues
                else x.queues.map fun q => q.filter fun e => e.status != .waiting || e.epoch != x.epoch }
  { (u.onGrid c fun g => { g with freezeAt := none }) with
    timers := u.timers.filter fun t => t.2 != .imageSaveEnd c && t.2 != .taskResume c }

/-- The cores that run a task of a graph. -/
def coresOf (s : State) (g : Nat) : List CoreId :=
  (List.finRange 64).filter fun c => match (s.core c).task with | some t => t.graph == g | none => false

/-- A graph ends by force: every task of it stops at its boundary, its saved words are discarded, nothing further is
dispatched, and the record waits (R204). A graph that already ends keeps its first cause, and a task that has stopped already
keeps the words that it still has to run. The core `precise` names has taken a precise fault (R23). -/
def endGraph (s : State) (g : Nat) (e : GraphEnd) (precise : Option CoreId := none) : State :=
  let s := s.onGraph g fun x =>
    match x.ending with
    | some _ => x
    | none =>
      let owed : Nat := (x.saved.flatMap fun t =>
        (t.snapshot.unissued .l ++ t.snapshot.stayed.toList.flatten).map QEntry.owes).sum
      { x with ending := some e, pend := x.pend - owed }
  ((s.coresOf g).filter fun c => (s.core c).mode != .draining).foldl (fun s c => s.stopCore c (precise == some c)) s

/-! ## Traps (R200, R201) -/

end State

/-- The codes whose class is fatal (R200). -/
def fatalCode (code : BitVec 8) : Bool := decide (code.toNat ≤ 0x14) || code == 0x1c || code == 0x1d

/-- What a trap reports (R200, R202). -/
structure TrapInfo where
  code : BitVec 8
  info : Word
  /-- XSLOT: engine and queue slot (R202) -/
  slot : BitVec 8
  /-- address of the faulting word, for the graph's record -/
  addr : Word
  /-- where ERET returns to -/
  resume : Word
  /-- a fault or trap at a word's issue or enqueue (R23) -/
  precise : Bool := false
  deriving DecidableEq, Repr

namespace State

/-- The end of a graph that a trap on core c brings about (DESIGN CHOICE, log 20). -/
def trapEnd (s : State) (c : CoreId) (t : Task) (code : BitVec 8) (info addr : Word) (precise : Bool := false) : State :=
  s.endGraph t.graph
    { status := 2, code := code, addr := addr, info := info, node := t.node, core := c, serial := t.serial }
    (if precise then some c else none)

/-- Taking a trap on core c (R201). A fatal code ends the graph; a trap inside a handler ends it with a double trap,
whose XINFO is the code of the second trap; with no handler the graph ends with the code. Otherwise the handler is
entered: registers are unchanged and the engine queues run on. A core without a task has no handler; it stops. -/
def takeTrap (s : State) (c : CoreId) (t : TrapInfo) : State :=
  match (s.core c).task with
  | none => s.stopCore c
  | some task =>
    let handler := match s.graphById task.graph with | some g => g.handler | none => 0
    if fatalCode t.code then s.trapEnd c task t.code t.info t.addr t.precise
    else if (s.core c).inh then s.trapEnd c task 0x1c (t.code.setWidth 64) t.addr t.precise
    else if handler = 0 then s.trapEnd c task t.code t.info t.addr t.precise
    else
      s.onCore c fun x =>
        { (x.resumeAt handler s.clock) with
          xpc := t.resume, xcause := t.code, xinfo := t.info, xslot := t.slot, inh := true }

/-- A fault of the word at the executing core's head, precise on the S queue (R23): it resumes at the word itself. -/
def faultHere (s : State) (code : BitVec 8) (info : Word) (slot : BitVec 8 := 0) : State :=
  s.takeTrap s.cur { code := code, info := info, slot := slot, addr := s.me.pc, resume := s.me.pc, precise := true }

/-- Return from a trap handler (R201): outside a handler it faults, and so does an XPC with low bits set; otherwise
INH clears and issue goes on at XPC. -/
def returnFromTrap (s : State) : State :=
  if s.me.inh = false then s.faultHere 0x1d 0
  else if (s.me.xpc.extractLsb' 0 2) ≠ 0 then
    (s.onMe fun x => { x with inh := false }).faultHere 0x02 s.me.xpc
  else s.onMe fun x => { (x.resumeAt x.xpc s.clock) with inh := false }

/-- A trap that waits for an S-queue boundary of core c (R201). -/
def postTrap (s : State) (c : CoreId) (t : PendingTrap) : State := s.onCore c fun x => x.addTrap t

end State

/-! ## Codes of R200 -/

def codeIllegal : BitVec 8 := 0x01
def codeMisalignedTarget : BitVec 8 := 0x02
def codeMisalignedAccess : BitVec 8 := 0x03
def codeStarvation : BitVec 8 := 0x04
def codeSpace : BitVec 8 := 0x05
def codeAlignment : BitVec 8 := 0x06
def codeHandle : BitVec 8 := 0x07
def codeHandleRange : BitVec 8 := 0x08
def codeExtent : BitVec 8 := 0x09
def codeTranslation : BitVec 8 := 0x0a
def codeTable : BitVec 8 := 0x0b
def codeProtection : BitVec 8 := 0x0c
def codeFormatUnderflow : BitVec 8 := 0x0d
def codeFormatWord : BitVec 8 := 0x0e
def codeHeadroom : BitVec 8 := 0x0f
def codeLease : BitVec 8 := 0x10
def codeShelf : BitVec 8 := 0x11
def codeConfiguration : BitVec 8 := 0x12
def codeRing : BitVec 8 := 0x13
def codePhaser : BitVec 8 := 0x14
def codeAlias : BitVec 8 := 0x15
def codeSchedule : BitVec 8 := 0x16
def codePeerUnreachable : BitVec 8 := 0x17
def codeHeatThreshold : BitVec 8 := 0x18
def codeHeatPause : BitVec 8 := 0x19
def codeSoftware : BitVec 8 := 0x1a
def codeBreakpoint : BitVec 8 := 0x1b
def codeDouble : BitVec 8 := 0x1c
def codeEretOutside : BitVec 8 := 0x1d

end Sys2Proof.Machine
end

