-- ==== Sys2Proof/Machine/Operands.lean ====
section
/-! DEFINITION. Operand forms of the issue stage: register reads with the queue-mapped registers and the shadows of
exposed mode (R25, R26, R41, R63 to R65), register writes, and the gates that hold or fault a word before it acts. -/

namespace Sys2Proof.Machine

open Sys2Proof

/-- The inbound and outbound queue behind s60 to s63 (R25). -/
def queueOf (r : SReg) : Option (Fin 4) :=
  if r = 60 then some 0 else if r = 61 then some 1 else if r = 62 then some 2 else if r = 63 then some 3 else none

/-- The 32-bit lane `lane` of a value. -/
def laneOf (v : HandleBits) (lane : Nat) : Nat := v.toNat / 2 ^ (32 * lane) % 2 ^ 32

/-- What a read in a shadow sees: in each of n 32-bit lanes, one of the values the register may hold, by a free
choice (R41). `olds` are the values of live shadows, `new` the final value; `tag` numbers the reading field. -/
def shadowRead (s : State) (tag n : Nat) (new : HandleBits) (olds : List HandleBits) : HandleBits :=
  match olds with
  | [] => new
  | _ =>
    let all := new :: olds
    BitVec.ofNat 256 ((List.range n).foldl (fun acc lane =>
      acc + laneOf (all.getD (s.freeNat (1000 + 16 * tag + lane) % all.length) new) lane * 2 ^ (32 * lane)) 0)

namespace State

/-- The values that live shadows still let a read of a register see. -/
def shadowsOf (s : State) (handle : Bool) (r : Nat) : List HandleBits :=
  ((s.me.liveShadows s.clock).filter fun h => h.handle == handle && h.reg == r).map Shadow.old

/-- The value source field `k` of a word reads from register r at its issue: 0 for s0, the oldest entry for a
queue-mapped register, else the register, old or new in a shadow (R25, R26, R41). -/
def src (s : State) (k : Nat) (r : SReg) : Word :=
  if r = 0 then 0
  else match queueOf r with
    | some q => (s.me.inQ[q]).headD 0
    | none =>
      let v : Word := s.me.regs[r.toNat]
      match s.shadowsOf false r.toNat with
      | [] => v
      | olds => (shadowRead s k 2 (v.setWidth 256) olds).setWidth 64

/-- A predicate; p0 reads true (R25). -/
def pred (s : State) (p : PReg) : Bool := p == 0 || s.me.preds.getLsbD p.toNat

/-- A guard (R33). -/
def guardTrue (s : State) (g : Guard) : Bool := (s.pred g.pred) != g.invert

/-- A handle, old or new lane by lane in a shadow (R300). -/
def handle (s : State) (k : Nat) (h : HReg) : HandleBits :=
  let v : HandleBits := s.me.handles[h.toNat]
  match s.shadowsOf true h.toNat with
  | [] => v
  | olds => shadowRead s (8 + k) 8 v olds

/-- A register file write: s0 discards it (R25). -/
def setReg (s : State) (r : SReg) (v : Word) : State :=
  if r = 0 then s else s.onMe fun x => { x with regs := x.regs.set r.toNat v, dirtyS := true }

end State

/-- The queues a word's source fields name, each once (R26). -/
def popsOf (srcs : List SReg) : List (Fin 4) :=
  (List.finRange 4).filter fun q => srcs.any fun r => queueOf r == some q

/-- Popping one entry from each named queue (R26, R63). -/
def State.popAll (s : State) (srcs : List SReg) : State :=
  match popsOf srcs with
  | [] => s
  | qs => s.onMe fun x =>
    { x with inQ := qs.foldl (fun (v : Vector (List Word) 4) (q : Fin 4) => v.set q (v[q].drop 1)) x.inQ, dirtyQ := true }

/-- An LD that targets q0 or q1 and has not pushed yet (R63, R64). -/
def ldPending (x : CoreState) (q1 : Bool) : Bool :=
  (x.unretired .a).any fun e => match e.instr with | .ld _ _ _ t _ => t == q1 | _ => false

/-- A push of an outbound entry: it fills when the result lands, in a free wc within the producer's bound, and it is ordered after
every A word enqueued before it (R65). -/
def State.pushOut (s : State) (q : Fin 4) (v : Word) (bound : Nat) : State :=
  s.onMe fun x =>
    { x with
      outQ := x.outQ.set q (x.outQ[q] ++
        [{ value := v, landsAt := s.clock + 1 + s.freeNat 11 % max bound 1, afterA := x.enqueued[(0 : Fin 5)], serial := x.pushes }])
      pushes := x.pushes + 1, dirtyQ := true }

/-- The destination of an S or X result with its bound: s0 discards, q0 to q3 push, any other register takes the value
and, past a bound of 1, leaves the old one readable lane by lane until the bound has passed (R41, R42, R65). -/
def State.writeReg (s : State) (d : SReg) (v : Word) (bound : Nat) : State :=
  if d = 0 then s
  else match queueOf d with
    | some q => s.pushOut q v bound
    | none =>
      let lands := s.clock + bound
      s.onMe fun x =>
        let mine := fun (h : Shadow) => !h.handle && h.reg == d.toNat
        let live := x.liveShadows s.clock
        let others := live.filter fun h => !mine h
        let kept := (live.filter mine).map fun h => { h with landsAt := min h.landsAt lands }
        { x with
          regs := x.regs.set d.toNat v, dirtyS := true
          shadows := if bound ≤ 1 then others
            else { handle := false, reg := d.toNat, old := (x.regs[d.toNat] : Word).setWidth 256, landsAt := lands } ::
              kept ++ others }

/-- A handle write with its bound (R93, R300). -/
def State.writeHandle (s : State) (h : HReg) (v : HandleBits) (bound : Nat) : State :=
  let lands := s.clock + bound
  s.onMe fun x =>
    let mine := fun (w : Shadow) => w.handle && w.reg == h.toNat
    let live := x.liveShadows s.clock
    let others := live.filter fun w => !mine w
    let kept := (live.filter mine).map fun w => { w with landsAt := min w.landsAt lands }
    { x with
      handles := x.handles.set h.toNat v, dirtyH := true
      shadows := if bound ≤ 1 then others
        else { handle := true, reg := h.toNat, old := x.handles[h.toNat], landsAt := lands } :: kept ++ others }

/-- A predicate write; p0 discards it (R25, R59). -/
def State.writePred (s : State) (p : PReg) (b : Bool) : State :=
  if p = 0 then s
  else s.onMe fun x =>
    let bit : BitVec 8 := BitVec.ofNat 8 (2 ^ p.toNat)
    { x with preds := if b then x.preds ||| bit else x.preds &&& ~~~bit }

/-- A register that an engine command writes at its retirement; it has no order against an S result still in its
shadow, so which of the two stays is free (R42). s0 discards it. -/
def State.engineWrite (s : State) (c : CoreId) (r : SReg) (v : Word) : State :=
  if r = 0 then s
  else
    let open_ := (s.core c).liveShadows s.clock |>.any fun h => !h.handle && h.reg == r.toNat
    if open_ && s.freeNat 1 % 2 == 1 then s
    else s.onCore c fun x => { x with regs := x.regs.set r.toNat v, dirtyS := true }

/-! ## Gates at issue -/

/-- The wc in which the last live shadow of a source lands, for the scoreboard of checked mode (R43). -/
def State.scoreboardUntil (s : State) (srcs : List SReg) (hs : List HReg) : Nat :=
  ((s.me.liveShadows s.clock).filter fun h =>
    if h.handle then hs.any fun r => r.toNat == h.reg else srcs.any fun r => r.toNat == h.reg).foldl
    (fun m h => max m h.landsAt) 0

/-- The first source queue that is empty (R26). -/
def State.emptyPop (s : State) (srcs : List SReg) : Option (Fin 4) :=
  (popsOf srcs).find? fun q => (s.me.inQ[q]).isEmpty

/-- Queue q is empty and nothing can arrive in it: no LD that targets it is waiting or in flight (R64). -/
def starves (x : CoreState) (q : Fin 4) : Bool :=
  (x.inQ[q]).isEmpty && ((q == 0 && !ldPending x false) || (q == 1 && !ldPending x true))

/-- The first source queue that starves (R64). -/
def State.starvedPop (s : State) (srcs : List SReg) : Option (Fin 4) := (popsOf srcs).find? (starves s.me)

/-- The pointer that a push to q0 or q1 stores at, with bits [2:0] RES (R65, R69). -/
def State.pushPtr (s : State) (q : Fin 4) : Word :=
  if q = 0 then s.me.qptr[(0 : Fin 2)] else s.me.qptr[(1 : Fin 2)]

/-- LOCAL holds n bytes at a (R87). -/
def inLocal (a n : Nat) : Bool := decide (a + n ≤ 0x400000)

/-- A word that pops waits until each of its queues has a value, or starves when none can arrive in one of them (R26, R64). -/
def State.popGate (s : State) (srcs : List SReg) (k : Out) : Out :=
  match s.starvedPop srcs, s.emptyPop srcs with
  | some q, _ => .next (s.faultHere codeStarvation (BitVec.ofNat 64 q.val))
  | none, some q => .next (s.hold (.pop q))
  | none, none => k

/-- A word that pushes waits while the queue is full; a q0 or q1 pointer outside LOCAL faults (R26, R65). -/
def State.pushGate (s : State) (d : SReg) (k : Out) : Out :=
  match queueOf d with
  | none => k
  | some q =>
    let place := (s.pushPtr q).toNat + 8 * (s.me.outQ[q]).length
    if q.val < 2 ∧ inLocal place 8 = false then .next (s.faultHere codeSpace (BitVec.ofNat 64 place))
    else if 8 ≤ (s.me.outQ[q]).length then .next (s.hold (.push q))
    else k

/-- The gates of an S or X word: the scoreboard in checked mode, its pops, its push (R26, R43, R64, R65). -/
def State.issueGate (s : State) (srcs : List SReg) (hs : List HReg) (d : SReg) (k : Out) : Out :=
  if s.me.checked ∧ s.clock < s.scoreboardUntil srcs hs then
    .next (s.hold (.scoreboard (s.scoreboardUntil srcs hs)))
  else s.popGate srcs (s.pushGate d k)

/-- An S word that reads scalar registers and writes one: its gates, its pops, its result, and on to the next. -/
def State.scalarResult (s : State) (srcs : List SReg) (hs : List HReg) (d : SReg) (bound : Nat) (v : Word) : Out :=
  s.issueGate srcs hs d (.next (((s.popAll srcs).writeReg d v bound).bump.advance))

end Sys2Proof.Machine
end

