-- ==== Sys2Proof/Machine/Flags.lean ====
section
/-! DEFINITION. The typed arithmetic of the S engine and its predicates: reading at a width, the result wrapped and
extended by its type (R27, R57), the conditions (R30, R59), and the predicate function (R60). Hjelurn has no flag
register; predicates are its flags. -/

namespace Sys2Proof.Machine

open Sys2Proof

/-- Bits of a width. -/
def widthBits : Width → Nat
  | .b8 => 8 | .b16 => 16 | .b32 => 32 | .b64 => 64
/-- Bytes of a width. -/
def widthBytes : Width → Nat
  | .b8 => 1 | .b16 => 2 | .b32 => 4 | .b64 => 8

/-- The low t bits of a register as the exact number its type reads (R57). -/
def typed (ty : ScalarType) (v : Word) : Int :=
  let t := widthBits ty.width
  if ty.natural then (v.toNat % 2 ^ t : Nat) else (BitVec.ofNat t v.toNat).toInt

/-- An exact result wrapped to the width and extended to 64 bits by the type (R27, R57). -/
def wrap (ty : ScalarType) (v : Int) : Word :=
  let t := widthBits ty.width
  if ty.natural then (BitVec.ofInt t v).setWidth 64 else (BitVec.ofInt t v).signExtend 64

/-- Quotient with R27's results for a zero divisor; the most negative value by −1 wraps to itself. -/
def quotient (x y : Int) : Int := if y = 0 then -1 else x.tdiv y
/-- Remainder with the dividend's sign; a zero divisor leaves the dividend (R27). -/
def remainder (x y : Int) : Int := if y = 0 then x else x.tmod y

/-- The shift amount y mod t (R57). -/
def shiftAmount (ty : ScalarType) (y : Int) : Nat := (y % (widthBits ty.width : Nat)).toNat

/-- Bit i of a number, as 0 or 1. -/
def natBit (n i : Nat) : Nat := n / 2 ^ i % 2

/-- Leading zeros of x at width t; t when x is 0 (R57). -/
def leadingZeros (t x : Nat) : Nat := ((List.range t).map fun i => t - 1 - i).takeWhile (fun i => natBit x i == 0) |>.length
/-- One bits of x at width t (R57). -/
def oneBits (t x : Nat) : Nat := ((List.range t).map fun i => natBit x i).sum

/-- A condition on two exact numbers (R30). -/
def condHolds (c : Cond) (x y : Int) : Bool :=
  match c with
  | .eq => x == y
  | .ne => x != y
  | .lt => decide (x < y)
  | .ge => decide (y ≤ x)
  | .le => decide (x ≤ y)
  | .gt => decide (y < x)

/-- PLOG's function: bit pa × 2 + pb of fn (R60). -/
def plogFn (fn : BitVec 4) (pa pb : Bool) : Bool := fn.getLsbD (pa.toNat * 2 + pb.toNat)

end Sys2Proof.Machine
end

