-- ==== Sys2Proof/Machine/Handle.lean ====
section
/-! DEFINITION. Tensor handles: the fields of R90, the element addresses and extents of R91, and what the handle words
do to a handle (R93). -/

namespace Sys2Proof.Machine

open Sys2Proof

/-- Bits [lo + n - 1 : lo] of a handle as a number. -/
def hbits (h : HandleBits) (lo n : Nat) : Nat := h.toNat / 2 ^ lo % 2 ^ n
/-- A handle with bits [lo + n - 1 : lo] replaced. -/
def hset (h : HandleBits) (lo n v : Nat) : HandleBits :=
  BitVec.ofNat 256 (h.toNat - hbits h lo n * 2 ^ lo + (v % 2 ^ n) * 2 ^ lo)

/-! ## Fields (R90) -/

def hBase (h : HandleBits) : Nat := hbits h 0 64
def hEfmt (h : HandleBits) : Nat := hbits h 64 4
def hSlot (h : HandleBits) : Nat := hbits h 68 2
def hSpace (h : HandleBits) : Nat := hbits h 80 3
def hOrdc (h : HandleBits) : Nat := hbits h 83 2
def hAchk (h : HandleBits) : Bool := hbits h 85 1 == 1
def hAwr (h : HandleBits) : Bool := hbits h 86 1 == 1
def hAtag (h : HandleBits) : BitVec 6 := BitVec.ofNat 6 (hbits h 87 6)
def hGen (h : HandleBits) : BitVec 3 := BitVec.ofNat 3 (hbits h 93 3)
def hDim (h : HandleBits) (k : Nat) : Nat := hbits h (96 + 16 * k) 16
/-- Strides 1 to 3, signed, in bytes. -/
def hStride (h : HandleBits) (k : Nat) : Int := (BitVec.ofNat 32 (hbits h (128 + 32 * k) 32)).toInt

/-- Bits of an element (R70, R90). No command uses a reserved EFMT; HSLICE, which R93 lets name one, then takes 8 bits (DESIGN CHOICE,
log 82). -/
def efmtBits (e : Nat) : Nat :=
  match e with
  | 0 => 4 | 1 => 8 | 2 => 4 | 3 => 8 | 4 => 16 | 5 => 32 | 6 => 8 | 7 => 16 | 8 => 32 | 9 => 64 | _ => 8

/-- Whole bytes of an element; a 4-bit element counts as 1. -/
def efmtBytes (e : Nat) : Nat := (efmtBits e + 7) / 8

/-! ## Elements and extents (R91) -/

/-- Number of elements. -/
def hCount (h : HandleBits) : Nat := hDim h 0 * hDim h 1 * hDim h 2 * hDim h 3

/-- The address of the first element of row (i1, i2, i3), wrapped to 64 bits (R91). -/
def rowAddr (h : HandleBits) (i1 i2 i3 : Nat) : Nat :=
  (((hBase h : Int) + i1 * hStride h 1 + i2 * hStride h 2 + i3 * hStride h 3) % (2 ^ 64 : Int)).toNat

/-- The address of row n in walk order: d1 fastest, then d2, then d3 (R102). -/
def hRow (h : HandleBits) (n : Nat) : Nat :=
  rowAddr h (n % hDim h 1) (n / hDim h 1 % hDim h 2) (n / (hDim h 1 * hDim h 2))

/-- Number of rows: 0 when any dimension is 0. -/
def hRowCount (h : HandleBits) : Nat := if hCount h = 0 then 0 else hDim h 1 * hDim h 2 * hDim h 3

/-- The rows in walk order. -/
def hRows (h : HandleBits) : List Nat := (List.range (hRowCount h)).map (hRow h)

/-- Bytes that hold the D0 contiguous elements of a row. -/
def rowBytes (h : HandleBits) : Nat := (hDim h 0 * efmtBits (hEfmt h) + 7) / 8

/-- The extent as pieces: first byte and length of each row (R91). -/
def hExtent (h : HandleBits) : List (Nat × Nat) := (hRows h).map fun a => (a, rowBytes h)

/-- One element: its byte address and, for a 4-bit format, whether it is the high nibble (R70). -/
structure ElemRef where
  addr : Nat
  high : Bool
  deriving DecidableEq, Repr

/-- Element i0 of a row that begins at a. -/
def rowElem (h : HandleBits) (a i0 : Nat) : ElemRef :=
  let bit := i0 * efmtBits (hEfmt h)
  { addr := (a + bit / 8) % 2 ^ 64, high := bit % 8 == 4 }

/-- Element (i0, i1, i2, i3) (R91). -/
def hElem (h : HandleBits) (i0 i1 i2 i3 : Nat) : ElemRef := rowElem h (rowAddr h i1 i2 i3) i0

/-- All elements in walk order: d0 fastest (R102). -/
def hElems (h : HandleBits) : List ElemRef :=
  (hRows h).flatMap fun a => (List.range (hDim h 0)).map (rowElem h a)

/-- Bytes of the packed tensor (R217): its elements packed by R70 in walk order. -/
def hPacked (h : HandleBits) : Nat := (hCount h * efmtBits (hEfmt h) + 7) / 8

/-! ## The handle words (R93) -/

/-- HSET: a field of hd becomes the low bits of sa. -/
def setField (f : HField) (h : HandleBits) (v : Word) : HandleBits :=
  match f with
  | .base => hset h 0 64 v.toNat
  | .fmt => hset h 64 16 v.toNat
  | .flags => hset h 80 16 v.toNat
  | .dims => hset h 96 64 v.toNat
  | .st1 => hset h 160 32 v.toNat
  | .st2 => hset h 192 32 v.toNat
  | .st3 => hset h 224 32 v.toNat

/-- HGET: strides sign-extended, other fields zero-extended. Bits [79:70] read as HSET wrote them, although they are RES: R93 has HSET write
them as given and HGET write the field, R5 has a RES field read zero (DESIGN CHOICE, log 107). -/
def getField (f : HField) (h : HandleBits) : Word :=
  match f with
  | .base => BitVec.ofNat 64 (hbits h 0 64)
  | .fmt => BitVec.ofNat 64 (hbits h 64 16)
  | .flags => BitVec.ofNat 64 (hbits h 80 16)
  | .dims => BitVec.ofNat 64 (hbits h 96 64)
  | .st1 => BitVec.ofInt 64 (hStride h 1)
  | .st2 => BitVec.ofInt 64 (hStride h 2)
  | .st3 => BitVec.ofInt 64 (hStride h 3)

/-- HOFF: the base moves, wrapping on 64 bits. -/
def offsetBase (h : HandleBits) (by_ : Word) : HandleBits := hset h 0 64 (hBase h + by_.toNat)

/-- HSLICE's two limits: the slice ends inside the dimension, and a 4-bit row starts at an even element. -/
def sliceOk (k : Nat) (h : HandleBits) (start extent : Word) : Bool :=
  decide (start.toNat + extent.toNat ≤ hDim h k) &&
    !(k == 0 && efmtBits (hEfmt h) == 4 && start.toNat % 2 == 1)

/-- Bytes that HSLICE moves the base by. -/
def sliceBytes (k : Nat) (h : HandleBits) (start : Nat) : Int :=
  if k = 0 then ((start * efmtBits (hEfmt h) / 8 : Nat) : Int) else start * hStride h k

/-- HSLICE: dimension k narrows to `extent` elements from `start`. -/
def sliceHandle (k : Nat) (h : HandleBits) (start extent : Word) : HandleBits :=
  let moved := hset h 0 64 (((hBase h : Int) + sliceBytes k h start.toNat) % (2 ^ 64 : Int)).toNat
  hset moved (96 + 16 * k) 16 extent.toNat

end Sys2Proof.Machine
end

