-- ==== Sys2Proof/Machine/Translate.lean ====
section
/-! DEFINITION. Address spaces (R87, R89), the page table and its faults (R94, R95), the translation buffer and its
pins (R96), and the checks of a handle and of a scalar address at enqueue (R92). -/

namespace Sys2Proof.Machine

open Sys2Proof

/-! ## Why a word does not enter its queue -/

/-- A check that fails: a trap of R200, every buffer entry pinned (R96), a wait, or a DEV address that does not exist. -/
inductive Stop where
  | trap (code : BitVec 8) (info : Nat)
  | allPinned
  | wait (h : Hold)
  | absent (addr : Nat)
  deriving DecidableEq, Repr

/-- A check at enqueue. -/
abbrev Check (α : Type) := Except Stop α

/-- A condition that must hold, else a trap. -/
def require (ok : Bool) (code : BitVec 8) (info : Nat) : Check Unit :=
  if ok then .ok () else .error (.trap code info)

/-! ## Ranges of virtual addresses (R87) -/

/-- The range a virtual address falls in. -/
inductive Region where
  | localPad
  | diePad (c : Fin 16)
  | multicast (w : Fin 4)
  | translated
  | outside
  deriving DecidableEq, Repr

/-- R87's table of ranges. -/
def regionOf (va : Nat) : Region :=
  if va < 0x400000 then .localPad
  else if 0x40000000 ≤ va ∧ va < 0x44000000 then .diePad (Fin.ofNat 16 ((va - 0x40000000) / 0x400000))
  else if 0x44000000 ≤ va ∧ va < 0x45000000 then .multicast (Fin.ofNat 4 ((va - 0x44000000) / 0x400000))
  else if 0x100000000 ≤ va ∧ va < 0x10000000000000 then .translated
  else .outside

/-- The first address after an untranslated region. -/
def regionEnd : Region → Nat
  | .localPad => 0x400000
  | .diePad c => 0x40000000 + (c.val + 1) * 0x400000
  | .multicast w => 0x44000000 + (w.val + 1) * 0x400000
  | .translated => 0x10000000000000
  | .outside => 0

/-- The physical addresses an untranslated address of core c names: its own scratchpad, a scratchpad of its die, or
those of the masked cores of its die (R87, R89). -/
def padAddrs (c : CoreId) (mask : BitVec 16) (va : Nat) : List Nat :=
  match regionOf va with
  | .localPad => [scratchBase c + va]
  | .diePad l => [scratchBase (coreOf (dieOf c) l) + (va - 0x40000000) % 0x400000]
  | .multicast _ =>
    ((List.finRange 16).filter fun l => mask.getLsbD l.val).map fun l =>
      scratchBase (coreOf (dieOf c) l) + (va - 0x44000000) % 0x400000
  | _ => []

/-! ## The table (R94, R95) -/

/-- Bits [lo + n - 1 : lo] of a number. -/
def nbits (v lo n : Nat) : Nat := v / 2 ^ lo % 2 ^ n

/-- The kind code of a leaf. -/
def PageKind.ofCode (k : Nat) : Option PageKind :=
  match k with | 0 => some .dev | 1 => some .host | 2 => some .peer | _ => none
/-- The ordering code of a leaf. -/
def PageOrd.ofCode (k : Nat) : Option PageOrd :=
  match k with | 0 => some .so | 1 => some .rc | 2 => some .un | _ => none

/-- A leaf entry read at a page size: reserved codes, a base that is not aligned, and a HOST address at or above 8 TiB
and a PEER address past the scratchpads are table errors (R95, R216); a DEV address past the stacks does not exist (log 26). -/
def leafPage (fill va size e : Nat) : Check PageMap :=
  let pa := nbits e 12 44 * 4096
  match PageKind.ofCode (nbits e 2 2), PageOrd.ofCode (nbits e 4 2) with
  | some kind, some ord =>
    if pa % size ≠ 0 then .error (.trap codeTable va)
    else if kind = .host ∧ hostSize ≤ pa then .error (.trap codeTable va)
    else if kind = .peer ∧ 0x4010000000 ≤ pa then .error (.trap codeTable va)
    else if kind = .dev ∧ devSize ≤ pa then .error (.absent pa)
    else .ok { fill := fill, va := va / size * size, size := size, pa := pa, kind := kind, ord := ord,
               readOnly := nbits e 6 1 == 1, relay := nbits e 7 1 == 1, module := Fin.ofNat 64 (nbits e 56 6) }
  | _, _ => .error (.trap codeTable va)

/-- The walk of one address down the levels: bit position of the index, the leaf size where a leaf may stand, and
whether it must (R94, R95). A table past the stacks does not exist (log 26). -/
def walkFrom (s : State) (va : Nat) : List (Nat × Option Nat × Bool) → Nat → Check PageMap
  | [], _ => .error (.trap codeTable va)
  | (shift, leafSize, mustLeaf) :: rest, table =>
    let at_ := table + nbits va shift 9 * 8
    if devSize ≤ at_ then .error (.absent at_)
    else
      let e := s.load at_ 8
      let leaf := nbits e 1 1 == 1
      if nbits e 0 1 = 0 then .error (.trap codeTranslation va)
      else match leafSize with
        | some size =>
          if leaf then leafPage s.free va size e
          else if mustLeaf then .error (.trap codeTable va)
          else walkFrom s va rest (nbits e 12 44 * 4096)
        | none => if leaf then .error (.trap codeTable va) else walkFrom s va rest (nbits e 12 44 * 4096)

/-- The four levels of R94. -/
def walkLevels : List (Nat × Option Nat × Bool) :=
  [(43, none, false), (34, none, false), (25, some 0x2000000, false), (16, some 0x10000, true)]

/-- A table walk of a translated address (R94). -/
def walk (s : State) (va : Nat) : Check PageMap :=
  walkFrom s va walkLevels (nbits s.owner.ptbr.toNat 12 40 * 4096)

/-! ## The translation buffer (R96) -/

/-- A page covers an address. -/
def PageMap.covers (p : PageMap) (va : Nat) : Bool := decide (p.va ≤ va ∧ va < p.va + p.size)

/-- The entry that an enqueue would hit. -/
def tlbLookup (x : CoreState) (va : Nat) : Option PageMap :=
  (x.tlb.find? fun e => !e.stale && e.page.covers va).map TlbEntry.page

/-- The translation of an address by core c: a hit, else a walk (R96). -/
def translate (s : State) (c : CoreId) (va : Nat) : Check PageMap :=
  match tlbLookup (s.core c) va with
  | some p => .ok p
  | none => walk s va

/-- One more pin on a page, entering it in the buffer when it is not there. A full buffer gives up an unpinned entry by a
free choice; with every entry pinned there is none to give up (R96). -/
def pinPage (s : State) (c : CoreId) (p : PageMap) : Check State :=
  let x := s.core c
  if x.tlb.any fun e => e.page == p then
    .ok (s.onCore c fun x => { x with tlb := x.tlb.map fun e => if e.page == p then { e with pins := e.pins + 1 } else e })
  else if x.tlb.length < 256 then
    .ok (s.onCore c fun x => { x with tlb := x.tlb ++ [{ page := p, pins := 1, stale := false }] })
  else
    let free := x.tlb.filter fun e => e.pins == 0
    match free[s.freeNat 3 % free.length]? with
    | none => .error .allPinned
    | some victim =>
      .ok (s.onCore c fun x =>
        { x with tlb := (x.tlb.filter fun e => e != victim) ++ [{ page := p, pins := 1, stale := false }] })

/-- Pins on pages one after the other. -/
def pinEach (s : State) (c : CoreId) : List PageMap → Check State
  | [] => .ok s
  | p :: rest => do pinEach (← pinPage s c p) c rest

/-- Pins on every page of a list: those that the buffer holds come first, so that no page of the list makes room for another (R96). -/
def pinPages (s : State) (c : CoreId) (ps : List PageMap) : Check State :=
  let hit := fun (p : PageMap) => (s.core c).tlb.any fun e => e.page == p
  pinEach s c (ps.filter hit ++ ps.filter fun p => !(hit p))

/-! ## Accesses through captured translations -/

/-- The physical addresses of a virtual address of core c, by the translations a command took (R96). PEER pages have
none in this module. -/
def physAddrs (c : CoreId) (mask : BitVec 16) (pages : List PageMap) (va : Nat) : List Nat :=
  match regionOf va with
  | .translated =>
    match pages.find? fun p => p.covers va with
    | some p =>
      match p.kind with
      | .dev => [p.pa + (va - p.va)]
      | .host => [hostBase + p.pa + (va - p.va)]
      | .peer => []
    | none => []
  | _ => padAddrs c mask va

/-- One byte by a captured translation. -/
def State.readV (s : State) (c : CoreId) (pages : List PageMap) (va : Nat) : Byte :=
  match physAddrs c 0 pages va with
  | a :: _ => s.loadByte a
  | [] => 0

/-- A little-endian value of n bytes. -/
def State.loadV (s : State) (c : CoreId) (pages : List PageMap) (va n : Nat) : Nat :=
  leNat ((List.range n).map fun i => s.readV c pages (va + i))

/-- A store of one byte, to every scratchpad a multicast write names (R89). -/
def State.writeV (s : State) (c : CoreId) (mask : BitVec 16) (pages : List PageMap) (va : Nat) (b : Byte) : State :=
  (physAddrs c mask pages va).foldl (fun s a => s.storeBytes a [b]) s

/-- A store of bytes. -/
def State.storeV (s : State) (c : CoreId) (mask : BitVec 16) (pages : List PageMap) : Nat → List Byte → State
  | _, [] => s
  | va, b :: rest => State.storeV (s.writeV c mask pages va b) c mask pages (va + 1) rest

/-- The bits of one element (R70). -/
def State.loadElem (s : State) (c : CoreId) (pages : List PageMap) (efmt : Nat) (e : ElemRef) : Nat :=
  if efmtBits efmt = 4 then
    let b := (s.readV c pages e.addr).toNat
    if e.high then b / 16 else b % 16
  else s.loadV c pages e.addr (efmtBytes efmt)

/-- Writing the bits of one element; the other nibble of a 4-bit element's byte stays (R70). -/
def State.storeElem (s : State) (c : CoreId) (mask : BitVec 16) (pages : List PageMap) (efmt : Nat) (e : ElemRef)
    (v : Nat) : State :=
  if efmtBits efmt = 4 then
    (physAddrs c mask pages e.addr).foldl (fun s a =>
      let b := (s.loadByte a).toNat
      s.storeBytes a [BitVec.ofNat 8 (if e.high then v % 16 * 16 + b % 16 else b / 16 * 16 + v % 16)]) s
  else s.storeV c mask pages e.addr (leBytes (efmtBytes efmt) v)

/-! ## Extents -/

/-- The spaces an operand accepts (R87). -/
structure Accepts where
  localPad : Bool := true
  die : Bool := true
  multicast : Bool := false
  dev : Bool := true
  host : Bool := true
  peer : Bool := false
  deriving DecidableEq, Repr

/-- A region that an operand accepts by its address alone. -/
def Accepts.region (acc : Accepts) : Region → Bool
  | .localPad => acc.localPad
  | .diePad _ => acc.die
  | .multicast _ => acc.multicast
  | .translated => acc.dev || acc.host || acc.peer
  | .outside => false

/-- A page kind that an operand accepts. -/
def Accepts.kind (acc : Accepts) : PageKind → Bool
  | .dev => acc.dev
  | .host => acc.host
  | .peer => acc.peer

/-- Entering a touched granule with the lowest address touched in it, keeping the list ascending without repeats. -/
def insertTouch (granule addr : Nat) : List (Nat × Nat) → List (Nat × Nat)
  | [] => [(granule, addr)]
  | x :: rest =>
    if granule < x.1 then (granule, addr) :: x :: rest
    else if granule = x.1 then (granule, min addr x.2) :: rest
    else x :: insertTouch granule addr rest

/-- The 64 KiB granules that pieces of bytes touch, ascending, each with its lowest touched address. -/
def granules (pieces : List (Nat × Nat)) : List (Nat × Nat) :=
  pieces.foldl (fun acc p =>
    (List.range ((p.1 + p.2 - 1) / 0x10000 - p.1 / 0x10000 + 1)).foldl (fun acc i =>
      insertTouch (p.1 / 0x10000 + i) (max p.1 ((p.1 / 0x10000 + i) * 0x10000)) acc) acc) []

/-- What a page of an extent must satisfy (R92): kind, then the write permission. -/
def pageAllowed (acc : Accepts) (write : Bool) (p : PageMap) (addr : Nat) : Check Unit := do
  require (acc.kind p.kind) codeSpace addr
  require (!(write && p.readOnly)) codeProtection addr

/-- Translating touched granules in ascending order: the distinct pages in order, each with the lowest address touched,
or the failure that stands in its place; a granule that fails counts as a page. -/
def translateTouches (s : State) (c : CoreId) : List (Nat × Nat) → List (Nat × Check PageMap) → List (Nat × Check PageMap)
  | [], acc => acc.reverse
  | (_, addr) :: rest, acc =>
    let seen := acc.any fun q => match q.2 with | .ok p => p.covers addr | .error _ => false
    if seen then translateTouches s c rest acc
    else translateTouches s c rest ((addr, translate s c addr) :: acc)

/-- The pages of translated touches: more than 64 raise the extent fault with `info`, then the first page that fails
decides (R92). -/
def touchPages (s : State) (c : CoreId) (acc : Accepts) (write : Bool) (info : Nat) (touches : List (Nat × Nat)) :
    Check (List PageMap) := do
  let found := translateTouches s c touches []
  require (decide (found.length ≤ 64)) codeExtent info
  found.mapM fun q => do
    let p ← q.2
    pageAllowed acc write p q.1
    pure p

/-- A piece lies in one untranslated region, or anywhere in the translated range. -/
def pieceInside (r : Region) (p : Nat × Nat) : Bool :=
  regionOf p.1 == r && regionOf (p.1 + p.2 - 1) == r

/-- The pages of a contiguous range of n bytes from `va`, which an operand with these spaces may use: the address range
first, then the pages (R92). A range in an untranslated space lies in one scratchpad or window. -/
def rangePages (s : State) (c : CoreId) (acc : Accepts) (write : Bool) (va n : Nat) : Check (List PageMap) := do
  let r := regionOf va
  require (acc.region r) codeSpace va
  if n = 0 then pure []
  else do
    require (pieceInside r (va, n)) codeSpace va
    if r = .translated then touchPages s c acc write va (granules [(va, n)]) else pure []

/-! ## A handle at enqueue (R92) -/

/-- The range that SPACE names, read against BASE's range (R92). -/
def spaceNames (space : Nat) : Region → Bool
  | .localPad => space == 0
  | .diePad _ => space == 1
  | .multicast _ => space == 1
  | .translated => space == 2 || space == 3 || space == 4
  | .outside => false

/-- The spaces that SPACE leaves of what an operand accepts: 2 DEV, 3 HOST, 4 PEER. -/
def spaceAccepts (acc : Accepts) (space : Nat) : Accepts :=
  { localPad := acc.localPad && space == 0, die := acc.die && space == 1, multicast := acc.multicast && space == 1,
    dev := acc.dev && space == 2, host := acc.host && space == 3, peer := acc.peer && space == 4 }

/-- BASE and strides are multiples of the element size, and rows of 4-bit elements hold whole bytes (R92). -/
def hAligned (h : HandleBits) : Bool :=
  if efmtBits (hEfmt h) = 4 then !(hDim h 0 % 2 == 1 && decide (1 < hDim h 1))
  else
    let n := efmtBytes (hEfmt h)
    hBase h % n == 0 && [1, 2, 3].all fun k => hStride h k % (n : Int) == 0

/-- Every space. -/
def anySpace : Accepts := { multicast := true, peer := true }

/-- Checks 1 to 3 of R92: reserved codes, the range of BASE, alignment. `number` is the handle's number, the XINFO of a
handle or extent fault. -/
def handleForm (h : HandleBits) (number : HReg) : Check Unit := do
  require (decide (hSpace h < 5 ∧ hOrdc h < 3 ∧ hEfmt h < 11)) codeHandle number.toNat
  require (spaceNames (hSpace h) (regionOf (hBase h))) codeSpace (hBase h)
  require (hAligned h) codeAlignment (hBase h)

/-- Checks 4 to 6 of R92: every element in BASE's range, at most 64 pages, the pages in ascending order. -/
def handlePages (s : State) (c : CoreId) (h : HandleBits) (number : HReg) (write : Bool) : Check (List PageMap) := do
  let pieces := hExtent h
  let r := regionOf (hBase h)
  match pieces.find? fun p => !pieceInside r p with
  | some p => .error (.trap codeSpace (if regionOf p.1 = r then regionEnd r else p.1))
  | none =>
    if r = .translated then
      touchPages s c (spaceAccepts anySpace (hSpace h)) write number.toNat (granules pieces)
    else pure []

/-- A handle's checks of R92 but for the format word: its pages in ascending order. -/
def checkR92 (s : State) (c : CoreId) (h : HandleBits) (number : HReg) (write : Bool) : Check (List PageMap) := do
  handleForm h number
  handlePages s c h number write

/-- A handle in a space that its operand accepts (R87), which is tested once the checks of R92 have passed (R150, R280, R288,
R313); XINFO is BASE. -/
def acceptSpace (h : HandleBits) (acc : Accepts) : Check Unit :=
  require ((spaceAccepts acc (hSpace h)).region (regionOf (hBase h))) codeSpace (hBase h)

/-- A handle's checks of R92, and then its space. -/
def checkHandle (s : State) (c : CoreId) (h : HandleBits) (number : HReg) (acc : Accepts) (write : Bool) :
    Check (List PageMap) := do
  let pages ← checkR92 s c h number write
  acceptSpace h acc
  pure pages

/-- An image handle of R145: 64-byte aligned, the image's bytes contiguous from BASE. A spill area has BASE and SPACE read; ACCSV and
ACCLD use ORDC too (R164), whose reserved value is a handle fault (log 74). -/
def checkImage (s : State) (c : CoreId) (h : HandleBits) (number : HReg) (bytes : Nat) (write : Bool) (ordc : Bool := false) :
    Check (List PageMap) := do
  require (decide (hSpace h < 5) && (!ordc || decide (hOrdc h < 3))) codeHandle number.toNat
  let acc := spaceAccepts {} (hSpace h)
  let r := regionOf (hBase h)
  require (spaceNames (hSpace h) r && acc.region r) codeSpace (hBase h)
  require (hBase h % 64 == 0) codeAlignment (hBase h)
  require (pieceInside r (hBase h, bytes)) codeSpace (hBase h)
  if r = .translated then touchPages s c acc write number.toNat (granules [(hBase h, bytes)]) else pure []

/-- The physical bytes of pieces, as pairs of first byte and length, for the ordering of accesses to one byte (R160). -/
def physPieces (c : CoreId) (mask : BitVec 16) (pages : List PageMap) (pieces : List (Nat × Nat)) : List Nat :=
  pieces.flatMap fun p => (List.range p.2).flatMap fun i => physAddrs c mask pages (p.1 + i)

end Sys2Proof.Machine
end

