-- ==== Sys2Proof/Machine/Scalar.lean ====
section
/-! DEFINITION. The typed and untyped register words of the S engine (R48, R57 to R60, R272, R277, R315, R318, R323,
R333, R337): arithmetic, logic, shifts, comparisons, predicates, selection and moves. -/

namespace Sys2Proof.Machine

open Sys2Proof

/-- A typed register word: both operands at its width, f exact, the result wrapped and extended by the type (R57). -/
def State.typedWord (s : State) (ty : ScalarType) (d a b : SReg) (bound : Nat) (f : Int → Int → Int) : Out :=
  s.scalarResult [a, b] [] d bound (wrap ty (f (typed ty (s.src 0 a)) (typed ty (s.src 1 b))))

/-- A typed word of one operand. -/
def State.typedUnary (s : State) (ty : ScalarType) (d a : SReg) (f : Nat → Nat) : Out :=
  s.scalarResult [a] [] d 1 (wrap ty (f (typed ty (s.src 0 a)).toNat : Nat))

/-- A bitwise word at a width: the patterns of the t low bits combine bit by bit. -/
def bitwise (ty : ScalarType) (f : BitVec 64 → BitVec 64 → BitVec 64) (x y : Int) : Int :=
  ((f (BitVec.ofInt 64 x) (BitVec.ofInt 64 y)).toNat % 2 ^ widthBits ty.width : Nat)

/-- NOP has no effect (R318). -/
def execNop (s : State) : Out := .next s.advance

/-- ADD: R57, R272. -/
def execAdd (ty : ScalarType) (d a b : SReg) (s : State) : Out :=
  s.typedWord ty d a b 1 fun x y => x + y

/-- SUB: R57, R337. -/
def execSub (ty : ScalarType) (d a b : SReg) (s : State) : Out :=
  s.typedWord ty d a b 1 fun x y => x - y

/-- MUL: the low half of the product (R57, R315). -/
def execMul (ty : ScalarType) (d a b : SReg) (s : State) : Out :=
  s.typedWord ty d a b 3 fun x y => x * y

/-- MULH: the high half of the signed product (R57, R315). -/
def execMulh (ty : ScalarType) (d a b : SReg) (s : State) : Out :=
  s.typedWord ty d a b 4 fun x y => x * y / 2 ^ widthBits ty.width

/-- MULHN: the high half of the natural product (R57, R315). -/
def execMulhn (ty : ScalarType) (d a b : SReg) (s : State) : Out :=
  s.typedWord ty d a b 4 fun x y => x * y / 2 ^ widthBits ty.width

/-- DIV: the signed quotient toward zero (R27, R57, R272). -/
def execDiv (ty : ScalarType) (d a b : SReg) (s : State) : Out :=
  s.typedWord ty d a b 20 fun x y => quotient x y

/-- DIVN: the natural quotient (R27, R57, R272). -/
def execDivn (ty : ScalarType) (d a b : SReg) (s : State) : Out :=
  s.typedWord ty d a b 20 fun x y => quotient x y

/-- REM: the remainder with the sign of the dividend (R27, R57, R315). -/
def execRem (ty : ScalarType) (d a b : SReg) (s : State) : Out :=
  s.typedWord ty d a b 20 fun x y => remainder x y

/-- REMN: the natural remainder (R27, R57, R315). -/
def execRemn (ty : ScalarType) (d a b : SReg) (s : State) : Out :=
  s.typedWord ty d a b 20 fun x y => remainder x y

/-- AND: R57, R272. -/
def execAnd (ty : ScalarType) (d a b : SReg) (s : State) : Out :=
  s.typedWord ty d a b 1 fun x y => bitwise ty (· &&& ·) x y

/-- OR: R57, R315. -/
def execOr (ty : ScalarType) (d a b : SReg) (s : State) : Out :=
  s.typedWord ty d a b 1 fun x y => bitwise ty (· ||| ·) x y

/-- XOR: R57, R337. -/
def execXor (ty : ScalarType) (d a b : SReg) (s : State) : Out :=
  s.typedWord ty d a b 1 fun x y => bitwise ty (· ^^^ ·) x y

/-- SHL: left by y mod t (R57, R337). -/
def execShl (ty : ScalarType) (d a b : SReg) (s : State) : Out :=
  s.typedWord ty d a b 1 fun x y => x * 2 ^ shiftAmount ty y

/-- SHR: right by y mod t, zeros shifted in (R57, R337). -/
def execShr (ty : ScalarType) (d a b : SReg) (s : State) : Out :=
  s.typedWord ty d a b 1 fun x y => x / 2 ^ shiftAmount ty y

/-- SHA: right by y mod t, copies of the sign shifted in (R57, R337). -/
def execSha (ty : ScalarType) (d a b : SReg) (s : State) : Out :=
  s.typedWord ty d a b 1 fun x y => x / 2 ^ shiftAmount ty y

/-- MIN: the signed minimum (R57, R315). -/
def execMin (ty : ScalarType) (d a b : SReg) (s : State) : Out :=
  s.typedWord ty d a b 1 fun x y => min x y

/-- MINN: the natural minimum (R57, R315). -/
def execMinn (ty : ScalarType) (d a b : SReg) (s : State) : Out :=
  s.typedWord ty d a b 1 fun x y => min x y

/-- MAX: the signed maximum (R57, R315). -/
def execMax (ty : ScalarType) (d a b : SReg) (s : State) : Out :=
  s.typedWord ty d a b 1 fun x y => max x y

/-- MAXN: the natural maximum (R57, R315). -/
def execMaxn (ty : ScalarType) (d a b : SReg) (s : State) : Out :=
  s.typedWord ty d a b 1 fun x y => max x y

/-- CLZ: leading zeros of a at the width (R57, R272). -/
def execClz (ty : ScalarType) (d a : SReg) (s : State) : Out :=
  s.typedUnary ty d a (leadingZeros (widthBits ty.width))

/-- POPC: one bits of a at the width (R57, R315). -/
def execPopc (ty : ScalarType) (d a : SReg) (s : State) : Out :=
  s.typedUnary ty d a (oneBits (widthBits ty.width))

/-- A word that writes a predicate from two registers. -/
def State.predicateWord (s : State) (srcs : List SReg) (pd : PReg) (b : Bool) : Out :=
  s.issueGate srcs [] 0 (.next (((s.popAll srcs).writePred pd b).bump.advance))

/-- CMP: pd = a cond b at the type's width and signedness (R30, R59, R277). -/
def execCmp (cond : Cond) (ty : ScalarType) (pd : PReg) (a b : SReg) (s : State) : Out :=
  s.predicateWord [a, b] pd (condHolds cond (typed ty (s.src 0 a)) (typed ty (s.src 1 b)))

/-- PLOG: pd = fn[pa × 2 + pb] (R60, R323). -/
def execPlog (pd pa pb : PReg) (fn : BitVec 4) (s : State) : Out :=
  s.predicateWord [] pd (plogFn fn (s.pred pa) (s.pred pb))

/-- SEL: d = a under a true guard, else b, on all 64 bits; both sources are read (R60, R333). -/
def execSel (g : Guard) (d a b : SReg) (s : State) : Out :=
  s.scalarResult [a, b] [] d 1 (if s.guardTrue g then s.src 0 a else s.src 1 b)

/-- MOV: d = a (R58, R318). -/
def execMov (d a : SReg) (s : State) : Out := s.scalarResult [a] [] d 1 (s.src 0 a)

/-- FMT: pushes a onto the format queue, once it has room (R85, R283). -/
def execFmt (a : SReg) (s : State) : Out :=
  s.issueGate [a] [] 0
    (if 16 ≤ s.me.fmtQ.length then .next (s.hold .formatFull)
     else .next (((s.popAll [a]).onMe fun x => { x with fmtQ := x.fmtQ ++ [s.src 0 a] }).bump.advance))

end Sys2Proof.Machine
end

