-- ==== Sys2Proof/Machine/ScalarImm.lean ====
section
/-! DEFINITION. The register-immediate words of the S engine (R29, R58, R273, R277, R319, R338). They act on all 64
bits, with the immediate sign-extended. -/

namespace Sys2Proof.Machine

open Sys2Proof

/-- The immediate of an RI word (R29). -/
def sextImm (imm : BitVec 12) : Word := imm.signExtend 64

/-- ADDI: d = a + imm (R273). -/
def execAddi (d a : SReg) (imm : BitVec 12) (s : State) : Out := s.scalarResult [a] [] d 1 (s.src 0 a + sextImm imm)

/-- ANDI: d = a and imm (R273). -/
def execAndi (d a : SReg) (imm : BitVec 12) (s : State) : Out := s.scalarResult [a] [] d 1 (s.src 0 a &&& sextImm imm)

/-- ORI: d = a or imm (R319). -/
def execOri (d a : SReg) (imm : BitVec 12) (s : State) : Out := s.scalarResult [a] [] d 1 (s.src 0 a ||| sextImm imm)

/-- XORI: d = a xor imm (R338). -/
def execXori (d a : SReg) (imm : BitVec 12) (s : State) : Out := s.scalarResult [a] [] d 1 (s.src 0 a ^^^ sextImm imm)

/-- SHLI: d = a << n (R338). -/
def execShli (d a : SReg) (n : BitVec 6) (s : State) : Out := s.scalarResult [a] [] d 1 (s.src 0 a <<< n.toNat)

/-- SHRI: d = a >> n, zeros shifted in (R338). -/
def execShri (d a : SReg) (n : BitVec 6) (s : State) : Out := s.scalarResult [a] [] d 1 (s.src 0 a >>> n.toNat)

/-- SHAI: d = a >> n, copies of a[63] shifted in (R338). -/
def execShai (d a : SReg) (n : BitVec 6) (s : State) : Out := s.scalarResult [a] [] d 1 ((s.src 0 a).sshiftRight n.toNat)

/-- CMPI: pd = a cond imm as i64 (R30, R277). -/
def execCmpi (cond : Cond) (pd : PReg) (a : SReg) (imm : BitVec 12) (s : State) : Out :=
  s.predicateWord [a] pd (condHolds cond (s.src 0 a).toInt (sextImm imm).toInt)

/-- MOVI: d = imm (R319). -/
def execMovi (d : SReg) (imm : BitVec 12) (s : State) : Out := s.scalarResult [] [] d 1 (sextImm imm)

/-- MOVHI: d = (imm << 12) or a[11:0] (R29, R319). -/
def execMovhi (d a : SReg) (imm : BitVec 12) (s : State) : Out :=
  s.scalarResult [a] [] d 1 ((sextImm imm <<< 12) ||| (s.src 0 a &&& 0xfff))

end Sys2Proof.Machine
end

