-- ==== Sys2Proof/Machine/Branch.lean ====
section
/-! DEFINITION. The branch words (R24, R31, R61, R274, R303, R310, R328). -/

namespace Sys2Proof.Machine

open Sys2Proof

/-- The target of an offset branch: the word's own address plus the sign-extended offset × 4 (R31). -/
def branchTarget {n : Nat} (pc : Word) (off : BitVec n) : Word := pc + off.signExtend 64 * 4

/-- A branch that is taken (R24). -/
def State.branch (s : State) (target : Word) : State := s.onMe fun x => x.branchTo target s.clock

/-- B (R274). -/
def execB (g : Guard) (off : BitVec 19) (s : State) : Out :=
  if s.guardTrue g then .next (s.branch (branchTarget s.me.pc off)) else .next s.advance

/-- CALL writes lk and branches (R274). -/
def execCall (g : Guard) (off : BitVec 19) (s : State) : Out :=
  if s.guardTrue g then .next ((s.writeReg 59 (s.me.pc + 4) 1).branch (branchTarget s.me.pc off))
  else .next s.advance

/-- A branch to a register value: low bits set fault at issue (R24, R303). -/
def State.branchReg (s : State) (srcs : List SReg) (target : Word) : Out :=
  if target.extractLsb' 0 2 ≠ 0 then .next (s.faultHere codeMisalignedTarget target)
  else .next ((s.popAll srcs).bump.branch target)

/-- RET branches to lk (R328). -/
def execRet (g : Guard) (s : State) : Out :=
  if s.guardTrue g then s.issueGate [59] [] 0 (s.branchReg [59] (s.src 0 59)) else .next s.advance

/-- JR branches to a (R303). Under a false guard it has no effect and pops nothing (R33; DEDUCED, log 7). -/
def execJr (g : Guard) (a : SReg) (s : State) : Out :=
  if s.guardTrue g then s.issueGate [a] [] 0 (s.branchReg [a] (s.src 0 a)) else .next s.advance

/-- LOOP: c = c − 1, and a branch when the new c is not 0 (R61, R310). On s0 the write is discarded and it branches. -/
def execLoop (c : SReg) (off : BitVec 17) (s : State) : Out :=
  s.issueGate [c] [] 0
    (let n := s.src 0 c - 1
     let t := (s.writeReg c n 1).bump
     if n = 0 then .next t.advance else .next (t.branch (branchTarget s.me.pc off)))

end Sys2Proof.Machine
end

