-- ==== Sys2Proof/Machine/HandleWords.lean ====
section
/-! DEFINITION. The handle words of the S engine (R35, R93, R299, R300). -/

namespace Sys2Proof.Machine

open Sys2Proof

/-- A handle word that writes hd: its gates, its pops, the handle with its bound. -/
def State.handleResult (s : State) (srcs : List SReg) (hs : List HReg) (hd : HReg) (bound : Nat) (v : HandleBits) : Out :=
  s.issueGate srcs hs 0 (.next (((s.popAll srcs).writeHandle hd v bound).bump.advance))

/-- A field write of bound 1: it stands in the handle and in whatever a live shadow still lets a read see (R42). -/
def State.writeHandleField (s : State) (f : HField) (h : HReg) (v : Word) : State :=
  s.onMe fun x =>
    { x with
      handles := x.handles.set h.toNat (setField f x.handles[h.toNat] v), dirtyH := true
      shadows := x.shadows.map fun w => if w.handle && w.reg == h.toNat then { w with old := setField f w.old v } else w }

/-- HSET writes sa into a field of hd. -/
def execHset (f : HField) (hd : HReg) (sa : SReg) (s : State) : Out :=
  s.issueGate [sa] [] 0 (.next (((s.popAll [sa]).writeHandleField f hd (s.src 0 sa)).bump.advance))

/-- HGET reads a field of ha into sa. -/
def execHget (f : HField) (sa : SReg) (ha : HReg) (s : State) : Out :=
  s.scalarResult [] [ha] sa 1 (getField f (s.handle 0 ha))

/-- HMOV copies a handle. -/
def execHmov (hd ha : HReg) (s : State) : Out := s.handleResult [] [ha] hd 1 (s.handle 0 ha)

/-- HOFF copies a handle and moves its base. -/
def execHoff (hd ha : HReg) (sa : SReg) (s : State) : Out :=
  s.handleResult [sa] [ha] hd 1 (offsetBase (s.handle 0 ha) (s.src 0 sa))

/-- HSLICE narrows dimension k, or raises the handle-range fault with XINFO the handle's number (R93; DEDUCED, log 8). -/
def execHslice (k : BitVec 2) (hd ha : HReg) (sa sb : SReg) (s : State) : Out :=
  s.issueGate [sa, sb] [ha] 0
    (if sliceOk k.toNat (s.handle 0 ha) (s.src 0 sa) (s.src 1 sb) then
       .next (((s.popAll [sa, sb]).writeHandle hd
         (sliceHandle k.toNat (s.handle 0 ha) (s.src 0 sa) (s.src 1 sb)) 2).bump.advance)
     else .next (s.faultHere codeHandleRange (ha.setWidth 64)))

end Sys2Proof.Machine
end

