-- ==== Sys2Proof/Machine/Fetch.lean ====
section
/-! DEFINITION. The instruction cache and fetch into the S queue (R20, R302, R357, R358), LIT (R309), and the loads and
stores of the S engine (R62, R305, R343). -/

namespace Sys2Proof.Machine

open Sys2Proof

/-! ## The cache (R357) -/

/-- The line an address lies in. -/
def lineOf (va : Nat) : Nat := va / 64
/-- The set of a line: bits [13:6] of the address. -/
def setOf (line : Nat) : Nat := line % 256

/-- The cached copy of a line. -/
def icacheFind (x : CoreState) (line : Nat) : Option ILine := x.icache.find? fun l => l.line == line

/-- A use makes a line the most recently used. -/
def icacheUse (x : CoreState) (l : ILine) : CoreState :=
  { x with icache := l :: x.icache.filter fun m => m.line != l.line }

/-- A fill replaces the least recently used line of its set when the set's four ways are taken. -/
def icacheFill (x : CoreState) (l : ILine) : CoreState :=
  let others := x.icache.filter fun m => m.line != l.line
  let same := others.filter fun m => setOf m.line == setOf l.line
  let kept := match same[3]? with
    | some _ => others.filter fun m => !(setOf m.line == setOf l.line) || (same.take 3).any fun k => k.line == m.line
    | none => others
  { x with icache := l :: kept }

/-- The page that code at an address is read through: code is fetched only through PTBR (R191), and a PEER page is a space that
fetch does not reach (R87; DEDUCED, log 11). -/
def codePage (s : State) (va : Nat) : Check PageMap := do
  require (regionOf va == .translated) codeTranslation va
  let p ← walk s va
  require (p.kind != .peer) codeSpace va
  pure p

/-- A line as memory holds it now. -/
def readLine (s : State) (p : PageMap) (line : Nat) : ILine :=
  { line := line, bytes := Vector.ofFn fun i : Fin 64 => s.readV 0 [p] (line * 64 + i.val) }

/-- A fill of an absent line begins with the bytes that memory holds then, and ends after 320 wc (R302, R357). Fetch begins one only
when no fill that it began is in progress (R358). -/
def State.startFill (s : State) (c : CoreId) (l : ILine) (byFetch : Bool) : State :=
  if (s.core c).filling.any fun f => f.line.line == l.line || (byFetch && f.byFetch) then s
  else
    (s.onCore c fun x => { x with filling := x.filling ++ [{ line := l, endAt := s.clock + 320, byFetch := byFetch }] }).timer
      (s.clock + 320) (.icacheLineFill c)

/-- The four bytes of a line at an address. -/
def bytesIn (l : ILine) (va : Nat) : List Byte := (l.bytes.toList.drop (va % 64)).take 4

/-- The word of a line at an address, little-endian (R18). -/
def wordIn (l : ILine) (va : Nat) : Word32 := BitVec.ofNat 32 (leNat (bytesIn l va))

/-- Fetch runs ahead of issue: words join the S queue in program order until it is full, or a line is absent; an absent line that
translates begins to fill, one that does not is left to the word's issue (R20, R358; DEDUCED, log 6). -/
def State.fetchAhead (s : State) (c : CoreId) : Nat → State
  | 0 => s
  | fuel + 1 =>
    let x := s.core c
    if 32 ≤ x.squeue.length then s
    else
      let at_ := x.pc + BitVec.ofNat 64 (4 * x.squeue.length)
      match icacheFind x (lineOf at_.toNat) with
      | some l =>
        State.fetchAhead (s.putCore c { icacheUse x l with squeue := x.squeue ++ [(at_, wordIn l at_.toNat)] }) c fuel
      | none =>
        match codePage s at_.toNat with
        | .ok p => s.startFill c (readLine s p (lineOf at_.toNat)) true
        | .error _ => s

/-- ICACHE_LINE_FILL: fills whose time has come enter the cache with the bytes that they read when they began (DEDUCED, log 10). -/
def execIcacheLineFill (c : CoreId) (s : State) : Out :=
  .next (s.onCore c fun x =>
    ((x.filling.filter fun f => decide (f.endAt ≤ s.clock)).foldl (fun y f => icacheFill y f.line)
      { x with filling := x.filling.filter fun f => !decide (f.endAt ≤ s.clock) }))

/-- ICINV on the fills in progress: a line in its range is read anew, as memory then stands (R302). -/
def State.refill (s : State) (c : CoreId) (selects : Nat → Bool) : State :=
  s.onCore c fun x =>
    { x with filling := x.filling.filterMap fun f =>
        if selects f.line.line then
          match codePage s (f.line.line * 64) with
          | .ok p => some { f with line := readLine s p f.line.line }
          | .error _ => none
        else some f }

/-! ## What a failed check does to the word at the head -/

/-- XSLOT: the engine and the slot the word would have taken (R23, R202). -/
def slotCode (eng : BitVec 3) (number : Nat) : BitVec 8 := eng ++ BitVec.ofNat 5 number

/-- A check that fails at issue or at enqueue (R23, R96). -/
def State.stopped (s : State) (slot : BitVec 8) : Stop → Out
  | .trap code info => .next (s.faultHere code (BitVec.ofNat 64 info) slot)
  | .allPinned => .next (s.hold .allPinned)
  | .wait h => .next (s.hold h)
  | .absent a => .fault (.noSuchDevAddress a)

/-! ## LIT (R309) -/

/-- Four literal bytes through the cache: the cached copy, or that of a fill, in progress or begun now; whether the line stood. -/
def litBytes (s : State) (a x : Word) : Check (List Byte × Bool × State) :=
  match icacheFind s.me (lineOf a.toNat), s.me.filling.find? fun f => f.line.line == lineOf a.toNat with
  | some l, _ => .ok (bytesIn l a.toNat, true, s.onMe fun m => icacheUse m l)
  | none, some f => .ok (bytesIn f.line a.toNat, false, s)
  | none, none =>
    match codePage s a.toNat with
    | .ok p =>
      let l := readLine s p (lineOf a.toNat)
      .ok (bytesIn l a.toNat, false, s.startFill s.cur l false)
    | .error (.trap code _) => .error (.trap code x.toNat)
    | .error e => .error e

/-- The literal's value at x, whether every line of it stood, and the state with its fills begun. -/
def litValue (size : LitSize) (x : Word) (s : State) : Check (Word × Bool × State) := do
  let (lo, p0, s1) ← litBytes s x x
  match size with
  | .i32 => pure ((BitVec.ofNat 32 (leNat lo)).signExtend 64, p0, s1)
  | .n32 => pure ((BitVec.ofNat 32 (leNat lo)).setWidth 64, p0, s1)
  | .w64 => do
    let (hi, p1, s2) ← litBytes s1 (x + 4) x
    pure (BitVec.ofNat 64 (leNat (lo ++ hi)), p0 && p1, s2)

/-- LIT loads a literal from the code: bound 4 when every line stands, else 320. -/
def execLit (size : LitSize) (d : SReg) (off : BitVec 15) (s : State) : Out :=
  s.issueGate [] [] d
    (match litValue size (branchTarget s.me.pc off) s with
     | .ok (v, present, s1) => .next ((s1.writeReg d v (if present then 4 else 320)).bump.advance)
     | .error e => s.stopped 0 e)

/-! ## LDS and STS (R62, R305, R343) -/

/-- A fence that has not retired and whose L class holds an LDS or an STS (R166). -/
def fenceHolds (x : CoreState) (kinds : List FenceKind) : Bool :=
  (x.unretired .y).any fun e => match e.instr with | .fence k _ => kinds.contains k | _ => false

/-- The address of an LDS or STS, and the faults of one that is misaligned or outside LOCAL (R62). -/
def State.localAccess (s : State) (base : Word) (off size : Nat) (k : Nat → Out) : Out :=
  let x := base + BitVec.ofNat 64 (off * size)
  if x.toNat % size ≠ 0 then .next (s.faultHere codeMisalignedAccess x)
  else if inLocal x.toNat size = false then .next (s.faultHere codeSpace x)
  else k (scratchBase s.cur + x.toNat)

/-- LDS: d = the scalar at LOCAL a + off × size, extended by its type; bound 6. A FENCE of kind .r, .rw or .sc holds it. -/
def execLds (ty : ScalarType) (d a : SReg) (off : BitVec 9) (s : State) : Out :=
  if fenceHolds s.me [.r, .rw, .sc] then .next (s.hold .fence)
  else
    s.issueGate [a] [] d
      (s.localAccess (s.src 0 a) off.toNat (widthBytes ty.width) fun p =>
        .next (((s.popAll [a]).writeReg d (wrap ty (s.load p (widthBytes ty.width))) 6).bump.advance))

/-- STS under a true guard stores the low bytes of v at LOCAL a + off × size, in the next wc; under a false guard it has no effect
(R33, R62). A FENCE of kind .w, .rw or .sc holds it. -/
def execSts (g : Guard) (w : Width) (v a : SReg) (off : BitVec 5) (s : State) : Out :=
  if s.guardTrue g = false then .next s.advance
  else if fenceHolds s.me [.w, .rw, .sc] then .next (s.hold .fence)
  else
    s.issueGate [v, a] [] 0
      (s.localAccess (s.src 1 a) off.toNat (widthBytes w) fun p =>
        .next (((s.popAll [v, a]).storeLater p (widthBytes w) (s.src 0 v).toNat).bump.advance))

end Sys2Proof.Machine
end

