-- ==== Sys2Proof/Machine/Blocks.lean ====
section
/-! DEFINITION. Control blocks in scratchpad: rings (R173 to R175), phasers (R179 to R182) and the notify descriptors
that act on them (R177, R178). Every operation is one indivisible update of the block at a physical address. -/

namespace Sys2Proof.Machine

open Sys2Proof

/-! ## Rings -/

/-- The fields of a ring block (R173). -/
structure RingBlock where
  head : Nat
  tail : Nat
  n : Nat
  sz : Nat
  clm : Nat
  states : Nat
  deriving DecidableEq, Repr

/-- Reading a ring block. -/
def State.ring (s : State) (p : Nat) : RingBlock :=
  let w := s.load (p + 8) 8
  { head := s.load p 4, tail := s.load (p + 4) 4, n := nbits w 0 7, sz := nbits w 12 4, clm := nbits w 16 7,
    states := s.load (p + 16) 16 }

/-- A block is valid (R174). -/
def RingBlock.valid (r : RingBlock) : Bool :=
  decide (0 < r.n ∧ r.n ≤ 64 ∧ 3 ≤ r.sz ∧ r.sz ≤ 15 ∧ r.clm ≤ r.n)

/-- The state of a slot: 0 FREE, 1 CLAIMED, 2 FILLED, 3 TAKEN. -/
def RingBlock.slot (r : RingBlock) (i : Nat) : Nat := nbits r.states (2 * i) 2

/-- The slot states with one slot replaced. -/
def slotSet (states i v : Nat) : Nat := states - nbits states (2 * i) 2 * 4 ^ i + v * 4 ^ i

/-- Writing CLM, which shares its bytes with fields that stay. -/
def State.setClm (s : State) (p clm : Nat) : State :=
  let w := s.load (p + 8) 8
  s.store (p + 8) 8 (w - nbits w 16 7 * 65536 + clm * 65536)

/-- Setting one slot's state. -/
def State.setSlot (s : State) (p : Nat) (r : RingBlock) (i v : Nat) : State :=
  s.store (p + 16) 16 (slotSet r.states i v)

/-- Every bit set: no slot. -/
def noSlot : Word := 0xffffffffffffffff

/-- RNINIT's update; none is a ring fault. `room` is what the scratchpad holds from the block on. -/
def ringInit (s : State) (p room : Nat) (b : Word) : Option State :=
  let n := nbits b.toNat 0 7
  let sz := nbits b.toNat 12 4
  if n = 0 ∨ 64 < n ∨ sz < 3 ∨ room < 64 + n * 2 ^ sz then none
  else some (((s.store p 8 0).store (p + 8) 8 (sz * 4096 + n)).store (p + 16) 16 0)

/-- RNCLM's update and d. -/
def ringClaim (s : State) (p : Nat) : Option (State × Word) :=
  let r := s.ring p
  if r.valid = false then none
  else
    let i := r.tail % r.n
    if r.slot i = 0 then
      some (((s.setSlot p r i 1).setClm p ((r.clm + 1) % 128)).store (p + 4) 4 ((r.tail + 1) % 2 ^ 32), BitVec.ofNat 64 i)
    else some (s, noSlot)

/-- RNPUB's update. -/
def ringPublish (s : State) (p slot : Nat) : Option State :=
  let r := s.ring p
  if r.valid = false ∨ r.n ≤ slot ∨ r.slot slot ≠ 1 then none
  else some ((s.setSlot p r slot 2).setClm p ((r.clm + 127) % 128))

/-- RNTAKE's update and d. -/
def ringTake (s : State) (p : Nat) : Option (State × Word) :=
  let r := s.ring p
  if r.valid = false then none
  else
    let i := r.head % r.n
    if r.slot i = 2 then some ((s.setSlot p r i 3).store p 4 ((r.head + 1) % 2 ^ 32), BitVec.ofNat 64 i)
    else some (s, noSlot)

/-- RNRET's update. -/
def ringReturn (s : State) (p slot : Nat) : Option State :=
  let r := s.ring p
  if r.valid = false ∨ r.n ≤ slot ∨ r.slot slot ≠ 3 then none
  else some (s.setSlot p r slot 0)

/-- RNWAITF's condition; none on an invalid block. -/
def ringHasFilled (s : State) (p : Nat) : Option Bool :=
  let r := s.ring p
  if r.valid then some (r.slot (r.head % r.n) == 2) else none

/-- RNWAITE's condition; none on an invalid block. -/
def ringHasFree (s : State) (p : Nat) : Option Bool :=
  let r := s.ring p
  if r.valid then some (r.slot (r.tail % r.n) == 0) else none

/-! ## Phasers -/

/-- The fields of a phaser block (R179). -/
structure PhaserBlock where
  phase : Nat
  smask : BitVec 16
  wmask : BitVec 16
  sgd : BitVec 16
  pend : Nat
  deriving DecidableEq, Repr

/-- Reading a phaser block. -/
def State.phaser (s : State) (p : Nat) : PhaserBlock :=
  { phase := s.load p 4, smask := BitVec.ofNat 16 (s.load (p + 8) 2), wmask := BitVec.ofNat 16 (s.load (p + 10) 2),
    sgd := BitVec.ofNat 16 (s.load (p + 12) 2), pend := nbits (s.load (p + 16) 4) 0 28 }

/-- An update of the masks, after which the phase is tested at the end of the wc (R181). -/
def State.setPhaserMasks (s : State) (p : Nat) (smask wmask sgd : BitVec 16) : State :=
  let t := ((s.store (p + 8) 2 smask.toNat).store (p + 10) 2 wmask.toNat).store (p + 12) 2 sgd.toNat
  { t with tests := if t.tests.contains p then t.tests else t.tests ++ [p] }

/-- PEND moves by an amount, modulo 2^28 (R180). -/
def State.addPend (s : State) (p : Nat) (by_ : Int) : State :=
  let w := s.load (p + 16) 4
  let t := s.store (p + 16) 4 (w / 2 ^ 28 * 2 ^ 28 + (((nbits w 0 28 : Nat) + by_) % 2 ^ 28).toNat)
  { t with tests := if t.tests.contains p then t.tests else t.tests ++ [p] }

/-- A 16-bit mask with one bit set or clear. -/
def maskBit (m : BitVec 16) (c : Fin 16) (on : Bool) : BitVec 16 :=
  let bit : BitVec 16 := BitVec.ofNat 16 (2 ^ c.val)
  if on then m ||| bit else m &&& ~~~bit

/-- PHREG's update (R180). -/
def phaserRegister (s : State) (p : Nat) (c : Fin 16) (role : PhaserRole) : State :=
  let b := s.phaser p
  let sig := role != .wait
  s.setPhaserMasks p (maskBit b.smask c sig) (maskBit b.wmask c (role != .sig))
    (if sig then b.sgd else maskBit b.sgd c false)

/-- PHDROP's update. -/
def phaserDrop (s : State) (p : Nat) (c : Fin 16) : State :=
  let b := s.phaser p
  s.setPhaserMasks p (maskBit b.smask c false) (maskBit b.wmask c false) (maskBit b.sgd c false)

/-- PHSIG's update; none is a phaser fault. -/
def phaserSignal (s : State) (p : Nat) (c : Fin 16) : Option State :=
  let b := s.phaser p
  if b.smask.getLsbD c.val then some (s.setPhaserMasks p b.smask b.wmask (maskBit b.sgd c true)) else none

/-- The phase has passed b: (PHASE − b) mod 2^32 lies in 1 to 2^31 − 1 (R180). -/
def phasePassed (phase : Nat) (b : BitVec 32) : Bool :=
  let d := (BitVec.ofNat 32 phase - b).toNat
  decide (1 ≤ d ∧ d < 2 ^ 31)

/-- The test of R181: the phase advances when every signaller has signalled and no byte is outstanding. -/
def phaserTest (s : State) (p : Nat) : State :=
  let b := s.phaser p
  if b.smask ≠ 0 ∧ b.sgd &&& b.smask = b.smask ∧ b.pend = 0 then
    (s.store p 4 ((b.phase + 1) % 2 ^ 32)).store (p + 12) 2 0
  else s

/-- The phasers updated in this wc are tested once its updates are applied (R181). -/
def State.endOfCycleTests (s : State) : State :=
  { s.tests.foldl phaserTest s with tests := [] }

/-! ## Notify descriptors -/

/-- KIND of a descriptor (R177). -/
def notifyKind (d : Word) : Nat := nbits d.toNat 62 2
def notifySig (d : Word) : Bool := nbits d.toNat 61 1 == 1
def notifyByt (d : Word) : Bool := nbits d.toNat 60 1 == 1
def notifySlot (d : Word) : Nat := nbits d.toNat 32 6
def notifyAddr (d : Word) : Nat := nbits d.toNat 0 32

/-- A block address: LOCAL or DIE, a multiple of 64 (R172). -/
def checkBlock (a : Nat) : Check Unit := do
  require (match regionOf a with | .localPad => true | .diePad _ => true | _ => false) codeSpace a
  require (a % 64 == 0) codeAlignment a

/-- A descriptor's checks at enqueue (R178); 0 stands for no descriptor, since KIND 0 is reserved. -/
def checkNotify (nt : NtField) (d : Word) : Check Unit :=
  if nt = 0 then .ok ()
  else do
    require (notifyKind d == 1 || notifyKind d == 2) codeHandle nt.toNat
    checkBlock (notifyAddr d)

/-- The physical address of a block that core c names. -/
def blockAddr (c : CoreId) (a : Nat) : Nat := (padAddrs c 0 a).headD 0

/-- At issue, a phaser descriptor with BYT adds the bytes the command will write (R178). -/
def State.notifyIssue (s : State) (c : CoreId) (d : Word) (bytes : Nat) : State :=
  if notifyKind d = 2 ∧ notifyByt d ∧ bytes ≠ 0 then s.addPend (blockAddr c (notifyAddr d)) bytes else s

/-- As bytes land, the same descriptor takes them off again; no byte is no update, and so starts no test (R181). -/
def State.notifyLanded (s : State) (c : CoreId) (d : Word) (bytes : Nat) : State :=
  if notifyKind d = 2 ∧ notifyByt d ∧ bytes ≠ 0 then s.addPend (blockAddr c (notifyAddr d)) (-(bytes : Int)) else s

/-- What the descriptor of a word of core c that has retired does: a ring descriptor publishes its slot, and a phaser descriptor with SIG
signals for the core; the answer is the block's new state, or the code of the fault, which leaves the block as it is (R175, R178, R182). -/
def State.notifyRetired (s : State) (c : CoreId) (d : Word) : Except (BitVec 8) State :=
  let p := blockAddr c (notifyAddr d)
  if notifyKind d = 1 then
    match ringPublish s p (notifySlot d) with
    | some t => .ok t
    | none => .error codeRing
  else if notifyKind d = 2 ∧ notifySig d then
    match phaserSignal s p (localOf c) with
    | some t => .ok t
    | none => .error codePhaser
  else .ok s

end Sys2Proof.Machine
end

