-- ==== Sys2Proof/Machine/Num.lean ====
section
/-! DEFINITION. The number formats (R71 to R75) and the one conversion (R76), over exact dyadic numbers. -/

namespace Sys2Proof.Machine

/-- A binary format: exponent bits, fraction bits, bias. -/
structure FloatFmt where
  exp : Nat
  frac : Nat
  bias : Int
  deriving DecidableEq, Repr

/-- R75. -/
def fp32 : FloatFmt := { exp := 8, frac := 23, bias := 127 }
/-- R75. -/
def bf16 : FloatFmt := { exp := 8, frac := 7, bias := 127 }
/-- R72. -/
def fp8 : FloatFmt := { exp := 4, frac := 3, bias := 7 }
/-- R71. -/
def fp4 : FloatFmt := { exp := 2, frac := 1, bias := 1 }

/-- 2^n for an exponent that is not negative; 1 below. -/
def pow2 (n : Int) : Nat := 2 ^ n.toNat

/-- The signed integer m × 2^(e − k) of a number at a common exponent k ≤ e. -/
def Exact.at_ (x : Exact) (k : Int) : Int := (if x.neg then -1 else 1) * ((x.m * pow2 (x.e - k) : Nat) : Int)

/-- A signed integer × 2^k as an exact number; `negZero` is the sign of a zero. -/
def exactOf (v : Int) (k : Int) (negZero : Bool) : Exact :=
  { neg := if v = 0 then negZero else decide (v < 0), m := v.natAbs, e := k }

/-- An exact sum; a zero sum is +0 unless both addends are −0 (R75). -/
def Exact.add (x y : Exact) : Exact :=
  let k := min x.e y.e
  exactOf (x.at_ k + y.at_ k) k (x.m == 0 && y.m == 0 && x.neg && y.neg)

/-- An exact product; a zero takes the exclusive or of the signs (R75). -/
def Exact.mul (x y : Exact) : Exact := { neg := x.neg != y.neg, m := x.m * y.m, e := x.e + y.e }

/-- The number less than: −0 equals +0. -/
def Exact.lt (x y : Exact) : Bool :=
  let k := min x.e y.e
  decide (x.at_ k < y.at_ k)

/-- The number of a finite code without its sign bit. -/
def floatExact (f : FloatFmt) (neg : Bool) (code : Nat) : Exact :=
  let e0 := code / 2 ^ f.frac
  let fr := code % 2 ^ f.frac
  { neg := neg, m := if e0 = 0 then fr else 2 ^ f.frac + fr, e := (max e0 1 : Nat) - f.bias - f.frac }

/-- The number of an FP4 code: 0x8 is 0x0 in every operation (R71; DEDUCED, log 77). -/
def fp4Exact (code : Nat) : Exact :=
  floatExact fp4 (code / 2 ^ (fp4.exp + fp4.frac) % 2 == 1 && code % 2 ^ (fp4.exp + fp4.frac) != 0) (code % 2 ^ (fp4.exp + fp4.frac))

/-- Bits of a code. -/
def FloatFmt.width (f : FloatFmt) : Nat := 1 + f.exp + f.frac
/-- The sign of a code. -/
def FloatFmt.negOf (f : FloatFmt) (code : Nat) : Bool := code / 2 ^ (f.exp + f.frac) % 2 == 1
/-- A code without its sign bit. -/
def FloatFmt.magOf (f : FloatFmt) (code : Nat) : Nat := code % 2 ^ (f.exp + f.frac)
/-- The magnitude code of infinity. -/
def FloatFmt.infCode (f : FloatFmt) : Nat := (2 ^ f.exp - 1) * 2 ^ f.frac
/-- A sign bit in its place. -/
def FloatFmt.sign (f : FloatFmt) (neg : Bool) : Nat := if neg then 2 ^ (f.exp + f.frac) else 0
/-- The quiet bit. -/
def FloatFmt.quiet (f : FloatFmt) : Nat := 2 ^ (f.frac - 1)
/-- The canonical NaN (R75). -/
def FloatFmt.canonical (f : FloatFmt) : Nat := f.infCode + f.quiet

/-- A NaN code of BF16 or FP32. -/
def FloatFmt.isNan (f : FloatFmt) (code : Nat) : Bool := decide (f.infCode < f.magOf code)
/-- A NaN operand with its quiet bit set (R75). -/
def FloatFmt.quieted (f : FloatFmt) (code : Nat) : Nat :=
  if code / f.quiet % 2 = 1 then code else code + f.quiet

/-- What a code of BF16 or FP32 stands for (R75). -/
def FloatFmt.value (f : FloatFmt) (code : Nat) : FVal :=
  let mag := f.magOf code
  if f.infCode < mag then .nan
  else if mag = f.infCode then .inf (f.negOf code)
  else .fin (floatExact f (f.negOf code) mag)

/-- The magnitude code a non-zero number rounds to, with no upper limit: to nearest with ties to even, or toward zero
(R76). A carry out of the mantissa moves into the exponent by itself. -/
def roundMag (f : FloatFmt) (towardZero : Bool) (m : Nat) (e : Int) : Nat :=
  let top : Int := (Nat.log2 m : Nat) + e
  let q := max top (1 - f.bias) - f.frac
  let shift := q - e
  let kept := if shift ≤ 0 then m * pow2 (-shift) else m / pow2 shift
  let lost := if shift ≤ 0 then 0 else m % pow2 shift
  let half := if shift ≤ 0 then 1 else pow2 (shift - 1)
  let up := !towardZero && decide (half < lost ∨ (lost = half ∧ 0 < shift ∧ kept % 2 = 1))
  ((q + f.frac + f.bias - 1).toNat) * 2 ^ f.frac + kept + up.toNat

/-- A conversion to BF16 or FP32 (R76). -/
def toIeee (f : FloatFmt) (towardZero : Bool) (x : Exact) : Nat :=
  let mag := if x.m = 0 then 0 else roundMag f towardZero x.m x.e
  f.sign x.neg + (if f.infCode ≤ mag then (if towardZero then f.infCode - 1 else f.infCode) else mag)

/-- A conversion to FP4 or FP8: it saturates, and a zero result has a clear sign (R76). -/
def toSmall (f : FloatFmt) (towardZero : Bool) (x : Exact) : Nat :=
  let mag := if x.m = 0 then 0 else min (roundMag f towardZero x.m x.e) (2 ^ (f.exp + f.frac) - 1)
  if mag = 0 then 0 else f.sign x.neg + mag

/-- The level number k of magnitude k + 0.5 that a magnitude converts to (R76). -/
def halfLevel (towardZero : Bool) (m : Nat) (e : Int) : Nat :=
  let whole := if e ≥ 0 then m * pow2 e else m / pow2 (-e)
  let fracZero := decide (e ≥ 0) || m % pow2 (-e) == 0
  let twice := if e + 1 ≥ 0 then m * pow2 (e + 1) else m / pow2 (-(e + 1))
  if towardZero then (twice + 1) / 2 - 1 else if fracZero then whole - 1 else whole

/-- A conversion to H4 or H8, of `bits` bits: the end levels bound it (R73, R76). -/
def toHalf (bits : Nat) (towardZero : Bool) (x : Exact) : Nat :=
  let k := min (if x.m = 0 then 0 else halfLevel towardZero x.m x.e) (2 ^ (bits - 1) - 1)
  if x.neg then 2 ^ bits - 1 - k else k

/-- The number of an H4 or H8 code: n + 0.5 (R73). -/
def halfExact (bits : Nat) (code : Nat) : Exact :=
  exactOf (2 * (BitVec.ofNat bits code).toInt + 1) (-1) false

/-- The number of an E3M5 block scale (R74). -/
def scaleExact (code : Nat) : Exact :=
  let e0 := code / 32 % 8
  let m := code % 32
  if e0 = 0 then { neg := false, m := m, e := -7 } else { neg := false, m := 32 + m, e := e0 - 3 - 5 }

/-- A conversion of an exact number, an infinity or a NaN to an output format code 0 to 5 (R76, R83). `nan` is the code
of FP32 or BF16 that a NaN takes there. -/
def convert (ofmt : Nat) (towardZero : Bool) (v : FVal) (nan : Nat) : Nat :=
  match ofmt, v with
  | 0, .fin x => toSmall fp4 towardZero x
  | 0, .inf n => fp4.sign n + 7
  | 0, .nan => 0
  | 1, .fin x => toSmall fp8 towardZero x
  | 1, .inf n => fp8.sign n + 127
  | 1, .nan => 0
  | 2, .fin x => toHalf 4 towardZero x
  | 2, .inf n => if n then 8 else 7
  | 2, .nan => 0
  | 3, .fin x => toHalf 8 towardZero x
  | 3, .inf n => if n then 128 else 127
  | 3, .nan => 0
  | 4, .fin x => toIeee bf16 towardZero x
  | 4, .inf n => bf16.sign n + bf16.infCode
  | 4, .nan => nan
  | _, .fin x => toIeee fp32 towardZero x
  | _, .inf n => fp32.sign n + fp32.infCode
  | _, .nan => nan

/-- A NaN of one format in another: sign, the quiet bit, and the top fraction bits the target holds (R76). -/
def nanTo (src dst : FloatFmt) (code : Nat) : Nat :=
  let frac := code % 2 ^ src.frac
  let frac := if dst.frac ≤ src.frac then frac / 2 ^ (src.frac - dst.frac) else frac * 2 ^ (dst.frac - src.frac)
  dst.quieted (dst.sign (src.negOf code) + dst.infCode + frac)

/-! ## Floating operations on codes (R75) -/

/-- The first NaN operand, quieted. -/
def firstNan (f : FloatFmt) (ops : List Nat) : Option Nat := (ops.find? f.isNan).map f.quieted

/-- A sum of two values: exact, rounded once to nearest; an invalid sum is the canonical NaN. -/
def addValues (f : FloatFmt) (x y : FVal) : Nat :=
  match x, y with
  | .fin a, .fin b => toIeee f false (a.add b)
  | .inf n, .inf m => if n = m then f.sign n + f.infCode else f.canonical
  | .inf n, _ => f.sign n + f.infCode
  | _, .inf n => f.sign n + f.infCode
  | _, _ => f.canonical

/-- a + b. -/
def fadd (f : FloatFmt) (a b : Nat) : Nat := (firstNan f [a, b]).getD (addValues f (f.value a) (f.value b))

/-- The product of two values before rounding: an infinity by a zero is invalid. -/
def mulValues (x y : FVal) : FVal :=
  match x, y with
  | .fin a, .fin b => .fin (a.mul b)
  | .inf n, .fin b => if b.m = 0 then .nan else .inf (n != b.neg)
  | .fin a, .inf n => if a.m = 0 then .nan else .inf (a.neg != n)
  | .inf n, .inf m => .inf (n != m)
  | _, _ => .nan

/-- A value as a code, rounded to nearest; a generated NaN is canonical. -/
def valueCode (f : FloatFmt) (v : FVal) : Nat :=
  match v with
  | .fin x => toIeee f false x
  | .inf n => f.sign n + f.infCode
  | .nan => f.canonical

/-- a × b. -/
def fmul (f : FloatFmt) (a b : Nat) : Nat := (firstNan f [a, b]).getD (valueCode f (mulValues (f.value a) (f.value b)))

/-- a × b + c, rounded once. -/
def ffma (f : FloatFmt) (a b c : Nat) : Nat :=
  (firstNan f [a, b, c]).getD
    (match mulValues (f.value a) (f.value b) with
     | .nan => f.canonical
     | p => addValues f p (f.value c))

/-- The quotient of two values, exact but for a sticky last bit that no rounding mistakes (R75, R123). A number by zero is an infinity
of the sign of the quotient; zero by zero and infinity by infinity are invalid (PRESUMED, log 81). -/
def divValues (x y : FVal) : FVal :=
  match x, y with
  | .fin a, .fin b =>
    if b.m = 0 then (if a.m = 0 then .nan else .inf (a.neg != b.neg))
    else
      let n := a.m * 2 ^ 60
      .fin { neg := a.neg != b.neg, m := 2 * (n / b.m) + (if n % b.m = 0 then 0 else 1), e := a.e - b.e - 61 }
  | .inf n, .fin b => .inf (n != b.neg)
  | .fin a, .inf n => .fin { neg := a.neg != n, m := 0, e := 0 }
  | _, _ => .nan

/-- a / b. -/
def fdiv (f : FloatFmt) (a b : Nat) : Nat := (firstNan f [a, b]).getD (valueCode f (divValues (f.value a) (f.value b)))

/-- The largest natural number whose square is at most n, for n below 2^128: one bit at a time. -/
def isqrt (n : Nat) : Nat :=
  (List.range 64).foldl (fun r k => let c := r + 2 ^ (63 - k); if c * c ≤ n then c else r) 0

/-- The square root of a value, exact but for a sticky last bit; −0 gives −0 and a negative value is invalid (PRESUMED, log 81). -/
def sqrtValue (x : FVal) : FVal :=
  match x with
  | .fin a =>
    if a.m = 0 then .fin a
    else if a.neg then .nan
    else
      let odd : Nat := if a.e % 2 = 0 then 0 else 1
      let n := a.m * 2 ^ (60 + odd)
      let r := isqrt n
      .fin { neg := false, m := 2 * r + (if r * r = n then 0 else 1), e := (a.e - 60 - odd) / 2 - 1 }
  | .inf n => if n then .nan else .inf n
  | .nan => .nan

/-- The square root of a. -/
def fsqrt (f : FloatFmt) (a : Nat) : Nat := (firstNan f [a]).getD (valueCode f (sqrtValue (f.value a)))

/-- The order of two non-NaN values, −0 equal to +0. -/
def valueLt (x y : FVal) : Bool :=
  match x, y with
  | .fin a, .fin b => a.lt b
  | .inf n, .inf m => n && !m
  | .inf n, _ => n
  | _, .inf n => !n
  | _, _ => false

/-- min orders −0 below +0 and returns the operand that is a number (R75). -/
def fminmax (f : FloatFmt) (takeMax : Bool) (a b : Nat) : Nat :=
  if f.isNan a then (if f.isNan b then f.quieted a else b)
  else if f.isNan b then a
  else
    let less := valueLt (f.value a) (f.value b) ||
      (!valueLt (f.value b) (f.value a) && f.negOf a && !f.negOf b)
    if less != takeMax then a else b

/-- Equality of two codes as numbers: −0 equals +0; a NaN equals nothing. -/
def feq (f : FloatFmt) (a b : Nat) : Bool :=
  !f.isNan a && !f.isNan b && !valueLt (f.value a) (f.value b) && !valueLt (f.value b) (f.value a)
/-- Less than; false with a NaN. -/
def flt (f : FloatFmt) (a b : Nat) : Bool := !f.isNan a && !f.isNan b && valueLt (f.value a) (f.value b)

/-- The element operation of a reduction into an element of format `efmt`: integers wrap or compare as naturals, BF16
and FP32 sum exactly and round once, or take min and max (R184). -/
def reduceElem (op : Reduction) (efmt old new : Nat) : Nat :=
  let bits := match efmt with | 4 => 16 | 5 => 32 | 6 => 8 | 7 => 16 | 8 => 32 | _ => 64
  if efmt = 4 ∨ efmt = 5 then
    let f := if efmt = 4 then bf16 else fp32
    match op with
    | .add => fadd f old new
    | .min => fminmax f false old new
    | .max => fminmax f true old new
  else match op with
    | .add => (old + new) % 2 ^ bits
    | .min => min old new
    | .max => max old new

end Sys2Proof.Machine
end

