-- ==== Sys2Proof/Machine/Enqueue.lean ====
section
/-! DEFINITION. Enqueue (R20, R23, R96): an engine word joins its queue with what it captured; issue in the queue and
retirement (R21, R66); what orders the accesses of one queue (R160 to R164); and FENCE's cover (R166). -/

namespace Sys2Proof.Machine

open Sys2Proof

/-! ## What a command touches -/

/-- The ordering kind of an address: an untranslated space orders only accesses to one byte, as RC does (R160). -/
def ordOf (pages : List PageMap) (va : Nat) : PageOrd :=
  match regionOf va with
  | .translated => match pages.find? fun p => p.covers va with | some p => p.ord | none => .rc
  | _ => .rc

/-- T of an access by core c at a virtual address, which names the DEV or HOST address `a` when it is translated: 48 to the stack of
the core's own die, 88 to another, 1,200 to HOST (R44, R87). -/
def accessBound (c : CoreId) (a : Nat) : Nat :=
  if a < devSize then (if a / 0x1000000000 = (dieOf c).val then 48 else 88) else 1200
def spaceBound (c : CoreId) (va a : Nat) : Nat :=
  match regionOf va with
  | .localPad => 0
  | .diePad _ | .multicast _ => 12
  | _ => accessBound c a

/-- One piece cut at 64 KiB boundaries, where pages end, as physical touches. A window whose mask is 0 is touched nowhere, at the
bound of its space. -/
def pieceTouches (c : CoreId) (mask : BitVec 16) (pages : List PageMap) (write : Bool) (p : Nat × Nat) : List Touch :=
  if p.2 = 0 then []
  else
    (List.range ((p.1 + p.2 - 1) / 0x10000 - p.1 / 0x10000 + 1)).flatMap fun i =>
      let lo := max p.1 ((p.1 / 0x10000 + i) * 0x10000)
      let hi := min (p.1 + p.2) ((p.1 / 0x10000 + i + 1) * 0x10000)
      let touch := fun (a n : Nat) => { lo := a, len := n, ord := ordOf pages lo, write := write, bound := spaceBound c lo a }
      match physAddrs c mask pages lo, regionOf lo with
      | [], .multicast _ => [touch 0 0]
      | as, _ => as.map fun a => touch a (hi - lo)

/-- The touches of pieces. -/
def touches (c : CoreId) (mask : BitVec 16) (pages : List PageMap) (write : Bool) (pieces : List (Nat × Nat)) : List Touch :=
  pieces.flatMap (pieceTouches c mask pages write)

/-- Two touches meet at a byte. -/
def Touch.meets (t u : Touch) : Bool := decide (t.lo < u.lo + u.len ∧ u.lo < t.lo + t.len)

/-- Two touches of one queue are ordered by the weaker of their kinds (R160, R161; DEDUCED, log 40). -/
def Touch.ordered (t u : Touch) : Bool :=
  match t.ord, u.ord with
  | .un, _ => false
  | _, .un => false
  | .so, .so => true
  | _, _ => t.meets u

/-- T of a command: the largest of the spaces that it names (R44, R87). -/
def QEntry.accessT (q : QEntry) : Nat := q.touch.foldl (fun m t => max m t.bound) 0

/-! ## Entries -/

/-- A new entry of engine e for the word at the head of the executing core. -/
def State.newEntry (s : State) (e : Engine) (i : Instr) : QEntry :=
  { number := s.me.enqueued[engIdx e], order := s.me.order, epoch := s.me.epoch
    graph := (s.me.task.map Task.graph).getD 0, node := (s.me.task.map Task.node).getD 0
    serial := (s.me.task.map Task.serial).getD 0
    instr := i, pc := s.me.pc, sa := 0, v := 0, z := 0, guardTrue := true, notify := 0, handles := []
    mcMask := 0, pages := [], touch := [], acquire := false, release := false, scope := .core, seen := [], performed := false
    ops := [], accepted := none, mismatch := none, fmtWord := 0, tag := none, result := 0, status := .waiting }

/-- The descriptor a command names, read at enqueue: s49 to s55 for n1 to n7 (R25). -/
def State.descriptor (s : State) (nt : NtField) : Word :=
  if nt = 0 then 0 else s.src 7 (48 + nt.setWidth 6)

/-- An entry joins its queue (R20). -/
def State.append (s : State) (e : Engine) (q : QEntry) : State :=
  s.onMe fun x =>
    { (x.putQueue e (x.queue e ++ [q])) with
      enqueued := x.enqueued.set (engIdx e) (q.number + 1), order := x.order + 1 }

/-- The multicast mask of the window an address lies in, read at enqueue (R89). -/
def State.windowMask (s : State) (va : Nat) : BitVec 16 :=
  match regionOf va with
  | .multicast w => s.me.mcw[w]
  | _ => 0

/-- The pages of a word that the translation buffer does not hold, each once (R96). -/
def State.missed (s : State) (pages : List PageMap) : List PageMap := (pages.filter fun p => (tlbLookup s.me p.va).isNone).eraseDups

/-- The table entries that the walk of an address reads (R94, R95). -/
def walkReads (s : State) (va : Nat) : List (Nat × Option Nat × Bool) → Nat → List Nat
  | [], _ => []
  | (shift, _, _) :: rest, table =>
    let at_ := table + nbits va shift 9 * 8
    let e := s.load at_ 8
    at_ :: (if nbits e 1 1 = 1 then [] else walkReads s va rest (nbits e 12 44 * 4096))

/-- The longest walk of an address: each entry at the DEV bound (R87, R96). -/
def State.walkBound (s : State) (va : Nat) : Nat :=
  ((walkReads s va walkLevels (nbits s.owner.ptbr.toNat 12 40 * 4096)).map (accessBound s.cur)).sum

/-- How long issue holds for the walks of a word: free, within their bound (R96; DEDUCED, log 16). -/
def State.walkTime (s : State) : List PageMap → Nat
  | [] => 0
  | missed => s.freeNat 2 % ((missed.map fun p => s.walkBound p.va).sum + 1)

/-- How long issue holds for what an ACCLD reads as it enters its queue: at most 16 + T wc (R271). -/
def readHold (s : State) (q : QEntry) : Nat :=
  match q.instr with
  | .accld _ _ => s.freeNat 3 % (17 + q.accessT)
  | _ => 0

/-- Issue goes on n wc later. -/
def State.holdOn (s : State) (n : Nat) : State := s.onMe fun x => { x with issueAt := x.issueAt + n }

/-- Enqueue of the word at the head (R20): its pops, room in the queue, its checks, the walks that issue holds for, the pins of
its pages, and its entry. `make` checks the word and says what it captures and what else its enqueue changes. -/
def State.enqueueWith (s : State) (e : Engine) (srcs : List SReg) (make : Check (QEntry × (State → State))) : Out :=
  s.popGate srcs
    (if 32 ≤ s.me.occupancy e then .next (s.hold (.queueFull e))
     else
       let slot := slotCode (engCode e) s.me.enqueued[engIdx e]
       match make with
       | .error stop => s.stopped slot stop
       | .ok (q, f) =>
         let missed := s.missed q.pages
         if s.walkTime missed ≠ 0 then
           match pinPages s s.cur q.pages with
           | .error stop => s.stopped slot stop
           | .ok t => .next ((t.unpinPages s.cur q.pages).onMe fun x => { x with held := none, issueAt := s.clock + s.walkTime missed }).bump
         else
           match pinPages s s.cur q.pages with
           | .error stop => s.stopped slot stop
           | .ok t => .next ((((f (t.popAll srcs)).append e q).bump.advance).holdOn (readHold s q)))

/-- Enqueue of a word whose capture changes its core alone. -/
def State.enqueue (s : State) (e : Engine) (srcs : List SReg) (make : Check (QEntry × (CoreState → CoreState))) : Out :=
  s.enqueueWith e srcs (make.map fun p => (p.1, fun t => t.onMe p.2))

/-! ## Queues of a core -/

/-- The oldest word of a queue that no engine has taken (R21). -/
def headWaiting (q : List QEntry) : Option QEntry := q.find? fun e => e.status == .waiting

/-- The words of a queue before an entry that have not retired. -/
def earlier (q : List QEntry) (e : QEntry) : List QEntry :=
  q.filter fun f => decide (f.order < e.order) && f.status != .retired

/-- Changing one entry. -/
def State.onEntry (s : State) (c : CoreId) (e : Engine) (order : Nat) (f : QEntry → QEntry) : State :=
  s.onCore c fun x => x.putQueue e ((x.queue e).map fun q => if q.order = order then f q else q)

/-- An entry by its place in program order. -/
def findEntry (x : CoreState) (e : Engine) (order : Nat) : Option QEntry := (x.queue e).find? fun q => q.order == order

/-- The words of a queue, and the saved words of it that still wait for their check at resume (R170, R199). -/
def CoreState.words (x : CoreState) (e : Engine) : List QEntry := x.queue e ++ x.stayed[engIdx e]

/-- A fence of the Y queue that has not retired holds a later word (R166): `w` and `r` say whether its accesses are writes and reads.
Only .sc covers the L queue; G words are never covered. -/
def fenceMarks (x : CoreState) (e : Engine) (order : Nat) (r w : Bool) : Bool :=
  (x.words .y).any fun f =>
    f.status != .retired && decide (f.order < order) &&
      match f.instr with
      | .fence k _ =>
        match e with
        | .g => false
        | .l => k == .sc && (r || w)
        | _ => match k with | .w => w | .r => r | _ => r || w
      | _ => false

/-- Whether an entry reads and writes warm memory. -/
def QEntry.readsMem (q : QEntry) : Bool := q.touch.any fun t => !t.write
def QEntry.writesMem (q : QEntry) : Bool := q.touch.any fun t => t.write

/-! ## Issue and retirement -/

/-- An entry is taken by its engine now (R21). -/
def State.markIssued (s : State) (c : CoreId) (e : Engine) (q : QEntry) : State :=
  s.onEntry c e q.order fun x => { x with status := .issued s.clock }

/-- An issued entry's retirement comes within its bound (R41, R44): at a free point from 1 to the bound (DESIGN CHOICE, log 43).
-/
def State.retireWithin (s : State) (c : CoreId) (e : Engine) (q : QEntry) (bound : Nat) : State :=
  (s.timer (s.clock + 1 + s.freeNat 2 % (max bound 1)) (.retirement c e q.order)).bump

/-- Issue of a command whose only later point is its retirement: its descriptor counts its bytes, and it retires within
its bound. -/
def State.startSimple (s : State) (c : CoreId) (e : Engine) (q : QEntry) (bytes bound : Nat) : State :=
  ((s.markIssued c e q).notifyIssue c q.notify bytes).retireWithin c e q bound

/-- The leading retired entries of one task leave a queue; the answer counts them (R66). -/
def takeLeading (queue : List QEntry) (epoch : Nat) : List QEntry × Nat :=
  let lead := (queue.filter fun q => q.epoch == epoch).takeWhile fun q => q.status == .retired
  (queue.filter fun q => !(lead.any fun l => l.order == q.order), lead.length)

/-- A completion counter moves on. -/
def CoreState.count (x : CoreState) (e : Engine) (n : Nat) : CoreState :=
  { x with counters := x.counters.set (engIdx e) (x.counters[engIdx e] + BitVec.ofNat 32 n) }

/-- Leading retirements count for the task that enqueued them, which runs here or is saved (R66, R203, R325). -/
def State.countFor (s : State) (c : CoreId) (e : Engine) (epoch n : Nat) : State :=
  if n = 0 then s
  else if (s.core c).epoch = epoch then s.onCore c fun x => x.count e n
  else
    { s with sched := { s.sched with graphs := s.sched.graphs.map fun g =>
        { g with saved := g.saved.map fun t =>
            if t.core = c ∧ t.snapshot.epoch = epoch then { t with snapshot := t.snapshot.count e n } else t } } }

/-- A word retires: its pins go, its entry is done, and its task's counter takes the leading retirements (R21, R66, R96). -/
def State.retire (s : State) (c : CoreId) (e : Engine) (q : QEntry) : State :=
  let t := (s.unpinPages c q.pages).onEntry c e q.order fun x => { x with status := .retired, pages := [] }
  let r := takeLeading ((t.core c).queue e) q.epoch
  (t.onCore c fun x =>
    { (x.putQueue e r.1) with freed := x.freed.set (engIdx e) (x.freed[engIdx e] + 1) }).countFor c e q.epoch r.2

/-- XSLOT of an entry. -/
def QEntry.slot (q : QEntry) (e : Engine) : BitVec 8 := slotCode (engCode e) q.number

/-- Where a note stands among the events of its wc: with the word that it belongs to (R172). -/
def Note.key (n : Note) : Nat × Nat × Nat := (5, n.core.val, n.order)

/-- A note takes its place, by core and then in program order. -/
def insertNote (n : Note) : List Note → List Note
  | [] => [n]
  | m :: rest => if keyLt n.key m.key then n :: m :: rest else m :: insertNote n rest

/-- A descriptor acts at its word's retirement: it publishes a slot, or signals (R178). -/
def notifyActs (d : Word) : Bool := notifyKind d == 1 || (notifyKind d == 2 && notifySig d)

/-- The descriptor of a word that retires acts in its place among the updates of the wc (R172, R178). -/
def State.notifyLater (s : State) (c : CoreId) (e : Engine) (q : QEntry) : State :=
  if notifyActs q.notify then
    { s with notes := insertNote { core := c, order := q.order, epoch := q.epoch, graph := q.graph, node := q.node, serial := q.serial
                                   notify := q.notify, slot := q.slot e, pc := q.pc } s.notes }
  else s

/-- The end of a command that wrote `bytes` bytes through a destination: the bytes come off PEND, the descriptor is to act,
the word retires (R178). -/
def State.finish (s : State) (c : CoreId) (e : Engine) (q : QEntry) (bytes : Nat) : State :=
  ((s.notifyLanded c q.notify bytes).notifyLater c e q).retire c e q

/-! ## Accession tags (R98, R99) -/

/-- The scratchpad lines that pieces of a handle touch, in ascending address of the pieces. -/
def padLines (c : CoreId) (mask : BitVec 16) (pieces : List (Nat × Nat)) : List Nat :=
  pieces.flatMap fun p =>
    if p.2 = 0 then []
    else (List.range ((p.1 + p.2 - 1) / 256 - p.1 / 256 + 1)).flatMap fun i =>
      (padAddrs c mask ((p.1 / 256 + i) * 256)).map fun a => a / 256

/-- The first line of a checked handle whose tag is not ATAG, as its virtual address (R99). -/
def tagMismatch (s : State) (c : CoreId) (mask : BitVec 16) (h : HandleBits) : Option Nat :=
  if hAchk h = false ∨ 2 ≤ hSpace h then none
  else
    let lines := (hExtent h).flatMap fun p =>
      if p.2 = 0 then [] else (List.range ((p.1 + p.2 - 1) / 256 - p.1 / 256 + 1)).map fun i => (p.1 / 256 + i) * 256
    lines.find? fun va => (padAddrs c mask va).any fun a => s.tagOf (a / 256) != hAtag h

/-- A write through a handle with AWR stamps ATAG on every scratchpad line it writes (R98). -/
def stampLines (s : State) (h : HandleBits) (lines : List Nat) : State :=
  if hAwr h then lines.foldl (fun s l => s.setTag l (hAtag h)) s else s

/-- A command that found a mismatch stays in its queue, and posts a schedule trap once every earlier word has retired; it then checks
again (R99). The trap's info is the first mismatching line. -/
def State.scheduleFault (s : State) (c : CoreId) (e : Engine) (q : QEntry) (line : Nat) : State :=
  (s.onEntry c e q.order fun x => { x with mismatch := none }).postTrap c
    { code := codeSchedule, info := BitVec.ofNat 64 line, slot := q.slot e, addr := q.pc }

/-- A command that raised a schedule fault stays stopped until the trap has been taken and its handler has returned. -/
def scheduleStopped (x : CoreState) (e : Engine) (q : QEntry) : Bool :=
  (x.traps.any fun t => t.code == codeSchedule && t.slot == q.slot e) ||
    (x.inh && x.xcause == codeSchedule && x.xslot == q.slot e)

/-- A register that an engine command writes at its retirement, for the task that enqueued it (R42). -/
def State.writeFor (s : State) (c : CoreId) (q : QEntry) (r : SReg) (v : Word) : State :=
  if q.epoch = (s.core c).epoch then s.engineWrite c r v else s

/-- The checked sources of a command: the first mismatch stops it (R99). -/
def checkTags (s : State) (c : CoreId) (mask : BitVec 16) (hs : List HandleBits) : Option Nat :=
  hs.findSome? (tagMismatch s c mask)

/-! ## Operand sets -/

/-- Warm spaces without windows. -/
def warmSpaces : Accepts := {}
/-- Warm spaces and, for a destination of the A engine, multicast windows (R87). -/
def warmOrWindow : Accepts := { multicast := true }

/-- A scalar access of n bytes: its space, its alignment, its page (R92, R96). -/
def checkScalar (s : State) (c : CoreId) (acc : Accepts) (write : Bool) (va n : Nat) : Check (List PageMap) := do
  require (acc.region (regionOf va)) codeSpace va
  require (va % n == 0) codeAlignment va
  rangePages s c acc write va n

end Sys2Proof.Machine
end

