-- ==== Sys2Proof/Machine/MArith.lean ====
section
/-! DEFINITION. The arithmetic of the matrix array: block products (R78), the accumulation of one row (R79), NORM (R81),
the format word (R83, R84) and DRAIN's conversion (R82). -/

namespace Sys2Proof.Machine

open Sys2Proof

/-! ## Format words (R83, R84) -/

def fmtA (w : Word) : Nat := nbits w.toNat 0 4
def fmtB (w : Word) : Nat := nbits w.toNat 4 4
def fmtO (w : Word) : Nat := nbits w.toNat 8 4
def fmtAsc (w : Word) : Bool := w.getLsbD 12
def fmtBsc (w : Word) : Bool := w.getLsbD 13
def fmtBand (w : Word) : Bool := w.getLsbD 14
def fmtRnd (w : Word) : Nat := nbits w.toNat 15 2
/-- LOCAL addresses of the two tables. -/
def fmtATab (w : Word) : Nat := nbits w.toNat 32 16 * 64
def fmtBTab (w : Word) : Nat := nbits w.toNat 48 16 * 64

/-- Bits of an operand or output format code (R83). -/
def codeBits (f : Nat) : Nat := match f with | 0 => 4 | 1 => 8 | 2 => 4 | 3 => 8 | 4 => 16 | _ => 32

/-- Format-word conditions of an MMA whose tables have these sizes (R84). -/
def mmaFormatOk (w : Word) (aTable bTable : Nat) : Bool :=
  decide (fmtA w ≤ 4 ∧ fmtB w ≤ 4) && codeBits (fmtA w) == codeBits (fmtB w) &&
    !((fmtAsc w || fmtBsc w) && fmtA w == 4) &&
    (!fmtAsc w || decide (fmtATab w + aTable ≤ 0x400000)) && (!fmtBsc w || decide (fmtBTab w + bTable ≤ 0x400000))

/-- Format-word conditions of a DRAIN (R84). -/
def drainFormatOk (w : Word) (add : Bool) : Bool :=
  decide (fmtO w ≤ 5 ∧ fmtRnd w ≤ 1) && (!add || fmtO w == 4 || fmtO w == 5) &&
    (!fmtBand w || decide (fmtATab w + 8 ≤ 0x400000 ∧ fmtBTab w + 8 ≤ 0x400000))

/-! ## Operands -/

/-- The value of an operand code (R71 to R73, R75). -/
def operandValue (fmt code : Nat) : FVal :=
  match fmt with
  | 0 => .fin (fp4Exact code)
  | 1 => .fin (floatExact fp8 (fp8.negOf code) (fp8.magOf code))
  | 2 => .fin (halfExact 4 code)
  | 3 => .fin (halfExact 8 code)
  | _ => bf16.value code

/-- Zero. -/
def exactZero : Exact := { neg := false, m := 0, e := 0 }

/-- A finite value, or zero in place of a special one. -/
def finiteOr0 (v : FVal) : Exact := match v with | .fin x => x | _ => exactZero

/-- A BF16 infinity or NaN (R78). -/
def isSpecial (v : FVal) : Bool := match v with | .fin _ => false | _ => true

/-- The exact block result of R78: the sum of 8 products, times the two block scales. -/
def blockResult (as bs : List Exact) (sa sb : Exact) : Exact :=
  (((as.zip bs).foldl (fun acc p => acc.add (p.1.mul p.2)) exactZero).mul sa).mul sb

/-! ## Accumulation (R79 to R81) -/

/-- v / 2^s to the nearest integer, ties to even. -/
def rneShift (v : Int) (s : Nat) : Int :=
  if s = 0 then v
  else
    let d : Int := 2 ^ s
    let q := v / d
    let r := v % d
    let half : Int := 2 ^ (s - 1)
    if half < r ∨ (r = half ∧ q % 2 = 1) then q + 1 else q

/-- An exact number times 2^k, rounded to an integer. -/
def rneScaled (x : Exact) (k : Int) : Int :=
  let v : Int := if x.neg then -(x.m : Int) else x.m
  if 0 ≤ x.e + k then v * (pow2 (x.e + k) : Int) else rneShift v (-(x.e + k)).toNat

/-- The smallest e with |x| < 2^e, for a number that is not zero. -/
def exponentOf (x : Exact) : Int := (Nat.log2 x.m : Int) + 1 + x.e

/-- One block applied to an accumulator row: `xs` are its 32 exact block results (R79). -/
def AccRow.applyBlock (r : AccRow) (xs : Vector Exact 32) : AccRow :=
  let ex := xs.foldl (fun a x => if x.m = 0 then a else max a (exponentOf x)) (-2048 : Int)
  let e0 := r.e.toInt
  let e1 := max ex e0
  let s := (e1 - e0).toNat
  { r with
    m := Vector.ofFn fun j : Fin 32 => BitVec.ofInt 48 (rneShift r.m[j].toInt s + rneScaled xs[j] (30 - e1))
    e := BitVec.ofInt 12 e1 }

/-- ceil(log2(nb + 1)): what an MMA of nb blocks adds to G and H (R80). -/
def headroomOf (nb : Nat) : Nat := if nb = 0 then 0 else Nat.log2 nb + 1

/-- G of a row after an MMA; it stays at 31 (R80). -/
def AccRow.raiseG (r : AccRow) (by_ : Nat) : AccRow := { r with g := BitVec.ofNat 5 (min 31 (r.g.toNat + by_)) }

/-- The smallest h with every |m| ≤ 2^(30 + h) (R81). -/
def AccRow.excess (r : AccRow) : Nat :=
  let top := r.m.foldl (fun a x => max a x.toInt.natAbs) 0
  ((List.range 19).find? fun h => decide (top ≤ 2 ^ (30 + h))).getD 18

/-- NORM on one row (R81). -/
def AccRow.norm (r : AccRow) : AccRow :=
  let h := r.excess
  if 2047 < r.e.toInt + h then { r with sp := true, g := 0 }
  else
    { r with m := r.m.map fun x => BitVec.ofInt 48 (rneShift x.toInt h), e := BitVec.ofInt 12 (r.e.toInt + h), g := 0 }

/-! ## DRAIN (R82) -/

/-- A BF16 band scale. -/
def bandValue (code : Nat) : Tagged := { value := bf16.value code, nan := nanTo bf16 fp32 code, given := true }

/-- A factor of the exact product: the first NaN operand stands; a NaN that no operand gave is canonical (R75, R82). -/
def Tagged.mul (x y : Tagged) : Tagged :=
  match x.value, y.value with
  | .nan, .nan => if x.given then x else y
  | .nan, _ => x
  | _, .nan => y
  | a, b => { value := mulValues a b, nan := fp32.canonical, given := false }

/-- The exact value of an accumulator element; a row with SP set is the canonical NaN (R77, R82). -/
def AccRow.element (r : AccRow) (j : Fin 32) : Tagged :=
  if r.sp then { value := .nan, nan := fp32.canonical, given := true }
  else { value := .fin (exactOf r.m[j].toInt (r.e.toInt - 30) false), nan := fp32.canonical, given := false }

/-- The code of a tagged value in an output format (R76, R82). -/
def Tagged.code (x : Tagged) (ofmt : Nat) (towardZero : Bool) : Nat :=
  convert ofmt towardZero x.value (if ofmt = 4 then nanTo fp32 bf16 x.nan else x.nan)

/-- The sum of a tagged value and a destination code of BF16 or FP32, rounded once (R75, R82). -/
def Tagged.addCode (x : Tagged) (ofmt : Nat) (towardZero : Bool) (d : Nat) : Nat :=
  let f := if ofmt = 4 then bf16 else fp32
  match x.value, f.value d with
  | .nan, .nan => if x.given then x.code ofmt towardZero else f.quieted d
  | .nan, _ => x.code ofmt towardZero
  | _, .nan => f.quieted d
  | .fin a, .fin b => toIeee f towardZero (b.add a)
  | .inf n, .inf m => if n = m then f.sign n + f.infCode else f.canonical
  | .inf n, .fin _ => f.sign n + f.infCode
  | .fin _, .inf m => f.sign m + f.infCode

end Sys2Proof.Machine
end

