-- ==== Sys2Proof/Machine/Effects.lean ====
section
/-! DEFINITION. How the accesses of one tensor command perform (R156, R160): its reads, byte by byte as they are fixed, and its
elements, which land one by one. -/

namespace Sys2Proof.Machine

open Sys2Proof

/-! ## Reads -/

/-- Whether a run of bytes that a command has read holds an address. -/
def runHas (p : Nat × List Byte) (a : Nat) : Bool := decide (p.1 ≤ a ∧ a < p.1 + p.2.length)

/-- What a command reads at a physical address: the byte that it has read already, else the byte that stands there (R156). -/
def QEntry.sees (q : QEntry) (s : State) (a : Nat) : Byte :=
  match q.seen.find? fun p => runHas p a with
  | some p => p.2.getD (a - p.1) 0
  | none => s.loadByte a

/-- One byte that a command reads by its captured translations. -/
def State.readQ (s : State) (c : CoreId) (q : QEntry) (va : Nat) : Byte :=
  match physAddrs c 0 q.pages va with
  | a :: _ => q.sees s a
  | [] => 0

/-- A little-endian value of n bytes that a command reads. -/
def State.loadQ (s : State) (c : CoreId) (q : QEntry) (va n : Nat) : Nat :=
  leNat ((List.range n).map fun i => s.readQ c q (va + i))

/-- The bits of one element that a command reads (R70). -/
def State.elemQ (s : State) (c : CoreId) (q : QEntry) (efmt : Nat) (e : ElemRef) : Nat :=
  if efmtBits efmt = 4 then
    let b := (s.readQ c q e.addr).toNat
    if e.high then b / 16 else b % 16
  else s.loadQ c q e.addr (efmtBytes efmt)

/-- A command reads n bytes from an address now; what it has read of them before stands (R156). -/
def QEntry.readRun (q : QEntry) (s : State) (lo n : Nat) : QEntry :=
  if n = 0 ∨ q.seen.any (fun p => runHas p lo && runHas p (lo + n - 1)) then q
  else { q with seen := q.seen ++ [(lo, s.mem.readBytes lo n)] }

/-- A command reads now the parts of a touch that `take` names, by their naturally aligned n bytes (R156). -/
def QEntry.readTouch (q : QEntry) (s : State) (n : Nat) (take : Nat → Bool) (t : Touch) : QEntry :=
  (List.range (t.len / n + 2)).foldl (fun r i =>
    let k := t.lo / n + i
    let lo := max t.lo (n * k)
    if take k then r.readRun s lo (min (t.lo + t.len) (n * k + n) - lo) else r) q

/-- A free part of a command's reads performs ahead of the others: on SO pages those that come first in walk order (R160). -/
def QEntry.readAhead (q : QEntry) (s : State) (take : Nat → Bool) : QEntry :=
  let reads := q.touch.filter fun t => !t.write
  let ahead := (reads.filter fun t => t.ord != .so).foldl (fun r t => r.readTouch s 8 take t) q
  ((reads.filter fun t => t.ord == .so).takeWhile fun t => take (t.lo / 8)).foldl (fun r t => r.readTouch s 64 (fun _ => true) t) ahead

/-- Every read of a command performs now. -/
def QEntry.readAll (q : QEntry) (s : State) : QEntry :=
  (q.touch.filter fun t => !t.write).foldl (fun r t => r.readTouch s 64 (fun _ => true) t) q

/-! ## Landings -/

/-- An effect at one physical address. -/
def Effect.apply (e : Effect) (s : State) (a : Nat) : State :=
  match e with
  | .bytes bs => s.storeBytes a bs
  | .nibble high v =>
    let b := (s.loadByte a).toNat
    s.storeBytes a [BitVec.ofNat 8 (if high then v % 16 * 16 + b % 16 else b / 16 * 16 + v % 16)]
  | .reduce op efmt v =>
    let n := efmtBytes efmt
    s.store a n (reduceElem op efmt (s.load a n) v)
  | .addTo y ofmt rz =>
    let n := if ofmt = 4 then 2 else 4
    s.store a n (y.addCode ofmt rz (s.load a n))

/-- The effect of writing the bits of an element: whole bytes, or one nibble (R70). -/
def elemEffect (nib : Option Bool) (n v : Nat) : Effect :=
  match nib with | some high => .nibble high v | none => .bytes (leBytes n v)

/-- The nibble of its byte that an element of a format is, if it is one (R70). -/
def nibbleOf (efmt : Nat) (d : ElemRef) : Option Bool := if efmtBits efmt = 4 then some d.high else none

/-- Where an element of a format is accessed by the translations of a command (R89, R91). -/
def QEntry.placeOf (c : CoreId) (q : QEntry) (mask : BitVec 16) (efmt : Nat) (d : ElemRef) : Place :=
  .known (physAddrs c mask q.pages d.addr) (nibbleOf efmt d) (efmtBytes efmt) (ordOf q.pages d.addr)

/-- An access writes. -/
def MemOp.writes (u : MemOp) : Bool := match u.what with | .read => false | _ => true

/-- The bytes that an access may touch, as far as they are known. -/
def MemOp.touches (u : MemOp) : List Touch :=
  match u.place with
  | .known as _ n ord => as.map fun a => { lo := a, len := n, ord := ord, write := u.writes, bound := 0 }
  | .indexed _ => []
  | .picked _ _ _ _ reach => reach

/-- The scratchpad lines that a write is known to land in. -/
def MemOp.lines (u : MemOp) : List Nat :=
  match u.place with | .known as _ _ _ => as.filterMap scratchLine | _ => []

/-- An access that comes first in walk order performs before another of its command: where the two belong to one run that takes effect in
the order written, on SO pages, and where both touch one byte on pages that are not UN (R160, R270, R279, R286, R331; DEDUCED, log 22). -/
def MemOp.before (u v : MemOp) : Bool :=
  (u.chain.isSome && u.chain == v.chain) || u.touches.any fun t => v.touches.any t.ordered

/-- An access that can perform: its place is known, and so is what it writes. -/
def MemOp.stands (u : MemOp) : Bool :=
  match u.place, u.what with
  | .known _ _ _ _, .put _ _ => false
  | .known _ _ _ _, _ => true
  | _, _ => false

/-- The landing of element k through the destination (R89, R91). -/
def landOp (c : CoreId) (q : QEntry) (k efmt : Nat) (d : ElemRef) (e : Effect) (counts : Nat) : MemOp :=
  { k := k, elem := k, place := q.placeOf c q.mcMask efmt d, what := .land e, counts := counts, chain := none }

/-- A write that a command skips has landed as far as PEND goes: a landing nowhere (R287, R332). -/
def MemOp.skip (u : MemOp) : MemOp := { u with place := .known [] none 0 .un, what := .land (.bytes []), chain := none }

/-- What a read finds at a known place now. -/
def Place.value (p : Place) (s : State) : Nat :=
  match p with
  | .known (a :: _) nib n _ =>
    match nib with
    | some high => if high then (s.loadByte a).toNat / 16 else (s.loadByte a).toNat % 16
    | none => s.load a n
  | _ => 0

/-- The effect that a write has at a known place (R70, R184). -/
def MemOp.effect (u : MemOp) (efmt : Nat) : Effect :=
  match u.place, u.what with
  | _, .land e => e
  | _, .value v (some op) => .reduce op efmt v
  | .known _ nib n _, .value v none => elemEffect nib n v
  | _, _ => .bytes []

/-- The element of a table that a linear index names, or none past its size (R286). -/
def tableElem (h : HandleBits) (l : Nat) : Option ElemRef :=
  if l < hCount h then
    let d0 := hDim h 0
    let d1 := hDim h 1
    let d2 := hDim h 2
    some (hElem h (l % d0) (l / d0 % d1) (l / (d0 * d1) % d2) (l / (d0 * d1 * d2)))
  else none

/-- The handle number k of an entry. -/
def QEntry.handleAt (q : QEntry) (k : Nat) : HandleBits := q.handles[k]?.getD 0

/-- The handle of the table that an index selects in: GATH reads hb, SCAT writes ha (R286, R331). -/
def QEntry.table (q : QEntry) : HandleBits := match q.instr with | .scat _ _ _ => q.handleAt 0 | _ => q.handleAt 1

/-- An access on an UN page leaves the run that it belongs to by its index (R160, R332). -/
def MemOp.loosen (u : MemOp) : MemOp :=
  match u.place with | .known _ _ _ .un => { u with chain := none } | _ => u

/-- What one later access of the element learns from the value v that access k has read. -/
def QEntry.learn (c : CoreId) (q : QEntry) (k v : Nat) (u : MemOp) : MemOp :=
  let mask := if u.writes then q.mcMask else 0
  let w := match u.what with | .put from_ red => if from_ = k then .value v red else u.what | a => a
  match u.place with
  | .indexed b =>
    if b = k then
      match tableElem q.table v with
      | some d => { u with place := q.placeOf c mask (hEfmt q.table) d, what := w }.loosen
      | none => u.skip
    else { u with what := w }
  | .picked b row first second _ =>
    let h := q.handleAt 0
    if b = k then
      { u with what := w, place := q.placeOf c mask (hEfmt h) (rowElem h row (first + (if second then v / 4 % 4 else v % 4))) }
    else { u with what := w }
  | .known _ _ _ _ => { u with what := w }

/-- The bytes that each write of a group of COPY.s24 counts once its metadata byte has been read: its element's where it lands last there,
and the group's last write counts what is left of the group (R178, R279). -/
def groupCounts (efmt k v : Nat) (us : List MemOp) : List MemOp :=
  let n := if efmtBits efmt = 4 then 0 else efmtBytes efmt
  let p0 := v % 4
  let p1 := v / 4 % 4
  let mine := fun (u : MemOp) => if u.k = k + 6 then (if p0 = p1 then 0 else n) else if k < u.k ∧ u.k < k + 5 ∧ u.k - (k + 1) ≠ p0 ∧ u.k - (k + 1) ≠ p1 then n else 0
  us.map fun u => if u.k = k + 8 then { u with counts := u.counts - (us.map mine).sum } else { u with counts := mine u }

/-- What the later accesses of the element learn from the value v that access k has read. An index of size or more leaves of its element
only the write that lands nowhere (R286, R331). -/
def QEntry.learnAll (c : CoreId) (q : QEntry) (k v : Nat) (us : List MemOp) : List MemOp :=
  let index := us.any fun u => u.place == .indexed k
  if index && (tableElem q.table v).isNone then (us.filter MemOp.writes).map MemOp.skip
  else
    let ls := us.map (q.learn c k v)
    if us.any fun u => match u.place with | .picked b _ _ _ _ => b == k | _ => false then groupCounts (hEfmt (q.handleAt 0)) k v ls else ls

/-- Writes through the destination stamp tags by its AWR: not those of an ACCSV, whose handle gives BASE and SPACE alone (R98, R145). -/
def QEntry.stamps (q : QEntry) : Bool := match q.instr with | .accsv _ _ => false | _ => true

/-- A write that waits is sure to land in its line: not one of a GATH whose index is unread (R287; DESIGN CHOICE, log 99). -/
def QEntry.lands (q : QEntry) (v : MemOp) : Bool := v.writes && match q.instr with | .gath _ _ _ => v.stands | _ => true

/-- One write lands whole, at every address in one wc (R89, R156, R168): its bytes come off PEND, and the lines that no other access of
the command is sure to write later are stamped (R98, R178). -/
def landOut (c : CoreId) (q : QEntry) (u : MemOp) (others : List MemOp) (s : State) : State :=
  let t := match u.place with
    | .known as _ _ _ => as.foldl (fun s a => (u.effect (hEfmt (q.handleAt 0))).apply s a) s
    | _ => s
  let n := t.notifyLanded c q.notify u.counts
  let h := q.handleAt 0
  if q.stamps && hAwr h then stampLines n h (u.lines.filter fun l => !(others.any fun v => q.lands v && v.lines.contains l)) else n

/-- One access performs; the answer is the accesses behind it with what they learn from it. -/
def performOp (c : CoreId) (q : QEntry) (u : MemOp) (kept rest : List MemOp) (s : State) : State × List MemOp :=
  if u.writes then (landOut c q u (kept ++ rest) s, rest)
  else
    let mine := rest.takeWhile fun v => v.elem == u.elem
    (s, q.learnAll c u.k (u.place.value s) mine ++ rest.drop mine.length)

/-- Accesses of a command as they perform in one wc: the state, what commands that go on to write have read in this wc, and the accesses
that wait, the latest first. -/
structure Pass where
  state : State
  reads : List Touch
  kept : List MemOp
  deriving DecidableEq, Repr

/-- The accesses that `may` picks perform, in walk order, but for one that must follow an access that waits, and for a write of a byte that
has been read in this wc (R156, R160). -/
def passOps (c : CoreId) (q : QEntry) (may : MemOp → Bool) : Nat → List MemOp → Pass → Pass
  | 0, ops, p => { p with kept := ops.reverse ++ p.kept }
  | _, [], p => p
  | fuel + 1, u :: rest, p =>
    if u.stands && may u && !(p.kept.any fun v => v.before u) && !(u.writes && p.reads.any fun t => u.touches.any t.meets) then
      let r := performOp c q u p.kept rest p.state
      passOps c q may fuel r.2 { p with state := r.1, reads := if u.writes then p.reads else u.touches ++ p.reads }
    else passOps c q may fuel rest { p with kept := u :: p.kept }

/-- Some accesses of an issued command perform. -/
def QEntry.pass (q : QEntry) (c : CoreId) (e : Engine) (may : MemOp → Bool) (s : State) (reads : List Touch) : Pass :=
  let p := passOps c q may q.ops.length q.ops { state := s, reads := reads, kept := [] }
  { p with state := p.state.onEntry c e q.order fun x => { x with ops := p.kept.reverse } }

/-- Accesses perform one after the other, in walk order. -/
def performAll (c : CoreId) (q : QEntry) : Nat → List MemOp → State → State
  | 0, _, s => s
  | _, [], s => s
  | fuel + 1, u :: rest, s =>
    let r := performOp c q u [] rest s
    performAll c q fuel r.2 r.1

/-- Every access that is left performs, in walk order. -/
def State.landRest (s : State) (c : CoreId) (q : QEntry) : State := performAll c q q.ops.length q.ops s

/-- A read of the command is left, for which its retirement waits: reads see what lands in their wc (R156). -/
def QEntry.readsLeft (q : QEntry) : Bool := q.ops.any fun u => !u.writes

/-- The bytes that element i of a row of `bits`-bit elements adds to those before it: a byte counts with its first nibble. -/
def stepBytes (bits i : Nat) : Nat := ((i + 1) * bits + 7) / 8 - (i * bits + 7) / 8

end Sys2Proof.Machine
end

