-- ==== Sys2Proof/Machine/YEngine.lean ====
section
/-! DEFINITION. The Y engine (R53): atomics (R183, R268, R269), FENCE (R166, R282), phaser words (R180, R321) and ring
words (R174, R329). The first half enqueues or blocks; the second is what each word does when it performs. -/

namespace Sys2Proof.Machine

open Sys2Proof

/-! ## Atomics -/

/-- The acquire and release parts of an order (R34). -/
def ordAcquires : AtomicOrd → Bool
  | .acquire | .acqrel => true
  | _ => false
def ordReleases : AtomicOrd → Bool
  | .release | .acqrel => true
  | _ => false

/-- Bytes of an atomic (R34). -/
def atomicBytes (wide : Bool) : Nat := if wide then 8 else 4

/-- Enqueue of an atomic: address, data and, for ACAS, s(v+1) are read; under a true guard the access is checked and
pinned, under a false one nothing is (R268, R269). -/
def State.atomicWord (s : State) (i : Instr) (g : Guard) (ord : AtomicOrd) (sc : Scope) (wide : Bool) (v a : SReg) (cas : Bool) :
    Out :=
  let x := (s.src 0 a).toNat
  let n := atomicBytes wide
  s.enqueue .y (if cas then [v, a, v + 1] else [v, a]) (do
    let q := { s.newEntry .y i with sa := s.src 0 a, v := s.src 1 v, z := if cas then s.src 2 (v + 1) else 0,
                                    guardTrue := s.guardTrue g }
    if s.guardTrue g then do
      let pages ← checkScalar s s.cur warmSpaces true x n
      pure ({ q with pages := pages
                     touch := touches s.cur 0 pages true [(x, n)] ++ touches s.cur 0 pages false [(x, n)]
                     acquire := ordAcquires ord, release := ordReleases ord, scope := sc }, id)
    else pure (q, id))

/-- AADD. -/
def execAadd (g : Guard) (o : AtomicOrd) (sc : Scope) (w : Bool) (v a : SReg) (s : State) : Out :=
  s.atomicWord (.aadd g o sc w v a) g o sc w v a false
/-- AMIN. -/
def execAmin (g : Guard) (o : AtomicOrd) (sc : Scope) (w n : Bool) (v a : SReg) (s : State) : Out :=
  s.atomicWord (.amin g o sc w n v a) g o sc w v a false
/-- AMAX. -/
def execAmax (g : Guard) (o : AtomicOrd) (sc : Scope) (w n : Bool) (v a : SReg) (s : State) : Out :=
  s.atomicWord (.amax g o sc w n v a) g o sc w v a false
/-- AXCHG. -/
def execAxchg (g : Guard) (o : AtomicOrd) (sc : Scope) (w : Bool) (v a : SReg) (s : State) : Out :=
  s.atomicWord (.axchg g o sc w v a) g o sc w v a false
/-- ACAS. -/
def execAcas (g : Guard) (o : AtomicOrd) (sc : Scope) (w : Bool) (v a : SReg) (s : State) : Out :=
  s.atomicWord (.acas g o sc w v a) g o sc w v a true

/-- The low n bytes of a word as a natural number. -/
def lowBytes (n : Nat) (v : Word) : Nat := v.toNat % 256 ^ n

/-- Signed comparison of two n-byte patterns. -/
def signedLt (n x y : Nat) : Bool := decide ((BitVec.ofNat (8 * n) x).toInt < (BitVec.ofNat (8 * n) y).toInt)

/-- What an atomic writes over an old value, or none, and what v receives (R183). -/
def atomicResult (i : Instr) (y z : Word) (old : Nat) : Option Nat × Word :=
  match i with
  | .aadd _ _ _ w _ _ =>
    let n := atomicBytes w
    (some ((old + lowBytes n y) % 256 ^ n), BitVec.ofNat 64 old)
  | .amin _ _ _ w nat _ _ =>
    let n := atomicBytes w
    let v := lowBytes n y
    (some (if nat then min old v else if signedLt n v old then v else old),
      if nat then BitVec.ofNat 64 old else (BitVec.ofNat (8 * n) old).signExtend 64)
  | .amax _ _ _ w nat _ _ =>
    let n := atomicBytes w
    let v := lowBytes n y
    (some (if nat then max old v else if signedLt n old v then v else old),
      if nat then BitVec.ofNat 64 old else (BitVec.ofNat (8 * n) old).signExtend 64)
  | .axchg _ _ _ w _ _ => (some (lowBytes (atomicBytes w) y), BitVec.ofNat 64 old)
  | .acas _ _ _ w _ _ =>
    let n := atomicBytes w
    (if old = lowBytes n y then some (lowBytes n z) else none, BitVec.ofNat 64 old)
  | _ => (none, 0)

/-- The register an atomic writes, and its width in bytes. -/
def atomicDest : Instr → SReg × Nat
  | .aadd _ _ _ w v _ => (v, atomicBytes w)
  | .amin _ _ _ w _ v _ => (v, atomicBytes w)
  | .amax _ _ _ w _ v _ => (v, atomicBytes w)
  | .axchg _ _ _ w v _ => (v, atomicBytes w)
  | .acas _ _ _ w v _ => (v, atomicBytes w)
  | _ => (0, 4)

/-- An atomic performs: one access reads and writes, and v receives the old value (R165, R183). Under a false guard nothing
happens (DEDUCED, log 19). -/
def performAtomic (s : State) (c : CoreId) (q : QEntry) : State :=
  if q.guardTrue = false then s
  else
    let n := (atomicDest q.instr).2
    let old := s.loadV c q.pages q.sa.toNat n
    let r := atomicResult q.instr q.v q.z old
    let t := match r.1 with
      | some new => s.storeV c 0 q.pages q.sa.toNat (leBytes n new)
      | none => s
    t.writeFor c q (atomicDest q.instr).1 r.2

/-! ## FENCE -/

/-- A fence that orders writes raises the core's scratchpad generation at its enqueue (R148, R166). -/
def fenceCountsGen (k : FenceKind) : Bool := k != .r

/-- FENCE enters the Y queue; `z` keeps how many outbound pushes stand before it. -/
def execFence (k : FenceKind) (sc : Scope) (s : State) : Out :=
  s.enqueue .y [] (pure ({ s.newEntry .y (.fence k sc) with scope := sc, z := BitVec.ofNat 64 s.me.pushes },
    fun x => if fenceCountsGen k then { x with gen := x.gen + 1 } else x))

/-! ## Phaser and ring words that enter the queue -/

/-- What a word touches of a block. One in the core's own scratchpad adds nothing to the word's bound, whichever way it is named (R172). -/
def blockTouches (c : CoreId) (x : Nat) : List Touch :=
  (touches c 0 [] true [(x, 64)] ++ touches c 0 [] false [(x, 64)]).map fun t =>
    if decide (scratchBase c ≤ t.lo ∧ t.lo < scratchBase c + 0x400000) then { t with bound := 0 } else t

/-- Enqueue of a block word: a and b are read, the block address checked (R172). The word's access is the block. -/
def State.blockWord (s : State) (i : Instr) (srcs : List SReg) (a : SReg) (b : Word) (release : Bool) : Out :=
  let x := (s.src 0 a).toNat
  s.enqueue .y srcs (do
    checkBlock x
    pure ({ s.newEntry .y i with
            sa := s.src 0 a, v := b, release := release, scope := .die
            touch := blockTouches s.cur x }, id))

/-- PHREG. -/
def execPhreg (r : PhaserRole) (a : SReg) (s : State) : Out := s.blockWord (.phreg r a) [a] a 0 false
/-- PHDROP. -/
def execPhdrop (a : SReg) (s : State) : Out := s.blockWord (.phdrop a) [a] a 0 false
/-- PHSIG is a release at die scope (R322). -/
def execPhsig (a : SReg) (s : State) : Out := s.blockWord (.phsig a) [a] a 0 true
/-- PHBYT. -/
def execPhbyt (a b : SReg) (s : State) : Out := s.blockWord (.phbyt a b) [a, b] a (s.src 1 b) false
/-- RNINIT. -/
def execRninit (a b : SReg) (s : State) : Out := s.blockWord (.rninit a b) [a, b] a (s.src 1 b) false
/-- RNCLM. -/
def execRnclm (d a : SReg) (s : State) : Out := s.blockWord (.rnclm d a) [a] a 0 false
/-- RNPUB is a release at die scope (R176). -/
def execRnpub (a b : SReg) (s : State) : Out := s.blockWord (.rnpub a b) [a, b] a (s.src 1 b) true
/-- RNTAKE. -/
def execRntake (d a : SReg) (s : State) : Out := s.blockWord (.rntake d a) [a] a 0 false
/-- RNRET. -/
def execRnret (a b : SReg) (s : State) : Out := s.blockWord (.rnret a b) [a, b] a (s.src 1 b) false

/-- A ring or phaser fault of a queued word: fatal, at the next boundary, with the word's address and slot (R175, R182). -/
def State.blockFault (s : State) (c : CoreId) (q : QEntry) (code : BitVec 8) : State :=
  s.postTrap c { code := code, info := q.sa, slot := q.slot .y, addr := q.pc }

/-- A ring or phaser word performs on its block; a faulting update has no effect (R174, R180). -/
def performBlock (s : State) (c : CoreId) (q : QEntry) : State :=
  let p := blockAddr c q.sa.toNat
  match q.instr with
  | .phreg r _ => phaserRegister s p (localOf c) r
  | .phdrop _ => phaserDrop s p (localOf c)
  | .phsig _ => (phaserSignal s p (localOf c)).getD (s.blockFault c q codePhaser)
  | .phbyt _ _ => s.addPend p ((q.v.setWidth 28).toInt)
  | .rninit _ _ => (ringInit s p (scratchSize - p % scratchSize) q.v).getD (s.blockFault c q codeRing)
  | .rnclm d _ =>
    match ringClaim s p with
    | some (t, slot) => t.writeFor c q d slot
    | none => s.blockFault c q codeRing
  | .rnpub _ _ => (ringPublish s p q.v.toNat).getD (s.blockFault c q codeRing)
  | .rntake d _ =>
    match ringTake s p with
    | some (t, slot) => t.writeFor c q d slot
    | none => s.blockFault c q codeRing
  | .rnret _ _ => (ringReturn s p q.v.toNat).getD (s.blockFault c q codeRing)
  | _ => s

/-- The bound of a Y word but for T and Q (R53). -/
def yBound : Instr → Nat
  | .rninit _ _ => 8
  | .fence _ _ => 2
  | .phreg _ _ | .phdrop _ | .phsig _ | .phbyt _ _ | .rnclm _ _ | .rnpub _ _ | .rntake _ _ | .rnret _ _ => 4
  | _ => 8

/-! ## Blocking words (R22) -/

/-- A blocking word passes: it retires at once, and cc.y counts it (R22, R66). -/
def State.passBlocking (s : State) (srcs : List SReg) : State :=
  ((s.popAll srcs).onMe fun x => { x with counters := x.counters.set 4 (x.counters[4] + 1) }).bump.advance

/-- A blocking word runs once every earlier Y word has retired; its block is checked; then `run` acts on the block (R22). -/
def State.blockingWord (s : State) (srcs : List SReg) (a : SReg) (run : Nat → Out) : Out :=
  s.popGate srcs
    (match s.me.unretired .y with
     | _ :: _ => .next (s.hold .earlierY)
     | [] =>
       match checkBlock (s.src 0 a).toNat with
       | .error stop => s.stopped (slotCode (engCode .y) s.me.enqueued[(4 : Fin 5)]) stop
       | .ok () => run (blockAddr s.cur (s.src 0 a).toNat))

/-- A fault of a blocking word at its execution. -/
def State.blockingFault (s : State) (code : BitVec 8) (a : Word) : State :=
  s.faultHere code a (slotCode (engCode .y) s.me.enqueued[(4 : Fin 5)])

/-- RNWAITF holds until the slot at HEAD is FILLED, and faults on an invalid block (R174). -/
def execRnwaitf (a : SReg) (s : State) : Out :=
  s.blockingWord [a] a fun p =>
    match ringHasFilled s p with
    | none => .next (s.blockingFault codeRing (s.src 0 a))
    | some true => .next (s.passBlocking [a])
    | some false => .next (s.hold (.ringFilled p))

/-- RNWAITE holds until the slot at TAIL is FREE. -/
def execRnwaite (a : SReg) (s : State) : Out :=
  s.blockingWord [a] a fun p =>
    match ringHasFree s p with
    | none => .next (s.blockingFault codeRing (s.src 0 a))
    | some true => .next (s.passBlocking [a])
    | some false => .next (s.hold (.ringFree p))

/-- PHWAIT holds until the phase has passed b; a core that is not a waiter faults (R180). -/
def execPhwait (a b : SReg) (s : State) : Out :=
  s.blockingWord [a, b] a fun p =>
    if (s.phaser p).wmask.getLsbD (localOf s.cur).val = false then .next (s.blockingFault codePhaser (s.src 0 a))
    else if phasePassed (s.phaser p).phase ((s.src 1 b).setWidth 32) then .next (s.passBlocking [a, b])
    else .next (s.hold (.phasePast p ((s.src 1 b).setWidth 32)))

/-- PHARR signals and holds until the phase moves; a core that is not both faults (R180). -/
def execPharr (a : SReg) (s : State) : Out :=
  s.blockingWord [a] a fun p =>
    let b := s.phaser p
    let l := (localOf s.cur).val
    if b.smask.getLsbD l = false ∨ b.wmask.getLsbD l = false then .next (s.blockingFault codePhaser (s.src 0 a))
    else
      .next (((s.setPhaserMasks p b.smask b.wmask (maskBit b.sgd (localOf s.cur) true))).hold
        (.phaseMoved p (BitVec.ofNat 32 b.phase) (!(b.sgd.getLsbD l))))

end Sys2Proof.Machine
end

