-- ==== Sys2Proof/Machine/SchedOps.lean ====
section
/-! DEFINITION. What the issue stage and the scheduler share: which items a graph has to place (R194, R195), a free core,
the end of a lease (R142), and the end of a task with what it does to its node and its graph (R192, R203, R204). -/

namespace Sys2Proof.Machine

open Sys2Proof

/-- A core that can take a task: it runs none, is not being saved or resumed, and no command or push of the last task is
left in its A, G, M and Y queues (R54, R65, R170, R193). -/
def State.coreFree (s : State) (c : CoreId) : Bool :=
  let x := s.core c
  x.mode == .free && x.lease.state == .idle && (x.outQ[(0 : Fin 4)]).isEmpty && (x.outQ[(1 : Fin 4)]).isEmpty &&
    [Engine.a, .g, .m, .y].all fun e => (x.queue e).isEmpty

/-- CMASK allows a core; 0 allows every core (R189). -/
def Graph.allows (g : Graph) (c : CoreId) : Bool := g.cmask == 0 || g.cmask.getLsbD c.val

/-- Tuples of a node (R190, R193). -/
def Node.tuples (n : Node) : Nat :=
  if n.nest then n.bounds[(0 : Fin 4)] * n.bounds[(1 : Fin 4)] * n.bounds[(2 : Fin 4)] * n.bounds[(3 : Fin 4)] else 1

/-- The first image slot of a graph that no task holds (R194). -/
def Graph.freeSlot (g : Graph) : Option Nat := (List.range g.slots).find? fun i => !(g.used.contains i)

/-- An item the scheduler may place (R195). -/
inductive Item where
  | resume (graph slot : Nat) (core : CoreId)
  | tuple (graph node : Nat)
  deriving DecidableEq, Repr

/-- A task of a graph has been struck, and its image is not saved yet. -/
def State.striking (s : State) (g : Nat) : Bool := (s.coresOf g).any fun c => (s.core c).mode == .saving

/-- Every item of a graph that can be dispatched: its pre-empted tasks, in node index order; and while it holds none, and none is being saved
(`striking`), the tuples of its ready nodes, in node index order, as many as it has free slots (R192, R194, R195). -/
def Graph.allItems (g : Graph) (striking : Bool) (now : Nat) : List Item :=
  if g.ending.isSome || g.exhausted || decide (now < g.readyAt) then []
  else if g.saved.any fun t => !t.resuming then
    ((List.range g.nodes.length).flatMap fun n => g.saved.filter fun t => t.task.node == n && !t.resuming && decide (t.readyAt ≤ now)).map
      fun t => .resume g.id t.slot t.core
  else if striking then []
  else
    let slots := g.slots - g.used.length
    (g.nodes.zipIdx.flatMap fun x =>
      if x.1.count == 0 then List.replicate (min slots (x.1.tuples - x.1.placed)) (.tuple g.id x.2) else []).take slots

/-- The items of a graph that may be placed next: its pre-empted tasks, or else the first of its tuples (R195). -/
def State.items (s : State) (g : Graph) : List Item :=
  match g.allItems (s.striking g.id) s.clock with
  | .tuple a n :: _ => [.tuple a n]
  | is => is

/-- A core an item may take. -/
def itemAllows (g : Graph) (i : Item) (c : CoreId) : Bool :=
  match i with
  | .resume _ _ k => k == c
  | .tuple _ _ => g.allows c

/-- An item finds no free core that it may take (R197, R348). -/
def State.itemWaits (s : State) (g : Graph) (i : Item) : Bool :=
  (List.finRange 64).all fun c => !(itemAllows g i c && s.coreFree c)

/-- Some item of priority `pri` or above that may take core c waits for a free core (R348). -/
def State.waitsForCore (s : State) (c : CoreId) (pri : Nat) : Bool :=
  s.sched.graphs.any fun g => decide (pri ≤ g.pri) && (s.items g).any fun i => itemAllows g i c && s.itemWaits g i

/-- A quota pre-emption waits for the heat-pause trap of its graph and for that trap's handler (R205). -/
def heatPauses (x : CoreState) : Bool :=
  x.preempt == some 2 && ((x.traps.any fun t => t.code == codeHeatPause) || (x.inh && x.xcause == codeHeatPause))

/-- The pins that the lease itself holds: while it waits, they are those of its LEASE word. -/
def Lease.pins (l : Lease) : List PageMap := if l.state = .waiting then [] else l.spillPages

/-- The lease of a core ends: the pin goes, H and the shelf tags are clear, and the array it holds has no holder (R142, R143,
R284). A spill that is under way stops with it (DEDUCED, log 21). -/
def State.releaseLease (s : State) (c : CoreId) : State :=
  let d := dieOf c
  let holds := (s.array d).holder == some (localOf c)
  let t := (s.unpinPages c (s.core c).lease.pins).onCore c fun x => { x with lease := Lease.reset }
  let u := { t with timers := t.timers.filter fun e => !(holds && (e.2 == Instr.spillSaveEnd d || e.2 == Instr.spillRestoreEnd d)) }
  u.onArray d fun a =>
    { a with
      holder := if holds then none else a.holder
      streams := a.streams.filter fun z => !(z.core == c && z.number.isNone) }

/-- The graph's phaser: it advances when every node is complete and PEND is zero; the graph is then done (R204). -/
def State.graphTest (s : State) (g : Nat) : State :=
  s.onGraph g fun x =>
    if x.ending = none ∧ x.pend = 0 ∧ (x.nodes.all fun n => decide (n.tuples ≤ n.ended)) then
      { x with ending := some { status := 1, code := 0, addr := 0, info := 0, node := 0, core := 0, serial := 0 } }
    else x

/-- One tile task of node n has halted; a node whose tasks have all halted lowers each successor's count, once for each
time it is listed (R192). -/
def Graph.taskHalted (g : Graph) (n : Nat) : Graph :=
  let nodes := g.nodes.modify n fun x => { x with ended := x.ended + 1 }
  match nodes[n]? with
  | none => g
  | some x =>
    { g with
      nodes := if x.ended = x.tuples then x.succ.foldl (fun ns i => ns.modify i fun y => { y with count := y.count - 1 }) nodes
               else nodes }

/-- A core whose task has ended: unpopped entries of q0 to q3 and unpopped format words are discarded (R297). -/
def CoreState.ended (x : CoreState) : CoreState :=
  { x with
    mode := .free, task := none, held := none, squeue := [], shadows := [], traps := [], preempt := none
    inQ := Vector.replicate 4 [], fmtQ := [] }

/-- A task ends by HALT: the core is free, its lease ends, its slot is released, and the task counts toward its node
(R142, R192, R203). -/
def State.endTask (s : State) (c : CoreId) : State :=
  match (s.core c).task with
  | none => s.onCore c CoreState.ended
  | some t =>
    let s1 := (s.releaseLease c).onCore c CoreState.ended
    (s1.onGraph t.graph fun g => { (g.taskHalted t.node) with used := g.used.filter fun i => i != t.slot }).graphTest t.graph

end Sys2Proof.Machine
end

