-- ==== Sys2Proof/Machine/Special.lean ====
section
/-! DEFINITION. The special registers a task reaches (R342): what each reads, which can be written, and with what
effect (R5, R69, R89, R115, R202, R207, R241, R245 to R247, R255). -/

namespace Sys2Proof.Machine

open Sys2Proof

/-- Bits as a number: bit k set where `f k` holds. -/
def bitsOf (n : Nat) (f : Nat → Bool) : Nat := ((List.range n).map fun k => if f k then 2 ^ k else 0).sum

/-- The peers of a port in the active calendar (R206). -/
def State.portPeers (s : State) (p : PortId) : List ModuleId :=
  match s.fabric.active with
  | none => []
  | some b => (((b.calendar[p]).toList.take b.slots).filterMap id).eraseDups

/-- Markers of generation MGEN have been sent to and received from every peer (R228, R241; DEDUCED, log 52). -/
def State.portDrained (s : State) (p : PortId) : Bool :=
  let x := s.port p
  (s.portPeers p).all fun q =>
    x.markSent[q] == x.mgen &&
      match x.markGot[q] with
      | some h => decide ((h - x.mgen).toNat < 128)
      | none => false

/-- PH of LSTAT. -/
def phaseCode : PortPhase → Nat
  | .run => 0 | .dark => 1 | .relock => 2

/-- LSTAT of a port (R241). -/
def State.lstat (s : State) (p : PortId) : Nat :=
  let x := s.port p
  x.rtcnt.toNat * 2 ^ 48 + bitsOf 16 (fun k => x.groups[k]? == some .gated) * 2 ^ 32 + x.mgen.toNat * 2 ^ 24 +
    x.rtdue.toNat * 128 + x.train.toNat * 64 + (s.portDrained p).toNat * 32 + x.held.toNat * 16 + phaseCode x.phase

/-- LPWR of a port (R245). -/
def State.lpwr (s : State) (p : PortId) : Nat :=
  let x := s.port p
  x.drops.toNat * 2 ^ 48 + x.lastDrop.toNat * 2 ^ 32 + bitsOf 16 (fun k => x.groups[k]? == some .waking) * 2 ^ 16 +
    bitsOf 16 (fun k => x.groups[k]? == some .asleep)

/-- ORNG of a ring (R247). -/
def ringWord (r : Ring) : Nat := r.pd.toNat * 2 ^ 48 + r.wl.toNat * 2 ^ 16 + r.htr.toNat

/-- The rail in use of a cluster: a droop force, then the budget step, then the owner's selection (R250). -/
def Power.railHigh (p : Power) (k : Nat) : Bool :=
  p.forced.getLsbD k || (p.crsel.getLsbD k && !p.stepped.getLsbD k)

/-- The demand of the module in 0.5 W units (R253). -/
def Power.demand (p : Power) : Nat := max 1200 (min p.pwbud.toNat (p.pwarm.toNat + 128))

/-- The cluster of a core (R13). -/
def clusterOf (c : CoreId) : Fin 16 := ⟨c.val / 4, by have := c.isLt; omega⟩

/-- What a special register reads on core c, or none where the number is unassigned (R342). -/
def State.special (s : State) (c : CoreId) (n : Nat) : Option Nat :=
  let x := s.core c
  let b := s.fabric.active
  let p := s.power
  match n with
  | 0x001 => some x.checked.toNat
  | 0x002 => some c.val
  | 0x003 => some (s.clock % 2 ^ 64)
  | 0x008 => some x.qptr[(0 : Fin 2)].toNat
  | 0x009 => some x.qptr[(1 : Fin 2)].toNat
  | 0x00c => some ((x.inQ[(0 : Fin 4)]).length + (x.inQ[(1 : Fin 4)]).length * 16 + (x.inQ[(2 : Fin 4)]).length * 256 +
      (x.inQ[(3 : Fin 4)]).length * 4096)
  | 0x010 => some x.counters[(0 : Fin 5)].toNat
  | 0x011 => some x.counters[(1 : Fin 5)].toNat
  | 0x012 => some x.counters[(2 : Fin 5)].toNat
  | 0x013 => some x.counters[(3 : Fin 5)].toNat
  | 0x014 => some x.counters[(4 : Fin 5)].toNat
  | 0x020 => some (nbits s.owner.ptbr.toNat 12 40 * 4096)
  | 0x024 => some x.mcw[(0 : Fin 4)].toNat
  | 0x025 => some x.mcw[(1 : Fin 4)].toNat
  | 0x026 => some x.mcw[(2 : Fin 4)].toNat
  | 0x027 => some x.mcw[(3 : Fin 4)].toNat
  | 0x040 => some (s.meter.budget % 2 ^ 32)
  | 0x041 => some (s.meter.atStart / 5)
  | 0x042 => some s.meter.last
  | 0x043 => some x.hthr.toNat
  | 0x044 => some x.hfill.toNat
  | 0x045 => some (x.heatEnable.toNat * 2 ^ 63 + x.heatLevel.toNat)
  | 0x048 => some (bitsOf 8 fun k => match x.channels[k]? with | some (some _) => true | _ => false)
  | 0x060 => some x.xpc.toNat
  | 0x061 => some x.xcause.toNat
  | 0x062 => some x.xinfo.toNat
  | 0x063 => some x.xslot.toNat
  | 0x064 => some x.inh.toNat
  | 0x070 => some (match s.graphOf c with | some g => g.quse / 5 | none => 0)
  | 0x080 => some (match b with | some b => b.slen | none => s.fabric.slen)
  | 0x081 => some (match b with | some b => b.guard | none => s.fabric.guard)
  | 0x082 => some (match b with | some b => b.slots | none => 0)
  | 0x083 => some (match b with | some b => b.epoch | none => 0)
  | 0x084 => some (match b with | some b => b.flight | none => 0)
  | 0x085 => some (s.fabric.self.val + (match b with | some b => b.pod | none => 1) * 256)
  | 0x086 => some s.fabric.rrbase.toNat
  | 0x087 => some x.rxn.toNat
  | 0x088 => some x.rxlost.toNat
  | 0x089 => some s.fabric.rsw.toNat
  | 0x0b0 => some p.pwbud.toNat
  | 0x0b1 => some p.pwarm.toNat
  | 0x0b2 => some p.crsel.toNat
  | 0x0b3 => some (bitsOf 16 p.railHigh)
  | 0x0b4 => some (p.ovr.toNat + (p.forced.getLsbD (clusterOf c).val).toNat * 2)
  | 0x0b5 => some p.drpev[clusterOf c].toNat
  | 0x0b6 => some p.drpfrc[clusterOf c].toNat
  | 0x0b8 => some p.rklim.toNat
  | 0x0b9 => some p.rkshr.toNat
  | 0x0ba => some p.demand
  | 0x0bb => some (nbits p.rkid.toNat 0 6 + nbits p.rkid.toNat 8 5 * 256)
  | _ =>
    if 0x090 ≤ n ∧ n < 0x098 then some (s.lstat (Fin.ofNat 8 (n - 0x090)))
    else if 0x098 ≤ n ∧ n < 0x0a0 then some (s.port (Fin.ofNat 8 (n - 0x098))).shed.toNat
    else if 0x0a0 ≤ n ∧ n < 0x0a8 then some (s.lpwr (Fin.ofNat 8 (n - 0x0a0)))
    else if 0x380 ≤ n ∧ n < 0x800 then (s.rings[n - 0x380]?).map ringWord
    else none

/-- A write of a special register by the executing core: RW registers take the value without their RES bits; a ring
register takes it at the start of the next wc, where writes of several cores stand in core order; RO registers take
nothing (R5, R6, R247, R341). -/
def State.writeSpecial (s : State) (n : Nat) (v : Word) : State :=
  match n with
  | 0x001 => s.onMe fun x => { x with checked := v.getLsbD 0 }
  | 0x008 => s.onMe fun x => { x with qptr := x.qptr.set 0 (v &&& ~~~7) }
  | 0x009 => s.onMe fun x => { x with qptr := x.qptr.set 1 (v &&& ~~~7) }
  | 0x024 => s.onMe fun x => { x with mcw := x.mcw.set 0 (v.setWidth 16) }
  | 0x025 => s.onMe fun x => { x with mcw := x.mcw.set 1 (v.setWidth 16) }
  | 0x026 => s.onMe fun x => { x with mcw := x.mcw.set 2 (v.setWidth 16) }
  | 0x027 => s.onMe fun x => { x with mcw := x.mcw.set 3 (v.setWidth 16) }
  | 0x045 => s.onMe fun x => { x with heatEnable := v.getLsbD 63, heatLevel := v.setWidth 32 }
  | 0x060 => s.onMe fun x => { x with xpc := v }
  | 0x087 => s.onMe fun x => { x with rxn := v.setWidth 9 }
  | _ => if 0x380 ≤ n ∧ n < 0x800 then s.timer (s.clock + 1) (.orngWrite (Fin.ofNat 1152 (n - 0x380)) v) else s

end Sys2Proof.Machine
end

