-- ==== Sys2Proof/Machine/System.lean ====
section
/-! DEFINITION. The waits of the issue stage (R66 to R68, R326, R350), the X words (R54, R203, R275, R296, R298, R301,
R341, R346, R348), and the passing of a held word (R22, R327). -/

namespace Sys2Proof.Machine

open Sys2Proof

/-! ## WAITC and RDV -/

/-- A counter has reached a target within a half-range window (R67). -/
def counterReached (cc target : BitVec 32) : Bool := decide ((cc - target).toNat < 2 ^ 31)

/-- WAITC holds until the counter reaches the target, and starves when too few words are left to reach it (R67, R350). -/
def execWaitc (sel : CounterSel) (a : SReg) (s : State) : Out :=
  s.issueGate [a] [] 0
    (let cc : BitVec 32 := s.me.counters[engIdx sel]
     let target : BitVec 32 := (s.src 0 a).setWidth 32
     if counterReached cc target then .next ((s.popAll [a]).bump.advance)
     else if (s.me.unretired sel).length < (target - cc).toNat then
       .next (s.faultHere codeStarvation (BitVec.ofNat 64 (engIdx sel).val))
     else .next (s.hold (.counter sel target)))

/-- The masked queues have retired every word, L words of an earlier task and the outbound q0 and q1 entries of A included (R68). -/
def rendezvousMet (x : CoreState) (k : EngineMask) : Bool :=
  (!k.a || ((x.unretired .a).isEmpty && (x.outQ[(0 : Fin 4)]).isEmpty && (x.outQ[(1 : Fin 4)]).isEmpty)) &&
    (!k.g || (x.unretired .g).isEmpty) && (!k.m || (x.unretired .m).isEmpty) && (!k.l || (x.queue .l).all fun q => q.status == .retired) &&
    (!k.y || (x.unretired .y).isEmpty)

/-- RDV holds until the masked queues have retired every earlier word; a mask of 0 is a NOP (R39, R326). -/
def execRdv (k : EngineMask) (s : State) : Out :=
  if rendezvousMet s.me k then .next s.advance else .next (s.hold (.rendezvous k))

/-! ## X words -/

/-- An X word is serialising: every S result before it has landed when it takes effect (R22). TRAP, BKPT and ERET take a trap or
return from one, which leaves the values that a read in a shadow may see as they are (R41); they do without it. -/
def State.serialise (s : State) : State :=
  s.onMe fun x => { x with shadows := [], outQ := x.outQ.map fun q => q.map fun o => { o with landsAt := min o.landsAt s.clock } }

/-- Issue goes on once an X word has taken effect, at a free wc within its bound (R22, R54; DEDUCED, log 15). -/
def State.settle (s : State) (bound : Nat) : State :=
  (s.onMe fun x => { x with issueAt := s.clock + 1 + s.freeNat 2 % bound }).bump

/-- The same of a word behind which fetch starts anew: what fetch would take before the word has taken effect is discarded, so that
fetch restarts in the wc in which issue goes on (R201, R302, R358; DEDUCED, log 15). -/
def State.settleRefetch (s : State) (bound : Nat) : State :=
  (s.settle bound).onMe fun x => { x with fetchAt := x.issueAt }

/-- TRAP: take(0x1a) with XINFO the code, to resume at the next word (R203, R348). -/
def execTrap (code : BitVec 11) (s : State) : Out :=
  .next ((s.takeTrap s.cur
    { code := codeSoftware, info := code.setWidth 64, slot := 0, addr := s.me.pc, resume := s.me.pc + 4, precise := true }).settleRefetch 8)

/-- BKPT: take(0x1b) with XINFO the code, to resume at the next word (R275). -/
def execBkpt (code : BitVec 11) (s : State) : Out :=
  .next ((s.takeTrap s.cur
    { code := codeBreakpoint, info := code.setWidth 64, slot := 0, addr := s.me.pc, resume := s.me.pc + 4, precise := true }).settleRefetch 8)

/-- ERET (R201, R275). -/
def execEret (s : State) : Out := .next (s.returnFromTrap.settleRefetch 8)

/-- The words HALT waits for: A, G, M and Y, with the outbound entries of A (R296). -/
def haltMask : EngineMask := { a := true, g := true, m := true, l := false, y := true }

/-- HALT acts as a GHALT on an unbounded GRUN, holds until the A, G, M and Y queues have retired, and ends the task
(R203, R296). -/
def execHalt (s : State) : Out :=
  let t := s.onGrid s.cur fun g => g.stopRuns (s.clock + 1)
  if rendezvousMet t.me haltMask then .next (t.serialise.endTask s.cur) else .next (t.hold .taskEnd)

/-- YIELD is a pre-emption at the next boundary when an item of equal or higher priority that may take this core waits
for a free one; otherwise it has no effect (R203, R348). -/
def execYield (s : State) : Out :=
  let pri := match s.graphOf s.cur with | some g => g.pri | none => 0
  let t := s.serialise.advance.settle 4
  if s.waitsForCore s.cur pri then .next (t.onMe fun x => { x with preempt := some 4 }) else .next t

/-- The special register an SPRD or SPWR names: code + y (R246). -/
def specialNumber (code : BitVec 11) (y : Word) : Nat := code.toNat + y.toNat

/-- The illegal-word trap of a word that decodes; its XINFO is the word (R69, R341). -/
def State.illegalHere (s : State) (i : Instr) : State :=
  s.faultHere codeIllegal (match encode i with | some w => w.setWidth 64 | none => 0)

/-- SPRD reads a special register into x (R341). -/
def execSprd (x y : SReg) (code : BitVec 11) (s : State) : Out :=
  s.issueGate [y] [] x
    (match s.special s.cur (specialNumber code (s.src 0 y)) with
     | some v => .next ((((s.popAll [y]).serialise).writeReg x (BitVec.ofNat 64 v) 1).bump.advance.settle 2)
     | none => .next (s.illegalHere (.sprd x y code)))

/-- SPWR writes x into a special register; an unassigned number traps (R341). -/
def execSpwr (x y : SReg) (code : BitVec 11) (s : State) : Out :=
  s.issueGate [x, y] [] 0
    (match s.special s.cur (specialNumber code (s.src 1 y)) with
     | some _ =>
       .next ((((s.popAll [x, y]).serialise).writeSpecial (specialNumber code (s.src 1 y)) (s.src 0 x)).advance.settle 2)
     | none => .next (s.illegalHere (.spwr x y code)))

/-- HEATR reads the meter into x (R117, R298). -/
def execHeatr (sel : HeatSel) (x : SReg) (s : State) : Out :=
  let v : Word := match sel with
    | .total => BitVec.ofNat 64 (s.meter.atStart / 5)
    | .thr => s.me.hthr
    | .fill => s.me.hfill
    | .budget => BitVec.ofNat 64 (s.meter.budget % 2 ^ 32)
  s.issueGate [] [] x (.next ((s.serialise.writeReg x v 1).bump.advance.settle 2))

/-- The kind that an address translates to now, for TLBI.kind: by the translation that an enqueue of this core would take
(DEDUCED, log 80). -/
def kindNow (s : State) (va : Nat) : Option PageKind :=
  if regionOf va = .translated then
    match translate s s.cur va with | .ok p => some p.kind | .error _ => none
  else none

/-- A buffered page lies in the range of a TLBI (R97). -/
def tlbiSelects (s : State) (r : TlbiRange) (va : Nat) (p : PageMap) : Bool :=
  match r with
  | .all => true
  | .page => regionOf va == .translated && p.covers va
  | .kind => match kindNow s va with | some k => p.kind == k | none => false

/-- Step 1 of TLBI: entries in range leave every core's buffer, or go stale while they are pinned, so that a later
enqueue walks anew (R97). -/
def State.invalidate (s : State) (hit : PageMap → Bool) : State :=
  { s with cores := s.cores.map fun x =>
      { x with tlb := (x.tlb.map fun e => if hit e.page then { e with stale := true } else e).filter
                fun e => !(e.stale && e.pins == 0) } }

/-- The pinned pages of every core that a range covers. -/
def State.pinnedPages (s : State) (hit : PageMap → Bool) : List (CoreId × PageMap) :=
  (List.finRange 64).flatMap fun c => (((s.core c).tlb.filter fun e => decide (0 < e.pins) && hit e.page)).map fun e => (c, e.page)

/-- Some of those pins still stand. -/
def stillPinned (s : State) (ps : List (CoreId × PageMap)) : Bool :=
  ps.any fun p => (s.core p.1).tlb.any fun e => e.page == p.2 && decide (0 < e.pins)

/-- TLBI invalidates a range in every control processor, then holds until every pin in the range that was taken before it
has been released (R97, R346). -/
def execTlbi (r : TlbiRange) (x : SReg) (s : State) : Out :=
  let srcs := if r = .all then [] else [x]
  s.issueGate srcs [] 0
    (let hit := tlbiSelects s r (s.src 0 x).toNat
     let pins := s.pinnedPages hit
     let t := s.serialise.invalidate hit
     match pins with
     | [] => .next ((t.popAll srcs).advance.settle 16)
     | _ => .next (t.hold (.unpinned pins)))

/-- ICINV drops the line of x, where x translates, or every line of the executing core's cache, and what fetch has taken is fetched again
(R301, R302). -/
def execIcinv (all : Bool) (x : SReg) (s : State) : Out :=
  let srcs := if all then [] else [x]
  s.issueGate srcs [] 0
    (let va := (s.src 0 x).toNat
     let known := match codePage s va with | .ok _ => true | .error _ => false
     let hit := fun line => all || (known && line == lineOf va)
     .next ((((s.popAll srcs).serialise.refill s.cur hit).onMe fun m =>
      { (m.resumeAt (m.pc + 4) s.clock) with icache := m.icache.filter fun l => !hit l.line }).settleRefetch 32))

/-! ## HELD_WORD_PASSES (R22, R327) -/

/-- What a held word waits for now holds. -/
def holdMet (s : State) (c : CoreId) (h : Hold) : Bool :=
  let x := s.core c
  match h with
  | .pop q => !(x.inQ[q]).isEmpty || starves x q
  | .push q => decide ((x.outQ[q]).length < 8)
  | .scoreboard t => decide (t ≤ s.clock)
  | .counter e target => counterReached x.counters[engIdx e] target
  | .rendezvous k => rendezvousMet x k
  | .formatFull => decide (x.fmtQ.length < 16)
  | .queueFull e => decide (x.occupancy e < 32)
  | .allPinned => decide (x.tlb.length < 256) || x.tlb.any fun e => e.pins == 0
  | .fence => true
  | .earlierY => (x.unretired .y).isEmpty
  | .ringFilled p => (ringHasFilled s p).getD true
  | .ringFree p => (ringHasFree s p).getD true
  | .phasePast p b => phasePassed (s.phaser p).phase b
  | .phaseMoved p b _ => (s.phaser p).phase != b.toNat
  | .taskEnd => rendezvousMet x haltMask
  | .unpinned ps => !stillPinned s ps

/-- The source registers of a held word that pops when it passes. -/
def heldPops (s : State) (c : CoreId) : List SReg :=
  match (s.core c).squeue.head? with
  | some (_, w) =>
    match decode w with
    | .ok (.pharr a) => [a]
    | .ok (.phwait a b) => [a, b]
    | .ok (.tlbi .all _) => []
    | .ok (.tlbi _ x) => [x]
    | _ => []
  | none => []

/-- A core leaves its held word at a boundary: a PHARR whose phase has moved is complete, and another one has not signalled (R182, R201). -/
def State.leaveHeld (s : State) (c : CoreId) : State :=
  match (s.core c).held with
  | some (.phaseMoved p b k) =>
    if holdMet s c (.phaseMoved p b k) then { s with cur := c }.passBlocking (heldPops s c) else s.unsignal c
  | _ => s

/-- HELD_WORD_PASSES: when its condition holds, a held word issues again at once and acts; a PHWAIT, which tested WMASK when it
executed, a PHARR that has signalled and a TLBI that has invalidated are complete (R22, R97, R180, R182). A word that a fence
marks issues again in each wc and tests the fences anew. -/
def execHeldWordPasses (c : CoreId) (s : State) : Out :=
  match (s.core c).held with
  | none => .next s
  | some h =>
    if holdMet s c h = false then .next s
    else
      let t := { s with cur := c }
      match h with
      | .phaseMoved _ _ _ | .phasePast _ _ => .next (t.passBlocking (heldPops s c))
      | .unpinned _ => .next ((t.popAll (heldPops s c)).advance.settle 16)
      | _ => .next { (t.onMe fun x => { x with held := none }) with turn := c :: s.turn }

end Sys2Proof.Machine
end

