-- ==== Sys2Proof/Machine/AEngine.lean ====
section
/-! DEFINITION. The A engine (R49) but for its crossings: what LD, ST, COPY, GATH, SCAT, SEQT, FEED, TAKE, XIN and XOUT
check and capture at enqueue, and what the warm commands do when they perform (R89, R98 to R100, R184, R278, R279, R286,
R304, R331, R336, R343). -/

namespace Sys2Proof.Machine

open Sys2Proof

/-! ## LD and ST -/

/-- LD enters the A queue (R304). -/
def execLd (acq : Bool) (sc : Scope) (ty : ScalarType) (q1 : Bool) (sa : SReg) (s : State) : Out :=
  let x := (s.src 0 sa).toNat
  let n := widthBytes ty.width
  s.enqueue .a [sa] (do
    let pages ← checkScalar s s.cur warmSpaces false x n
    pure ({ s.newEntry .a (.ld acq sc ty q1 sa) with
            sa := s.src 0 sa, pages := pages, touch := touches s.cur 0 pages false [(x, n)], acquire := acq, scope := sc }, id))

/-- ST enters the A queue; under a false guard with no check and no access (R33, R343). -/
def execSt (g : Guard) (rel : Bool) (sc : Scope) (w : Width) (v a : SReg) (s : State) : Out :=
  let x := (s.src 1 a).toNat
  let n := widthBytes w
  s.enqueue .a [v, a] (do
    let q := { s.newEntry .a (.st g rel sc w v a) with sa := s.src 1 a, v := s.src 0 v, guardTrue := s.guardTrue g }
    if s.guardTrue g then do
      let pages ← checkScalar s s.cur warmOrWindow true x n
      pure ({ q with
              mcMask := s.windowMask x, pages := pages, release := rel, scope := sc
              touch := touches s.cur (s.windowMask x) pages true [(x, n)] }, id)
    else pure (q, id))

/-- The queue register an LD fills: q0 or q1 (R304). -/
def ldTarget : Instr → Option Bool
  | .ld _ _ _ q1 _ => some q1
  | _ => none

/-- An LD performs: the value is read, extended by its type and pushed to its target queue (R63, R304). -/
def performLd (s : State) (c : CoreId) (q : QEntry) : State :=
  match q.instr with
  | .ld _ _ ty q1 _ =>
    let v := wrap ty (s.loadQ c q q.sa.toNat (widthBytes ty.width) : Nat)
    let k : Fin 4 := if q1 then 1 else 0
    s.onCore c fun x => { x with inQ := x.inQ.set k (x.inQ[k] ++ [v]), dirtyQ := true }
  | _ => s

/-- An ST performs under a true guard (R343). -/
def performSt (s : State) (c : CoreId) (q : QEntry) : State :=
  match q.instr with
  | .st _ _ _ w _ _ =>
    if q.guardTrue then s.storeV c q.mcMask q.pages q.sa.toNat (leBytes (widthBytes w) q.v.toNat) else s
  | _ => s

/-! ## Tensor commands -/

/-- The handle after hb, which GATH, SCAT and COPY.s24 read as their third (R36). -/
def nextHandle (h : HReg) : HReg := h + 1

/-- The scope of a release through a handle: core for LOCAL, die for DIE, module for DEV and HOST (R164). -/
def handleScope (h : HandleBits) : Scope := match hSpace h with | 0 => .core | 1 => .die | _ => .module

/-- An entry with handles, their pages and what they touch. -/
def tensorEntry (s : State) (i : Instr) (nt : NtField) (dst : Option (HandleBits × List PageMap))
    (srcs : List (HandleBits × List PageMap)) : QEntry :=
  let mask := match dst with | some d => s.windowMask (hBase d.1) | none => 0
  { s.newEntry .a i with
    notify := s.descriptor nt, mcMask := mask
    handles := (match dst with | some d => [d.1] | none => []) ++ srcs.map Prod.fst
    pages := (match dst with | some d => d.2 | none => []) ++ srcs.flatMap Prod.snd
    touch := (match dst with | some d => touches s.cur mask d.2 true (hExtent d.1) | none => []) ++
      srcs.flatMap fun h => touches s.cur 0 h.2 false (hExtent h.1)
    acquire := srcs.any fun h => hOrdc h.1 == 1
    release := match dst with | some d => hOrdc d.1 == 2 | none => false
    scope := match dst with | some d => handleScope d.1 | none => .core }

/-- Equal dimensions of two handles. -/
def sameDims (x y : HandleBits) : Bool := [0, 1, 2, 3].all fun k => hDim x k == hDim y k

/-- What a form of COPY requires of its handles (R184, R278, R279); the metadata handle is `hm`. -/
def copyForm (f : CopyForm) (da db : HReg) (ha hb hm : HandleBits) : Check Unit :=
  match f with
  | .plain => do
    require (hEfmt ha == hEfmt hb) codeHandle da.toNat
    require (sameDims ha hb) codeHandleRange da.toNat
  | .s24 => do
    require (hEfmt ha == hEfmt hb && [0, 1, 4, 5, 6, 7, 8, 9].contains (hEfmt ha)) codeHandle da.toNat
    require (hEfmt hm == 6) codeHandle (nextHandle db).toNat
    require (hDim ha 0 % 4 == 0 && hDim hb 0 * 2 == hDim ha 0 && [1, 2, 3].all fun k => hDim hb k == hDim ha k)
      codeHandleRange da.toNat
    require (hDim hm 0 * 4 == hDim ha 0 && [1, 2, 3].all fun k => hDim hm k == hDim ha k)
      codeHandleRange (nextHandle db).toNat
  | _ => do
    require (hEfmt ha == hEfmt hb && decide (4 ≤ hEfmt ha ∧ hEfmt ha ≤ 9)) codeHandle da.toNat
    require (sameDims ha hb) codeHandleRange da.toNat

/-- The spaces a COPY writes: a reduction reaches no HOST (R184). -/
def copyDest (f : CopyForm) : Accepts :=
  match f with
  | .plain | .s24 => warmOrWindow
  | _ => { warmOrWindow with host := false }

/-- COPY enters the A queue (R278). -/
def execCopy (f : CopyForm) (da db : HReg) (nt : NtField) (s : State) : Out :=
  let ha := s.handle 0 da
  let hb := s.handle 1 db
  let hm := s.handle 2 (nextHandle db)
  s.enqueue .a [] (do
    let pa ← checkHandle s s.cur ha da (copyDest f) true
    let pb ← checkHandle s s.cur hb db warmSpaces false
    let pm ← if f = .s24 then checkHandle s s.cur hm (nextHandle db) warmSpaces false else pure []
    copyForm f da db ha hb hm
    checkNotify nt (s.descriptor nt)
    pure (tensorEntry s (.copy f da db nt) nt (some (ha, pa))
      (if f = .s24 then [(hb, pb), (hm, pm)] else [(hb, pb)]), id))

/-- The three handles of GATH and SCAT: destination, then table or values, then index; `shape` is the handle whose
dimensions the index tensor has (R286, R331). -/
def indexWord (s : State) (i : Instr) (da db : HReg) (nt : NtField) (shape : HandleBits → HandleBits → HandleBits) : Out :=
  let ha := s.handle 0 da
  let hb := s.handle 1 db
  let hi := s.handle 2 (nextHandle db)
  s.enqueue .a [] (do
    let pa ← checkHandle s s.cur ha da warmOrWindow true
    let pb ← checkHandle s s.cur hb db warmSpaces false
    let pi ← checkHandle s s.cur hi (nextHandle db) warmSpaces false
    require (hEfmt ha == hEfmt hb) codeHandle da.toNat
    require (decide (6 ≤ hEfmt hi ∧ hEfmt hi ≤ 9)) codeHandle (nextHandle db).toNat
    require (sameDims hi (shape ha hb)) codeHandleRange (nextHandle db).toNat
    checkNotify nt (s.descriptor nt)
    pure (tensorEntry s i nt (some (ha, pa)) [(hb, pb), (hi, pi)], id))

/-- GATH enters the A queue; the index tensor has ha's dimensions (R286). -/
def execGath (da db : HReg) (nt : NtField) (s : State) : Out := indexWord s (.gath da db nt) da db nt fun ha _ => ha
/-- SCAT enters the A queue; the index tensor has hb's dimensions (R331). -/
def execScat (da db : HReg) (nt : NtField) (s : State) : Out := indexWord s (.scat da db nt) da db nt fun _ hb => hb

/-- SEQT enters the A queue: LOCAL, DIE or a window (R100, R336). -/
def execSeqt (da : HReg) (sa : SReg) (nt : NtField) (s : State) : Out :=
  let ha := s.handle 0 da
  s.enqueue .a [sa] (do
    let _ ← checkHandle s s.cur ha da { warmOrWindow with dev := false, host := false } false
    checkNotify nt (s.descriptor nt)
    pure ({ s.newEntry .a (.seqt da sa nt) with
            sa := s.src 0 sa, notify := s.descriptor nt, handles := [ha], mcMask := s.windowMask (hBase ha) }, id))

/-! ## Crossing words: enqueue -/

/-- Crossing words of one row (R102). -/
def rowWords (h : HandleBits) : Nat := (hDim h 0 * efmtBits (hEfmt h) + 31) / 32
/-- The stream's length N (R102; DEDUCED, log 27). -/
def streamLength (h : HandleBits) : Nat := if hCount h = 0 then 0 else rowWords h * (hDim h 1 * hDim h 2 * hDim h 3)

/-- FEED enters the A queue (R104, R281). -/
def execFeed (da : HReg) (ch qn : BitVec 3) (nt : NtField) (s : State) : Out :=
  let ha := s.handle 0 da
  s.enqueue .a [] (do
    let pa ← checkHandle s s.cur ha da warmSpaces false
    checkNotify nt (s.descriptor nt)
    pure (tensorEntry s (.feed da ch qn nt) nt none [(ha, pa)], id))

/-- TAKE enters the A queue (R105, R344). -/
def execTake (da : HReg) (ch qn : BitVec 3) (nt : NtField) (s : State) : Out :=
  let ha := s.handle 0 da
  s.enqueue .a [] (do
    let pa ← checkHandle s s.cur ha da warmOrWindow true
    checkNotify nt (s.descriptor nt)
    pure (tensorEntry s (.take da ch qn nt) nt (some (ha, pa)) [], id))

/-- The KIND and IX of a GRID address (R88). -/
def gridKind (a : Word) : Nat := nbits a.toNat 14 2
def gridEl (a : Word) : Nat := nbits a.toNat 7 7
def gridIx (a : Word) : Nat := nbits a.toNat 0 6

/-- A GRID address that a word or row form may name (R88). -/
def checkGridAddr (row : Bool) (a : Word) : Check Unit :=
  require (if row then gridKind a == 1 && gridIx a == 0 else decide (gridKind a < 2)) codeSpace a.toNat

/-- The words an XIN or XOUT always crosses (R107). -/
def crossWords (row : Bool) : Nat := if row then 64 else 1

/-- XIN enters the A queue (R107, R351). -/
def execXin (row : Bool) (da : HReg) (sa : SReg) (nt : NtField) (s : State) : Out :=
  let ha := s.handle 0 da
  s.enqueue .a [sa] (do
    let pa ← checkHandle s s.cur ha da warmSpaces false
    require (decide (streamLength ha ≤ crossWords row)) codeHandleRange da.toNat
    checkGridAddr row (s.src 0 sa)
    checkNotify nt (s.descriptor nt)
    pure ({ tensorEntry s (.xin row da sa nt) nt none [(ha, pa)] with sa := s.src 0 sa }, id))

/-- XOUT enters the A queue (R107, R351). -/
def execXout (row : Bool) (da : HReg) (sa : SReg) (nt : NtField) (s : State) : Out :=
  let ha := s.handle 0 da
  s.enqueue .a [sa] (do
    let pa ← checkHandle s s.cur ha da warmOrWindow true
    require (decide (streamLength ha ≤ crossWords row)) codeHandleRange da.toNat
    checkGridAddr row (s.src 0 sa)
    checkNotify nt (s.descriptor nt)
    pure ({ tensorEntry s (.xout row da sa nt) nt (some (ha, pa)) [] with sa := s.src 0 sa }, id))

/-! ## What the warm commands do when they perform -/

/-- Bytes of a handle's extent. -/
def extentBytes (h : HandleBits) : Nat := hRowCount h * rowBytes h

/-- The bytes that element n in ha's walk order counts (R178). -/
def elemCounts (h : HandleBits) (n : Nat) : Nat := stepBytes (efmtBits (hEfmt h)) (n % hDim h 0)

/-- A read of element number `elem`, the access k of its command. -/
def readOp (c : CoreId) (q : QEntry) (k elem efmt : Nat) (d : ElemRef) (chain : Option Nat) : MemOp :=
  { k := k, elem := elem, place := q.placeOf c 0 efmt d, what := .read, counts := 0, chain := chain }

/-- COPY.plain and COPY.red over the elements in walk order: each is read, then written (R184, R278). -/
def copyOps (c : CoreId) (q : QEntry) (red : Option Reduction) : List MemOp :=
  let ha := q.handleAt 0
  let hb := q.handleAt 1
  ((hElems ha).zip (hElems hb)).zipIdx.flatMap fun e =>
    [readOp c q (2 * e.2) e.2 (hEfmt hb) e.1.2 none,
     { landOp c q (2 * e.2 + 1) (hEfmt ha) e.1.1 (.bytes []) (elemCounts ha e.2) with elem := e.2, what := .put (2 * e.2) red }]

/-- One group of COPY.s24 in the order of its pseudocode: the metadata byte, four zeros, then the two values, each read and written;
the writes land in the order written (R279). `n` is the group's number in walk order. -/
def groupOps (c : CoreId) (q : QEntry) (ra rb rm g n : Nat) : List MemOp :=
  let ha := q.handleAt 0
  let hb := q.handleAt 1
  let efmt := hEfmt ha
  let k := 9 * n
  let reach := (List.range 4).flatMap fun i =>
    (physAddrs c q.mcMask q.pages (rowElem ha ra (4 * g + i)).addr).map fun a =>
      { lo := a, len := efmtBytes efmt, ord := ordOf q.pages (rowElem ha ra (4 * g + i)).addr, write := true, bound := 0 }
  let put := fun (j : Nat) (second : Bool) (from_ counts : Nat) =>
    ({ k := k + j, elem := n, place := .picked k ra (4 * g) second reach, what := .put from_ none, counts := counts
       chain := some n } : MemOp)
  readOp c q k n 6 (rowElem (q.handleAt 2) rm g) none ::
    ((List.range 4).map fun i =>
      let d := rowElem ha ra (4 * g + i)
      { landOp c q (k + 1 + i) efmt d (elemEffect (nibbleOf efmt d) (efmtBytes efmt) 0) 0 with elem := n, chain := some n }) ++
    [readOp c q (k + 5) n (hEfmt hb) (rowElem hb rb (2 * g)) none, put 6 false (k + 5) 0,
     readOp c q (k + 7) n (hEfmt hb) (rowElem hb rb (2 * g + 1)) none, put 8 true (k + 7) (efmtBits efmt / 2)]

/-- COPY.s24 (R279). -/
def expandOps (c : CoreId) (q : QEntry) : List MemOp :=
  let ha := q.handleAt 0
  (((hRows ha).zip ((hRows (q.handleAt 1)).zip (hRows (q.handleAt 2)))).flatMap fun z =>
    (List.range (hDim ha 0 / 4)).map fun g => (z, g)).zipIdx.flatMap fun x =>
      groupOps c q x.1.1.1 x.1.1.2.1 x.1.1.2.2 x.1.2 x.2

/-- GATH in ha's walk order: the index, the element of the table that it names, the write; elements take effect in that order (R286, R287;
DEDUCED, log 22). -/
def gatherOps (c : CoreId) (q : QEntry) : List MemOp :=
  let ha := q.handleAt 0
  let hi := q.handleAt 2
  ((hElems ha).zip (hElems hi)).zipIdx.flatMap fun e =>
    let k := 3 * e.2
    [(readOp c q k e.2 (hEfmt hi) e.1.2 (some 0)).loosen,
     { k := k + 1, elem := e.2, place := .indexed k, what := .read, counts := 0, chain := some 0 },
     { landOp c q (k + 2) (hEfmt ha) e.1.1 (.bytes []) (elemCounts ha e.2) with
       elem := e.2, what := .put (k + 1) none, chain := some 0 }.loosen]

/-- SCAT in hb's walk order: the index, the value, the write of the element that the index names (R331, R332; DEDUCED, log 22). -/
def scatterOps (c : CoreId) (q : QEntry) : List MemOp :=
  let hb := q.handleAt 1
  let hi := q.handleAt 2
  let bits := efmtBits (hEfmt hb)
  ((hElems hb).zip (hElems hi)).zipIdx.flatMap fun e =>
    let k := 3 * e.2
    [(readOp c q k e.2 (hEfmt hi) e.1.2 (some 0)).loosen, (readOp c q (k + 1) e.2 (hEfmt hb) e.1.1 (some 0)).loosen,
     { k := k + 2, elem := e.2, place := .indexed k, what := .put (k + 1) none
       counts := (e.2 + 1) * bits / 8 - e.2 * bits / 8, chain := some 0 }]

/-- The accesses of a warm tensor command in walk order (R184, R278, R279, R286, R331). -/
def tensorOps (c : CoreId) (q : QEntry) : List MemOp :=
  match q.instr with
  | .copy .plain _ _ _ => copyOps c q none
  | .copy .redAdd _ _ _ => copyOps c q (some .add)
  | .copy .redMin _ _ _ => copyOps c q (some .min)
  | .copy .redMax _ _ _ => copyOps c q (some .max)
  | .copy .s24 _ _ _ => expandOps c q
  | .gath _ _ _ => gatherOps c q
  | .scat _ _ _ => scatterOps c q
  | _ => []

/-- The bits of element n, in walk order, of the stream that crossing words hold (R102). -/
def streamElem (h : HandleBits) (words : List Word32) (n : Nat) : Nat :=
  let bits := efmtBits (hEfmt h)
  let first := n / hDim h 0 * rowWords h
  let at_ := n % hDim h 0 * bits
  let word := fun (k : Nat) => (words[first + k]?.getD 0).toNat
  if bits = 64 then word (at_ / 32) + word (at_ / 32 + 1) * 2 ^ 32 else nbits (word (at_ / 32)) (at_ % 32) bits

/-- The landings of an XOUT; words past the stream's end are discarded (R107). -/
def xoutOps (c : CoreId) (q : QEntry) (words : List Word32) : List MemOp :=
  let h := q.handleAt 0
  let efmt := hEfmt h
  (hElems h).zipIdx.map fun e =>
    landOp c q e.2 efmt e.1 (elemEffect (nibbleOf efmt e.1) (efmtBytes efmt) (streamElem h words e.2)) (elemCounts h e.2)

/-- The accesses that a command has still to perform stand (R156). -/
def QEntry.withOps (q : QEntry) (ops : List MemOp) : QEntry := { q with performed := true, ops := ops }

/-- The lines of a SEQT's extent in ascending address, each once, as virtual lines (R100, R336). -/
def seqtLines (h : HandleBits) : List Nat :=
  ascending ((hExtent h).flatMap fun p =>
    if p.2 = 0 then [] else (List.range ((p.1 + p.2 - 1) / 256 - p.1 / 256 + 1)).map fun i => p.1 / 256 + i)

/-- SEQT sets the tag of line n of the extent, in every masked core (R100, R336). -/
def seqtLine (s : State) (c : CoreId) (q : QEntry) (n : Nat) : State :=
  match (seqtLines (q.handleAt 0))[n]? with
  | some l => (padAddrs c q.mcMask (l * 256)).foldl (fun t a => t.setTag (a / 256) (q.sa.setWidth 6)) s
  | none => s

/-- The bytes a BYT descriptor counts for a command of the A engine: its destination's (R178, R287, R332). -/
def destBytes (q : QEntry) : Nat :=
  match q.instr with
  | .copy _ _ _ _ | .gath _ _ _ | .take _ _ _ _ | .xout _ _ _ _ => extentBytes (q.handleAt 0)
  | .scat _ _ _ => hCount (q.handleAt 1) * efmtBits (hEfmt (q.handleAt 1)) / 8
  | _ => 0

/-- The bound of a warm command of the A engine (R49). -/
def aBound (q : QEntry) : Nat :=
  match q.instr with
  | .copy _ _ _ _ => 16 + (extentBytes (q.handleAt 0) + 1023) / 1024 + q.accessT
  | .gath _ _ _ => 16 + hCount (q.handleAt 0) + q.accessT
  | .scat _ _ _ => 16 + hCount (q.handleAt 1) + q.accessT
  | .seqt _ _ _ => 4 + (seqtLines (q.handleAt 0)).length
  | _ => 8 + q.accessT

end Sys2Proof.Machine
end

