-- ==== Sys2Proof/Machine/CoreEvents.lean ====
section
/-! DEFINITION. Events of a core: a word that is no instruction (R40), a pending trap at a boundary (R201), and the
stores of the outbound queues q0 and q1 (R65). -/

namespace Sys2Proof.Machine

open Sys2Proof

/-- ILLEGAL_WORD: the word at the head is no instruction; XINFO is the word (R40, R200). -/
def execIllegalWord (w : Word32) (s : State) : Out := .next (s.faultHere codeIllegal (w.setWidth 64))

/-- The pending trap a boundary takes: the first in ascending code order; with INH set only a fatal one (R201). -/
def takeable (x : CoreState) : Option PendingTrap := x.traps.find? fun t => fatalCode t.code || !x.inh

/-- ASYNC_TRAP_TAKEN: one pending trap is taken at the S-queue boundary; it resumes at the first word that has not taken
effect (R201, R327). -/
def execAsyncTrapTaken (c : CoreId) (s : State) : Out :=
  match takeable (s.core c) with
  | none => .next s
  | some t =>
    let s1 := (s.leaveHeld c).onCore c fun x => { x with traps := x.traps.erase t }
    .next (s1.takeTrap c { code := t.code, info := t.info, slot := t.slot, addr := t.addr, resume := (s1.core c).pc })

/-- OUTBOUND_QUEUE_STORE: the A engine stores the oldest landed entry of q0 or q1 as n64 at its pointer and moves the
pointer on by 8, once every A word enqueued before the push has retired (R65). A pointer that a later SPWR moved out of
LOCAL stores nothing (DESIGN CHOICE, log 9). -/
def execOutboundQueueStore (c : CoreId) (q1 : Bool) (s : State) : Out :=
  let q : Fin 4 := if q1 then 1 else 0
  let x := s.core c
  match x.outQ[q] with
  | [] => .next s
  | o :: rest =>
    let owed := (x.unretired .a).any fun e => decide (e.number < o.afterA)
    if s.clock < o.landsAt ∨ owed then .next s
    else
      let ptr : Word := if q1 then x.qptr[(1 : Fin 2)] else x.qptr[(0 : Fin 2)]
      let t := s.onCore c fun y =>
        { y with outQ := y.outQ.set q rest, qptr := if q1 then y.qptr.set 1 (ptr + 8) else y.qptr.set 0 (ptr + 8)
                 dirtyQ := true }
      .next (if inLocal ptr.toNat 8 then t.store (scratchBase c + ptr.toNat) 8 o.value.toNat else t)

end Sys2Proof.Machine
end

