-- ==== Sys2Proof/Machine/GridBoard.lean ====
section
/-! DEFINITION. Boards of the cold grid: move words (R120 to R122, R124), what a board's program comes to (R126 to R128,
R135), configuration images (R129, R130), and the units of an element (R122, R123). -/

namespace Sys2Proof.Machine

open Sys2Proof

/-! ## Move words (R120 to R122, R124) -/

/-- One of the two moves of a word. -/
structure Move where
  dst : Nat
  src : Nat
  deriving DecidableEq, Repr

/-- The null word. -/
def nullWord : Word32 := 0xffffff00

/-- Move 0 or move 1 of a word. -/
def moveOf (w : Word32) (one : Bool) : Move :=
  let k := if one then 12 else 0
  { dst := nbits w.toNat (14 + k) 6, src := nbits w.toNat (8 + k) 6 }

/-- A move that is not null: neither code is none or reserved (R120). -/
def Move.live (m : Move) : Bool := decide (m.src ≤ 0x12 ∧ m.dst ≤ 0x2e)

/-- A move into a trigger port (R122, R135). -/
def Move.isOp (m : Move) : Bool := decide (0x10 ≤ m.dst)

/-- The unit a destination starts, as the number of its result port FR, IR, CR, MR, VR, VP, DR (R122). -/
def unitOf (d : Nat) : Nat :=
  if d < 0x13 then 0 else if d < 0x1b then 1 else if d < 0x21 then 2 else if d < 0x25 then 3
  else if d < 0x29 then 4 else if d < 0x2d then 5 else 6

/-- Two moves of one word write the same destination or trigger the same unit (R124). -/
def Move.clash (m n : Move) : Bool := m.dst == n.dst || (m.isOp && n.isOp && unitOf m.dst == unitOf n.dst)

/-- The stage and the immediate of a word (R120). -/
def stageOf (w : Word32) : Nat := nbits w.toNat 6 2
def immOf (w : Word32) : Nat := nbits w.toNat 0 6

/-- The live moves of a word in order, each with whether its write takes effect: move 1's stands when both write one
destination or trigger one unit (R124). -/
def liveMoves (w : Word32) : List (Move × Bool) :=
  let a := moveOf w false
  let b := moveOf w true
  if a.live && b.live then [(a, !a.clash b), (b, true)]
  else if a.live then [(a, true)]
  else if b.live then [(b, true)]
  else []

/-! ## What a program comes to -/

/-- Element numbers and columns (R118). -/
def elemRow (n : Nat) : Nat := n / 16
def elemCol (n : Nat) : Nat := n % 16

/-- The word of an element at a slot; a missing word is the null word (R129). -/
def Board.word (b : Board) (e : Fin 128) (slot : Nat) : Word32 := (b.program[e])[slot]?.getD nullWord

/-- Every move word of a board: element, slot, word. -/
def Board.words (b : Board) : List (Fin 128 × Nat × Word32) :=
  (List.finRange 128).flatMap fun e => ((b.program[e]).take b.ii).zipIdx.map fun w => (e, w.2, w.1)

/-- S: the largest STG plus 1 (R126; DEDUCED, log 73). -/
def Board.stages (b : Board) : Nat := b.words.foldl (fun m w => max m (stageOf w.2.2)) 0 + 1

/-- The moves that read W at column 0 in stage 0: slot and row, one for each read (R127). -/
def Board.reads (b : Board) : List (Nat × Fin 8) :=
  b.words.flatMap fun w =>
    if elemCol w.1.val = 0 ∧ stageOf w.2.2 = 0 then
      ((liveMoves w.2.2).filter fun m => m.1.src == 7).map fun _ => (w.2.1, Fin.ofNat 8 (elemRow w.1.val))
    else []

/-- The moves to E at column 15 that take effect: slot, stage and row (R127). -/
def Board.emits (b : Board) : List (Nat × Nat × Fin 8) :=
  b.words.flatMap fun w =>
    if elemCol w.1.val = 15 then
      ((liveMoves w.2.2).filter fun m => m.2 && m.1.dst == 5).map fun _ =>
        (w.2.1, stageOf w.2.2, Fin.ofNat 8 (elemRow w.1.val))
    else []

/-- INW[r] (R127). -/
def Board.inWords (b : Board) (r : Fin 8) : Nat := (b.reads.filter fun x => x.2 == r).length
/-- OUTW[r] (R127). -/
def Board.outWords (b : Board) (r : Fin 8) : Nat := (b.emits.filter fun x => x.2.2 == r).length

/-- Non-null moves into trigger ports, and the other non-null moves, charged as encoded (R124, R135). -/
def Board.opCount (b : Board) : Nat := (b.words.flatMap fun w => (liveMoves w.2.2).filter fun m => m.1.isOp).length
def Board.bareCount (b : Board) : Nat := (b.words.flatMap fun w => (liveMoves w.2.2).filter fun m => !m.1.isOp).length

/-- VS: the largest STG of a VC move, 0 without one (R128). -/
def Board.vcStage (b : Board) : Nat :=
  b.words.foldl (fun m w => if (liveMoves w.2.2).any fun v => v.1.src == 0x0b then max m (stageOf w.2.2) else m) 0

/-! ## Images (R129, R130) -/

/-- Some 16 consecutive pulses of the repeating schedule hold more than `limit` of the given slots. -/
def tooDense (ii limit : Nat) (slots : List Nat) : Bool :=
  (List.range ii).any fun s =>
    decide (limit < ((List.range 16).map fun t => (slots.filter fun x => x == (s + t) % ii).length).sum)

/-- The elements whose mask bit is set, ascending. -/
def maskedElems (image : List Word32) : List (Fin 128) :=
  (List.finRange 128).filter fun e => (image[1 + e.val / 32]?.getD 0).getLsbD (e.val % 32)

/-- The words of element e in an image. -/
def elemWords (image : List Word32) (ii : Nat) (els : List (Fin 128)) (e : Fin 128) : List Word32 :=
  match els.findIdx? fun x => x == e with
  | some k => (image.drop (5 + k * ii)).take ii
  | none => []

/-- A board whose image has loaded: READY, or REJECTED when the header, the length or a lane limit is wrong (R129, R130).
A REJECTED board holds no usable program; the model leaves it null words. -/
def Board.loaded (b : Board) (image : List Word32) : Board :=
  let header := (image[0]?.getD 0).toNat
  let ii := nbits header 0 5
  let els := maskedElems image
  let new := { b with ii := ii, vgate := nbits header 5 1 == 1, status := .ready, flights := []
                      program := Vector.ofFn (elemWords image ii els) }
  if 1 ≤ ii ∧ ii ≤ 16 ∧ image.length = 5 + ii * els.length ∧
      tooDense ii 64 (new.reads.map Prod.fst) = false ∧ tooDense ii 8 (new.emits.map Prod.fst) = false then new
  else { Board.null with status := .rejected, elems := b.elems }

/-! ## Units (R122, R123) -/

/-- A 32-bit word from a number. -/
def word32 (n : Nat) : Word32 := BitVec.ofNat 32 n

/-- The integer unit: t op IB (R122). -/
def intUnit (d : Nat) (t b : Word32) : Word32 :=
  let n := b.toNat % 32
  match d with
  | 0x13 => t + b
  | 0x14 => t - b
  | 0x15 => t &&& b
  | 0x16 => t ||| b
  | 0x17 => t ^^^ b
  | 0x18 => t <<< n
  | 0x19 => t >>> n
  | _ => t.sshiftRight n

/-- The compare unit: t cond CB. -/
def compareUnit (d : Nat) (t c : Word32) : Bool :=
  match d with
  | 0x1b => flt fp32 t.toNat c.toNat
  | 0x1c => flt fp32 t.toNat c.toNat || feq fp32 t.toNat c.toNat
  | 0x1d => feq fp32 t.toNat c.toNat
  | 0x1e => decide (t.toInt < c.toInt)
  | _ => t == c

/-- The min and max unit. -/
def minMaxUnit (d : Nat) (t m : Word32) : Word32 :=
  match d with
  | 0x21 => word32 (fminmax fp32 false t.toNat m.toNat)
  | 0x22 => word32 (fminmax fp32 true t.toNat m.toNat)
  | 0x23 => if t.toInt ≤ m.toInt then t else m
  | _ => if t.toInt ≤ m.toInt then m else t

/-- Lane width of an unpack or pack: BF16, H8, H4, FP4 in that order. -/
def laneWidth (k : Nat) : Nat := match k with | 0 => 16 | 1 => 8 | _ => 4

/-- Unpacking lane t of VW, exactly (R123). -/
def unpackUnit (k : Nat) (t vw : Word32) : Word32 :=
  let w := laneWidth k
  let code := nbits vw.toNat (w * (t.toNat % (32 / w))) w
  match k with
  | 0 => word32 (code * 65536)
  | 1 => word32 (toIeee fp32 false (halfExact 8 code))
  | 2 => word32 (toIeee fp32 false (halfExact 4 code))
  | _ => word32 (toIeee fp32 false (fp4Exact code))

/-- The packed code of t: R76 with rm = 0. -/
def packUnit (k : Nat) (t : Word32) : Nat :=
  let v := fp32.value t.toNat
  match k with
  | 0 => convert 4 false v (nanTo fp32 bf16 t.toNat)
  | 1 => convert 3 false v 0
  | 2 => convert 2 false v 0
  | _ => convert 0 false v 0

/-- Replacing one lane of a word (DEDUCED, log 75). -/
def setLane (v : Word32) (lane width code : Nat) : Word32 :=
  let lo := 2 ^ (width * lane)
  word32 (v.toNat - nbits v.toNat (width * lane) width * lo + code % 2 ^ width * lo)

end Sys2Proof.Machine
end

