-- ==== Sys2Proof/Machine/GridPass.lean ====
section
/-! DEFINITION. The cold grid at work: spines (R139, R140), one pass of a board pulse by pulse (R118 to R127), vitrine rows
(R128), the landings of XIN and XOUT (R108), the end of a load (R130), swaps (R131), and the edges (R139). A pass that runs over
the end of a wc goes on in the next. -/

namespace Sys2Proof.Machine

open Sys2Proof

/-! ## Spines (R139, R140) -/

/-- The core to the north and to the south on the same die (R139). -/
def northOf (c : CoreId) : Option CoreId := if c.val % 16 = 0 then none else some (Fin.ofNat 64 (c.val - 1))
def southOf (c : CoreId) : Option CoreId := if c.val % 16 = 15 then none else some (Fin.ofNat 64 (c.val + 1))

/-- The south edge of a core is joined, as both sides hold it. -/
def State.joinedSouth (s : State) (c : CoreId) : Bool :=
  match southOf c with
  | some d => (s.grid c).joinSouth && (s.grid d).joinNorth
  | none => false
/-- The north edge of a core is joined. -/
def State.joinedNorth (s : State) (c : CoreId) : Bool :=
  match northOf c with
  | some d => s.joinedSouth d
  | none => false

/-- A core's grid is the head of its spine: no member stands north of it, pre-empted ones included (R140, R141). -/
def State.leads (s : State) (c : CoreId) : Bool := !(s.grid c).joinNorth

/-- The head of a core's spine: north as long as the edge is joined. -/
def State.spineHeadFrom (s : State) : Nat → CoreId → CoreId
  | 0, c => c
  | n + 1, c =>
    if s.joinedNorth c then match northOf c with | some d => State.spineHeadFrom s n d | none => c
    else c
def State.spineHead (s : State) (c : CoreId) : CoreId := s.spineHeadFrom 15 c

/-- The members of a spine from its head, southward. -/
def State.spineFrom (s : State) : Nat → CoreId → List CoreId
  | 0, c => [c]
  | n + 1, c =>
    c :: (if s.joinedSouth c then match southOf c with | some d => State.spineFrom s n d | none => [] else [])
def State.spine (s : State) (c : CoreId) : List CoreId := s.spineFrom 15 (s.spineHead c)

/-- A member's own edge flag points at a grid that does not answer: that member is pre-empted (R141). -/
def State.spineWaits (s : State) (ms : List CoreId) : Bool :=
  ms.any fun c => ((s.grid c).joinSouth && !s.joinedSouth c) || ((s.grid c).joinNorth && !s.joinedNorth c)

/-- The members' front boards differ in II (R140). -/
def State.mismatch (s : State) (ms : List CoreId) : Bool :=
  match ms with
  | [] => false
  | c :: rest => rest.any fun d => (s.grid d).front.ii != (s.grid c).front.ii

/-- The stage count a spine drains by: the largest of its members. -/
def State.spineStages (s : State) (ms : List CoreId) : Nat := ms.foldl (fun m c => max m (s.grid c).front.stages) 1

/-- Some iteration of these passes, most recent first, has a stage still to run under S stages (R126). -/
def inFlight (stages : Nat) (hist : List PassRecord) : Bool :=
  (hist.take (stages - 1)).any fun r => r.kind == .iteration

/-- The passes that an iteration under S stages may still be running in: the one that runs now, and those before it (R126). -/
def Grid.live (g : Grid) (stages : Nat) : List PassRecord :=
  match g.running with
  | some r => r :: g.history.take (stages - 1)
  | none => g.history.take (stages - 1)

/-- An iteration of G word `n` is in flight. -/
def Grid.liveOf (g : Grid) (stages n : Nat) : Bool := (g.live stages).any fun r => r.kind == .iteration && r.number == n

/-- An iteration of a core's grid is in flight or about to begin. -/
def State.flying (s : State) (c : CoreId) : Bool :=
  let g := s.grid c
  ((g.live (s.spineStages (s.spine c))) ++ g.plan).any fun r => r.kind == .iteration

/-- An iteration has stages to run, or had one in this wc (R138). -/
def State.flewNow (s : State) (c : CoreId) : Bool :=
  let g := s.grid c
  s.flying c || g.history.any fun r =>
    r.kind == .iteration && decide (16 * s.clock < r.pulse + s.spineStages (s.spine c) * g.front.ii)

/-- An order that may supply a pass to a request formed in wc t (R134, R137). -/
def AdmitOrder.supplies (a : AdmitOrder) (t : Nat) : Bool :=
  match a.left with
  | some n => decide (0 < n)
  | none => match a.haltAt with | none => true | some h => decide (t ≤ h)

/-- No admission is pending, at the head of the spine, and nothing is in flight (R131, R139, R140). -/
def State.gridIdle (s : State) (c : CoreId) : Bool :=
  let g := s.grid c
  g.plan.isEmpty && g.running.isNone && !s.flying c && !((s.grid (s.spineHead c)).admits.any fun a => a.supplies s.clock)

/-! ## Landings (R122, R124) -/

/-- One value lands in an element. -/
def ElemState.land (x : ElemState) (f : FlightPort) (v : Word32) : ElemState :=
  match f with
  | .cold _ => x
  | .link k => { x with links := x.links.set k v }
  | .latch k => { x with latches := x.latches.set k v }
  | .result k => { x with results := x.results.set k v }
  | .compare => { x with results := x.results.set 2 v, flag := v.getLsbD 0 }
  | .vpLane lane width => { x with results := x.results.set 5 (setLane x.results[(5 : Fin 7)] lane width v.toNat) }

/-- Every value of the front board that is due at pulse p lands: cold registers are shared by the boards, all else is the
board's (R119). -/
def Grid.landFront (g : Grid) (p : Nat) : Grid :=
  let due := g.front.flights.filter fun f => decide (f.at_ ≤ p)
  let g := { g with front := { g.front with flights := g.front.flights.filter fun f => decide (p < f.at_) } }
  due.foldl (fun g f =>
    match f.port with
    | .cold r => { g with cold := g.cold.set f.elem (g.cold[f.elem].set r f.value) }
    | _ => { g with front := { g.front with elems := g.front.elems.set f.elem (g.front.elems[f.elem].land f.port f.value) } }) g

/-- Every chain of the back board that is due at pulse p lands in that board's ports (R131). -/
def Grid.landBack (g : Grid) (p : Nat) : Grid :=
  let due := g.back.flights.filter fun f => decide (f.at_ ≤ p)
  let back := { g.back with flights := g.back.flights.filter fun f => decide (p < f.at_) }
  { g with back := due.foldl (fun b f => { b with elems := b.elems.set f.elem (b.elems[f.elem].land f.port f.value) }) back }

/-- Rows whose iteration's last VC pass has ended by pulse p are EMPTY (R128). -/
def Grid.freeRows (g : Grid) (p : Nat) : Grid :=
  (g.frees.filter fun f => decide (f.1 ≤ p)).foldl (fun g f => { g with rows := g.rows.set f.2 .empty })
    { g with frees := g.frees.filter fun f => decide (p < f.1) }

/-- What the start of pulse p brings to a grid. -/
def Grid.settle (g : Grid) (p : Nat) : Grid := (g.landFront p).freeRows p

/-! ## One pulse (R121, R122, R124, R127) -/

/-- A value on its way in a grid's front board. -/
def State.fly (s : State) (c : CoreId) (at_ : Nat) (e : Fin 128) (port : FlightPort) (v : Word32) : State :=
  s.onGrid c fun g =>
    { g with front := { g.front with flights := g.front.flights ++ [{ at_ := at_, elem := e, port := port, value := v }] } }

/-- The next word of in r, consumed by a stage-0 read; +0 where the mask bit is clear (R127; DEDUCED, log 76). -/
def State.takeIn (s : State) (c : CoreId) (r : Fin 8) : State × Word32 :=
  let b := (s.core c).inBuf[r]
  match b.words with
  | [] => (s, 0)
  | w :: rest => (s.onCore c fun x => { x with inBuf := x.inBuf.set r { b with words := rest, crossed := b.crossed + 1 } }, w)

/-- What a move reads (R121). `rec` is the pass of the move's iteration and `now` the running pass. -/
def readMove (s : State) (c : CoreId) (now rec : PassRecord) (e : Fin 128) (w : Word32) (src : Nat) : State × Word32 :=
  let g := s.grid c
  let el := g.front.elems[e]
  let imm := immOf w
  let r : Fin 8 := Fin.ofNat 8 (elemRow e.val)
  if src < 4 then (s, g.cold[e][Fin.ofNat 4 src])
  else if src = 7 ∧ elemCol e.val = 0 then
    if stageOf w = 0 ∧ now.inMask.getLsbD r.val then s.takeIn c r else (s, 0)
  else if (src = 4 ∧ r = 0 ∧ s.joinedNorth c = false) ∨ (src = 6 ∧ r = 7 ∧ s.joinedSouth c = false) ∨ (src = 5 ∧ elemCol e.val = 15) then (s, 0)
  else if src < 8 then (s, el.links[Fin.ofNat 4 (src - 4)])
  else if src = 8 then (s, (BitVec.ofNat 6 imm).signExtend 32)
  else if src = 9 then (s, g.vitrine[(0 : Fin 2)][Fin.ofNat 64 imm])
  else if src = 10 then (s, g.vitrine[(1 : Fin 2)][Fin.ofNat 64 imm])
  else if src = 11 then
    (s, if g.front.vgate then (match rec.row with | some v => g.vitrine[v][Fin.ofNat 64 imm] | none => 0) else 0)
  else (s, el.results[Fin.ofNat 7 (src - 12)])

/-- A word emitted into out r takes a reserved place; a masked queue discards it (R103, R127). -/
def State.emitOut (s : State) (c : CoreId) (now rec : PassRecord) (r : Fin 8) (v : Word32) : State :=
  s.onCore c fun x =>
    let b := x.outBuf[r]
    let freed := if rec.outMask.getLsbD r.val then b.reserved - 1 else b.reserved
    let words := if now.outMask.getLsbD r.val then b.words ++ [v] else b.words
    { x with outBuf := x.outBuf.set r { words := words, reserved := freed } }

/-- Driving a link output: 1 pl to the neighbour, 2 pl across a joined edge, discarded at an edge (R118, R139). -/
def driveLink (s : State) (c : CoreId) (now rec : PassRecord) (p : Nat) (e : Fin 128) (side : Nat) (v : Word32) : State :=
  let row := elemRow e.val
  let col := elemCol e.val
  let at_ := fun (k : Nat) => Fin.ofNat 128 k
  match side with
  | 0 =>
    if 0 < row then s.fly c (p + 1) (at_ (e.val - 16)) (.link 2) v
    else match northOf c with
      | some d => if s.joinedNorth c then s.fly d (p + 2) (at_ (7 * 16 + col)) (.link 2) v else s
      | none => s
  | 1 => if col < 15 then s.fly c (p + 1) (at_ (e.val + 1)) (.link 3) v else s.emitOut c now rec (Fin.ofNat 8 row) v
  | 2 =>
    if row < 7 then s.fly c (p + 1) (at_ (e.val + 16)) (.link 0) v
    else match southOf c with
      | some d => if s.joinedSouth c then s.fly d (p + 2) (at_ col) (.link 0) v else s
      | none => s
  | _ => if 0 < col then s.fly c (p + 1) (at_ (e.val - 1)) (.link 1) v else s

/-- A trigger of the DIV and SQRT unit: discarded within 24 pl of the last one taken (R125). -/
def triggerDiv (s : State) (c : CoreId) (p : Nat) (e : Fin 128) (root : Bool) (t : Word32) : State :=
  let el := (s.grid c).front.elems[e]
  let busy := match el.lastDiv with | some q => decide (p < q + 24) | none => false
  if busy then s.onGrid c fun g => { g with dov := true }
  else
    let v := if root then fsqrt fp32 t.toNat else fdiv fp32 t.toNat el.latches[(7 : Fin 8)].toNat
    (s.onGrid c fun g =>
      { g with front := { g.front with elems := g.front.elems.set e { g.front.elems[e] with lastDiv := some p } } }).fly
      c (p + 24) e (.result 6) (word32 v)

/-- Starting a unit with the value t (R122). -/
def trigger (s : State) (c : CoreId) (p : Nat) (e : Fin 128) (d : Nat) (t : Word32) : State :=
  let el := (s.grid c).front.elems[e]
  let fb := el.latches[(0 : Fin 8)]
  let fc := el.latches[(1 : Fin 8)]
  let ib := el.latches[(2 : Fin 8)]
  let cb := el.latches[(3 : Fin 8)]
  let mb := el.latches[(4 : Fin 8)]
  let vw := el.latches[(5 : Fin 8)]
  let vl := el.latches[(6 : Fin 8)]
  if d = 0x10 then s.fly c (p + 4) e (.result 0) (word32 (ffma fp32 t.toNat fb.toNat fc.toNat))
  else if d = 0x11 then s.fly c (p + 4) e (.result 0) (word32 (fadd fp32 t.toNat fb.toNat))
  else if d = 0x12 then s.fly c (p + 4) e (.result 0) (word32 (fmul fp32 t.toNat fb.toNat))
  else if d < 0x1b then s.fly c (p + 1) e (.result 1) (intUnit d t ib)
  else if d < 0x20 then s.fly c (p + 1) e .compare (if compareUnit d t cb then 1 else 0)
  else if d = 0x20 then s.fly c (p + 1) e (.result 2) (if el.flag then t else cb)
  else if d < 0x25 then s.fly c (p + 1) e (.result 3) (minMaxUnit d t mb)
  else if d < 0x29 then s.fly c (p + 2) e (.result 4) (unpackUnit (d - 0x25) t vw)
  else if d < 0x2d then
    let w := laneWidth (d - 0x29)
    s.fly c (p + 2) e (.vpLane (vl.toNat % (32 / w)) w) (word32 (packUnit (d - 0x29) t))
  else triggerDiv s c p e (d == 0x2e) t

/-- What a move's write does (R122). -/
def writeMove (s : State) (c : CoreId) (now rec : PassRecord) (p : Nat) (e : Fin 128) (d : Nat) (v : Word32) : State :=
  if d < 4 then s.fly c (p + 1) e (.cold (Fin.ofNat 4 d)) v
  else if d < 8 then driveLink s c now rec p e (d - 4) v
  else if d < 16 then s.fly c (p + 1) e (.latch (Fin.ofNat 8 (d - 8))) v
  else trigger s c p e d v

/-- One move word of one element at pulse p: suppressed unless the pass its stage belongs to was an iteration (R126). -/
def runWord (s : State) (c : CoreId) (now : PassRecord) (hist : List PassRecord) (p : Nat) (e : Fin 128) (w : Word32) : State :=
  match (now :: hist)[stageOf w]? with
  | some rec =>
    if rec.kind = .iteration then
      (liveMoves w).foldl (fun s m =>
        let r := readMove s c now rec e w m.1.src
        if m.2 then writeMove r.1 c now rec p e m.1.dst r.2 else r.1) s
    else s
  | none => s

/-- One pulse of one grid: what is due lands, then every element executes the word of its slot (R124). -/
def runPulse (s : State) (c : CoreId) (now : PassRecord) (hist : List PassRecord) (slot p : Nat) : State :=
  let s := s.onGrid c fun g => g.landFront p
  let b := (s.grid c).front
  (List.finRange 128).foldl (fun s e => runWord s c now hist p e (b.word e slot)) s

/-! ## A pass (R126, R128, R134, R136, R138) -/

/-- What a pass's beginning changes in its grid: it leaves the plan and runs, and it sets the next boundary; the row it takes, which
comes free VS passes on, the counts, and what is left of the word it serves. -/
def Grid.beginPass (g : Grid) (r : PassRecord) : Grid :=
  let admits := if r.kind = .iteration ∨ r.kind = .filler then
      g.admits.map fun a =>
        if a.number = r.number ∧ a.fill = (r.kind == .filler) then { a with left := a.left.map (· - 1) } else a
    else g.admits
  let g := { g with
    admits := admits, icnt := if r.kind = .iteration then g.icnt + 1 else g.icnt
    plan := g.plan.drop 1, running := some r, ran := 0, nextPulse := r.pulse + g.front.ii }
  match r.row with
  | some v =>
    { g with
      rows := g.rows.set v .held, rp := g.rp + 1
      frees := g.frees ++ [(r.pulse + (g.front.vcStage + 1) * g.front.ii, v)] }
  | none => g

/-- What a pass's end leaves. -/
def Grid.endPass (g : Grid) (r : PassRecord) : Grid :=
  { g with history := (r :: g.history).take 4, running := none, ran := 0 }

/-- The members of a spine with the pass each is about to run. -/
def State.nextPasses (s : State) (ms : List CoreId) : List (CoreId × PassRecord) :=
  ms.filterMap fun c => ((s.grid c).plan.head?).map fun r => (c, r)

/-- The members of a spine with the pass each runs. -/
def State.runningPasses (s : State) (ms : List CoreId) : List (CoreId × PassRecord) :=
  ms.filterMap fun c => ((s.grid c).running).map fun r => (c, r)

/-- A pass of a spine begins at pulse p, in all members at once (R140). -/
def beginPasses (s : State) (ps : List (CoreId × PassRecord)) (p : Nat) : State :=
  ps.foldl (fun s x => s.onGrid x.1 fun g => (g.settle p).beginPass x.2) s

/-- A pass of a spine ends; a filler counts with the end of its pass (R114, R134; DEDUCED, log 94). -/
def endPasses (s : State) (ps : List (CoreId × PassRecord)) : State :=
  ps.foldl (fun s x =>
    let t := s.onGrid x.1 fun g => g.endPass x.2
    if x.2.kind = .filler then t.onCore x.1 fun y => { y with hfill := y.hfill + 1 } else t) s

/-- Slots `lo` to `hi - 1` of the pass that began at pulse p, pulse by pulse, all members in step (R124, R140). -/
def runPulses (s : State) (ps : List (CoreId × PassRecord)) (p lo hi : Nat) : State :=
  ((List.range (hi - lo)).map fun j => lo + j).foldl (fun s j =>
    ps.foldl (fun s x => runPulse s x.1 x.2 (s.grid x.1).history j (p + j)) s) s

/-- The pass that runs, in this wc: the pulses that lie in it, and its end when the last of its `ii` pulses does (R124, R127). -/
def runPass (s : State) (ps : List (CoreId × PassRecord)) (ii p ran : Nat) : State :=
  let hi := min ii (16 * (s.clock + 1) - p)
  let t := runPulses s ps p ran hi
  if hi = ii then endPasses t ps else ps.foldl (fun t x => t.onGrid x.1 fun g => { g with ran := hi }) t

/-! ## Boundaries: XIN and XOUT (R108) -/

/-- The boundary that stands at this point of the wc, as a pulse: the first pulse of the next planned pass, or the start of
the wc in a grid that runs no pass over it. -/
def Grid.boundary (g : Grid) (now : Nat) : Option Nat :=
  match g.plan with
  | r :: _ => some r.pulse
  | [] => if g.nextPulse ≤ 16 * now then some (16 * now) else none

/-- An XIN or XOUT whose boundary pulse p is. -/
def CrossState.due (x : CrossState) (p : Nat) : Bool := x.granted && !x.done && decide (16 * x.readyAt ≤ p)

/-- The first XIN or XOUT that acts at pulse p. -/
def Grid.dueCross (g : Grid) (p : Nat) : Option CrossState := g.crossing.find? fun x => x.due p

/-- XIN writes a cold register, a word of a vitrine row, or a row (R107, R128). -/
def Grid.landXin (g : Grid) (x : CrossState) : Grid :=
  let v : Fin 2 := Fin.ofNat 2 (gridEl x.place)
  let g := { g with crossing := g.crossing.filter fun y => y.number != x.number }
  if x.row then
    { g with
      vitrine := g.vitrine.set v (Vector.ofFn fun i : Fin 64 => x.words[i.val]?.getD 0)
      rows := if g.rows[v] = .filling then g.rows.set v .full else g.rows }
  else if gridKind x.place = 1 then
    { g with vitrine := g.vitrine.set v (g.vitrine[v].set (Fin.ofNat 64 (gridIx x.place)) (x.words.headD 0)) }
  else
    let e : Fin 128 := Fin.ofNat 128 (gridEl x.place)
    { g with cold := g.cold.set e (g.cold[e].set (Fin.ofNat 4 (gridIx x.place)) (x.words.headD 0)) }

/-- XIN_LANDING: the first XIN that is due lands at the boundary, and its word retires (R108). -/
def execXinLanding (c : CoreId) (s : State) : Out :=
  match (s.grid c).boundary s.clock with
  | none => .next s
  | some p =>
    match (s.grid c).dueCross p with
    | none => .next s
    | some x =>
      if x.inward then .next ((s.onGrid c fun g => (g.settle p).landXin x).soon (.retirement c .a x.number))
      else .next s

/-- What XOUT reads (R107). -/
def Grid.readXout (g : Grid) (x : CrossState) : List Word32 :=
  let v : Fin 2 := Fin.ofNat 2 (gridEl x.place)
  if x.row then g.vitrine[v].toList
  else if gridKind x.place = 1 then [g.vitrine[v][Fin.ofNat 64 (gridIx x.place)]]
  else [g.cold[(Fin.ofNat 128 (gridEl x.place) : Fin 128)][Fin.ofNat 4 (gridIx x.place)]]

/-- XOUT_READ: the first XOUT that is due reads at the boundary; once its last word has crossed its elements land within the
word's bound (R108, R351). -/
def execXoutRead (c : CoreId) (s : State) : Out :=
  match (s.grid c).boundary s.clock with
  | none => .next s
  | some p =>
    match (s.grid c).dueCross p with
    | none => .next s
    | some x =>
      if x.inward then .next s
      else
        let t := s.onGrid c fun g =>
          let g := g.settle p
          { g with crossing := g.crossing.map fun y =>
              if y.number = x.number then { y with words := g.readXout x, done := true } else y }
        let u := t.onEntry c .a x.number fun q => q.withOps (xoutOps c q ((s.grid c).settle p |>.readXout x))
        let room := 16 + (match findEntry (s.core c) .a x.number with | some q => q.accessT | none => 0) - x.spent
        .next ((u.timer (max x.lastAt s.clock + 1 + s.freeNat 2 % room) (.retirement c .a x.number)).bump)

/-- The landings and reads that fall on the next boundary of some grids. -/
def State.boundaryEvents (s : State) (ms : List CoreId) : List Instr :=
  ms.flatMap fun c =>
    match (s.grid c).boundary s.clock with
    | none => []
    | some p => ((s.grid c).crossing.filter fun x => x.due p).map fun x => if x.inward then .xinLanding c else .xoutRead c

/-- The events of a spine's next pass: the boundary's landings and reads, a swap, the pass; a pass that runs goes on. -/
def State.passEvents (s : State) (h : CoreId) : List Instr :=
  let ms := s.spine h
  if (s.grid h).running.isSome then [.gridPass h]
  else
    s.boundaryEvents ms ++
      (match (s.grid h).plan.head? with
       | some r => (if r.swaps then [.boardSwap h] else []) ++ [.gridPass h]
       | none => [])

/-! ## Retirements of admission words (R136, R137, R290) -/

/-- A GRUN or GFILL whose passes are over. An unbounded GRUN that was stopped is over with the GHALT: once nothing is in flight (R290). -/
def orderOver (s : State) (c : CoreId) (a : AdmitOrder) : Bool :=
  let g := s.grid c
  let planned := g.plan.any fun r => r.number == a.number && (r.kind == .iteration || (a.fill && r.kind == .filler))
  !planned && !(a.supplies s.clock) && (a.left.isSome || !(s.flying c)) && !(g.liveOf (s.spineStages (s.spine c)) a.number) &&
    !(a.fill && match g.running with | some r => r.kind == .filler && r.number == a.number | none => false)

/-- A GHALT that has issued, with no unbounded GRUN left and nothing in flight, has retired its grid. -/
def haltsOver (s : State) (c : CoreId) : List Nat :=
  if s.flying c ∨ ((s.grid c).admits.any fun a => a.left == none && !(orderOver s c a)) then []
  else ((s.core c).queue .g).filterMap fun q =>
    match q.instr, q.status with
    | .ghalt _, .issued _ => some q.order
    | _, _ => none

/-- The retirements that a wc's passes bring: a GRUN before the GHALT that stopped it (R290). -/
def gridRetires (s : State) (c : CoreId) : State :=
  let done := (s.grid c).admits.filter (orderOver s c)
  let halts := haltsOver s c
  let t := s.onGrid c fun g => { g with admits := g.admits.filter fun a => !(orderOver s c a) }
  (done.map (fun (a : AdmitOrder) => Instr.retirement c .g a.number) ++ halts.map (fun n => Instr.retirement c .g n)).foldl State.soon t

/-- Behind the engines of a wc, the words retire whose passes are over in any grid. -/
def State.sweepGrids (s : State) : State := { (List.finRange 64).foldl gridRetires s with stage := 2 }

/-- Behind a pass that has ended, the next planned pass of this wc follows; behind the last one, the words retire whose passes are over. -/
def State.passFollows (s : State) (c : CoreId) : State :=
  if (s.grid c).running.isSome then s
  else if (s.grid c).plan.isEmpty then (s.spine c).foldl gridRetires s
  else { s with agenda := s.passEvents c ++ s.agenda }

/-- GRID_PASS: the pass that the spine of head c runs goes on, else its next planned pass begins, in all members at once (R124,
R140; DEDUCED, log 30). -/
def execGridPass (c : CoreId) (s : State) : Out :=
  if s.spineHead c ≠ c then .next s
  else
    let ms := s.spine c
    match (s.grid c).running with
    | some r => .next ((runPass s (s.runningPasses ms) (s.grid c).front.ii r.pulse (s.grid c).ran).passFollows c)
    | none =>
      match (s.grid c).plan.head? with
      | none => .next s
      | some r =>
        let ps := s.nextPasses ms
        .next ((runPass (beginPasses s ps r.pulse) ps (s.grid c).front.ii r.pulse 0).passFollows c)

/-! ## Loads and swaps (R130, R131) -/

/-- GCFG_LOAD_END: the last word has crossed; the back board is READY or REJECTED, and the GCFG retires (R130). -/
def execGcfgLoadEnd (c : CoreId) (s : State) : Out :=
  match (s.grid c).load with
  | none => .next s
  | some l =>
    if l.left ≠ 0 then .next s
    else
      .next ((s.onGrid c fun g => { g with back := g.back.loaded l.words, load := none }).soon (.retirement c .g l.number))

/-- One grid's boards exchange at pulse p: the new front board starts from cleared ports and the old one drains (R131). Where a member's GCFG
has issued between the issue of the head's swap and this point, the LOADING board comes to the front, and the end of the load replaces the
board that then stands at the back (R140; DESIGN CHOICE, log 105). -/
def Grid.exchange (g : Grid) (p : Nat) : Grid :=
  let g := g.settle p
  { g with
    front := { g.back with elems := Vector.replicate 128 ElemState.zero, flights := [] }
    back := { g.front with status := .draining }
    history := []
    swap := none }

/-- A swap may strike at pulse p: the count its word names has come (R131). -/
def swapDue (w : Nat × Option Word) (p : Nat) : Bool :=
  match w.2 with
  | none => true
  | some n => decide (n.toNat ≤ p / 16 % 2 ^ 64)

/-- BOARD_SWAP: at the swap point, with nothing in flight and no member pre-empted, every member's boards exchange, and the word retires
(R131, R141, R295). -/
def execBoardSwap (c : CoreId) (s : State) : Out :=
  let ms := s.spine c
  match (s.grid c).swap, (s.grid c).boundary s.clock with
  | some w, some p =>
    let now : Bool := !(s.spineWaits ms) &&  match (s.grid c).plan.head? with | some r => r.swaps | none => true
    if s.spineHead c = c ∧ swapDue w p ∧ now ∧ (s.grid c).running = none ∧ inFlight (s.spineStages ms) (s.grid c).history = false then
      .next ((ms.foldl (fun s d => s.onGrid d fun g => g.exchange p) s).soon (.retirement c .g w.1))
    else .next s
  | _, _ => .next s

/-- BOARD_DRAINED: every chain of a DRAINING back board has landed; the board is READY with its content (R131). The event is one of the next
wc's where the swap falls in this one (DESIGN CHOICE, log 95). -/
def execBoardDrained (c : CoreId) (s : State) : Out :=
  let g := (s.grid c).landBack (16 * s.clock)
  if (s.grid c).back.status = .draining ∧ g.back.flights = [] then
    .next (s.putGrid c { g with back := { g.back with status := .ready } })
  else .next s

/-! ## Edges (R139, R292) -/

/-- A grid's waiting GLINK asks for this edge and act. -/
def Grid.asks (g : Grid) (south part : Bool) : Bool :=
  match g.edge with | some e => e.2.1 == south && e.2.2 == part | none => false

/-- The G word of a waiting GLINK retires. -/
def State.edgeDone (s : State) (c : CoreId) : State :=
  match (s.grid c).edge with
  | some e => (s.onGrid c fun g => { g with edge := none }).soon (.retirement c .g e.1)
  | none => s

/-- SPINE_EDGE_JOIN on the edge south of core c: both GLINKs have issued and both grids are idle; a join of an edge that is
joined already retires once they are idle, the grid of a pre-empted member being idle (R139, R141, R292). -/
def execSpineEdgeJoin (c : CoreId) (s : State) : Out :=
  match southOf c with
  | none => .next s
  | some d =>
    let a := (s.grid c).asks true false
    let b := (s.grid d).asks false false
    let stays := (s.grid c).joinSouth && !(s.grid d).joinNorth
    let stood := (s.grid d).joinNorth && !(s.grid c).joinSouth
    if a ∧ stays then .next (if s.gridIdle c then s.edgeDone c else s)
    else if b ∧ stood then .next (if s.gridIdle d then s.edgeDone d else s)
    else if s.gridIdle c = false ∨ s.gridIdle d = false then .next s
    else if s.joinedSouth c then
      let t := if a then s.edgeDone c else s
      .next (if b then t.edgeDone d else t)
    else if a ∧ b then
      let t := (s.onGrid c fun g => { g with joinSouth := true }).onGrid d fun g => { g with joinNorth := true }
      .next ((t.edgeDone c).edgeDone d)
    else .next s

/-- A saved task's grid forgets an edge that its neighbour has parted. -/
def State.partSaved (s : State) (c : CoreId) (south : Bool) : State :=
  { s with sched := { s.sched with graphs := s.sched.graphs.map fun g =>
      { g with saved := g.saved.map fun t =>
          if t.core = c then
            { t with grid := if south then { t.grid with joinSouth := false } else { t.grid with joinNorth := false } }
          else t } } }

/-- A saved task of a core holds an edge to be joined (R141). -/
def State.savedJoins (s : State) (c : CoreId) (south : Bool) : Bool :=
  s.sched.graphs.any fun g => g.saved.any fun t => t.core == c && if south then t.grid.joinSouth else t.grid.joinNorth

/-- A core's grid holds an edge to be joined. -/
def Grid.joins (g : Grid) (south : Bool) : Bool := if south then g.joinSouth else g.joinNorth

/-- SPINE_EDGE_PART on the edge that core c's GLINK names: the spine is idle and the edge parts; a part of an edge that is parted already
retires once both grids are idle (R139, R292). A spine of which a member is pre-empted counts as idle, whatever its saved head has pending
(R141; DESIGN CHOICE, log 104). -/
def execSpineEdgePart (c : CoreId) (s : State) : Out :=
  match (s.grid c).edge with
  | some (_, south, true) =>
    let other := if south then southOf c else northOf c
    if (s.spine c ++ if (s.grid c).joins south then [] else other.toList).any fun d => !s.gridIdle d then .next s
    else
      let t := s.onGrid c fun g => if south then { g with joinSouth := false } else { g with joinNorth := false }
      let u := match other with
        | some d => (t.onGrid d fun g => if south then { g with joinNorth := false } else { g with joinSouth := false }).partSaved
            d (!south)
        | none => t
      .next (u.edgeDone c)
  | _ => .next s

end Sys2Proof.Machine
end

