-- ==== Sys2Proof/Machine/Crossing.lean ====
section
/-! DEFINITION. Streams: the packing of a tensor into crossing words (R102), the channels that move words between warm
memory and the gate buffers (R103 to R106), and what an XOUT writes. -/

namespace Sys2Proof.Machine

open Sys2Proof

/-! ## Packing (R102) -/

/-- The bytes of crossing word k of a stream as a piece: first address and length. -/
def wordPiece (h : HandleBits) (k : Nat) : Nat × Nat :=
  let row := hRow h (k / rowWords h)
  let w := k % rowWords h
  ((row + 4 * w) % 2 ^ 64, min 4 (rowBytes h - 4 * w))

/-- Crossing word k of the stream of a tensor, as its command reads it; bits past the row's last element are 0. -/
def State.packWord (s : State) (c : CoreId) (q : QEntry) (h : HandleBits) (k : Nat) : Word32 :=
  let p := wordPiece h k
  let left := hDim h 0 * efmtBits (hEfmt h) - 32 * (k % rowWords h)
  word32 (s.loadQ c q p.1 p.2 % 2 ^ (min 32 left))

/-- All crossing words of a tensor. -/
def State.packAll (s : State) (c : CoreId) (q : QEntry) (h : HandleBits) : List Word32 :=
  (List.range (streamLength h)).map (s.packWord c q h)

/-- Writing the elements of crossing word k through a handle; `half` is the low half of a 64-bit element (R102, R105). -/
def State.unpackWord (s : State) (c : CoreId) (mask : BitVec 16) (pages : List PageMap) (h : HandleBits) (k : Nat)
    (half w : Word32) : State :=
  let row := hRow h (k / rowWords h)
  let n := k % rowWords h
  let bits := efmtBits (hEfmt h)
  if bits = 64 then
    if n % 2 = 1 then s.storeElem c mask pages (hEfmt h) (rowElem h row (n / 2)) (half.toNat + w.toNat * 2 ^ 32) else s
  else
    (List.range (32 / bits)).foldl (fun s i =>
      let e := n * (32 / bits) + i
      if e < hDim h 0 then s.storeElem c mask pages (hEfmt h) (rowElem h row e) (nbits w.toNat (bits * i) bits) else s) s

/-- The rest of a stream from word k on, row by row. -/
def streamRest (h : HandleBits) (k : Nat) : List (Nat × Nat) :=
  match (List.range (hRowCount h)).drop (k / rowWords h) with
  | [] => []
  | row :: rows =>
    let done := 4 * (k % rowWords h)
    (hRow h row + done, rowBytes h - done) :: rows.map fun r => (hRow h r, rowBytes h)

/-- The scratchpad lines whose last byte word k of a stream writes (R98). -/
def linesEnded (c : CoreId) (mask : BitVec 16) (h : HandleBits) (k : Nat) : List Nat :=
  let later := padLines c mask (streamRest h (k + 1))
  (padLines c mask [wordPiece h k]).filter fun l => !(later.contains l)

/-- Word k of a stream lands through a destination: its elements, the stamps of the lines it ends, its bytes off PEND (R98,
R105, R178). -/
def State.landWord (s : State) (c : CoreId) (q : QEntry) (h : HandleBits) (k : Nat) (half w : Word32) : State :=
  let t := s.unpackWord c q.mcMask q.pages h k half w
  let u := stampLines t h (linesEnded c q.mcMask h k)
  let bytes := if efmtBits (hEfmt h) = 64 then (if k % 2 = 1 then 8 else 0) else (wordPiece h k).2
  u.notifyLanded c q.notify bytes

/-! ## Channels (R101, R103 to R106) -/

/-- The A word that holds a channel. -/
def channelEntry (x : CoreState) (k : Fin 8) : Option (Channel × QEntry) :=
  match x.channels[k] with
  | some ch => (findEntry x .a ch.number).map fun q => (ch, q)
  | none => none

/-! ## What a word has still to perform (R157, R160, R164) -/

/-- An access goes to a table element that its index does not name yet. -/
def MemOp.unnamed (u : MemOp) : Bool := match u.place with | .indexed _ => true | _ => false

/-- The accesses that a word has still to perform: of a stream, the words that have neither moved nor been read; of another issued word,
those that are left. A write that the outbound path has accepted is still to land (R157). -/
def leftOf (c : CoreId) (x : CoreState) (f : QEntry) : List Touch :=
  match x.channels.toList.findSome? fun o => o.filter fun ch => ch.number == f.order with
  | some ch =>
    (touches c f.mcMask f.pages ch.take (streamRest (f.handleAt 0) ch.moved)).filter fun t =>
      !(f.seen.any fun p => runHas p t.lo && runHas p (t.lo + t.len - 1))
  | none =>
    match f.status with
    | .waiting => f.touch
    | .retired => []
    | .issued _ =>
      if f.performed = false then f.touch
      else
        f.ops.flatMap MemOp.touches ++
          (if f.ops.any MemOp.unnamed then f.touch.filter fun t => t.write == (match f.instr with | .scat _ _ _ => true | _ => false) else [])

/-- An access reads what stands where it goes: a read, or a write that combines. -/
def MemOp.reads (u : MemOp) : Bool :=
  match u.what with
  | .read | .land (.reduce _ _ _) | .land (.addTo _ _ _) | .put _ (some _) | .value _ (some _) => true
  | _ => false

/-- A write has performed at scope `sc` before it lands (R157). -/
def QEntry.acceptedAt (q : QEntry) (sc : Scope) : Bool :=
  match q.accepted, sc with
  | some _, .core => true
  | some .die, .die => true
  | _, _ => false

/-- Reads of a word whose values are not fixed, and writes of it that have not performed at a scope (R157; DEDUCED, log 93). -/
def owesReads (c : CoreId) (x : CoreState) (f : QEntry) : Bool := f.readsMem && ((leftOf c x f).any (fun t => !t.write) || f.ops.any MemOp.reads)
def owesWrites (c : CoreId) (x : CoreState) (sc : Scope) (f : QEntry) : Bool :=
  f.writesMem && !(f.acceptedAt sc) && (leftOf c x f).any fun t => t.write

/-- An earlier word of a queue has still to perform some access that comes before some accesses `mine` of a later word, by kind or by an
acquire (R160, R164; DEDUCED, log 40, 45). -/
def holdsUp (c : CoreId) (x : CoreState) (mine : List Touch) (f : QEntry) : Bool :=
  let meets := fun (ts : List Touch) => mine.any fun u => ts.any fun t => t.ordered u
  (f.acquire && owesReads c x f) || (meets f.touch && meets (leftOf c x f))

/-- A release waits for what an earlier word has still to perform at its scope (R164). -/
def holdsRelease (c : CoreId) (x : CoreState) (q f : QEntry) : Bool :=
  q.release && (owesReads c x f || owesWrites c x q.scope f)

/-- An accepted write of a core has still to land where accesses `mine` go. -/
def acceptedMeets (x : CoreState) (which : QEntry → Bool) (mine : List Touch) : Bool :=
  engines.any fun e => (x.queue e).any fun f =>
    f.accepted.isSome && f.status != .retired && which f && mine.any fun u => f.touch.any fun t => t.write && t.meets u

/-- The other cores of a core's die. -/
def dieMates (c : CoreId) : List CoreId := ((List.finRange 16).map (coreOf (dieOf c))).filter fun d => d != c

/-- An access of core c that no word of its queues makes goes behind every accepted write of its bytes (R157). -/
def acceptedBefore (s : State) (c : CoreId) (mine : List Touch) : Bool :=
  acceptedMeets (s.core c) (fun _ => true) mine || (dieMates c).any fun d => acceptedMeets (s.core d) (fun f => f.accepted == some .die) mine

/-- An access to a location that an accepted write has still to land in travels behind that write: of the core itself, and of any core of
the die where the write was accepted for the die (R157; DEDUCED, log 93). -/
def behindAccepted (s : State) (c : CoreId) (q : QEntry) (mine : List Touch) : Bool :=
  acceptedMeets (s.core c) (fun f => f.order != q.order && (q.accepted.isNone || decide (f.order < q.order))) mine ||
    (dieMates c).any fun d => acceptedMeets (s.core d) (fun f => f.accepted == some .die) mine

/-- Accesses `mine` of a word of a queue must wait for an earlier word of its task in the queue, or behind an accepted write. -/
def accessHeld (s : State) (c : CoreId) (e : Engine) (q : QEntry) (mine : List Touch) : Bool :=
  !mine.isEmpty && (((earlier ((s.core c).queue e) q).any fun f => f.epoch == q.epoch && holdsUp c (s.core c) mine f) ||
    behindAccepted s c q mine)

/-- A word's release has still to wait for an earlier word of its queue. -/
def releaseHeld (s : State) (c : CoreId) (e : Engine) (q : QEntry) : Bool :=
  q.release && (earlier ((s.core c).queue e) q).any fun f => f.epoch == q.epoch && holdsRelease c (s.core c) q f

/-- A FEED that can move nothing more for want of a place in its buffer (R104). -/
def feedStalled (x : CoreState) (f : QEntry) : Bool :=
  x.channels.toList.any fun o =>
    match o with
    | some ch => ch.number == f.order && !ch.take && decide (256 ≤ (x.inBuf[ch.queue]).words.length)
    | none => false

/-- The accesses of the next word of a channel's stream. -/
def wordTouch (c : CoreId) (ch : Channel) (q : QEntry) : List Touch :=
  touches c q.mcMask q.pages ch.take [wordPiece (q.handleAt 0) ch.moved]

/-- A FEED can move its next word: it has begun, and its buffer has a free place (R104). -/
def feedReady (s : State) (c : CoreId) (k : Fin 8) : Bool :=
  let x := s.core c
  match channelEntry x k with
  | some (ch, q) =>
    !ch.take && decide (ch.startAt ≤ s.clock ∧ ch.moved < ch.length) && decide ((x.inBuf[ch.queue]).words.length < 256) &&
      !(accessHeld s c .a q (wordTouch c ch q))
  | none => false

/-- A TAKE can move its next word: it is the first in issue order of its buffer, and the buffer holds a word (R105, R106). -/
def takeReady (s : State) (c : CoreId) (k : Fin 8) : Bool :=
  let x := s.core c
  match channelEntry x k with
  | some (ch, q) =>
    ch.take && decide (ch.startAt ≤ s.clock ∧ ch.moved < ch.length) && !(x.outBuf[ch.queue]).words.isEmpty &&
      !(accessHeld s c .a q (wordTouch c ch q)) && !(releaseHeld s c .a q) &&
      (List.finRange 8).all fun j => match x.channels[j] with
        | some o => !(o.take && o.queue == ch.queue && decide (o.moved < o.length ∧ o.number < ch.number))
        | none => true
  | none => false

/-- One word of a FEED joins its input buffer (R104). -/
def feedWord (s : State) (c : CoreId) (k : Fin 8) : State :=
  match channelEntry (s.core c) k with
  | some (ch, q) =>
    let w := s.packWord c q (q.handleAt 0) ch.moved
    s.onCore c fun x =>
      let b := x.inBuf[ch.queue]
      { x with
        inBuf := x.inBuf.set ch.queue { b with words := b.words ++ [w], pushed := b.pushed + 1 }
        channels := x.channels.set k (some { ch with moved := ch.moved + 1, endAt := b.pushed + 1 }) }
  | none => s

/-- One word of an output buffer lands through a TAKE (R105). -/
def takeWord (s : State) (c : CoreId) (k : Fin 8) : State :=
  match channelEntry (s.core c) k with
  | some (ch, q) =>
    let b := (s.core c).outBuf[ch.queue]
    let w := b.words.headD 0
    (s.landWord c q (q.handleAt 0) ch.moved ch.half w).onCore c fun x =>
      { x with
        outBuf := x.outBuf.set ch.queue { b with words := b.words.drop 1 }
        channels := x.channels.set k (some { ch with moved := ch.moved + 1, half := w }) }
  | none => s

/-- One turn over the channels in ascending number: each that can moves a word, as far as the wc's places last (R103; DEDUCED, log
23). -/
def channelRound (ready : State → Fin 8 → Bool) (move : State → Fin 8 → State) (x : State × Nat) : State × Nat :=
  (List.finRange 8).foldl (fun x k => if 0 < x.2 ∧ ready x.1 k then (move x.1 k, x.2 - 1) else x) x

/-- A wc of one direction: 64 places, shared word by word (R103). -/
def channelMoves (ready : State → Fin 8 → Bool) (move : State → Fin 8 → State) (s : State) : State :=
  ((List.range 64).foldl (fun x _ => channelRound ready move x) (s, 64)).1

/-- A channel's word has done its last: a TAKE has landed its last word, a FEED's last word has crossed (R104, R105). -/
def channelDone (x : CoreState) (k : Fin 8) : Option Nat :=
  match x.channels[k] with
  | some ch =>
    if ch.moved = ch.length ∧ (ch.take ∨ ch.endAt ≤ (x.inBuf[ch.queue]).crossed) then some ch.number else none
  | none => none

/-- CHANNEL_WORD_MOVE: the words that the TAKEs of a core move in this wc, and the retirements that complete its channels (R103 to
R106). A channel of a core whose task has stopped moves nothing (R109). The words of a FEED are read once everything has landed that
lands in the wc (R156). -/
def execChannelWordMove (c : CoreId) (s : State) : Out :=
  if (s.core c).works = false then .next s
  else
    let u := channelMoves (fun s k => takeReady s c k) (fun s k => takeWord s c k) s
    .next ((List.finRange 8).foldl (fun s k =>
      match channelDone (s.core c) k with
      | some n => s.soon (.retirement c .a n)
      | none => s) u)

/-- The words that the FEEDs of a core move in this wc (R103, R104, R109). -/
def State.feedWords (s : State) (c : CoreId) : State :=
  if (s.core c).works then channelMoves (fun s k => feedReady s c k) (fun s k => feedWord s c k) s else s

/-- A FEED that waits for a place in its buffer reads what is left of it before later reads of its queue that wait for those reads, so
that the order of two reads of one byte stands (R160; DEDUCED, log 40). -/
def State.readStalled (s : State) (c : CoreId) : State :=
  ((s.core c).queue .a).foldl (fun s f =>
    let x := s.core c
    let mine := leftOf c x f
    if feedStalled x f && (x.queue .a).any fun q => decide (f.order < q.order) && q.status != .retired && q.touch.any fun u => mine.any fun t => t.ordered u
    then s.onEntry c .a f.order fun q => mine.foldl (fun r t => r.readRun s t.lo t.len) q
    else s) s

/-! ## XOUT's bytes (R107) -/

/-- The elements of an XOUT that are left land, and it leaves the grid (R107). -/
def State.landXout (s : State) (c : CoreId) (q : QEntry) : State :=
  (s.landRest c q).onGrid c fun g => { g with crossing := g.crossing.filter fun y => y.number != q.order }

end Sys2Proof.Machine
end

