-- ==== Sys2Proof/Machine/MEngine.lean ====
section
/-! DEFINITION. The M engine (R51): what LEASE, FREE, SHELF, MMA, NORM, ACCZ, ACCSV, ACCLD and DRAIN check and capture at
enqueue (R80, R84, R92, R145, R146, R148 to R150, R152 to R154, R285), and what they do to the array and to warm memory
when they perform. -/

namespace Sys2Proof.Machine

open Sys2Proof

/-! ## Checks -/

/-- The lease check of an M word other than LEASE, reckoned in program order (R146, R285); XINFO is the lease state. -/
def checkLease (x : CoreState) : Check Unit := require x.lease.reckoned codeLease 0

/-- The lease state that a lease fault reports (R200). The manual codes the three states that an image may hold (R360); the
code of another state is a free value (log 31). -/
def State.leaseInfo (s : State) : Nat :=
  match s.me.lease.state with
  | .idle => 0
  | .waiting => 1
  | .suspended => 2
  | _ => s.freeNat 4

/-- The bytes of an accumulator image and of a spill image (R77, R144). -/
def accBytes : Nat := 532480
def spillBytes : Nat := 548864

/-- The first byte at which two lists of touches meet (DEDUCED, log 28). -/
def meetAt (ts us : List Touch) : Option Nat :=
  ts.findSome? fun t => (us.find? fun u => t.meets u).map fun u => max t.lo u.lo

/-- Unretired M words of the lease that stands in program order (R154; DEDUCED, log 71). -/
def leaseWords (x : CoreState) : List QEntry := (x.unretired .m).filter fun q => decide (x.lease.since < q.order)

/-- What the lease keeps of the extents of unretired words: operands of MMA and SHELF, destinations of DRAIN and ACCSV
(R154). -/
def operandsOf (qs : List QEntry) : List Touch :=
  qs.flatMap fun q =>
    match q.instr with
    | .mmaStream _ _ _ _ | .mmaShelf _ _ _ | .shelf _ _ => q.touch.filter fun t => !t.write
    | _ => []
def destsOf (qs : List QEntry) : List Touch :=
  qs.flatMap fun q =>
    match q.instr with
    | .drain _ _ _ | .accsv _ _ => q.touch.filter fun t => t.write
    | _ => []

def operandTouches (x : CoreState) : List Touch := operandsOf (leaseWords x)
def destTouches (x : CoreState) : List Touch := destsOf (leaseWords x)

/-- The alias rule (R154): `mine` against the other role's extents and against the spill area of the word's own lease. XINFO is
the overlapping physical address. -/
def aliasCheck (area mine others : List Touch) : Check Unit :=
  match meetAt mine (others ++ area) with
  | some a => .error (.trap codeAlias a)
  | none => .ok ()

/-- Pages that every write needs: the first read-only one raises a protection fault. -/
def checkNotRO (s : State) (h : HandleBits) (number : HReg) (acc : Accepts) : Check Unit := do
  let _ ← checkHandle s s.cur h number acc true
  pure ()

/-- The alias rule for a word that enters the queue. -/
def checkAlias (s : State) (mine others : List Touch) : Check Unit := aliasCheck s.me.lease.area mine others

/-- R92's last row: a SLOT that names a format other than the handle's (R92). -/
def checkSlot (h : HandleBits) (w : Word) : Check Unit :=
  let want := match hSlot h with | 1 => some (fmtA w) | 2 => some (fmtB w) | 3 => some (fmtO w) | _ => none
  match want with
  | some f => require (f == hEfmt h) codeFormatWord w.toNat
  | none => .ok ()

/-- The pop of a format word (R84). -/
def popFormat (x : CoreState) : Check Word :=
  match x.fmtQ with
  | w :: _ => .ok w
  | [] => .error (.trap codeFormatUnderflow 0)

/-! ## LEASE and FREE -/

/-- The area of a LEASE enters the lease: state WAITING (R142). Its first current shelf is shelf 0, whose tag matches nothing, so that the
first SHELF loads shelf 1 (R148; DESIGN CHOICE, log 106). -/
def Lease.wait (l : Lease) (h : HandleBits) (pages : List PageMap) (pc : Word) (slot : BitVec 8) : Lease :=
  { l with state := .waiting, pc := pc, slot := slot, spillBase := BitVec.ofNat 64 (hBase h), spillSpace := BitVec.ofNat 3 (hSpace h)
           spillPages := pages, tags := Vector.replicate 2 none, current := 0 }

/-- LEASE enters the M queue: the spill area is checked and pinned and H = 14; the state becomes WAITING, unless a FREE
before it has still to issue (R142, R285, R306). -/
def execLease (da : HReg) (nt : NtField) (s : State) : Out :=
  let ha := s.handle 0 da
  s.enqueue .m [] (do
    require (!s.me.lease.reckoned) codeLease s.leaseInfo
    let pages ← checkImage s s.cur ha da spillBytes true
    checkNotify nt (s.descriptor nt)
    pure ({ s.newEntry .m (.lease da nt) with notify := s.descriptor nt, handles := [ha], pages := pages }, fun x =>
      { x with lease :=
          let l := if x.lease.state = .idle then x.lease.wait ha pages x.pc (slotCode (engCode .m) x.enqueued[(2 : Fin 5)]) else x.lease
          { l with reckoned := true, headroom := 14, enqueued := none, since := x.order
                   area := touches s.cur 0 pages true [(hBase ha, spillBytes)] } }))

/-- FREE enters the M queue, and the lease counts as IDLE from here in program order (R285). -/
def execFree (nt : NtField) (s : State) : Out :=
  s.enqueue .m [] (do
    checkLease s.me
    checkNotify nt (s.descriptor nt)
    pure ({ s.newEntry .m (.free nt) with notify := s.descriptor nt },
      fun x => { x with lease := { x.lease with reckoned := false } }))

/-! ## SHELF -/

/-- The most elements of a shelf column, by format (R148). -/
def shelfDepth (efmt : Nat) : Nat := match codeBits efmt with | 4 => 64 | 8 => 32 | _ => 16

/-- The tag of a B tile (R148). -/
def tileTag (x : CoreState) (h : HandleBits) : ShelfTag :=
  { base := BitVec.ofNat 64 (hBase h), efmt := BitVec.ofNat 4 (hEfmt h), d0 := hDim h 0, d1 := hDim h 1
    st1 := BitVec.ofNat 32 (hbits h 160 32), gen := hGen h, g := x.gen }

/-- SHELF enters the M queue with its tag (R148, R339). -/
def execShelf (da : HReg) (nt : NtField) (s : State) : Out :=
  let ha := s.handle 0 da
  s.enqueue .m [] (do
    checkLease s.me
    let pages ← checkHandle s s.cur ha da warmSpaces false
    require (decide (hEfmt ha ≤ 4)) codeHandle da.toNat
    require (hDim ha 0 % 8 == 0 && decide (hDim ha 0 ≤ shelfDepth (hEfmt ha) ∧ hDim ha 1 ≤ 256) && hDim ha 2 == 1 &&
      hDim ha 3 == 1) codeHandleRange da.toNat
    let touch := touches s.cur 0 pages false (hExtent ha)
    checkAlias s touch (destTouches s.me)
    checkNotify nt (s.descriptor nt)
    let tag := tileTag s.me ha
    pure ({ s.newEntry .m (.shelf da nt) with
            notify := s.descriptor nt, handles := [ha], pages := pages, touch := touch, tag := some tag
            acquire := hOrdc ha == 1 },
      fun x => { x with lease := { x.lease with enqueued := some tag } }))

/-! ## MMA -/

/-- A LOCAL table as a piece. -/
def tablePiece (used : Bool) (base n : Nat) : List (Nat × Nat) := if used then [(base, n)] else []

/-- Limits of a streamed operand: D0 = k, at most 256 rows or columns, flat (R150). -/
def operandShape (h : HandleBits) (k : Nat) : Bool :=
  hDim h 0 == k && decide (hDim h 1 ≤ 256) && hDim h 2 == 1 && hDim h 3 == 1

/-- The checks of an MMA from step 2 of R150 on, for A and a B that is streamed or on the shelf; the result is its entry
and its headroom. -/
def mmaCheck (s : State) (i : Instr) (da : HReg) (b : Option HReg) (kv : Word) (nt : NtField) :
    Check (QEntry × (CoreState → CoreState)) := do
  let ha := s.handle 0 da
  let k := kv.toNat % 2 ^ 32
  let nb := k / 8
  checkLease s.me
  let w ← popFormat s.me
  let cols := match b with
    | some db => hDim (s.handle 1 db) 1
    | none => match s.me.lease.enqueued with | some t => t.d1 | none => 0
  require (mmaFormatOk w (hDim ha 1 * nb) (cols * nb)) codeFormatWord w.toNat
  let pa ← checkR92 s s.cur ha da false
  checkSlot ha w
  let bs ← match b with
    | some db => do
      let hb := s.handle 1 db
      let pb ← checkR92 s s.cur hb db false
      checkSlot hb w
      pure [(hb, db, pb)]
    | none => pure []
  require (k % 8 == 0 && decide (8 ≤ k ∧ k ≤ 65528)) codeHandleRange da.toNat
  require (operandShape ha k) codeHandleRange da.toNat
  require (hEfmt ha == fmtA w) codeFormatWord w.toNat
  for x in bs do
    require (operandShape x.1 k) codeHandleRange x.2.1.toNat
    require (hEfmt x.1 == fmtB w) codeFormatWord w.toNat
  acceptSpace ha warmSpaces
  for x in bs do
    acceptSpace x.1 warmSpaces
  match b, s.me.lease.enqueued with
  | none, some t => require (t.d0 == k && t.efmt.toNat == fmtB w) codeShelf 0
  | none, none => .error (.trap codeShelf 0)
  | _, _ => pure ()
  let tables := tablePiece (fmtAsc w) (fmtATab w) (hDim ha 1 * nb) ++ tablePiece (fmtBsc w) (fmtBTab w) (cols * nb)
  let touch := touches s.cur 0 pa false (hExtent ha) ++
    (bs.flatMap fun x => touches s.cur 0 x.2.2 false (hExtent x.1)) ++ touches s.cur 0 [] false tables
  checkAlias s touch (destTouches s.me)
  require (decide (s.me.lease.headroom + headroomOf nb ≤ 14)) codeHeadroom s.me.lease.headroom
  checkNotify nt (s.descriptor nt)
  pure ({ s.newEntry .m i with
          sa := BitVec.ofNat 64 k, notify := s.descriptor nt, handles := ha :: bs.map fun x => x.1
          pages := pa ++ bs.flatMap fun x => x.2.2
          touch := touch, fmtWord := w, tag := if b.isNone then s.me.lease.enqueued else none
          acquire := hOrdc ha == 1 || bs.any fun x => hOrdc x.1 == 1 },
    fun x => { x with
      fmtQ := x.fmtQ.drop 1, dirtyQ := true
      lease := { x.lease with headroom := x.lease.headroom + headroomOf nb } })

/-- MMA.stream enters the M queue (R150, R316). -/
def execMmaStream (da db : HReg) (sa : SReg) (nt : NtField) (s : State) : Out :=
  s.enqueue .m [sa] (mmaCheck s (.mmaStream da db sa nt) da (some db) (s.src 0 sa) nt)

/-- MMA.shelf enters the M queue (R149, R150, R316). -/
def execMmaShelf (da : HReg) (sa : SReg) (nt : NtField) (s : State) : Out :=
  s.enqueue .m [sa] (mmaCheck s (.mmaShelf da sa nt) da none (s.src 0 sa) nt)

/-! ## Accumulator words -/

/-- An accumulator word without memory: H becomes 0 (R80, R152). -/
def State.accWord (s : State) (i : Instr) (nt : NtField) : Out :=
  s.enqueue .m [] (do
    checkLease s.me
    checkNotify nt (s.descriptor nt)
    pure ({ s.newEntry .m i with notify := s.descriptor nt },
      fun x => { x with lease := { x.lease with headroom := 0 } }))

/-- NORM (R320). -/
def execNorm (nt : NtField) (s : State) : Out := s.accWord (.norm nt) nt
/-- ACCZ (R270). -/
def execAccz (nt : NtField) (s : State) : Out := s.accWord (.accz nt) nt

/-- ACCSV enters the M queue (R152, R270). -/
def execAccsv (da : HReg) (nt : NtField) (s : State) : Out :=
  let ha := s.handle 0 da
  s.enqueue .m [] (do
    checkLease s.me
    let pages ← checkImage s s.cur ha da accBytes true true
    let touch := touches s.cur 0 pages true [(hBase ha, accBytes)]
    checkAlias s touch (operandTouches s.me)
    checkNotify nt (s.descriptor nt)
    pure ({ s.newEntry .m (.accsv da nt) with
            notify := s.descriptor nt, handles := [ha], pages := pages, touch := touch, release := hOrdc ha == 2
            scope := handleScope ha }, id))

/-- The largest G among the row control words of an image (R271). -/
def imageHeadroom (s : State) (pages : List PageMap) (base : Nat) : Nat :=
  (List.range 2048).foldl (fun m r => max m (nbits (s.loadV s.cur pages (base + 0x80000 + 4 * r) 4) 16 5)) 0

/-- ACCLD enters the M queue; H becomes the largest G of the image as it stands (R152, R271). -/
def execAccld (da : HReg) (nt : NtField) (s : State) : Out :=
  let ha := s.handle 0 da
  s.enqueue .m [] (do
    checkLease s.me
    let pages ← checkImage s s.cur ha da accBytes false true
    let touch := touches s.cur 0 pages false [(hBase ha, accBytes)]
    checkAlias s touch []
    checkNotify nt (s.descriptor nt)
    let h := imageHeadroom s pages (hBase ha)
    pure ({ s.newEntry .m (.accld da nt) with
            notify := s.descriptor nt, handles := [ha], pages := pages, touch := touch, acquire := hOrdc ha == 1 },
      fun x => { x with lease := { x.lease with headroom := h } }))

/-! ## DRAIN -/

/-- The spaces of DRAIN's destination (R153). -/
def drainSpaces : Accepts := { localPad := false, die := false }

/-- What a DRAIN touches: its destination, which .add reads too, and the band-scale tables that its format word names (R83, R153, R166). -/
def drainTouch (c : CoreId) (pages : List PageMap) (h : HandleBits) (w : Word) (add : Bool) : List Touch :=
  let tables := if fmtBand w then [(fmtATab w, 2 * ((hDim h 1 + 63) / 64)), (fmtBTab w, 2 * ((hDim h 0 + 63) / 64))] else []
  touches c 0 pages true (hExtent h) ++ (if add then touches c 0 pages false (hExtent h) else []) ++ touches c 0 [] false tables

/-- The requirements of R153 on a DRAIN's destination, in their order: space, shape, format word, protection (R280). -/
def checkDrain (s : State) (h : HandleBits) (da : HReg) (w : Word) : Check Unit := do
  acceptSpace h drainSpaces
  require (decide (hDim h 0 ≤ 256 ∧ hDim h 1 ≤ 256) && hDim h 2 == 1 && hDim h 3 == 1) codeHandleRange da.toNat
  checkSlot h w
  require (hEfmt h == fmtO w) codeFormatWord w.toNat
  checkNotRO s h da drainSpaces

/-- DRAIN enters the M queue and pops a format word (R153, R280). -/
def execDrain (add : Bool) (da : HReg) (nt : NtField) (s : State) : Out :=
  let ha := s.handle 0 da
  s.enqueue .m [] (do
    checkLease s.me
    let w ← popFormat s.me
    require (drainFormatOk w add) codeFormatWord w.toNat
    let pages ← checkR92 s s.cur ha da false
    checkDrain s ha da w
    let touch := drainTouch s.cur pages ha w add
    checkAlias s (touch.filter fun t => t.write) (operandTouches s.me)
    checkNotify nt (s.descriptor nt)
    pure ({ s.newEntry .m (.drain add da nt) with
            notify := s.descriptor nt, handles := [ha], pages := pages, touch := touch, fmtWord := w
            release := hOrdc ha == 2, scope := handleScope ha },
      fun x => { x with fmtQ := x.fmtQ.drop 1, dirtyQ := true }))

/-! ## What M words do to the array -/

/-- Element (i, j) lies in accumulator row 8 i + j / 32, place j mod 32 (R77). -/
def accRow (i j : Nat) : Fin 2048 := Fin.ofNat 2048 (8 * i + j / 32)

/-- One code of a shelf: column j, element k of w bits (R144, R148). -/
def shelfCode (shelf : Vector Byte 8192) (w k j : Nat) : Nat :=
  let bit := k * w
  let at_ := j * 32 + bit / 8
  let byte := fun (n : Nat) => ((shelf[n]?).getD 0).toNat
  if w = 4 then nbits (byte at_) (bit % 8) 4
  else if w = 8 then byte at_
  else byte at_ + 256 * byte (at_ + 1)

/-- A shelf after a load of the tile h: columns at and past D1 read 0 (R148). -/
def loadShelf (s : State) (c : CoreId) (q : QEntry) (h : HandleBits) : Vector Byte 8192 :=
  let n := (hDim h 0 * efmtBits (hEfmt h) + 7) / 8
  Vector.ofFn fun k : Fin 8192 =>
    let col := k.val / 32
    if col < hDim h 1 ∧ k.val % 32 < n then s.readQ c q ((rowAddr h col 0 0 + k.val % 32) % 2 ^ 64) else 0

/-- The columns of B of an MMA. -/
def mmaCols (q : QEntry) : Nat :=
  match q.tag with
  | some t => t.d1
  | none => hDim (q.handles[1]?.getD 0) 1

/-- An operand of an MMA is empty (R317). -/
def mmaEmpty (q : QEntry) : Bool := hDim (q.handleAt 0) 1 == 0 || (q.tag.isNone && mmaCols q == 0)

/-- A(i, k) of an MMA; rows at or past D1 are 0. -/
def mmaA (s : State) (c : CoreId) (q : QEntry) (i k : Nat) : FVal :=
  let h := q.handleAt 0
  if i < hDim h 1 then operandValue (fmtA q.fmtWord) (s.elemQ c q (hEfmt h) (hElem h k i 0 0)) else .fin exactZero

/-- B(k, j) of an MMA, streamed or from the shelf whose number the entry keeps in `z`. -/
def mmaB (s : State) (c : CoreId) (q : QEntry) (k j : Nat) : FVal :=
  if j < mmaCols q then
    match q.tag with
    | some _ =>
      operandValue (fmtB q.fmtWord)
        (shelfCode ((s.array (dieOf c)).shelves[(Fin.ofNat 2 q.z.toNat : Fin 2)]) (codeBits (fmtB q.fmtWord)) k j)
    | none =>
      let h := q.handleAt 1
      operandValue (fmtB q.fmtWord) (s.elemQ c q (hEfmt h) (hElem h k j 0 0))
  else .fin exactZero

/-- A block scale from a LOCAL table, or 1.0 (R74, R83). -/
def blockScale (s : State) (c : CoreId) (q : QEntry) (used : Bool) (table n kb nb : Nat) : Exact :=
  if used then scaleExact (q.sees s (scratchBase c + table + n * nb + kb)).toNat else { neg := false, m := 1, e := 0 }

/-- One accumulator row under one block (R78, R79): a special BF16 operand taints the rows that use it. -/
def mmaBlock (s : State) (c : CoreId) (q : QEntry) (nb kb i g : Nat) (r : AccRow) : AccRow :=
  let cols := mmaCols q
  let as := (List.range 8).map fun k => mmaA s c q i (8 * kb + k)
  let js := (List.range 32).map fun k => 32 * g + k
  let bs := js.map fun j => (List.range 8).map fun k => mmaB s c q (8 * kb + k) j
  let uses := decide (i < hDim (q.handleAt 0) 1 ∧ 32 * g < cols)
  if uses && (as.any isSpecial || bs.any fun b => b.any isSpecial) then { r.applyBlock (Vector.replicate 32 exactZero) with sp := true }
  else
    let sa := blockScale s c q (fmtAsc q.fmtWord && decide (i < hDim (q.handleAt 0) 1)) (fmtATab q.fmtWord) i kb nb
    let fa := as.map finiteOr0
    let xs := (js.zip bs).map fun p =>
      blockResult fa (p.2.map finiteOr0) sa
        (blockScale s c q (fmtBsc q.fmtWord && decide (p.1 < cols)) (fmtBTab q.fmtWord) p.1 kb nb)
    r.applyBlock (Vector.ofFn fun k : Fin 32 => xs[k.val]?.getD exactZero)

/-- An MMA performs on the tile: every row, blocks ascending; G rises in every row; an empty operand changes nothing
(R78 to R80, R150, R317). -/
def performMma (s : State) (c : CoreId) (q : QEntry) : State :=
  if mmaEmpty q then s
  else
    let nb := q.sa.toNat / 8
    s.onArray (dieOf c) fun a =>
      { a with rows := a.rows.mapIdx fun n r =>
          ((List.range nb).foldl (fun r kb => mmaBlock s c q nb kb (n / 8) (n % 8) r) r).raiseG (headroomOf nb) }

/-- Bytes of the accumulator image (R77, R270). -/
def accImage (a : MxArray) : List Byte :=
  ((List.range 256).flatMap fun i => (List.range 256).flatMap fun j =>
    leBytes 8 ((a.rows[accRow i j].m[(Fin.ofNat 32 j : Fin 32)]).signExtend 64).toNat) ++
  a.rows.toList.flatMap fun r => leBytes 4 (r.sp.toNat * 2 ^ 31 + r.g.toNat * 2 ^ 16 + r.e.toNat)

/-- The accumulator from the bytes of an image that `byte` gives by offset (R77, R270). -/
def imageRows (word : Nat → Nat → Nat) : Vector AccRow 2048 :=
  Vector.ofFn fun n : Fin 2048 =>
    let i := n.val / 8
    let g := n.val % 8
    let cw := word (0x80000 + 4 * n.val) 4
    { m := Vector.ofFn fun j : Fin 32 => BitVec.ofNat 48 (word ((i * 256 + 32 * g + j.val) * 8) 8)
      e := BitVec.ofNat 12 cw, g := BitVec.ofNat 5 (nbits cw 16 5), sp := nbits cw 31 1 == 1 }

/-- A number of n bytes in the image of an ACCSV, at an offset: the access k, which lands behind those before it (R77, R270). -/
def imageOp (c : CoreId) (q : QEntry) (k n offset v : Nat) : MemOp :=
  { landOp c q k (if n = 8 then 9 else 8) { addr := hBase (q.handleAt 0) + offset, high := false } (.bytes (leBytes n v)) n with chain := some 0 }

/-- The accesses of an ACCSV, in ascending address: the mantissas, then the row control words (R77, R270). -/
def accsvOps (s : State) (c : CoreId) (q : QEntry) : List MemOp :=
  let a := s.array (dieOf c)
  ((List.range 65536).map fun k =>
    imageOp c q k 8 (8 * k) ((a.rows[accRow (k / 256) (k % 256)].m[(Fin.ofNat 32 k : Fin 32)]).signExtend 64).toNat) ++
  a.rows.toList.zipIdx.map fun r =>
    imageOp c q (65536 + r.2) 4 (0x80000 + 4 * r.2) (r.1.sp.toNat * 2 ^ 31 + r.1.g.toNat * 2 ^ 16 + r.1.e.toNat)

/-- ACCLD loads the bytes that it read at its issue (R270, R271). -/
def performAccld (s : State) (c : CoreId) (q : QEntry) : State :=
  s.onArray (dieOf c) fun a => { a with rows := imageRows fun o n => s.loadQ c q (hBase (q.handleAt 0) + o) n }

/-- A band scale of a DRAIN, or 1.0 (R82, R83). -/
def bandScale (s : State) (c : CoreId) (w : Word) (table n : Nat) : Tagged :=
  if fmtBand w then bandValue (s.load (scratchBase c + table + 2 * (n / 64)) 2)
  else { value := .fin { neg := false, m := 1, e := 0 }, nan := 0, given := false }

/-- One element of a DRAIN (R82, R153, R280). -/
def drainOp (s : State) (c : CoreId) (q : QEntry) (add : Bool) (i j k : Nat) : MemOp :=
  let h := q.handleAt 0
  let w := q.fmtWord
  let row := (s.array (dieOf c)).rows[accRow i j]
  let y := ((row.element (Fin.ofNat 32 j)).mul (bandScale s c w (fmtATab w) i)).mul (bandScale s c w (fmtBTab w) j)
  let e := hElem h j i 0 0
  let rz := fmtRnd w == 1
  landOp c q k (hEfmt h) e
    (if add then .addTo y (fmtO w) rz else elemEffect (nibbleOf (hEfmt h) e) (efmtBytes (hEfmt h)) (y.code (fmtO w) rz))
    (stepBytes (efmtBits (hEfmt h)) j)

/-- The elements of a DRAIN, as the array converts them at its issue: in ascending i and then j (R153, R280). -/
def drainOps (s : State) (c : CoreId) (q : QEntry) (add : Bool) : List MemOp :=
  let h := q.handleAt 0
  (List.range (hDim h 1 * hDim h 0)).map fun k => drainOp s c q add (k / hDim h 0) (k % hDim h 0) k

/-- What an M word does to the array when it retires. A SHELF that loads fills the shelf that its issue chose and kept in `z`, and
that shelf is then current (R148). -/
def performM (s : State) (c : CoreId) (q : QEntry) : State :=
  match q.instr with
  | .shelf _ _ =>
    if q.guardTrue then
      let k : Fin 2 := Fin.ofNat 2 q.z.toNat
      (s.onArray (dieOf c) fun a => { a with shelves := a.shelves.set k (loadShelf s c q (q.handleAt 0)) }).onCore c fun x =>
        { x with lease := { x.lease with current := k } }
    else s
  | .mmaStream _ _ _ _ | .mmaShelf _ _ _ => performMma s c q
  | .norm _ => s.onArray (dieOf c) fun a => { a with rows := a.rows.map AccRow.norm }
  | .accz _ => s.onArray (dieOf c) fun a => { a with rows := Vector.replicate 2048 AccRow.zero }
  | .accld _ _ => performAccld s c q
  | _ => s

/-- Bytes an M command writes through its destination (R178). -/
def mBytes (q : QEntry) : Nat :=
  match q.instr with
  | .drain _ _ _ => extentBytes (q.handleAt 0)
  | .accsv _ _ => accBytes
  | _ => 0

/-! ## What crosses (R144, R151, R359) -/

/-- Bits an MMA crosses (R151). -/
def mmaBits (q : QEntry) : Nat :=
  let w := codeBits (fmtA q.fmtWord)
  let rows := hDim (q.handleAt 0) 1
  let k := q.sa.toNat
  let cols := mmaCols q
  rows * k * w + (if fmtAsc q.fmtWord then rows * (k / 8) * 8 else 0) +
    (if fmtBsc q.fmtWord then cols * (k / 8) * 8 else 0) + (if q.tag.isNone then cols * k * w else 0)

/-- Pulses an MMA lasts (R151). -/
def mmaPulses (q : QEntry) : Nat :=
  let k := q.sa.toNat
  let pa := match codeBits (fmtA q.fmtWord) with | 4 => k / 4 | 8 => k / 2 | _ => 2 * k
  max pa ((mmaBits q + 8191) / 8192)

/-- The stream of an M word that crosses; none for one that crosses nothing. -/
def mStream (c : CoreId) (q : QEntry) (startAt : Nat) : Option Stream :=
  let base : Stream :=
    { core := c, number := some q.order, inward := true, bits := 0, moved := 0, pulses := 0, ran := 0, charge := 0, startAt := startAt }
  match q.instr with
  | .shelf _ _ =>
    let h := q.handleAt 0
    let n := hDim h 1 * hDim h 0 * efmtBits (hEfmt h)
    if q.guardTrue = false ∨ n = 0 then none else some { base with bits := n }
  | .mmaStream _ _ _ _ | .mmaShelf _ _ _ =>
    if mmaEmpty q then none else some { base with bits := mmaBits q, pulses := mmaPulses q }
  | .norm _ => some { base with charge := 2097152 }
  | .accz _ => some { base with charge := 131072 }
  | .accsv _ _ => some { base with inward := false, bits := accBytes * 8 }
  | .accld _ _ => some { base with bits := accBytes * 8 }
  | .drain _ _ _ =>
    let n := hCount (q.handleAt 0) * codeBits (fmtO q.fmtWord)
    if n = 0 then none else some { base with inward := false, bits := n }
  | _ => none

end Sys2Proof.Machine
end

