-- ==== Sys2Proof/Machine/Meter.lean ====
section
/-! DEFINITION. The heat-load meter (R16, R17, R110 to R116), the energy quotas it charges (R205), the grid's admission
request (R134, R135, R140), and the array's requests (R111, R359). Amounts are in units of 0.2 fJ. -/

namespace Sys2Proof.Machine

open Sys2Proof

/-! ## Charges -/

/-- Units of one bit inward and outward, of one grid operation, one bare move, and one pulse of the 65,536 cells (R16). -/
def bitInUnits : Nat := 10
def bitOutUnits : Nat := 40
def opUnits : Nat := 10
def moveUnits : Nat := 1
def pulseUnits : Nat := 131072
/-- The static term of a window. -/
def staticUnits : Nat := 2304000000

/-- A graph whose charges have reached its quota is not dispatched again in this period, and each of its tasks is pre-empted
for quota, after a heat-pause trap where the graph takes them (R205). -/
def State.quotaTest (s : State) (g : Nat) : State :=
  match s.graphById g with
  | none => s
  | some x =>
    if x.quota = 0 ∨ x.exhausted ∨ x.quse < x.quota.toNat * 5 then s
    else
      let t := s.onGraph g fun y => { y with exhausted := true }
      (t.coresOf g).foldl (fun s c =>
        if (s.core c).mode = .running ∨ (s.core c).mode = .resuming then
          let u := s.onCore c fun y => { y with preempt := match y.preempt with | some k => some k | none => some 2 }
          if x.hpt then u.postTrap c { code := codeHeatPause, info := 0, slot := 0, addr := (s.core c).pc } else u
        else s) t

/-- A charge of a core's task goes to its graph's period (R205). -/
def State.chargeGraph (s : State) (c : CoreId) (units : Nat) : State :=
  match (s.core c).task with
  | none => s
  | some t => (s.onGraph t.graph fun g => { g with quse := g.quse + units }).quotaTest t.graph

/-- The meter's decision on a request (R112). -/
def Meter.fits (m : Meter) (units : Nat) : Bool := decide (m.total + units ≤ m.budget * 5)

/-- The meter grants a request: it fits, and the module is COLD (R112, R265). -/
def State.grants (s : State) (units : Nat) : Bool := s.owner.mstat.getLsbD 2 && s.meter.fits units

/-- A granted amount joins the window total (R112). -/
def State.addTotal (s : State) (units : Nat) : State := { s with meter := { s.meter with total := s.meter.total + units } }

/-! ## Windows (R110, R113, R116, R259) -/

/-- The budget that a written value gives (R113). -/
def clampBudget (fj : Nat) : Nat := min (max (fj % 2 ^ 32) 461848576) 3072000000

/-- The end of a window posts a heat-threshold trap on each task that runs and asks for it, one at a time (R116). A core that still loads its
task has not its TE and LEVEL. -/
def State.heatThreshold (s : State) (total last : Nat) : State :=
  (List.finRange 64).foldl (fun s c =>
    let x := s.core c
    if x.task.isSome ∧ (x.mode = .running ∨ x.mode = .saving) ∧ x.heatEnable ∧ x.heatLevel.toNat * 5 ≤ total ∧ (x.traps.any fun t => t.code == codeHeatThreshold) = false then
      s.postTrap c { code := codeHeatThreshold, info := BitVec.ofNat 64 last, slot := 0, addr := x.pc }
    else s) s

/-- METER_WINDOW_START: the ended window's total goes to HLAST, the total starts at the static term, and a budget written at
least 1 wc before takes effect (R110, R115, R116, R259). -/
def execMeterWindowStart (s : State) : Out :=
  let ended := s.meter.total
  let m := s.meter
  let due := m.pending.filter fun w => decide (w.2 + 1 ≤ s.clock)
  let t := { s with meter := { m with
    total := staticUnits, atStart := staticUnits, last := ended / 5
    budget := match due.getLast? with | some w => clampBudget w.1 | none => m.budget
    pending := m.pending.filter fun w => decide (s.clock < w.2 + 1) } }
  .next (t.heatThreshold ended (ended / 5))

/-! ## Lanes (R103) -/

def laneAt (l : List Nat) (k : Nat) : Nat := l[k]?.getD 0
/-- Booking n words in the wc k from now. -/
def bookLane (l : List Nat) (k n : Nat) : List Nat :=
  let m := l ++ List.replicate (k + 1 - l.length) 0
  m.set k (laneAt m k + n)

/-- Every free lane from wc k onward until n words are placed; the answer names the wc of the last (R134). -/
def bookRun (cap : Nat) : Nat → Nat → Nat → List Nat → List Nat × Nat
  | 0, k, _, l => (l, k)
  | fuel + 1, k, n, l =>
    let room := min n (cap - laneAt l k)
    let l' := if room = 0 then l else bookLane l k room
    if n - room = 0 then (l', k) else bookRun cap fuel (k + 1) (n - room) l'

/-! ## One meter wc: the state and the cores whose gate was refused -/

structure MeterRun where
  s : State
  refused : List CoreId
  deriving DecidableEq, Repr

/-- The meter refuses a request of core c's gate (R114). -/
def MeterRun.refuse (x : MeterRun) (c : CoreId) : MeterRun :=
  { x with refused := if x.refused.contains c then x.refused else x.refused ++ [c] }

/-- A front board or a READY back board with VGATE gates the rows (R128). -/
def Grid.gating (g : Grid) : Bool := g.front.vgate || (g.back.status == .ready && g.back.vgate)

/-- A pre-empted grid forms no request after the next one (R141). -/
def Grid.frozen (g : Grid) (now : Nat) : Bool := match g.freezeAt with | some f => decide (f < now) | none => false

/-! ### XIN and XOUT (R107, R111, R128, R134) -/

/-- A crossing word makes its request while its task runs (R109): it has begun, its warm reads may perform, its first word can
cross in the next wc, and a gated row is EMPTY. -/
def crossAsks (s : State) (c : CoreId) (x : CrossState) : Bool :=
  let g := s.grid c
  let v : Fin 2 := Fin.ofNat 2 (gridEl x.place)
  !x.granted && decide (x.startAt ≤ s.clock) && (s.core c).works &&
    (if x.inward then
      decide (laneAt g.laneIn 1 < 64) && !(x.row && g.gating && g.rows[v] != .empty) &&
        (match findEntry (s.core c) .a x.number with | some q => !(accessHeld s c .a q q.touch) | none => false)
     else decide (laneAt g.laneOut 1 < 8))

/-- The words an XIN crosses: its tensor, then zeros (R107). -/
def xinWords (s : State) (c : CoreId) (x : CrossState) : List Word32 :=
  let n := crossWords x.row
  match findEntry (s.core c) .a x.number with
  | some q => (s.packAll c q (q.handleAt 0) ++ List.replicate n 0).take n
  | none => List.replicate n 0

/-- The request of one XIN or XOUT (R111). -/
def askCross (c : CoreId) (r : MeterRun) (x : CrossState) : MeterRun :=
  let s := r.s
  if crossAsks s c x = false then r
  else
    let n := crossWords x.row
    let units := n * 32 * (if x.inward then bitInUnits else bitOutUnits)
    if s.grants units = false then r.refuse c
    else
      let g := s.grid c
      let b := if x.inward then bookRun 64 (g.laneIn.length + n) 1 n g.laneIn else bookRun 8 (g.laneOut.length + n) 1 n g.laneOut
      let lastAt := s.clock + b.2
      let v : Fin 2 := Fin.ofNat 2 (gridEl x.place)
      let t := (s.addTotal units).onGrid c fun g =>
        { g with
          laneIn := if x.inward then b.1 else g.laneIn
          laneOut := if x.inward then g.laneOut else b.1
          rows := if x.inward && x.row && g.gating then g.rows.set v .filling else g.rows
          crossing := g.crossing.map fun y =>
            if y.number = x.number then
              { y with granted := true, lastAt := lastAt
                       readyAt := if x.inward then lastAt + 1 else s.clock + 1 }
            else y }
      { r with s := t.chargeGraph c units }

/-! ### GCFG (R111, R130) -/

/-- The request for one wc of image words, which are read once everything has landed that lands in the wc (R156). -/
def askLoad (c : CoreId) (r : MeterRun) : MeterRun :=
  let s := r.s
  let g := s.grid c
  match g.load with
  | none => r
  | some l =>
    let n := min l.left (64 - laneAt g.laneIn 1)
    if n = 0 ∨ s.clock < l.startAt then r
    else
      let units := n * 32 * bitInUnits
      if s.grants units = false then r.refuse c
      else
        let t := (s.addTotal units).onGrid c fun g =>
          { g with laneIn := bookLane g.laneIn 1 n, load := some { l with left := l.left - n } }
        let u := if l.left = n then t.timer (s.clock + 2) (.gcfgLoadEnd c) else t
        { r with s := u.chargeGraph c units }

/-! ### Cold words of an image (R141, R205) -/

/-- The request for one wc of an image's cold words, at the core's grid gate behind its iterations (DESIGN CHOICE, log 37): outward
for a save, at most 8, and inward for a resume, at most 64, on the lanes that the wc leaves (R103, R141). -/
def askImage (c : CoreId) (r : MeterRun) : MeterRun :=
  let s := r.s
  let x := s.core c
  let g := s.grid c
  let out : Bool := x.mode == .saving
  let n := min x.coldLeft (if out then 8 - laneAt g.laneOut 1 else 64 - laneAt g.laneIn 1)
  if n = 0 then r
  else
    let units := n * 32 * (if out then bitOutUnits else bitInUnits)
    if s.grants units = false then r.refuse c
    else
      let t := ((s.addTotal units).onCore c fun x => { x with coldLeft := x.coldLeft - n }).onGrid c fun g =>
        if out then { g with laneOut := bookLane g.laneOut 1 n } else { g with laneIn := bookLane g.laneIn 1 n }
      { r with s := t.chargeGraph c units }

/-! ### Iterations (R134, R135, R140) -/

/-- A member of a spine while its request forms: what the candidates so far take from it. -/
structure Member where
  core : CoreId
  swapped : Bool
  rp : Fin 2
  claimed : List (Fin 2)
  inUsed : Vector Nat 8
  outUsed : Vector Nat 8
  laneIn : List Nat
  laneOut : List Nat
  cost : Nat
  deriving DecidableEq, Repr

/-- Whether the rows are gated for a member's pass: after a swap the old front board drains, and only the new one counts (R128,
R131). -/
def Member.gating (m : Member) (s : State) : Bool :=
  if m.swapped then (s.grid m.core).back.vgate else (s.grid m.core).gating

/-- The front board a member's pass runs under. -/
def Member.front (m : Member) (s : State) : Board := if m.swapped then (s.grid m.core).back else (s.grid m.core).front

/-- Row RP will be FULL at a pass of the next wc (R134). -/
def Member.rowFull (m : Member) (s : State) : Bool :=
  let g := s.grid m.core
  !(m.claimed.contains m.rp) &&
    (g.rows[m.rp] == .full ||
      (g.rows[m.rp] == .filling && g.crossing.any fun x =>
        x.inward && x.row && x.granted && (Fin.ofNat 2 (gridEl x.place) : Fin 2) == m.rp && decide (x.lastAt ≤ s.clock)))

/-- The wc from now in which pulse p + off falls. -/
def wcOf (now p off : Nat) : Nat := (p + off) / 16 - now

/-- Words that one more iteration of a member takes from in r, and gives to out r (R127). -/
def Member.inWords (m : Member) (s : State) (r : Fin 8) : Nat :=
  if (s.grid m.core).inMask.getLsbD r.val then (m.front s).inWords r else 0
def Member.outWords (m : Member) (s : State) (r : Fin 8) : Nat :=
  if (s.grid m.core).outMask.getLsbD r.val then (m.front s).outWords r else 0

/-- The buffers of a member hold the words and the places that one more iteration takes (R134). -/
def Member.supplied (m : Member) (s : State) : Bool :=
  let x := s.core m.core
  (List.finRange 8).all fun r =>
    decide (m.inUsed[r] + m.inWords s r ≤ (x.inBuf[r]).words.length ∧
      (x.outBuf[r]).words.length + (x.outBuf[r]).reserved + m.outUsed[r] + m.outWords s r ≤ 256)

/-- A member with one more iteration whose pass begins at pulse p, or none where a condition of R134 fails. All its words are charged with its
admission (R111, R135; DEDUCED, log 98). -/
def Member.candidate (m : Member) (s : State) (p : Nat) : Option Member :=
  let g := s.grid m.core
  let x := s.core m.core
  let b := m.front s
  let reads := b.reads.filter fun r => g.inMask.getLsbD r.2.val
  let emits := b.emits.filter fun r => g.outMask.getLsbD r.2.2.val
  let laneIn := reads.foldl (fun l r => bookLane l (wcOf s.clock p r.1) 1) m.laneIn
  let laneOut := emits.foldl (fun l r => bookLane l (wcOf s.clock p (r.2.1 * b.ii + r.1)) 1) m.laneOut
  let lanes := (laneIn.all fun n => decide (n ≤ 64)) && laneOut.all fun n => decide (n ≤ 8)
  let row := !(m.gating s) || m.rowFull s
  if m.supplied s && lanes && row then
    some { m with
      rp := if m.gating s then m.rp + 1 else m.rp
      claimed := if m.gating s then m.claimed ++ [m.rp] else m.claimed
      inUsed := Vector.ofFn fun r => m.inUsed[r] + m.inWords s r
      outUsed := Vector.ofFn fun r => m.outUsed[r] + m.outWords s r
      laneIn := laneIn, laneOut := laneOut
      cost := m.cost + b.opCount * opUnits + b.bareCount * moveUnits + reads.length * 32 * bitInUnits +
        emits.length * 32 * bitOutUnits }
  else none

/-- A request in the making. -/
structure Request where
  /-- first pulse of the next pass -/
  pulse : Nat
  members : List Member
  /-- passes decided, in order, with the row of each member -/
  passes : List (PassRecord × List (CoreId × Option (Fin 2)))
  /-- a filler other than a GFILL pass has come: every later pass of the wc is one (R134) -/
  blocked : Bool
  swapped : Bool
  deriving DecidableEq, Repr

/-- Passes of the request that an order has supplied. -/
def Request.used (q : Request) (a : AdmitOrder) : Nat :=
  (q.passes.filter fun p => p.1.number == a.number && p.1.kind == (if a.fill then .filler else .iteration)).length

/-- The order that supplies the next pass: a GFILL or a bounded GRUN in queue order, then an unbounded GRUN: one that has issued behind an
unbounded GRUN comes first, and the unbounded one goes on behind it (R133, R134, R137; DESIGN CHOICE, log 32). -/
def nextOrder (g : Grid) (t : Nat) (q : Request) : Option AdmitOrder :=
  match g.admits.find? fun a => match a.left with | some n => decide (q.used a < n) | none => false with
  | some a => some a
  | none => g.admits.find? fun a => a.left == none && a.supplies t

/-- Decided passes and, up to a swap, what has run or runs, most recent first. -/
def Request.past (q : Request) (g : Grid) : List PassRecord :=
  if q.swapped then (q.passes.reverse.map Prod.fst).takeWhile (fun r => !r.swaps) ++
      ((q.passes.reverse.map Prod.fst).filter fun r => r.swaps)
  else q.passes.reverse.map Prod.fst ++ g.running.toList ++ g.history

/-- Adding a pass. -/
def Request.push (q : Request) (g : Grid) (kind : PassKind) (number ii : Nat) (swaps : Bool) (rows : List (CoreId × Option (Fin 2))) :
    Request :=
  { q with
    pulse := q.pulse + ii
    passes := q.passes ++
      [({ kind := kind, row := none, number := number, inMask := g.inMask, outMask := g.outMask, pulse := q.pulse, swaps := swaps }, rows)] }

/-- A candidate of every member, or none. -/
def allCandidates (s : State) (p : Nat) (ms : List Member) : Option (List Member) := ms.mapM fun m => m.candidate s p

/-- Deciding the passes whose first pulse falls in the next wc, one by one (R131, R134, R140). `supply` is false while the
spine admits nothing; nor does it under front boards that differ in II. -/
def decide_ (s : State) (h : CoreId) (supply : Bool) : Nat → Request → Request
  | 0, q => q
  | fuel + 1, q =>
    let g := s.grid h
    if 16 * (s.clock + 2) ≤ q.pulse then q
    else
      let stages := q.members.foldl (fun n m => max n (m.front s).stages) 1
      let live := inFlight stages (q.past g)
      let due := !q.swapped && !(s.spineWaits (q.members.map Member.core)) && (match g.swap with | some w => swapDue w q.pulse | none => false)
      let swaps := due && !live
      let q1 := if swaps then { q with swapped := true, members := q.members.map fun m => { m with swapped := true } } else q
      let ii := match q1.members with | m :: _ => (m.front s).ii | [] => 16
      let differ := q1.members.any fun m => (m.front s).ii != ii
      let order := if (due && live) || !supply || differ then none else nextOrder g s.clock q1
      match order with
      | none =>
        if live then decide_ s h supply fuel (q1.push g .drain 0 ii swaps [])
        else if swaps then decide_ s h supply fuel (q1.push g .idle 0 ii swaps [])
        else q
      | some a =>
        if a.fill then decide_ s h supply fuel (q1.push g .filler a.number ii swaps [])
        else
          match if q1.blocked then none else allCandidates s q1.pulse q1.members with
          | some ms =>
            let rows := q1.members.map fun m => (m.core, if m.gating s then some m.rp else none)
            decide_ s h supply fuel ({ q1 with members := ms }.push g .iteration a.number ii swaps rows)
          | none => decide_ s h supply fuel ({ q1 with blocked := true }.push g .filler a.number ii swaps [])

/-- The words of in r that the pass of an iteration that runs over the wc's end has still to read: they are reserved (R134). -/
def Grid.inPending (g : Grid) (r : Fin 8) : Nat :=
  match g.running with
  | some p => if p.kind = .iteration ∧ p.inMask.getLsbD r.val then
      (g.front.reads.filter fun x => x.2 == r && decide (g.ran ≤ x.1)).length else 0
  | none => 0

/-- A spine's request as it begins: at the pulse where its next pass starts, or at the next wc boundary where it is idle. -/
def Request.start (s : State) (h : CoreId) (ms : List CoreId) (blocked : Bool) : Request :=
  { pulse := max (s.grid h).nextPulse (16 * (s.clock + 1))
    members := ms.map fun c =>
      let g := s.grid c
      { core := c, swapped := false, rp := g.rp, claimed := [], inUsed := Vector.ofFn g.inPending, outUsed := Vector.replicate 8 0
        laneIn := g.laneIn, laneOut := g.laneOut, cost := 0 }
    passes := []
    blocked := blocked
    swapped := false }

/-- The decided passes enter every member's plan; a granted request books its lanes and reserves its places. -/
def commitRequest (s : State) (q : Request) : State :=
  q.members.foldl (fun s m =>
    let t := s.onGrid m.core fun g =>
      { g with
        laneIn := m.laneIn, laneOut := m.laneOut
        plan := g.plan ++ q.passes.map fun p =>
          { p.1 with
            inMask := g.inMask, outMask := g.outMask
            row := match p.2.find? fun r => r.1 == m.core with | some r => r.2 | none => none } }
    t.onCore m.core fun x =>
      { x with outBuf := Vector.ofFn fun r => { x.outBuf[r] with reserved := (x.outBuf[r]).reserved + m.outUsed[r] } }) s

/-- Whether a spine admits: its members answer, and none is frozen (R141). -/
def spineSupplies (s : State) (ms : List CoreId) : Bool :=
  !s.spineWaits ms && !(ms.any fun c => (s.grid c).frozen s.clock)

/-- The request for a spine's iterations at its head's gate, all or none (R111, R134, R140). A refused candidate is a filler,
and so is every later pass of the wc. -/
def askIterations (h : CoreId) (r : MeterRun) : MeterRun :=
  let s := r.s
  if s.spineHead h ≠ h ∨ (s.grid h).plan ≠ [] then r
  else
    let ms := s.spine h
    let supply := spineSupplies s ms
    let q := decide_ s h supply 17 (Request.start s h ms false)
    if q.passes.any fun p => p.1.kind == .iteration then
      let units := (q.members.map Member.cost).sum
      if s.grants units then
        { r with s := q.members.foldl (fun s m => s.chargeGraph m.core m.cost) (commitRequest (s.addTotal units) q) }
      else
        { r with s := commitRequest s (decide_ s h supply 17 (Request.start s h ms true)) }.refuse h
    else { r with s := commitRequest s q }

/-! ### Arrays (R111, R147, R359) -/

/-- Bits and pulses a stream asks for in one wc, when `free` bits of the inbound lanes are left. -/
def Stream.wants (x : Stream) (free : Nat) : Nat × Nat :=
  if x.pulses = 0 then (min (x.bits - x.moved) (if x.inward then free else 16384), 0)
  else
    let n := min 16 (x.pulses - x.ran)
    ((x.ran + n) * x.bits / x.pulses - x.ran * x.bits / x.pulses, n)

/-- Units of a stream's wc. -/
def Stream.units (x : Stream) (w : Nat × Nat) : Nat :=
  x.charge + w.1 * (if x.inward then bitInUnits else bitOutUnits) + w.2 * pulseUnits

/-- Everything of a stream has crossed. -/
def Stream.over (x : Stream) : Bool := decide (x.bits ≤ x.moved ∧ x.pulses ≤ x.ran ∧ x.charge = 0)

/-- What follows a stream's last granted wc: its word retires within its bound, or its spill ends. -/
def State.streamEnds (s : State) (d : DieId) (x : Stream) : State :=
  match x.number with
  | some n =>
    let extra := if x.bits = 0 then 1 else if x.pulses = 0 then 8 else 24
    (s.timer (s.clock + 1 + s.freeNat 2 % extra) (.retirement x.core .m n)).bump
  | none => s.timer (s.clock + 1) (if x.inward then .spillRestoreEnd d else .spillSaveEnd d)

/-- One stream's request at an array gate; `free` is what is left of the inbound lanes in this wc. -/
def askStream (d : DieId) (r : MeterRun × Nat) (x : Stream) : MeterRun × Nat :=
  let s := r.1.s
  let w := x.wants r.2
  if s.clock < x.startAt ∨ (w.1 = 0 ∧ w.2 = 0 ∧ x.charge = 0) then r
  else
    let units := x.units w
    if s.grants units = false then (r.1.refuse x.core, r.2)
    else
      let y := { x with moved := x.moved + w.1, ran := x.ran + w.2, charge := 0 }
      let t := (s.addTotal units).onArray d fun a =>
        { a with streams := if y.over then a.streams.filter fun z => z != x else a.streams.map fun z => if z = x then y else z }
      let u := t.chargeGraph x.core units
      ({ r.1 with s := if y.over then u.streamEnds d y else u }, if x.inward then r.2 - w.1 else r.2)

/-- A holder in SAVING begins its spill once every issued M word has retired (R142, R144). -/
def beginSave (d : DieId) (s : State) : State :=
  match (s.array d).holder with
  | none => s
  | some l =>
    let c := coreOf d l
    let busy := ((s.core c).queue .m).any fun q => match q.status with | .issued _ => true | _ => false
    if (s.core c).lease.state = .saving ∧ busy = false ∧ ((s.array d).streams.any fun x => x.number == none) = false then
      s.onArray d fun a =>
        { a with streams := a.streams ++
            [{ core := c, number := none, inward := false, bits := spillBytes * 8, moved := 0, pulses := 0, ran := 0, charge := 0
               startAt := s.clock }] }
    else s

/-- The requests of an array's gate, in issue order (R111). -/
def askArray (d : DieId) (r : MeterRun) : MeterRun :=
  let s := beginSave d r.s
  ((s.array d).streams.foldl (askStream d) ({ r with s := s }, 131072)).1

/-! ### The wc (R112) -/

/-- The requests of one grid gate: XIN and XOUT, in issue order (DESIGN CHOICE, log 86), then GCFG, then iterations (R112), then an
image's cold words. -/
def askGrid (c : CoreId) (r : MeterRun) : MeterRun :=
  let s := r.s.onGrid c fun g => g.settle (16 * r.s.clock)
  askImage c (askIterations c (askLoad c ((s.grid c).crossing.foldl (askCross c) { r with s := s })))

/-- The requests of gate n: 0 to 63 grids, 64 to 67 arrays (R111). -/
def askGate (n : Nat) (r : MeterRun) : MeterRun :=
  if n < 64 then askGrid (Fin.ofNat 64 n) r else askArray (Fin.ofNat 4 (n - 64)) r

/-- METER_CYCLE: the gates in ascending index from g mod 68, wrapping; each refused core counts one wc (R112, R114). -/
def execMeterCycle (s : State) : Out :=
  let first := s.count % 68
  let r := (List.range 68).foldl (fun r k => askGate ((first + k) % 68) r) { s := s, refused := [] }
  let t := r.refused.foldl (fun s c => s.onCore c fun x => { x with hthr := x.hthr + 1 }) r.s
  .next t

end Sys2Proof.Machine
end

