-- ==== Sys2Proof/Machine/GEngine.lean ====
section
/-! DEFINITION. The G engine (R50): what its words check and capture at enqueue (R130, R131, R136 to R139, R288, R293, R294),
and what each does when it issues (R132, R133, R140, R295). -/

namespace Sys2Proof.Machine

open Sys2Proof

/-! ## Enqueue -/

/-- A G word that reads at most a scalar operand (R289, R291, R293, R294). -/
def State.gridWord (s : State) (i : Instr) (srcs : List SReg) (sa : Word) (nt : NtField) : Out :=
  s.enqueue .g srcs (do
    checkNotify nt (s.descriptor nt)
    pure ({ s.newEntry .g i with sa := sa, notify := s.descriptor nt }, id))

/-- GCFG enters the G queue (R130, R288). -/
def execGcfg (da : HReg) (nt : NtField) (s : State) : Out :=
  let ha := s.handle 0 da
  s.enqueue .g [] (do
    let pages ← checkHandle s s.cur ha da warmSpaces false
    require (hEfmt ha == 8) codeHandle da.toNat
    checkNotify nt (s.descriptor nt)
    pure ({ s.newEntry .g (.gcfg da nt) with
            notify := s.descriptor nt, handles := [ha], pages := pages
            touch := touches s.cur 0 pages false (hExtent ha), acquire := hOrdc ha == 1 }, id))

/-- GSWAP. -/
def execGswap (nt : NtField) (s : State) : Out := s.gridWord (.gswap nt) [] 0 nt
/-- GSWAPAT reads the count at enqueue. -/
def execGswapat (sa : SReg) (nt : NtField) (s : State) : Out := s.gridWord (.gswapat sa nt) [sa] (s.src 0 sa) nt
/-- GRUN reads N at enqueue. -/
def execGrun (sa : SReg) (nt : NtField) (s : State) : Out := s.gridWord (.grun sa nt) [sa] (s.src 0 sa) nt
/-- GHALT. -/
def execGhalt (nt : NtField) (s : State) : Out := s.gridWord (.ghalt nt) [] 0 nt
/-- GFILL reads its count at enqueue. -/
def execGfill (sa : SReg) (nt : NtField) (s : State) : Out := s.gridWord (.gfill sa nt) [sa] (s.src 0 sa) nt
/-- GSET reads the mask at enqueue. -/
def execGset (outmask : Bool) (sa : SReg) (nt : NtField) (s : State) : Out :=
  s.gridWord (.gset outmask sa nt) [sa] (s.src 0 sa) nt
/-- GLINK. -/
def execGlink (south part : Bool) (nt : NtField) (s : State) : Out := s.gridWord (.glink south part nt) [] 0 nt
/-- GSTAT names a destination, which it does not read. -/
def execGstat (sa : SReg) (nt : NtField) (s : State) : Out := s.gridWord (.gstat sa nt) [] 0 nt

/-! ## The status word (R138) -/

/-- Codes of a back board and of a row. -/
def boardCode : BoardStatus → Nat
  | .ready => 0 | .loading => 1 | .rejected => 2 | .draining => 3
def rowCode : RowStatus → Nat
  | .empty => 0 | .filling => 1 | .full => 2 | .held => 3

/-- The grid status word of a core. ADM of a member that is not the head shows its own orders (DESIGN CHOICE, log 95). -/
def State.gridStatus (s : State) (c : CoreId) : Word :=
  let g := (s.grid c).settle (16 * s.clock)
  BitVec.ofNat 64 (g.icnt.toNat * 2 ^ 32 + g.ign.toNat * 2 ^ 26 + g.dov.toNat * 2 ^ 25 + (s.mismatch (s.spine c)).toNat * 2 ^ 24 +
    g.joinSouth.toNat * 2 ^ 23 + g.joinNorth.toNat * 2 ^ 22 + (g.front.stages - 1) * 2 ^ 20 + g.front.ii * 2 ^ 15 +
    boardCode g.back.status * 2 ^ 12 + g.rp.val * 2 ^ 11 + rowCode g.rows[(1 : Fin 2)] * 2 ^ 9 + rowCode g.rows[(0 : Fin 2)] * 2 ^ 7 +
    (g.admits.any fun a => a.supplies s.clock).toNat * 2 ^ 6 + (s.flewNow c).toNat * 2 ^ 5)

/-! ## Issue (R133) -/

/-- Earlier G words that have issued and not retired let the next one issue: their last iteration is admitted, their last
filler has begun, or they take requests without end (R133). -/
def gridMayIssue (s : State) (c : CoreId) (q : QEntry) : Bool :=
  (earlier ((s.core c).queue .g) q).all fun f =>
    (s.grid c).admits.any fun a => a.number == f.order && (a.left == some 0 || a.left == none)

/-- A back board that a swap or a load may take: READY or REJECTED (R130, R131). -/
def Grid.backFree (g : Grid) : Bool := g.back.status == .ready || g.back.status == .rejected

/-- A G word retires at issue. -/
def State.gridDone (s : State) (c : CoreId) (q : QEntry) : State := s.soon (.retirement c .g q.order)

/-- A word that only the head of a spine may give: on another member it retires at issue and sets IGN (R140). -/
def State.headOnly (s : State) (c : CoreId) (q : QEntry) (f : State → State) : State :=
  if s.leads c then f s
  else (s.onGrid c fun g => { g with ign := true }).gridDone c q

/-- A G word that faults at issue has no effect, and no later G word issues: they wait for the trap, and once the task is stopped
they go (R132). -/
def State.swapFault (s : State) (c : CoreId) (q : QEntry) : State :=
  let t := s.onEntry c .g q.order fun x => { x with status := .waiting }
  if (s.core c).mode = .draining then
    (t.discard c ((t.core c).unissued .g)).onCore c fun x =>
      x.putQueue .g ((x.queue .g).filter fun e => e.status != .waiting || e.epoch != x.epoch)
  else t.postTrap c { code := codeConfiguration, info := 0, slot := q.slot .g, addr := q.pc }

/-- Issue of a swap: a REJECTED back board of any member is a configuration fault (R132, R295). -/
def issueSwap (s : State) (c : CoreId) (q : QEntry) (at_ : Option Word) : State :=
  if (s.spine c).any fun d => (s.grid d).back.status == .rejected then s.swapFault c q
  else s.onGrid c fun g => { g with swap := some (q.order, at_) }

/-- Issue of a GRUN or GFILL (R134, R136, R137). A HALT that holds acts as a GHALT on an unbounded GRUN (R296). -/
def issueAdmit (s : State) (c : CoreId) (q : QEntry) (fill : Bool) : State :=
  let n := q.sa.toNat % 2 ^ 32
  if fill ∧ n = 0 then s.gridDone c q
  else
    let ends := (s.core c).held == some .taskEnd
    s.onGrid c fun g =>
      { g with admits := g.admits ++
          [{ number := q.order, fill := fill, left := if n = 0 then none else some n
             haltAt := if n = 0 ∧ ends then some s.clock else none }] }

/-- Whether a G word may issue now, its own condition included: a swap waits for a member that is pre-empted (R141, R295), and a load for an
accepted write of its image (R157). -/
def gridReady (s : State) (c : CoreId) (q : QEntry) : Bool :=
  gridMayIssue s c q &&
    match q.instr with
    | .gcfg _ _ => (s.grid c).backFree && !(behindAccepted s c q q.touch)
    | .gswap _ | .gswapat _ _ => !(s.leads c) || (!(s.spineWaits (s.spine c)) && (s.spine c).all fun d => (s.grid d).backFree)
    | _ => true

/-- A G word issues (R133); `s` already holds its entry as issued. -/
def issueG (s : State) (c : CoreId) (q : QEntry) : State :=
  match q.instr with
  | .gcfg _ _ =>
    let h := q.handleAt 0
    let n := streamLength h
    let startAt := s.clock + 1 + s.freeNat 2 % (24 + q.accessT)
    let t := (s.onGrid c fun g =>
      { g with
        back := { g.back with status := .loading }
        load := some { number := q.order, words := [], left := n, startAt := startAt } }).bump
    if n = 0 then t.timer (s.clock + 1) (.gcfgLoadEnd c) else t
  | .gswap _ => s.headOnly c q fun s => issueSwap s c q none
  | .gswapat _ _ => s.headOnly c q fun s => issueSwap s c q (some q.sa)
  | .grun _ _ => s.headOnly c q fun s => issueAdmit s c q false
  | .gfill _ _ => s.headOnly c q fun s => issueAdmit s c q true
  | .ghalt _ => s.headOnly c q fun s => s.onGrid c fun g => g.stopRuns s.clock
  | .gset outmask _ _ =>
    (s.onGrid c fun g =>
      if outmask then { g with outMask := q.sa.setWidth 8 } else { g with inMask := q.sa.setWidth 8 }).gridDone c q
  | .glink south part _ =>
    match if south then southOf c else northOf c with
    | none => s.gridDone c q
    | some _ => s.onGrid c fun g => { g with edge := some (q.order, south, part) }
  | .gstat _ _ =>
    let t := s.onEntry c .g q.order fun x => { x with result := s.gridStatus c }
    (t.onGrid c fun g => { g with dov := false, ign := false }).retireWithin c .g q 2
  | _ => s

end Sys2Proof.Machine
end

