-- ==== Sys2Proof/Machine/Records.lean ====
section
/-! DEFINITION. Device physical addresses (R187) and error records (R264). -/

namespace Sys2Proof.Machine

open Sys2Proof

/-- n bytes from a device physical address lie inside the space it names; the model's number of such an address is its own
value (R187). -/
def dpaOk (a n : Nat) : Bool :=
  if a < hostBase then decide (a + n ≤ devSize) else decide (a - hostBase + n ≤ hostSize)

/-- The cause of a record (R264): its type, die and unit bytes, address and detail. -/
structure Record where
  type : Nat
  die : Nat
  unit : Nat
  addr : Nat
  detail : Nat
  deriving DecidableEq, Repr

/-- The error ring takes records: its size code is legal and the ring lies inside its space. -/
def Owner.ringOk (o : Owner) : Bool :=
  let sz := nbits o.errsz.toNat 0 4
  decide (4 ≤ sz) && dpaOk o.errbase.toNat (64 * 2 ^ sz)

/-- The ring is full. -/
def Owner.ringFull (o : Owner) : Bool := o.errhead - o.errtail == BitVec.ofNat 64 (2 ^ nbits o.errsz.toNat 0 4)

/-- The 64 bytes of a record. -/
def Record.bytes (r : Record) (events now : Nat) : List Byte :=
  leBytes 8 (r.type + r.die * 256 + r.unit * 65536 + events % 2 ^ 32 * 2 ^ 32) ++ leBytes 8 r.addr ++ leBytes 8 now ++
    leBytes 8 r.detail ++ List.replicate 32 0

/-- An event of a record type: a record is written at ERRHEAD, or it counts as lost (R264). -/
def State.errorRecord (s : State) (r : Record) : State :=
  let o := s.owner
  let t : Fin 16 := Fin.ofNat 16 r.type
  let events := o.events[t] + 1
  if o.ringOk && !o.ringFull then
    let at_ := o.errbase.toNat + 64 * (o.errhead.toNat % 2 ^ nbits o.errsz.toNat 0 4)
    { s.storeBytes at_ (r.bytes events.toNat s.clock) with
      owner := { o with errhead := o.errhead + 1, events := o.events.set t 0 } }
  else { s with owner := { o with errlost := o.errlost + 1, events := o.events.set t events } }

/-- A record whose detail the manual does not give: that word is free (R264, log 34). -/
def State.recordOf (s : State) (type die unit addr : Nat) : State :=
  (s.errorRecord { type := type, die := die, unit := unit, addr := addr, detail := s.freeNat 8 % 2 ^ 64 }).bump

/-- A record whose address the manual does not give either. -/
def State.recordNowhere (s : State) (type die unit : Nat) : State := s.recordOf type die unit (s.freeNat 9 % 2 ^ 64)

/-- The die byte of a record for an Ozpex port: the die that carries its optics (R13, R264). -/
def portDie (p : PortId) : Nat := p.val / 2

end Sys2Proof.Machine
end

