-- ==== Sys2Proof/Machine/Fabric.lean ====
section
/-! DEFINITION. The rotor fabric as one module sees it: the phase (R208), the width of a port (R209, R238, R249), send
queues and sequence numbers (R211, R217, R227), and admission with relay (R210, R212, R213, R335). -/

namespace Sys2Proof.Machine

open Sys2Proof

/-! ## The phase (R208) -/

/-- A slot of the active bank: its number since the epoch, its first wc, and the offset within it. -/
structure Slot where
  bank : Bank
  number : Nat
  start : Nat
  offset : Nat
  deriving DecidableEq, Repr

/-- The slot of this wc; none before the epoch, through DARK and RELOCK, and with no calendar (R208, R231). -/
def State.slot (s : State) : Option Slot :=
  match s.fabric.active with
  | none => none
  | some b =>
    if b.slen = 0 ∨ b.slots = 0 ∨ s.count < b.epoch then none
    else
      let u := s.count - b.epoch
      some { bank := b, number := u / b.slen, start := s.clock - u % b.slen, offset := u % b.slen }

/-- The index of a slot in its rotation, and the rotation. -/
def Slot.index (x : Slot) : Nat := x.number % x.bank.slots
def Slot.rotation (x : Slot) : Nat := x.number / x.bank.slots

/-- The first wc of the slot's guard. -/
def Slot.guardAt (x : Slot) : Nat := x.start + x.bank.slen - x.bank.guard

/-- The current phase value; all ones while no slot is open (R208, R312). -/
def State.phaseValue (s : State) : Word :=
  match s.slot with
  | none => 0xffffffffffffffff
  | some x => BitVec.ofNat 64 (x.rotation % 2 ^ 32 * 2 ^ 32 + x.index * 2 ^ 24 + x.offset)

/-- Phase value a is at or after b: rotations within a half-range window, then slot and offset (R67, R208). -/
def phaseReached (a b : Word) : Bool :=
  let d := (a.extractLsb' 32 32 - b.extractLsb' 32 32).toNat
  if d = 0 then decide ((b.extractLsb' 0 32).toNat ≤ (a.extractLsb' 0 32).toNat) else decide (d < 2 ^ 31)

/-- The phase has reached b (R225, R311, R312). -/
def State.phaseAt (s : State) (b : Word) : Bool := s.slot.isSome && phaseReached s.phaseValue b

/-- The peer of slot j on port p, or none where it is idle or past the rotation (R206). -/
def Bank.peer (b : Bank) (p : PortId) (j : Nat) : Option ModuleId :=
  if j < b.slots then (b.calendar[p][j]?).bind id else none

/-- A send to a module through a port can arrive (R216, R233). -/
def State.reachable (s : State) (p : PortId) (q : ModuleId) : Bool := q != s.fabric.self && (s.portPeers p).contains q

/-- Slots from the present one to the next that joins this module to d on port p (R210). -/
def Slot.until (x : Slot) (p : PortId) (d : ModuleId) : Option Nat :=
  ((List.range x.bank.slots).find? fun k => x.bank.peer p ((x.number + 1 + k) % x.bank.slots) == some d).map (· + 1)

/-! ## Width (R209, R238, R249) -/

/-- The number of ring i on fibre f, side d of port p (R247). -/
def ringIndex (p : PortId) (receive : Bool) (f i : Nat) : Nat := p.val * 144 + (if receive then 72 else 0) + f * 18 + i

/-- Some ring serves wavelength w of a transmit fibre (R249). -/
def State.served (s : State) (p : PortId) (f w : Nat) : Bool :=
  (List.range 18).any fun i => match s.rings[ringIndex p false f i]? with | some r => r.serves.toNat == w | none => false

/-- A transmit lane that carries flits: not shed, its group ON, its wavelength served (R238, R249). -/
def State.laneUsable (s : State) (p : PortId) (l : Nat) : Bool :=
  let x := s.port p
  !x.shed.getLsbD l && x.groups[l / 4]? == some .on && s.served p (l / 16) (l % 16)

/-- The bits that a port moves in a wc (R238). -/
def State.portWidth (s : State) (p : PortId) : Nat := 56 * ((List.range 64).filter (s.laneUsable p)).length

/-- Flits of a message: a header and 64 payload bytes each (R209). -/
def flitsOf (bytes : Nat) : Nat := 1 + (bytes + 63) / 64

/-- X, the wcs that a message of so many payload bytes takes at width w (R209, R238). -/
def transmitWc (bytes w : Nat) : Nat := (flitsOf bytes * 512 + w - 1) / w

/-! ## Send queues -/

/-- The pieces of a payload: 16 KiB each, the last shorter (R217). -/
def cutPayload (bytes : Nat) : List (Nat × Nat) :=
  (List.range ((bytes + 16383) / 16384)).map fun k => (k * 16384, min 16384 (bytes - k * 16384))

/-- A message that carries nothing yet. -/
def Msg.blank (dest : ModuleId) (cls : MsgClass) (body : MsgBody) (core : CoreId) : Msg :=
  { number := 0, dest := dest, cls := cls, seq := 0, body := body, owner := none, stepOf := none, epoch := 0, graph := none, handle := 0, pages := [],
    offset := 0, bytes := 0, dst := 0, places := [], relayOk := false, last := true, held := false, core := core, admittedAt := 0,
    width := 0, payload := [], via := none, forwarded := false, landsAt := 0 }

/-- A message that LHOLD may hold: not a reply, and not another module's (R227). -/
def Msg.holdable (m : Msg) : Bool := match m.body with | .pullReply | .forwarded _ => false | _ => true

/-- Whether a class keeps order (R211). -/
def ordered (c : MsgClass) : Bool := match c with | .d | .v => true | .f => false

/-- A message of this module, not one that it forwards. -/
def Msg.own (m : Msg) : Bool := match m.body with | .forwarded _ => false | _ => true

/-- A message of the same sequence has a lower number (R211). -/
def Msg.precedes (n m : Msg) : Bool := n.own && m.own && n.dest == m.dest && ordered n.cls && ordered m.cls && decide (n.number < m.number)

/-- A message joins its port's queue for its destination; an ordered one takes the next number of its sequence (R211, R217,
R227). -/
def State.appendMsg (s : State) (p : PortId) (m : Msg) : State :=
  s.onPort p fun x =>
    { x with
      queue := x.queue ++ [{ m with number := x.sent, seq := if ordered m.cls then x.seqOut[m.dest] else 0
                                    held := x.held && m.holdable }]
      sent := x.sent + 1
      seqOut := if ordered m.cls then x.seqOut.set m.dest (x.seqOut[m.dest] + 1) else x.seqOut }

/-- A payload cut into messages and appended in order (R217). -/
def State.appendAll (s : State) (p : PortId) (m : Msg) (bytes : Nat) : State :=
  (cutPayload bytes).foldl (fun s k =>
    s.appendMsg p { m with offset := k.1, bytes := k.2, dst := m.dst + k.1, last := k.1 + k.2 == bytes }) s

/-- The graph's PEND moves, and the graph is tested (R204). -/
def State.graphPend (s : State) (g : Nat) (by_ : Int) : State :=
  (s.onGraph g fun x => { x with pend := x.pend + by_ }).graphTest g

/-- Bytes that a message counts in its graph's PEND: those of a send (R204, R217). -/
def Msg.pendBytes (m : Msg) : Nat := match m.body with | .data | .reduce _ _ => m.bytes | _ => 0

/-- The L word whose last message this is, when it retires with the message's last flit (R223). -/
def Msg.retires (m : Msg) : Option Instr :=
  match m.body, m.owner with
  | .data, some o | .reduce _ _, some o => if m.last then some (.retirement o.1 .l o.2) else none
  | _, _ => none

/-- A message reported failed: off PEND as if delivered, one more failed send, and its word done (R232). -/
def State.failMsg (s : State) (m : Msg) : State :=
  let t := match m.graph with
    | some g => (s.onGraph g fun x => { x with failed := x.failed + 1 }).graphPend g (-(m.pendBytes : Int))
    | none => s
  match m.retires with | some e => t.soon e | none => t

/-! ## Payload bytes -/

/-- Codes packed densely, 4-bit ones two to a byte (R70). -/
def packCodes (bits : Nat) : List Nat → List Byte
  | [] => []
  | [v] => if bits = 4 then [BitVec.ofNat 8 (v % 16)] else leBytes (bits / 8) v
  | v :: w :: rest =>
    if bits = 4 then BitVec.ofNat 8 (v % 16 + w % 16 * 16) :: packCodes bits rest
    else leBytes (bits / 8) v ++ leBytes (bits / 8) w ++ packCodes bits rest

/-- The packed bytes of a tensor (R70, R91, R217). -/
def State.packedBytes (s : State) (c : CoreId) (pages : List PageMap) (h : HandleBits) : List Byte :=
  packCodes (efmtBits (hEfmt h)) ((hElems h).map fun e => s.loadElem c pages (hEfmt h) e)

/-- The relay and the resequencing segment of source module m on port p, past their headers (R214). -/
def State.relaySegment (s : State) (p : PortId) (m : ModuleId) : Nat :=
  s.fabric.rrbase.toNat + p.val * 0x202000 + m.val * 0x8080
def State.reseqSegment (s : State) (p : PortId) (m : ModuleId) : Nat := s.relaySegment p m + 0x4040

/-- A message stored in a segment; the header's content is free (R214). -/
def State.storeSegment (s : State) (at_ : Nat) (payload : List Byte) : State :=
  if at_ + 0x4040 ≤ devSize then ((s.storeBytes at_ (leBytes 64 (s.freeNat 6))).bump).storeBytes (at_ + 64) payload else s

/-- The bytes of a stored message as they stand (R214). -/
def State.loadSegment (s : State) (at_ n : Nat) : List Byte := s.mem.readBytes (at_ + 64) n

/-- The physical address of byte k of a range in pieces (R216). -/
def placeAt : List (Nat × Nat) → Nat → Option Nat
  | [], _ => none
  | x :: rest, k => if k < x.2 then some (x.1 + k) else placeAt rest (k - x.2)

/-- Payload bytes `lo` to `hi - 1` of a message, as they stand now (R217, R219, R335). -/
def State.readPayload (s : State) (p : PortId) (m : Msg) (lo hi : Nat) : List Byte :=
  match m.body with
  | .data | .reduce _ _ => ((s.packedBytes m.core m.pages m.handle).drop (m.offset + lo)).take (hi - lo)
  | .pullRequest _ _ => []
  | .pullReply =>
    (List.range (hi - lo)).map fun k => match placeAt m.places (m.offset + lo + k) with | some a => s.loadByte a | none => 0
  | .forwarded msg => s.mem.readBytes (s.relaySegment p msg.source + 64 + lo) (hi - lo)

/-- Payload bytes of a message whose flits have wholly passed in the first k wcs at width w; the header is the first flit (R209;
DEDUCED, log 44). -/
def bytesPassed (bytes w k : Nat) : Nat := min bytes ((k * w / 512 - 1) * 64)

/-- The flits that leave a port in this wc read their bytes; a reply has read its bytes whole in the wc of its admission (R219, R325,
R335). -/
def State.readFlits (s : State) (p : PortId) : State :=
  s.onPort p fun x =>
    { x with flying := x.flying.map fun m =>
        let hi := if m.body = .pullReply then m.bytes else bytesPassed m.bytes m.width (s.clock + 1 - m.admittedAt)
        if m.payload.length < hi then { m with payload := m.payload ++ s.readPayload p m m.payload.length hi } else m }

/-! ## Admission (R210, R212, R213) -/

/-- A wc of a slot that joins port p to a peer, while data may leave: the peer, the slot, and the first wc of its guard. -/
def State.dataSlot (s : State) (p : PortId) : Option (ModuleId × Slot) :=
  match s.slot with
  | none => none
  | some x =>
    if s.clock < x.guardAt ∧ (s.port p).phase = .run then (x.bank.peer p x.index).map fun q => (q, x) else none

/-- A peer's port is off within the data time of a slot (R237). -/
def Port.peerIsOff (x : Port) (q : ModuleId) (t : Slot) : Bool :=
  x.peerOff.any fun o => o.1 == q && decide (o.2.1 < t.guardAt ∧ t.start < o.2.2)

/-- A message's number is below 256 above its oldest unacknowledged one (R213). -/
def Port.inWindow (x : Port) (m : Msg) : Bool :=
  !ordered m.cls || match (x.unacked[m.dest]).head? with | none => true | some o => decide ((m.seq - o).toNat < 256)

/-- SEND and SENDRED, whose accesses here are reads. -/
def QEntry.sends (q : QEntry) : Bool := match q.instr with | .send _ _ _ _ _ | .sendred _ _ _ _ _ _ => true | _ => false

/-- Accesses of an L word must wait for an earlier L word of its task, or behind an accepted write. The reads of a SEND do not wait for those
of an earlier one, since each reads as its own flits leave (R210, R335; DEDUCED, log 45). -/
def linkHeld (s : State) (c : CoreId) (q : QEntry) : Bool :=
  let x := s.core c
  !q.touch.isEmpty && (((earlier (x.queue .l) q).any fun f => f.epoch == q.epoch && holdsUp c x (if f.sends && q.sends then [] else q.touch) f) ||
    behindAccepted s c q q.touch)

/-- Earlier L words of the same core whose accesses come first have retired, and its outbound path holds no accepted write of the bytes
(R157, R160, R164; DEDUCED, log 45). The step of a link program has no word before it; its reads are its core's. -/
def State.ownerFree (s : State) (m : Msg) : Bool :=
  match m.owner with
  | none => m.stepOf.isNone || !(acceptedBefore s m.core (touches m.core 0 m.pages false (hExtent m.handle)))
  | some o =>
    match findEntry (s.core o.1) .l o.2 with
    | none => true
    | some q => q.epoch != m.epoch || (!(linkHeld s o.1 q) && !(releaseHeld s o.1 .l q))

/-- A message goes out in this wc; `via` names the intermediate of a relayed one. It takes the width in force, its bytes are read
as its flits leave, its word retires with its last flit, and it lands F + 1 wc after that flit leaves; a relayed one lands later,
after its second hop (R209, R212, R223, R238; DEDUCED, log 17). -/
def State.admitMsg (s : State) (p : PortId) (m : Msg) (x : Nat) (flight : Nat) (via : Option ModuleId) : State :=
  let landsAt := s.clock + x + flight + (if via.isSome then 1 + s.freeNat 7 else 0)
  let sent := { m with admittedAt := s.clock, width := s.portWidth p, via := via, landsAt := landsAt }
  let t := s.onPort p fun y =>
    { y with
      queue := y.queue.filter fun n => n.number != m.number
      flying := y.flying ++ [sent]
      busyUntil := s.clock + x
      unacked := if ordered m.cls then y.unacked.set m.dest (y.unacked[m.dest] ++ [m.seq]) else y.unacked
      relayBusy := match via with | some i => y.relayBusy.set i true | none => y.relayBusy
      relayV := if via.isSome && m.cls == .v then y.relayV.set m.dest (some m.seq) else y.relayV }
  let u := match m.retires with
    | some e => if x ≤ 1 then t.soon e else t.timer (s.clock + x - 1) e
    | none => t
  (u.timer landsAt (.messageLanding p (.outbound m.number))).bump

/-- A held message of another module goes out toward its destination; its relay segment is free of it (R212; DEDUCED, log 72). -/
def State.forward (s : State) (p : PortId) (r : InboundMsg) (dest : ModuleId) (x flight : Nat) : State :=
  let m := { Msg.blank dest r.cls (.forwarded r) 0 with number := (s.port p).sent, bytes := r.payload.length, seq := r.seq }
  let sent := { m with admittedAt := s.clock, width := s.portWidth p, landsAt := s.clock + x + flight }
  let t := s.onPort p fun y =>
    { y with relays := y.relays.erase r, flying := y.flying ++ [sent], sent := y.sent + 1, busyUntil := s.clock + x }
  t.timer (s.clock + x + flight) (.messageLanding p (.outbound m.number))

/-- The intermediate meets d sooner than this module does: possible only while some slot before this module's own next one
joins it to neither; the other module's calendar is not this module's state, so the rest is free (R212, log 33). -/
def State.meetsSooner (s : State) (p : PortId) (x : Slot) (i d : ModuleId) : Bool :=
  let own := (x.until p d).getD (x.bank.slots + 1)
  ((List.range (own - 1)).any fun k =>
    match x.bank.peer p ((x.number + 1 + k) % x.bank.slots) with | some q => q != i && q != d | none => true) &&
    s.freeNat (2000 + d.val) % 2 == 1

/-- The head of the queue for d is a relay candidate through i; messages for a peer that trains wait (R212, R227, R237). -/
def State.relayCandidate (s : State) (p : PortId) (x : Slot) (i d : ModuleId) (w : Nat) : Option Msg :=
  let y := s.port p
  match y.queue.find? fun m => m.dest == d with
  | none => none
  | some m =>
    if d ≠ i ∧ m.held = false ∧ m.cls ≠ .d ∧ m.relayOk ∧ y.relayBusy[i] = false ∧ (m.cls = .v → y.relayV[d] = none) ∧
        y.peerIsOff d x = false ∧
        y.inWindow m ∧ s.ownerFree m ∧ s.clock + transmitWc m.bytes w ≤ x.guardAt ∧ s.meetsSooner p x i d then some m
    else none

/-- MESSAGE_ADMISSION: at most one message, the oldest relayed message for the peer that fits first, then the head of the peer's queue,
then relay candidates in ascending destination; a head that does not fit before its last-admission point waits, and what stands
behind it waits with it (R210 to R213). -/
def execMessageAdmission (p : PortId) (s : State) : Out :=
  match s.dataSlot p with
  | none => .next s
  | some (q, x) =>
    let y := s.port p
    let w := s.portWidth p
    if s.clock < y.busyUntil ∨ y.trainUntil.isSome ∨ w = 0 ∨ y.peerIsOff q x then .next s
    else
      let fits := fun (bytes : Nat) => decide (s.clock + transmitWc bytes w ≤ x.guardAt)
      let relay := y.relays.find? fun r => (match r.kind with | .relay d _ => d == q | _ => false) && fits r.payload.length
      let head := y.queue.find? fun m => m.dest == q
      let candidates := fun (_ : Unit) =>
        match (List.finRange 64).findSome? fun d => s.relayCandidate p x q d w with
        | some m => (s.admitMsg p m (transmitWc m.bytes w) x.bank.flight (some q)).bump
        | none => s.bump
      match relay with
      | some r => .next (s.forward p r q (transmitWc r.payload.length w) x.bank.flight)
      | none =>
        match head with
        | some m =>
          .next (if m.held = false && y.inWindow m && s.ownerFree m && fits m.bytes then s.admitMsg p m (transmitWc m.bytes w) x.bank.flight none
            else candidates ())
        | none => .next (candidates ())

end Sys2Proof.Machine
end

