-- ==== Sys2Proof/Machine/Landing.lean ====
section
/-! DEFINITION. What lands at a port: sends of this module at their destination (R204, R213), and messages of other modules
here (R98, R211 to R214, R216 to R221, R325). -/

namespace Sys2Proof.Machine

open Sys2Proof

/-! ## Physical ranges (R216) -/

/-- The first number past what a PEER address can name. -/
def peerLimit : Nat := 0x4000000000 + 64 * 0x400000

/-- The core whose scratchpad holds a physical address. -/
def padCore (a : Nat) : Option CoreId :=
  if 0x4000000000 ≤ a ∧ a < peerLimit then some (Fin.ofNat 64 ((a - 0x4000000000) / 0x400000)) else none

/-- The die on which a physical address lies: that of the core or of the stack (R13, R220). -/
def dieAt (a : Nat) : DieId :=
  match padCore a with
  | some c => dieOf c
  | none => Fin.ofNat 4 (a / 0x1000000000)

/-- The physical address that payload byte k of a message goes to, where a PEER address can name it. -/
def msgPlace (m : InboundMsg) (k : Nat) : Option Nat := (placeAt m.places k).filter fun a => decide (a < peerLimit)

/-- Payload bytes `lo` to `hi - 1` of a message land in ascending address (R217). -/
def State.landBytes (s : State) (m : InboundMsg) (lo hi : Nat) : State :=
  (List.range (hi - lo)).foldl (fun s k =>
    match msgPlace m (lo + k) with | some a => s.storeBytes a [m.payload.getD (lo + k) 0] | none => s) s

/-- The elements of payload bytes `lo` to `hi - 1` of a SENDRED combine one by one, each atomically (R184, R218). -/
def State.landReduce (s : State) (op : Reduction) (efmt : Nat) (m : InboundMsg) (lo hi : Nat) : State :=
  let n := efmtBytes efmt
  (List.range ((hi - lo) / n)).foldl (fun s k =>
    match msgPlace m (lo + k * n) with
    | some a => s.store a n (reduceElem op efmt (s.load a n) (leNat ((m.payload.drop (lo + k * n)).take n)))
    | none => s) s

/-- Payload byte k is the last that its message lands in its line (R98, R217). -/
def msgEndsLine (m : InboundMsg) (k a : Nat) : Bool :=
  if k + 1 < m.payload.length then (match msgPlace m (k + 1) with | some b => b / 256 != a / 256 | none => true) else true

/-- Where a message meets a neighbour of its transfer in the line that its payload byte k, at address a, ends: the packed offset of the
meeting, if it shares that line (R98, R217). -/
def msgMeets (m : InboundMsg) (k a : Nat) : Option Nat :=
  if k + 1 = m.payload.length ∧ m.last = false ∧ a % 256 ≠ 255 then some (m.addr + m.payload.length)
  else
    match msgPlace m 0 with
    | some b => if m.addr ≠ 0 ∧ b % 256 ≠ 0 ∧ b / 256 = a / 256 then some m.addr else none
    | none => none

/-- The last byte that a message lands in a scratchpad line stamps it. Where two messages share the line, the later of the two to land
does (R98). -/
def State.stampShared (s : State) (p : PortId) (m : InboundMsg) (v : BitVec 6) (k a l : Nat) : State :=
  match msgMeets m k a with
  | none => s.setTag l v
  | some o =>
    let key := (m.source, l, o)
    if (s.port p).halves.contains key then (s.onPort p fun x => { x with halves := x.halves.erase key }).setTag l v
    else s.onPort p fun x => { x with halves := x.halves ++ [key] }

/-- Payload bytes `lo` to `hi - 1` stamp the scratchpad lines that they end (R98). -/
def State.landStamp (s : State) (p : PortId) (m : InboundMsg) (lo hi : Nat) : State :=
  match m.stamp with
  | none => s
  | some v =>
    (List.range (hi - lo)).foldl (fun s k =>
      match msgPlace m (lo + k) with
      | some a =>
        if msgEndsLine m (lo + k) a then (match scratchLine a with | some l => s.stampShared p m v (lo + k) a l | none => s) else s
      | none => s) s

/-! ## Notifications at the destination (R220, R221) -/

/-- The block that the descriptor of a transfer names, on the die where the transfer's last byte lands (R220). -/
def msgBlock (m : InboundMsg) : Option Nat :=
  match regionOf (notifyAddr m.notify) with
  | .diePad l => some (scratchBase (coreOf (dieAt m.lastAt) l) + (notifyAddr m.notify - 0x40000000) % 0x400000)
  | _ => none

/-- The descriptor of a transfer acts on a phaser block at each landing, of `n` bytes here (R220). -/
def State.landNotify (s : State) (m : InboundMsg) (n : Nat) : State :=
  match msgBlock m with
  | some block => if notifyKind m.notify = 2 ∧ notifyByt m.notify ∧ n ≠ 0 then s.addPend block (-(n : Int)) else s
  | none => s

/-- When the last byte of a transfer has landed its descriptor publishes in a ring block; what would fault is recorded (R220, R264). -/
def State.landPublish (s : State) (p : PortId) (m : InboundMsg) : State :=
  match msgBlock m with
  | some block =>
    if notifyKind m.notify = 1 then
      match ringPublish s block (notifySlot m.notify) with
      | some t => t
      | none => s.recordOf 4 (portDie p) p.val (notifyAddr m.notify)
    else s
  | none => s

/-- A receive notification: one word to q2 or q3 of the core whose scratchpad took the last byte, or one lost (R221). -/
def State.notifyReceive (s : State) (p : PortId) (source : ModuleId) (first last n : Nat) : State :=
  match padCore last with
  | none => s
  | some c =>
    let x := s.core c
    if x.rxn.getLsbD p.val = false then s
    else
      let q : Fin 4 := if x.rxn.getLsbD 8 then 3 else 2
      let w : Word := BitVec.ofNat 64 (source.val * 2 ^ 58 + p.val * 2 ^ 55 + n % 2 ^ 23 * 2 ^ 32 + first % 0x400000)
      if 8 ≤ (x.inQ[q]).length then s.onCore c fun y => { y with rxlost := y.rxlost + 1 }
      else s.onCore c fun y => { y with inQ := y.inQ.set q (y.inQ[q] ++ [w]), dirtyQ := true }

/-! ## Replies to a PULL (R219, R325) -/

/-- Codes from packed bytes (R70). -/
def unpackCodes (bits : Nat) (bs : List Byte) : List Nat :=
  if bits = 4 then bs.flatMap (fun b => [b.toNat % 16, b.toNat / 16])
  else (List.range (bs.length / (bits / 8))).map fun k => leNat ((bs.drop (k * (bits / 8))).take (bits / 8))

/-- Packed bytes of one element of a tensor have landed. -/
def Pull.landed (u : Pull) (bits j : Nat) : Bool := u.got.any fun r => decide (r.1 ≤ j * bits / 8 ∧ j * bits / 8 < r.1 + r.2)

/-- The scratchpad lines of the elements j of a tensor for which `sel` holds. -/
def elemLines (c : CoreId) (q : QEntry) (sel : Nat → Bool) : List Nat :=
  let h := q.handleAt 0
  (hElems h).zipIdx.flatMap fun e => if sel e.2 then padLines c q.mcMask [(e.1.addr, efmtBytes (hEfmt h))] else []

/-- Bytes of a reply land in the destination tensor from a packed offset on, in walk order; a line is stamped with the last byte that
lands in it (R98). `u` already counts these bytes. -/
def State.landTensor (s : State) (c : CoreId) (q : QEntry) (u : Pull) (offset : Nat) (bs : List Byte) : State :=
  let h := q.handleAt 0
  let bits := efmtBits (hEfmt h)
  let codes := unpackCodes bits bs
  let first := offset * 8 / bits
  let t := (((hElems h).drop first).zip codes).foldl (fun s e => s.storeElem c q.mcMask q.pages (hEfmt h) e.1 e.2) s
  let open_ := elemLines c q fun j => !(u.landed bits j)
  stampLines t h ((elemLines c q fun j => decide (first ≤ j ∧ j < first + codes.length)).filter fun l => !(open_.contains l))

/-- The physical address of an element of the destination tensor. -/
def elemPhys (c : CoreId) (q : QEntry) (n : Nat) : Nat :=
  match (hElems (q.handleAt 0))[n]? with
  | some e => (physAddrs c q.mcMask q.pages e.addr).headD 0
  | none => 0

/-- Payload bytes `lo` to `hi - 1` of a reply land: the tensor's, the graph's PEND, the local descriptor, and with the message's
last byte its notification; with the last byte of all the PULL retires. -/
def State.landReply (s : State) (p : PortId) (m : InboundMsg) (pull lo hi : Nat) (whole : Bool) : State :=
  match s.fabric.pulls.find? fun u => u.number == pull with
  | none => s
  | some u =>
    match findEntry (s.core u.core) .l u.order with
    | none => s
    | some q =>
      let n := min (hi - lo) u.left
      let v := { u with left := u.left - n, got := u.got ++ [(m.addr + lo, n)] }
      let bits := efmtBits (hEfmt (q.handleAt 0))
      let e0 := m.addr * 8 / bits
      let total := m.payload.length
      let t := ((s.landTensor u.core q v (m.addr + lo) ((m.payload.drop lo).take n)).notifyLanded u.core q.notify n).graphPend
        q.graph (-(n : Int))
      let t := if whole then t.notifyReceive p m.source (elemPhys u.core q e0) (elemPhys u.core q (e0 + total * 8 / bits - 1)) total
        else t
      let pulls := if v.left = 0 then t.fabric.pulls.filter (fun w => w.number != pull)
        else t.fabric.pulls.map fun w => if w.number = pull then v else w
      let w := { t with fabric := { t.fabric with pulls := pulls } }
      if v.left = 0 then w.soon (.retirement u.core .l u.order) else w

/-! ## One message (R209, R211, R217 to R219) -/

/-- Payload bytes `lo` to `hi - 1` of a message land; `whole` says that its last flit has landed (DEDUCED, log 90). The last byte of a transfer,
with which its ring slot is published, is the last of the message that carries the transfer's end, also where an earlier message of a .f
transfer has still to land (R220; DESIGN CHOICE, log 108). -/
def State.landPart (s : State) (p : PortId) (m : InboundMsg) (lo hi : Nat) (whole : Bool) : State :=
  let total := m.payload.length
  let receive := fun (t : State) =>
    let u := (t.landStamp p m lo hi).landNotify m (hi - lo)
    if whole && total != 0 then
      let v := match msgPlace m 0, msgPlace m (total - 1) with | some a, some b => u.notifyReceive p m.source a b total | _, _ => u
      if m.last then v.soon (.messageLanding p (.landed m)) else v
    else u
  match m.kind with
  | .data => receive (s.landBytes m lo hi)
  | .reduce op efmt => receive (s.landReduce op efmt.toNat m lo hi)
  | .pullRequest _ _ _ => if whole then s.soon (.messageLanding p (.landed m)) else s
  | .pullReply pull => s.landReply p m pull lo hi whole
  | .relay _ _ =>
    if whole then
      (s.storeSegment (s.relaySegment p m.source) m.payload).onPort p fun x => { x with relays := x.relays ++ [m] }
    else s

/-- What a message that has landed does behind the cores' words of the wc: it publishes, or the reply that it asks for joins its queue
(R172, R219, R220). -/
def State.landedAct (s : State) (p : PortId) (m : InboundMsg) : State :=
  match m.kind with
  | .data | .reduce _ _ => s.landPublish p m
  | .pullRequest bytes cls relayOk =>
    s.appendAll p { Msg.blank m.source cls .pullReply 0 with places := m.places, relayOk := relayOk } bytes
  | _ => s

/-- Payload bytes of a message that have arrived by the end of this wc, and whether its last flit has (R209). -/
def msgArrived (m : InboundMsg) : Nat :=
  if m.width = 0 then m.payload.length else bytesPassed m.payload.length m.width (m.wcs + 1)
def msgWhole (m : InboundMsg) : Bool :=
  m.width == 0 || decide (flitsOf m.payload.length * 512 ≤ (m.wcs + 1) * m.width)

/-- The number that a source's next ordered message has (R211). -/
def State.nextOf (s : State) (p : PortId) (source : ModuleId) : State :=
  s.onPort p fun x => { x with seqIn := x.seqIn.set source (x.seqIn[source] + 1) }

/-- Messages held for their predecessors land as their numbers come; a relayed one with the bytes of its segment as they stand (R211,
R213, R214). -/
def State.landHeld (s : State) (p : PortId) (source : ModuleId) : Nat → State
  | 0 => s
  | fuel + 1 =>
    let x := s.port p
    match x.reseq.find? fun m => m.source == source && m.seq == x.seqIn[source] with
    | none => s
    | some m =>
      let now := if m.relayed then { m with payload := s.loadSegment (s.reseqSegment p source) m.payload.length } else m
      let t := s.onPort p fun y => { y with reseq := y.reseq.erase m }
      ((t.landPart p now 0 now.payload.length true).nextOf p source).landHeld p source fuel

/-- A message has to wait for an earlier one of its sequence (R211). -/
def State.tooEarly (s : State) (p : PortId) (m : InboundMsg) : Bool :=
  match m.kind with
  | .relay _ _ => false
  | _ => ordered m.cls && m.seq != (s.port p).seqIn[m.source]

/-- One wc of a message of another module: the bytes whose flits have landed go to their places, an ordered message's only in its
turn (R209, R211, R213); one that is to be forwarded is stored (R212). A message that has come early waits whole: in this module's
resequencing segment for its source if it was relayed, with its own bytes otherwise (DESIGN CHOICE, log 87). -/
def State.arrive (s : State) (p : PortId) (m : InboundMsg) : State :=
  let flits := flitsOf m.payload.length
  let later := fun (t : State) (landed : Nat) =>
    t.timer (t.clock + 1) (.messageLanding p (.inbound { m with wcs := m.wcs + 1, landed := landed }))
  let t := if msgWhole m then s.onPort p fun x => { x with received := x.received + flits } else s
  if s.tooEarly p m then
    if msgWhole m = false then later t m.landed
    else
      (if m.relayed then t.storeSegment (t.reseqSegment p m.source) m.payload else t).onPort p fun x => { x with reseq := x.reseq ++ [m] }
  else
    let u := t.landPart p m m.landed (msgArrived m) (msgWhole m)
    if msgWhole m = false then later u (msgArrived m)
    else if (match m.kind with | .relay _ _ => false | _ => ordered m.cls) then
      (u.nextOf p m.source).landHeld p m.source (u.port p).reseq.length
    else u

/-- A message of this module has landed: off PEND, and a direct one counts as acknowledged (R204, R213). One whose class keeps order lands
behind every lower-numbered message of its sequence (R211), and a relayed one waits for the report that it was forwarded (R212). -/
def State.landOut (s : State) (p : PortId) (number : Nat) : State :=
  match (s.port p).flying.find? fun m => m.number == number with
  | none => s
  | some m =>
    if (s.port p).flying.any fun n => n.precedes m then s.timer (s.clock + 1) (.messageLanding p (.outbound number))
    else
      let t := s.onPort p fun x =>
        { x with
          flying := x.flying.filter fun n => n.number != number
          reports := if m.via.isSome && !m.forwarded then x.reports ++ [m] else x.reports
          unacked := if m.own && ordered m.cls && m.via.isNone then x.unacked.set m.dest (x.unacked[m.dest].erase m.seq) else x.unacked }
      match m.graph with
      | some g => t.graphPend g (-(m.pendBytes : Int))
      | none => t

/-- MESSAGE_LANDING (DESIGN CHOICE, log 18). -/
def execMessageLanding (p : PortId) (what : Landing) (s : State) : Out :=
  match what with
  | .outbound n => .next (s.landOut p n)
  | .inbound m => .next (s.arrive p m)
  | .landed m => .next (s.landedAct p m)

end Sys2Proof.Machine
end

