-- ==== Sys2Proof/Machine/Sequencer.lean ====
section
/-! DEFINITION. Link programs (R224 to R226, R313, R314): the image and its checks, the sequencer and its steps; and the
waking and gating of transmit groups that steps share with L words (R240, R243, R244). -/

namespace Sys2Proof.Machine

open Sys2Proof

/-! ## Waking and gating (R243, R244) -/

/-- A wake drops every gating order whose window it falls in: those at the port, and LGATEs that have not issued, whether
they stand in a queue or in a saved task (R244). -/
def QEntry.dropGate (q : QEntry) (p : PortId) (mask : BitVec 16) : QEntry :=
  match q.instr, q.status with
  | .lgate port _, .waiting => if port.toNat = p.val ∧ q.sa.setWidth 16 &&& mask ≠ 0 then { q with guardTrue := false } else q
  | _, _ => q

/-- The L queue of a core after a wake. -/
def CoreState.dropGates (x : CoreState) (p : PortId) (mask : BitVec 16) : CoreState :=
  { (x.putQueue .l ((x.queue .l).map fun q => q.dropGate p mask)) with
    stayed := x.stayed.set 3 (x.stayed[3].map fun q => q.dropGate p mask) }

/-- A wake of groups: GATED ones become WAKING and are ON after 320 wc (R242, R243). -/
def State.wakeGroups (s : State) (p : PortId) (mask : BitVec 16) : State :=
  let t := s.onPort p fun x =>
    { x with
      groups := x.groups.mapIdx fun k g => if mask.getLsbD k && g == .gated then .waking else g
      gates := x.gates.map fun o => if o.mask &&& mask ≠ 0 then { o with dropped := true } else o }
  let u := { t with
    cores := t.cores.map fun x => x.dropGates p mask
    sched := { t.sched with graphs := t.sched.graphs.map fun g =>
      { g with saved := g.saved.map fun k => { k with snapshot := k.snapshot.dropGates p mask } } } }
  let woken := BitVec.ofNat 16 (bitsOf 16 fun k => mask.getLsbD k && (s.port p).groups[k]? == some .gated)
  if woken = 0 then u else u.timer (s.clock + 320) (.groupWakeEnd p woken)

/-- GROUP_WAKE_END: the groups that the wake took to WAKING are ON (R243). -/
def execGroupWakeEnd (p : PortId) (mask : BitVec 16) (s : State) : Out :=
  .next (s.onPort p fun x =>
    { x with groups := x.groups.mapIdx fun k g => if mask.getLsbD k && g == .waking then .on else g })

/-! ## The image (R224, R225) -/

/-- The words of an image as the sequencer takes it. -/
structure ProgramImage where
  entries : List HandleBits
  steps : List Instr
  deriving DecidableEq, Repr

/-- A handle entry: 8 words, word 1 holding bits [31:0] (R224). -/
def imageEntry (words : List Nat) (k : Nat) : HandleBits :=
  BitVec.ofNat 256 ((List.range 8).foldl (fun a i => a + (words[1 + 8 * k + i]?).getD 0 % 2 ^ 32 * 2 ^ (32 * i)) 0)

/-- A step names entries and targets that the image holds (R225). -/
def stepInside (ne ns : Nat) : Instr → Bool
  | .linkSend _ a b _ _ => decide (a.toNat < ne ∧ b.toNat < ne)
  | .linkLoop _ t => decide (t.toNat < ns)
  | _ => true

/-- Reading an image: its length, its steps and their ranges (R225). An image of no steps is outside R224's range (DEDUCED, log
48). -/
def parseImage (words : List Nat) : Option ProgramImage :=
  match words with
  | [] => none
  | h :: _ =>
    let ns := nbits h 0 8
    let ne := nbits h 8 4
    if ns = 0 ∨ words.length ≠ 1 + 8 * ne + ns then none
    else
      match (words.drop (1 + 8 * ne)).mapM fun w => (decodeLink (BitVec.ofNat 32 w)).toOption with
      | none => none
      | some steps =>
        if steps.all (stepInside ne ns) then some { entries := (List.range ne).map (imageEntry words), steps := steps } else none

/-- Entries that SEND steps name as source and as destination. -/
def ProgramImage.isSource (g : ProgramImage) (k : Nat) : Bool :=
  g.steps.any fun i => match i with | .linkSend _ a _ _ _ => a.toNat == k | _ => false
def ProgramImage.isDest (g : ProgramImage) (k : Nat) : Bool :=
  g.steps.any fun i => match i with | .linkSend _ _ b _ _ => b.toNat == k | _ => false

/-- PEER pages only. -/
def peerOnly : Accepts := { localPad := false, die := false, dev := false, host := false, peer := true }
/-- LOCAL, DIE and DEV. -/
def noHost : Accepts := { host := false }

/-- The pages of an entry: a source is LOCAL, DIE or DEV, a destination passes R216 and R95, any other entry translates
(R225). -/
def entryPages (s : State) (c : CoreId) (p : PortId) (g : ProgramImage) (k : Nat) (h : HandleBits) : Check (List PageMap) := do
  let number : HReg := BitVec.ofNat 4 k
  let a ← if g.isSource k then checkHandle s c h number noHost false else pure []
  let b ← if g.isDest k then (do
      let ps ← checkHandle s c h number peerOnly true
      require (match ps with | [] => true | q :: _ => ps.all (fun r => r.module == q.module) && s.reachable p q.module)
        codePeerUnreachable 0
      pure ps)
    else pure []
  if g.isDest k then pure b else if g.isSource k then pure a
  else checkHandle s c h number { noHost with host := true, peer := true } false

/-- An image with the pages of its entries, or none where it is REJECTED (R225). -/
def loadImage (s : State) (c : CoreId) (p : PortId) (words : List Nat) : Option LinkProgram :=
  match parseImage words with
  | none => none
  | some g =>
    let entries : Check (List LinkEntry) := (g.entries.mapIdx fun k h => (k, h)).mapM fun e => do
      let ps ← entryPages s c p g e.1 e.2
      pure { handle := e.2, pages := ps }
    match entries with
    | .ok es => some { core := c, entries := es, steps := g.steps, pinned := true }
    | .error _ => none

/-! ## The sequencer -/

def State.onSeqr (s : State) (p : PortId) (f : Sequencer → Sequencer) : State :=
  s.onPort p fun x => { x with seqr := f x.seqr }

/-- The pins of a loaded program go (R225). A later LSTART runs the same program on the translations that it was loaded with, unpinned
(DESIGN CHOICE, log 47). -/
def State.unpinProgram (s : State) (p : PortId) : State :=
  match (s.port p).seqr.program with
  | some g =>
    if g.pinned then
      (s.unpinPages g.core (g.entries.flatMap LinkEntry.pages)).onSeqr p fun y => { y with program := some { g with pinned := false } }
    else s
  | none => s

/-- A program ends: its pages are free, and its LSTART retires (R223 to R225). -/
def State.endProgram (s : State) (p : PortId) : State :=
  let y := (s.port p).seqr
  let t := (s.unpinProgram p).onSeqr p fun z => { z with owner := none, running := false, step := 0 }
  match y.owner with
  | some o => t.soon (.retirement o.1 .l o.2.1)
  | none => t

/-- A fatal fault of an L word: taken at the next boundary while its task runs, else it ends the word's graph (R225). -/
def State.postFor (s : State) (c : CoreId) (q : QEntry) (code : BitVec 8) (info : Word) : State :=
  let x := s.core c
  if x.epoch = q.epoch ∧ x.task.isSome ∧ x.mode = .running then
    s.postTrap c { code := code, info := info, slot := q.slot .l, addr := q.pc }
  else
    s.endGraph q.graph
      { status := 2, code := code, addr := q.pc, info := info, node := q.node, core := c, serial := q.serial }

/-- The task instance of a core with this epoch is saved. -/
def State.savedHere (s : State) (c : CoreId) (epoch : Nat) : Bool :=
  s.sched.graphs.any fun g => g.saved.any fun t => t.core == c && t.snapshot.epoch == epoch

/-- A trap that comes up for a task that is pre-empted waits in its saved state (R175, R182, R201). -/
def State.postSaved (s : State) (c : CoreId) (epoch : Nat) (t : PendingTrap) : State :=
  { s with sched := { s.sched with graphs := s.sched.graphs.map fun g =>
      { g with saved := g.saved.map fun u =>
          if u.core = c ∧ u.snapshot.epoch = epoch then { u with snapshot := u.snapshot.addTrap t } else u } } }

/-- The fault of a descriptor reaches the task that enqueued its word, which stands here or is saved; where that task has ended, the fault
ends the graph (R175, R182, R204; DEDUCED, log 53). -/
def State.noteFault (s : State) (n : Note) (code : BitVec 8) : State :=
  let x := s.core n.core
  let t : PendingTrap := { code := code, info := BitVec.ofNat 64 (notifyAddr n.notify), slot := n.slot, addr := n.pc }
  if x.epoch = n.epoch ∧ x.task.isSome ∧ x.mode ≠ .resuming then s.postTrap n.core t
  else if s.savedHere n.core n.epoch then s.postSaved n.core n.epoch t
  else
    s.endGraph n.graph
      { status := 2, code := code, addr := n.pc, info := t.info, node := n.node, core := n.core, serial := n.serial }

/-- A descriptor acts (R172, R175, R178, R182). -/
def State.applyNote (s : State) (n : Note) : State :=
  match s.notifyRetired n.core n.notify with
  | .ok t => t
  | .error code => s.noteFault n code

/-- The L word of the LSTART whose program runs or waits. -/
def State.seqOwner (s : State) (p : PortId) : Option (CoreId × QEntry) :=
  match (s.port p).seqr.owner with
  | some o => (findEntry (s.core o.1) .l o.2.1).map fun q => (o.1, q)
  | none => none

/-- A SEND step that leaves its pages stops the program; the stop is a configuration fault of the LSTART (R225). -/
def State.stopProgram (s : State) (p : PortId) : State :=
  match s.seqOwner p with
  | some (c, q) => (s.endProgram p).postFor c q codeConfiguration 0
  | none => s.endProgram p

/-- The next step follows (DEDUCED, log 46). -/
def State.stepOn (s : State) : State := s.onSeqr s.curPort fun y => { y with step := y.step + 1 }

/-- LINK_PROGRAM_START: the program runs from step 0, with every k and a at 0, once the phase has reached the value of its LSTART (R225). -/
def execLinkProgramStart (p : PortId) (s : State) : Out :=
  let y := (s.port p).seqr
  match y.owner with
  | some o =>
    if y.running = false ∧ s.phaseAt o.2.2 then
      .next (s.onSeqr p fun z => { z with running := true, step := 0, k := Vector.replicate 4 0, a := Vector.replicate 4 0 })
    else .next s
  | none => .next s

/-! ## Parameters (R226) -/

/-- The oldest landed entry of q2 and q3 of a core that its port's parameter queue can take: none older, of either register,
is bound for the same port. -/
def nextParam (s : State) (c : CoreId) : Option (Fin 4 × OutEntry) :=
  let x := s.core c
  let portOf := fun (o : OutEntry) => nbits o.value.toNat 61 3
  ([2, 3] : List (Fin 4)).findSome? fun q =>
    match (x.outQ[q]).head? with
    | none => none
    | some o =>
      let other : Fin 4 := if q = 2 then 3 else 2
      let older := (x.outQ[other]).any fun u => decide (u.serial < o.serial) && portOf u == portOf o
      if o.landsAt ≤ s.clock ∧ !older ∧ (s.port (Fin.ofNat 8 (portOf o))).params.length < 8 then some (q, o) else none

/-- Entries of q2 and q3 join the parameter queues (R226). -/
def State.passParams (s : State) (c : CoreId) : Nat → State
  | 0 => s
  | fuel + 1 =>
    match nextParam s c with
    | none => s
    | some (q, o) =>
      let t := s.onCore c fun x => { x with outQ := x.outQ.set q ((x.outQ[q]).drop 1), dirtyQ := true }
      (t.onPort (Fin.ofNat 8 (nbits o.value.toNat 61 3)) fun y => { y with params := y.params ++ [o.value] }).passParams c fuel

/-! ## Steps (R224) -/

/-- END: the program stops and its LSTART retires. -/
def execLinkEnd (s : State) : Out := .next (s.endProgram s.curPort)

/-- Pages that cover every byte of a range. -/
def covered (pages : List PageMap) (va n : Nat) : Bool :=
  n == 0 || (List.range ((va + n - 1) / 0x10000 - va / 0x10000 + 1)).all fun k =>
    pages.any fun p => p.covers (max va ((va / 0x10000 + k) * 0x10000))

/-- The extent of a moved source stays in its entry's pages, or in its entry's scratchpad (R225). -/
def sourceInside (e : LinkEntry) (h : HandleBits) : Bool :=
  let r := regionOf (hBase e.handle)
  (hExtent h).all fun q => if r = .translated then covered e.pages q.1 q.2 else q.2 == 0 || pieceInside r q

/-- A SEND step whose ranges stand: its messages join the queue as an issued SEND's do, relay permission too (R217, R224; log 97). -/
def State.sendStep (s : State) (p : PortId) (g : LinkProgram) (cls : MsgClass) (h : HandleBits) (src dst : LinkEntry) (va : Nat) : State :=
  let n := hPacked h
  match dst.pages.find? fun q => q.covers va with
  | none => s
  | some page =>
    let graph := (s.seqOwner p).map fun o => o.2.graph
    let m := { Msg.blank page.module cls .data g.core with
                stepOf := (s.seqOwner p).map fun o => (o.1, o.2.order), epoch := ((s.seqOwner p).map fun o => o.2.epoch).getD 0
                graph := graph, handle := h, pages := src.pages, dst := va
                relayOk := cls != .d && (dst.pages.all fun q => q.relay || decide (q.va + q.size ≤ va ∨ va + n ≤ q.va)) }
    let t := match graph with | some k => s.onGraph k fun x => { x with pend := x.pend + n } | none => s
    t.appendAll p m n

/-- SEND (DEDUCED, log 54). -/
def execLinkSend (cls : MsgClass) (src dst : BitVec 4) (so do_ : BitVec 2) (s : State) : Out :=
  let p := s.curPort
  let y := (s.port p).seqr
  match y.program with
  | none => .next s
  | some g =>
    match g.entries[src.toNat]?, g.entries[dst.toNat]? with
    | some e, some d =>
      let h := offsetBase e.handle (y.a[so.toNat].signExtend 64)
      let va := hBase (offsetBase d.handle (y.a[do_.toNat].signExtend 64))
      if sourceInside e h = false ∨ covered d.pages va (hPacked h) = false then .next (s.stopProgram p)
      else
        match tagMismatch s g.core 0 h with
        | some line =>
          match s.seqOwner p with
          | some (c, q) => .next (if scheduleStopped (s.core c) .l q then s else s.scheduleFault c .l q line)
          | none => .next s
        | none => .next ((s.sendStep p g cls h e d va).stepOn)
    | _, _ => .next (s.stopProgram p)

/-- WAIT holds until the phase has this slot and an offset of at least this value (DEDUCED, log 79). -/
def execLinkWait (slot : BitVec 8) (off : BitVec 20) (s : State) : Out :=
  match s.slot with
  | some x => .next (if x.index = slot.toNat ∧ off.toNat ≤ x.offset then s.stepOn else s)
  | none => .next s

/-- WAKE acts as an LWAKE issued in this wc (R243). -/
def execLinkWake (mask : BitVec 16) (s : State) : Out := .next ((s.wakeGroups s.curPort mask).stepOn)

/-- GATE leaves a gating order for the next message boundary (R240, R244). -/
def execLinkGate (mask : BitVec 16) (s : State) : Out :=
  .next ((s.onPort s.curPort fun x => { x with gates := x.gates ++ [{ mask := mask, owner := none, dropped := false }] }).stepOn)

/-- SETK: k = value. -/
def execSetk (k : BitVec 2) (value : BitVec 16) (s : State) : Out :=
  .next ((s.onSeqr s.curPort fun y => { y with k := y.k.set k.toNat value }).stepOn)

/-- LOOP: while k is not 0, it falls by 1 and the target step follows. -/
def execLinkLoop (k : BitVec 2) (target : BitVec 8) (s : State) : Out :=
  let v := (s.port s.curPort).seqr.k[k.toNat]
  if v = 0 then .next s.stepOn
  else .next (s.onSeqr s.curPort fun y => { y with k := y.k.set k.toNat (v - 1), step := target.toNat })

/-- SETA: a = sext(value, 24). -/
def execSeta (a : BitVec 2) (value : BitVec 24) (s : State) : Out :=
  .next ((s.onSeqr s.curPort fun y => { y with a := y.a.set a.toNat (value.signExtend 32) }).stepOn)

/-- ADDA: a = a + sext(value, 24), wrapping on 32 bits. -/
def execAdda (a : BitVec 2) (value : BitVec 24) (s : State) : Out :=
  .next ((s.onSeqr s.curPort fun y => { y with a := y.a.set a.toNat (y.a[a.toNat] + value.signExtend 32) }).stepOn)

/-- PARM holds until a parameter is present, then takes the oldest (R226). -/
def execParm (a : BitVec 2) (s : State) : Out :=
  match (s.port s.curPort).params with
  | [] => .next s
  | v :: rest =>
    .next (((s.onPort s.curPort fun x => { x with params := rest }).onSeqr s.curPort fun y =>
      { y with a := y.a.set a.toNat (v.setWidth 32) }).stepOn)

end Sys2Proof.Machine
end

