-- ==== Sys2Proof/Machine/LEngine.lean ====
section
/-! DEFINITION. The L engine (R52): what its words check and capture at enqueue (R217 to R220, R222, R225, R307, R311, R324,
R334), what they do at issue (R223, R227, R228, R236, R239, R240, R243), and what they do at retirement. -/

namespace Sys2Proof.Machine

open Sys2Proof

/-! ## Checks at enqueue -/

/-- Port p of a word's field. -/
def portOf (port : BitVec 3) : PortId := Fin.ofNat 8 port.toNat

/-- The pages of a range in another module: translation, permission, at most 64 pages, then PEER with one MOD (R216, R324,
R334). -/
def peerPages (s : State) (c : CoreId) (write : Bool) (va n : Nat) (number : HReg) : Check (List PageMap) := do
  if n = 0 then pure []
  else
    require (regionOf va == .translated && pieceInside .translated (va, n)) codeSpace va
    let found := translateTouches s c (granules [(va, n)]) []
    let ps ← found.mapM fun q => do
      let p ← q.2
      pure (p, q.1)
    match ps.find? fun q => write && q.1.readOnly with
    | some q => .error (.trap codeProtection q.2)
    | none =>
      require (decide (ps.length ≤ 64)) codeExtent number.toNat
      match ps with
      | [] => pure []
      | first :: _ =>
        match ps.find? fun q => q.1.kind != .peer || q.1.module != first.1.module with
        | some q => .error (.trap codeSpace q.2)
        | none => pure (ps.map Prod.fst)

/-- The peer-unreachable check of a range's module (R216, R233). -/
def checkReach (s : State) (p : PortId) (pages : List PageMap) : Check Unit :=
  match pages with
  | [] => .ok ()
  | q :: _ => require (s.reachable p q.module) codePeerUnreachable q.module.val

/-- A descriptor that acts at the destination: no signal, a DIE block (R220). -/
def checkSendNotify (nt : NtField) (d : Word) : Check Unit :=
  if nt = 0 then .ok ()
  else do
    require ((notifyKind d == 1 || notifyKind d == 2) && !(notifyKind d == 2 && notifySig d)) codeHandle nt.toNat
    require (match regionOf (notifyAddr d) with | .diePad _ => true | _ => false) codeSpace (notifyAddr d)
    require (notifyAddr d % 64 == 0) codeAlignment (notifyAddr d)

/-- Bytes join the PEND of the executing task's graph (R204, R217, R325). -/
def State.pendMine (s : State) (n : Nat) : State :=
  match s.me.task with
  | some t => s.onGraph t.graph fun g => { g with pend := g.pend + n }
  | none => s

/-- SEND and SENDRED (R217, R218, R334). -/
def sendWord (s : State) (i : Instr) (p : PortId) (ha : HReg) (sa : SReg) (nt : NtField) (reduce : Bool) : Out :=
  let h := s.handle 0 ha
  let va := (s.src 0 sa).toNat
  let n := hPacked h
  s.enqueueWith .l [sa] (do
    let pa ← checkHandle s s.cur h ha { peer := true } false
    require (decide (hSpace h < 3)) codeSpace (hBase h)
    require (!reduce || decide (4 ≤ hEfmt h ∧ hEfmt h ≤ 9)) codeHandle ha.toNat
    let pd ← peerPages s s.cur true va n ha
    require (!reduce || va % efmtBytes (hEfmt h) == 0) codeAlignment va
    checkReach s p pd
    checkSendNotify nt (s.descriptor nt)
    pure ({ s.newEntry .l i with
            sa := s.src 0 sa, z := BitVec.ofNat 64 n, notify := s.descriptor nt, handles := [h], pages := pd ++ pa
            touch := touches s.cur 0 pa false (hExtent h), acquire := hOrdc h == 1 }, fun t => t.pendMine n))

/-- SEND enters the L queue. -/
def execSend (port : BitVec 3) (cls : MsgClass) (ha : HReg) (sa : SReg) (nt : NtField) (s : State) : Out :=
  sendWord s (.send port cls ha sa nt) (portOf port) ha sa nt false

/-- SENDRED enters the L queue. -/
def execSendred (port : BitVec 3) (op : Reduction) (unordered : Bool) (ha : HReg) (sa : SReg) (nt : NtField) (s : State) : Out :=
  sendWord s (.sendred port op unordered ha sa nt) (portOf port) ha sa nt true

/-- PULL enters the L queue (R219, R324). -/
def execPull (port : BitVec 3) (cls : MsgClass) (ha : HReg) (sa : SReg) (nt : NtField) (s : State) : Out :=
  let h := s.handle 0 ha
  let va := (s.src 0 sa).toNat
  let n := hPacked h
  s.enqueueWith .l [sa] (do
    let pa ← checkHandle s s.cur h ha { multicast := true, peer := true } false
    require (decide (hSpace h < 3) && (match regionOf (hBase h) with | .multicast _ => false | _ => true)) codeSpace (hBase h)
    let _ ← checkHandle s s.cur h ha noHost true
    let ps ← peerPages s s.cur false va n ha
    checkReach s (portOf port) ps
    checkNotify nt (s.descriptor nt)
    pure ({ s.newEntry .l (.pull port cls ha sa nt) with
            sa := s.src 0 sa, z := BitVec.ofNat 64 n, notify := s.descriptor nt, handles := [h], pages := ps ++ pa
            touch := touches s.cur 0 pa true (hExtent h), release := hOrdc h == 2 }, fun t => t.pendMine n))

/-- An L word that reads at most a scalar (R307, R308, R311, R313). -/
def linkWord (s : State) (i : Instr) (srcs : List SReg) (sa : Word) (nt : NtField) : Out :=
  s.enqueue .l srcs (do
    checkNotify nt (s.descriptor nt)
    pure ({ s.newEntry .l i with sa := sa, notify := s.descriptor nt }, id))

/-- CAL reads its slot index at enqueue (R276). -/
def execCal (port : BitVec 3) (sa : SReg) (s : State) : Out := linkWord s (.cal port sa) [sa] (s.src 0 sa) 0

/-- LPROG enters the L queue (R225, R313). -/
def execLprog (port : BitVec 3) (ha : HReg) (nt : NtField) (s : State) : Out :=
  let h := s.handle 0 ha
  s.enqueue .l [] (do
    let pa ← checkHandle s s.cur h ha warmSpaces false
    require (hEfmt h == 8) codeHandle ha.toNat
    checkNotify nt (s.descriptor nt)
    pure ({ s.newEntry .l (.lprog port ha nt) with
            notify := s.descriptor nt, handles := [h], pages := pa
            touch := touches s.cur 0 pa false (hExtent h), acquire := hOrdc h == 1 }, id))

/-- LSTART reads its phase value at enqueue. -/
def execLstart (port : BitVec 3) (sa : SReg) (nt : NtField) (s : State) : Out :=
  linkWord s (.lstart port sa nt) [sa] (s.src 0 sa) nt
/-- LPHASE; only .wait reads sa (R311). -/
def execLphase (wait : Bool) (sa : SReg) (s : State) : Out :=
  linkWord s (.lphase wait sa) (if wait then [sa] else []) (if wait then s.src 0 sa else 0) 0
/-- LMARK. -/
def execLmark (port : BitVec 3) (s : State) : Out := linkWord s (.lmark port) [] 0 0
/-- LHOLD. -/
def execLhold (port : BitVec 3) (release : Bool) (s : State) : Out := linkWord s (.lhold port release) [] 0 0
/-- LSHED reads the mask at enqueue. -/
def execLshed (port : BitVec 3) (sa : SReg) (s : State) : Out := linkWord s (.lshed port sa) [sa] (s.src 0 sa) 0
/-- LGATE reads the mask at enqueue, where its window begins (R244). -/
def execLgate (port : BitVec 3) (sa : SReg) (s : State) : Out := linkWord s (.lgate port sa) [sa] (s.src 0 sa) 0
/-- LWAKE reads the mask at enqueue. -/
def execLwake (port : BitVec 3) (sa : SReg) (s : State) : Out := linkWord s (.lwake port sa) [sa] (s.src 0 sa) 0
/-- LIDLE reads the length at enqueue. -/
def execLidle (port : BitVec 3) (sa : SReg) (s : State) : Out := linkWord s (.lidle port sa) [sa] (s.src 0 sa) 0

/-! ## Markers (R228) -/

/-- The markers of generation g stand behind what has been appended; the answer says whether any peer is there. -/
def State.startMarks (s : State) (p : PortId) : State × BitVec 8 × Bool :=
  let peers := s.portPeers p
  let g := (s.port p).mgen + 1
  (s.onPort p fun x => { x with mgen := g, markDue := x.markDue ++ peers.map fun q => (q, g, x.sent) }, g, !peers.isEmpty)

/-- Generation h of half-range order is g or later. -/
def genReached (h g : BitVec 8) : Bool := decide ((h - g).toNat < 128)

/-- Markers of generation g have gone to, and come from, every peer of the calendar then active (R228). -/
def State.marked (s : State) (p : PortId) (g : BitVec 8) : Bool :=
  let x := s.port p
  (s.portPeers p).all fun q =>
    (match x.markSent[q] with | some h => genReached h g | none => false) && match x.markGot[q] with | some h => genReached h g | none => false

/-- The LMARKs of a port that may retire (R228). -/
def State.marksDone (s : State) (p : PortId) : List Instr :=
  (List.finRange 64).flatMap fun c =>
    (((s.core c).queue .l).filter fun q =>
      (match q.instr, q.status with | .lmark port, .issued _ => port.toNat == p.val | _, _ => false) &&
        s.marked p (q.result.setWidth 8)).map fun q => .retirement c .l q.order

/-! ## Issue (R223) -/

/-- A sequencer has a program under way: an LSTART that waits for its phase or runs (R223, R314). -/
def State.programBusy (s : State) (p : PortId) : Bool := (s.port p).seqr.owner.isSome || (s.port p).seqr.running

/-- Whether an L word may issue now. -/
def linkReady (s : State) (q : QEntry) : Bool :=
  match q.instr with
  | .lprog port _ _ | .lstart port _ _ => !s.programBusy (portOf port)
  | _ => true

/-- An L word retires at its issue. -/
def State.linkDone (s : State) (c : CoreId) (q : QEntry) : State := s.soon (.retirement c .l q.order)

/-- The messages of a SEND or SENDRED (R217, R218). Relay permission is asked of the pages of the whole transfer, for each of its messages
(R212; DESIGN CHOICE, log 97). -/
def issueSend (s : State) (c : CoreId) (q : QEntry) (p : PortId) (cls : MsgClass) (body : MsgBody) : State :=
  let h := q.handleAt 0
  let n := hPacked h
  match q.pages.find? fun g => g.covers q.sa.toNat with
  | none => s.linkDone c q
  | some page =>
    if n = 0 then s.linkDone c q
    else
      let dest := q.pages.filter fun g => g.kind == .peer
      s.appendAll p { Msg.blank page.module cls body c with
        owner := some (c, q.order), epoch := q.epoch, graph := some q.graph, handle := h, pages := q.pages, dst := q.sa.toNat
        relayOk := cls != .d && dest.all fun g => g.relay } n

/-- A PULL's request, a header-only .d message that never relays; it carries the reply's class and the relay permission of its source
pages (R219, R324, R325). -/
def issuePull (s : State) (c : CoreId) (q : QEntry) (p : PortId) (cls : MsgClass) : State :=
  let n := hPacked (q.handleAt 0)
  match q.pages.find? fun g => g.covers q.sa.toNat with
  | none => s.linkDone c q
  | some page =>
    if n = 0 then s.linkDone c q
    else
      let t := s.notifyIssue c q.notify n
      let pull : Pull :=
        { number := t.fabric.nextPull, core := c, order := q.order, port := p, peer := page.module, left := n, read := false, got := [] }
      let u := { t with fabric := { t.fabric with pulls := t.fabric.pulls ++ [pull], nextPull := t.fabric.nextPull + 1 } }
      let source := q.pages.filter fun g => g.kind == .peer
      u.appendMsg p { Msg.blank page.module .d (.pullRequest cls (cls != .d && source.all fun g => g.relay)) c with
        owner := some (c, q.order), epoch := q.epoch, dst := q.sa.toNat }

/-- What CAL writes (R276). -/
def State.calValue (s : State) (port : BitVec 3) (j : Word) : Word :=
  let none_ : Nat := 2 ^ 63 + port.toNat * 256
  BitVec.ofNat 64 (match s.fabric.active with
    | none => none_
    | some b => match b.peer (portOf port) j.toNat with | some q => port.toNat * 256 + q.val | none => none_)

/-- An L word issues; `s` already holds its entry as issued (R223, R227, R228, R236, R239, R240, R243; DEDUCED, log 50). -/
def issueL (s : State) (c : CoreId) (q : QEntry) : State :=
  match q.instr with
  | .send port cls _ _ _ => issueSend s c q (portOf port) cls .data
  | .sendred port op unordered _ _ _ =>
    issueSend s c q (portOf port) (if unordered then .f else .d) (.reduce op (BitVec.ofNat 4 (hEfmt (q.handleAt 0))))
  | .pull port cls _ _ _ => issuePull s c q (portOf port) cls
  | .cal port _ =>
    (s.onEntry c .l q.order fun x => { x with result := s.calValue port q.sa }).retireWithin c .l q 4
  | .lphase _ _ => s.retireWithin c .l q 2
  | .lprog _ _ _ => s.retireWithin c .l q (16 + (extentBytes (q.handleAt 0) + 255) / 256 + q.accessT)
  | .lstart port _ _ =>
    if (s.port (portOf port)).seqr.program.isNone then (s.postFor c q codeConfiguration 0).retire c .l q
    else s.onSeqr (portOf port) fun y => { y with owner := some (c, q.order, q.sa) }
  | .lmark port =>
    let r := s.startMarks (portOf port)
    let t := r.1.onEntry c .l q.order fun x => { x with result := r.2.1.setWidth 64 }
    if r.2.2 then t else t.linkDone c q
  | .lhold port release =>
    (s.onPort (portOf port) fun x =>
      { x with held := !release, queue := if release then x.queue.map fun m => { m with held := false } else x.queue }).linkDone c q
  | .lshed port _ => s.onPort (portOf port) fun x => { x with sheds := x.sheds ++ [(q.sa, c, q.order)] }
  | .lgate port _ =>
    s.onPort (portOf port) fun x =>
      { x with gates := x.gates ++ [{ mask := q.sa.setWidth 16, owner := some (c, q.order), dropped := !q.guardTrue }] }
  | .lwake port _ => (s.wakeGroups (portOf port) (q.sa.setWidth 16)).timer (s.clock + 320) (.retirement c .l q.order)
  | .lidle port _ =>
    let n := q.sa.toNat % 2 ^ 32
    if n = 0 then s.linkDone c q
    else
      (s.onPort (portOf port) fun x => { x with gaps := x.gaps ++ [(s.clock, s.clock + n, some (c, q.order))] }).timer
        (s.clock + n) (.idleGapEnd (portOf port))
  | _ => s

/-! ## Retirement (R223) -/

/-- The image words an LPROG reads. -/
def imageWords (s : State) (c : CoreId) (q : QEntry) : List Nat :=
  (hElems (q.handleAt 0)).map fun e => s.elemQ c q 8 e

/-- LPROG's load: the pins of an accepted image, or a REJECTED one; none while every buffer entry is pinned (R96, R225). -/
def loadProgram (s : State) (c : CoreId) (q : QEntry) (p : PortId) : Option State :=
  let t := (s.unpinProgram p).onSeqr p fun y => { y with program := none }
  match loadImage t c p (imageWords s c q) with
  | none => some (t.postFor c q codeConfiguration 0)
  | some g =>
    match pinPages t c (g.entries.flatMap LinkEntry.pages) with
    | .ok u => some (u.onSeqr p fun y => { y with program := some g })
    | .error _ => none

/-- An image waits for the program that runs on its port, and for an earlier LPROG of that port (R223, R314). -/
def State.imageWaits (s : State) (c : CoreId) (q : QEntry) (p : PortId) : Bool :=
  s.programBusy p || (earlier ((s.core c).queue .l) q).any fun f => match f.instr with | .lprog port _ _ => portOf port == p | _ => false

/-- An issued L word retires now, or later (R223, R311). -/
def retireL (s : State) (c : CoreId) (q : QEntry) : State :=
  let again := s.timer (s.clock + 1) (.retirement c .l q.order)
  match q.instr with
  | .send _ _ _ _ _ | .sendred _ _ _ _ _ _ => s.retire c .l q
  | .cal _ sa => (s.writeFor c q sa q.result).retire c .l q
  | .lphase wait sa =>
    if wait && !s.phaseAt q.sa then again else (s.writeFor c q sa s.phaseValue).retire c .l q
  | .lprog port _ _ =>
    if s.imageWaits c q (portOf port) then again
    else
      match loadProgram s c q (portOf port) with
      | some t => t.finish c .l q 0
      | none => again
  | _ => s.finish c .l q 0

end Sys2Proof.Machine
end

