-- ==== Sys2Proof/Machine/Leases.lean ====
section
/-! DEFINITION. The leases of an array: arbitration (R143), terms (R142), and the spill image (R144). -/

namespace Sys2Proof.Machine

open Sys2Proof

/-! ## Who competes (R143) -/

/-- The priority of a core's task. -/
def State.priority (s : State) (c : CoreId) : Nat := match s.graphOf c with | some g => g.pri | none => 0

/-- A core competes for its die's array: its task runs and its lease is WAITING or SUSPENDED. A core that is being
pre-empted or resumed takes no part (R155). -/
def State.competes (s : State) (c : CoreId) : Bool :=
  let x := s.core c
  x.works && (x.lease.state == .waiting || x.lease.state == .suspended)

/-- The local cores in the order in which a tie is broken: after the last holder, wrapping. -/
def tieOrder (last : Fin 16) : List (Fin 16) := (List.range 16).map fun k => last + 1 + Fin.ofNat 16 k

/-- The core that arbitration picks. -/
def State.arbiterPick (s : State) (d : DieId) : Option (Fin 16) :=
  let cs := (tieOrder (s.array d).last).filter fun l => s.competes (coreOf d l)
  let top := cs.foldl (fun m l => max m (s.priority (coreOf d l))) 0
  cs.find? fun l => s.priority (coreOf d l) == top

/-! ## Grants, terms and releases (R142) -/

/-- A term begins (R142). -/
def MxArray.newTerm (a : MxArray) (now : Nat) : MxArray := { a with termWords := 0, termStart := now }

/-- A new term follows one that has ended: a word that retired beyond its 64 counts toward the new one (R142). -/
def MxArray.nextTerm (a : MxArray) (now : Nat) : MxArray := { a with termWords := a.termWords - 64, termStart := now }

/-- The issued LEASE of a core, which retires when its lease is ACTIVE. -/
def leaseIssued (x : CoreState) : Option Nat :=
  ((x.queue .m).find? fun q => match q.instr, q.status with | .lease _ _, .issued _ => true | _, _ => false).map QEntry.order

/-- A core's lease state. -/
def State.setLease (s : State) (c : CoreId) (st : LeaseState) : State :=
  s.onCore c fun x => { x with lease := { x.lease with state := st } }

/-- A lease is ACTIVE: a LEASE that has issued and waits for it retires (R142). -/
def State.activate (s : State) (c : CoreId) : State :=
  let t := s.setLease c .active
  match leaseIssued (s.core c) with
  | some n => t.soon (.retirement c .m n)
  | none => t

/-- The array goes to a core: a WAITING one is ACTIVE, a SUSPENDED one restores its spill image first (R142, R144). -/
def State.grantArray (s : State) (d : DieId) (l : Fin 16) : State :=
  let c := coreOf d l
  let t := s.onArray d fun a => { (a.newTerm s.clock) with holder := some l, last := l }
  if (s.core c).lease.state = .waiting then t.activate c
  else
    (t.setLease c .restoring).onArray d fun a =>
      { a with wrong := [], streams := a.streams ++
          [{ core := c, number := none, inward := true, bits := spillBytes * 8, moved := 0, pulses := 0, ran := 0, charge := 0
             startAt := s.clock + 1 }] }

/-- ARRAY_ARBITRATION: an array without a holder goes to the competitor of highest priority (R143). -/
def execArrayArbitration (d : DieId) (s : State) : Out :=
  match (s.array d).holder with
  | some _ => .next s
  | none =>
    match s.arbiterPick d with
    | some l => .next (s.grantArray d l)
    | none => .next s

/-- A term is over: 64 words have retired under it, or 16,384 wc have passed (R142). -/
def termOver (s : State) (d : DieId) : Bool :=
  let a := s.array d
  match a.holder with
  | some l => (s.core (coreOf d l)).lease.state == .active && decide (64 ≤ a.termWords ∨ a.termStart + 16384 ≤ s.clock)
  | none => false

/-- LEASE_TERM_END: the holder saves where another core of equal or higher priority waits; else a new term begins. -/
def execLeaseTermEnd (d : DieId) (s : State) : Out :=
  match (s.array d).holder with
  | none => .next s
  | some l =>
    let c := coreOf d l
    if termOver s d = false then .next s
    else if (List.finRange 16).any fun k => k != l && s.competes (coreOf d k) && decide (s.priority c ≤ s.priority (coreOf d k)) then
      .next (s.setLease c .saving)
    else .next (s.onArray d fun a => a.nextTerm s.clock)

/-! ## The spill image (R144) -/

/-- The bytes of an array's spill image. -/
def spillImage (a : MxArray) : List Byte :=
  accImage a ++ a.shelves[(0 : Fin 2)].toList ++ a.shelves[(1 : Fin 2)].toList

/-- SPILL_SAVE_END: the image is stored, the lease is SUSPENDED and the array has no holder (R142, R143). -/
def execSpillSaveEnd (d : DieId) (s : State) : Out :=
  match (s.array d).holder with
  | none => .next s
  | some l =>
    let c := coreOf d l
    let x := (s.core c).lease
    if x.state ≠ .saving then .next s
    else
      .next (((s.storeV c 0 x.spillPages x.spillBase.toNat (spillImage (s.array d))).setLease c .suspended).onArray d fun a =>
        { a with holder := none })

/-- A word of an array's own content, as a spill carries it, stands as received (R263, log 89). -/
def MxArray.received (a : MxArray) (k : Nat) (v : Word) : MxArray :=
  let r : Fin 2048 := Fin.ofNat 2048 (k / 2)
  let h : Fin 2 := Fin.ofNat 2 (k / 2)
  if k % 2 = 0 then { a with rows := a.rows.set r { a.rows[r] with m := (a.rows[r]).m.set (Fin.ofNat 32 (k / 4096)) (v.setWidth 48) } }
  else { a with shelves := a.shelves.set h (a.shelves[h].set (Fin.ofNat 8192 (k / 4)) (v.setWidth 8)) }

/-- An array from the bytes of a spill image, read by ACCLD's rules, with the words that came wrong (R144, R263, R271). -/
def loadSpill (s : State) (c : CoreId) (pages : List PageMap) (base : Nat) (a : MxArray) : MxArray :=
  let shelf := fun (o : Nat) => Vector.ofFn fun k : Fin 8192 => s.readV c pages (base + o + k.val)
  let b := { a with
    rows := imageRows fun o n => s.loadV c pages (base + o) n
    shelves := #v[shelf 0x82000, shelf 0x84000] }
  { a.wrong.foldl (fun b w => b.received w.1 w.2) b with wrong := [] }

/-- SPILL_RESTORE_END: the image is loaded, and a term begins; a core that is being pre-empted goes on to SAVING (R142, R155). -/
def execSpillRestoreEnd (d : DieId) (s : State) : Out :=
  match (s.array d).holder with
  | none => .next s
  | some l =>
    let c := coreOf d l
    let x := (s.core c).lease
    if x.state ≠ .restoring then .next s
    else
      let t := s.onArray d fun a => (loadSpill s c x.spillPages x.spillBase.toNat a).newTerm s.clock
      .next (if (s.core c).mode = .saving then t.setLease c .saving else t.activate c)

end Sys2Proof.Machine
end

