-- ==== Sys2Proof/Machine/EngineIssue.lean ====
section
/-! DEFINITION. ENGINE_ISSUE and RETIREMENT (R21): when the word at the head of an engine queue may start and what its start
does, and what it does when it performs and retires. -/

namespace Sys2Proof.Machine

open Sys2Proof

/-! ## The A engine -/

/-- The handles through which a command reads, whose tags it checks at issue (R99): COPY.red reads ha too (R184; DEDUCED, log 83). -/
def sourceHandles (q : QEntry) : List HandleBits :=
  match q.instr with
  | .copy .redAdd _ _ _ | .copy .redMin _ _ _ | .copy .redMax _ _ _ => q.handles
  | .copy _ _ _ _ | .gath _ _ _ | .scat _ _ _ => q.handles.drop 1
  | .feed _ _ _ _ | .xin _ _ _ _ | .gcfg _ _ | .shelf _ _ | .lprog _ _ _ => q.handles
  | .mmaStream _ _ _ _ | .mmaShelf _ _ _ => q.handles
  | .send _ _ _ _ _ | .sendred _ _ _ _ _ _ => q.handles
  | _ => []

/-- An LD issues only when its queue has room for its value (R63). -/
def ldRoom (x : CoreState) (q : QEntry) : Bool :=
  match ldTarget q.instr with
  | none => true
  | some t =>
    let k : Fin 4 := if t then 1 else 0
    let flying := (x.queue .a).filter fun f =>
      ldTarget f.instr == some t && (match f.status with | .issued _ => true | _ => false)
    decide ((x.inQ[k]).length + flying.length < 8)

/-- Every push to q0 and q1 that stands before an A word has been stored (R65). -/
def pushesStored (x : CoreState) (q : QEntry) : Bool :=
  ([0, 1] : List (Fin 4)).all fun k => (x.outQ[k]).all fun o => decide (q.number < o.afterA)

/-- What the word at the head of the A queue waits for (R100, R104, R105). -/
def aReady (s : State) (c : CoreId) (q : QEntry) : Bool :=
  let x := s.core c
  ldRoom x q && pushesStored x q &&
    match q.instr with
    | .feed _ ch qn _ =>
      (x.channels[ch.toNat]).isNone && (List.finRange 8).all fun k => match x.channels[k] with
        | some o => !(!o.take && o.queue.val == qn.toNat && decide (o.moved < o.length))
        | none => true
    | .take _ ch _ _ => (x.channels[ch.toNat]).isNone
    | .seqt _ _ _ => (earlier (x.queue .a) q).isEmpty
    | _ => true

/-- A FEED or TAKE takes its channel; one of an empty extent retires at issue (R91, R104, R105). -/
def startChannel (s : State) (c : CoreId) (q : QEntry) (ch qn : BitVec 3) (take : Bool) : State :=
  let n := streamLength (q.handleAt 0)
  if n = 0 then s.soon (.retirement c .a q.order)
  else
    (s.onCore c fun x =>
      { x with channels := x.channels.set ch.toNat (some
          { number := q.order, take := take, queue := Fin.ofNat 8 qn.toNat, moved := 0, length := n
            startAt := s.clock + 1 + s.freeNat 2 % (24 + q.accessT), half := 0, endAt := 0 }) }).bump

/-- An XIN or XOUT begins; its request follows. The wcs that pass before it are no more than its bound leaves, and an XOUT has what is
left of them for its landing (R107, R111, R351). One of an empty extent moves nothing, charges nothing and retires at issue (R91). -/
def startCross (s : State) (c : CoreId) (q : QEntry) (row inward : Bool) : State :=
  if streamLength (q.handleAt 0) = 0 then s.soon (.retirement c .a q.order)
  else
    let spent := s.freeNat 2 % (16 + q.accessT)
    let x : CrossState :=
      { number := q.order, inward := inward, row := row, place := q.sa, words := []
        startAt := s.clock + 1 + spent, spent := spent, granted := false, lastAt := 0, readyAt := 0, done := false }
    (s.onGrid c fun g => { g with crossing := g.crossing ++ [x] }).bump

/-- An A word issues. -/
def issueA (s : State) (c : CoreId) (q : QEntry) : State :=
  match q.instr with
  | .feed _ ch qn _ => startChannel (s.markIssued c .a q) c q ch qn false
  | .take _ ch qn _ => startChannel ((s.markIssued c .a q).notifyIssue c q.notify (destBytes q)) c q ch qn true
  | .xin row _ _ _ => startCross (s.markIssued c .a q) c q row true
  | .xout row _ _ _ => startCross ((s.markIssued c .a q).notifyIssue c q.notify (destBytes q)) c q row false
  | .seqt _ _ _ =>
    let t := s.markIssued c .a q
    if (seqtLines (q.handleAt 0)).isEmpty then t.soon (.retirement c .a q.order) else t.retireWithin c .a q 4
  | .copy _ _ _ _ | .gath _ _ _ | .scat _ _ _ =>
    (s.startSimple c .a q (destBytes q) (aBound q)).onEntry c .a q.order fun x => x.withOps (tensorOps c q)
  | _ => s.startSimple c .a q (destBytes q) (aBound q)

/-- A channel is free again. -/
def freeChannel (x : CoreState) (number : Nat) : CoreState :=
  { x with channels := x.channels.map fun ch => match ch with
      | some o => if o.number = number then none else some o
      | none => none }

/-- The later LD of one queue waits for the earlier one (R63). -/
def ldInOrder (x : CoreState) (q : QEntry) : Bool :=
  match ldTarget q.instr with
  | none => true
  | some t => (earlier (x.queue .a) q).all fun f => ldTarget f.instr != some t

/-- SEQT at its first line and in each wc that follows: one line, then the rest, then its end (R100, R336). -/
def retireSeqt (s : State) (c : CoreId) (q : QEntry) : State :=
  let n := q.z.toNat
  let t := seqtLine s c q n
  if n + 1 < (seqtLines (q.handleAt 0)).length then
    (t.onEntry c .a q.order fun x => { x with z := BitVec.ofNat 64 (n + 1) }).timer (s.clock + 1) (.retirement c .a q.order)
  else t.finish c .a q 0

/-- An A word performs and retires; of a tensor command, what is left. -/
def retireA (s : State) (c : CoreId) (q : QEntry) : State :=
  match q.instr with
  | .ld _ _ _ _ _ => (performLd s c q).finish c .a q 0
  | .st _ _ _ _ _ _ => (performSt s c q).finish c .a q 0
  | .copy _ _ _ _ | .gath _ _ _ | .scat _ _ _ => (s.landRest c q).finish c .a q 0
  | .seqt _ _ _ => retireSeqt s c q
  | .feed _ _ _ _ | .take _ _ _ _ => (s.onCore c fun x => freeChannel x q.order).finish c .a q 0
  | .xin _ _ _ _ => (s.onGrid c fun g => { g with crossing := g.crossing.filter fun x => x.number != q.order }).finish c .a q 0
  | .xout _ _ _ _ => (s.landXout c q).finish c .a q 0
  | _ => s.finish c .a q 0

/-! ## The M engine (R142, R147 to R149) -/

/-- The shelf that a SHELF makes current, and whether it must load it (R148; DEDUCED, log 49). -/
def shelfChoice (l : Lease) (q : QEntry) : Fin 2 × Bool :=
  let other : Fin 2 := if l.current = 0 then 1 else 0
  if l.tags[l.current] = q.tag then (l.current, false)
  else if l.tags[other] = q.tag then (other, false)
  else (other, true)

/-- The shelf that an MMA.shelf reads: the one with the tag that was current at its enqueue (R149). -/
def shelfOf (l : Lease) (q : QEntry) : Fin 2 :=
  if l.tags[l.current] = q.tag then l.current else if l.current = 0 then 1 else 0

/-- An unretired MMA reads a shelf. -/
def shelfRead (x : CoreState) (k : Fin 2) : Bool :=
  (x.queue .m).any fun q => match q.instr, q.status with
    | .mmaShelf _ _ _, .issued _ => q.z == BitVec.ofNat 64 k.val
    | _, _ => false

/-- What the word at the head of the M queue waits for. -/
def mReady (s : State) (c : CoreId) (q : QEntry) : Bool :=
  let x := s.core c
  let alone := (earlier (x.queue .m) q).isEmpty
  match q.instr with
  | .lease _ _ => true
  | .free _ => alone && (x.lease.state == .active || x.lease.state == .suspended)
  | .shelf _ _ =>
    let k := shelfChoice x.lease q
    x.lease.state == .active && !(k.2 && shelfRead x k.1)
  | .accld _ _ => alone && x.lease.state == .active && !(behindAccepted s c q q.touch)
  | _ => alone && x.lease.state == .active

/-- FREE issues: the lease is IDLE and the array free; a LEASE that follows in the queue then waits for the array (R142,
R284, R285). -/
def issueFree (s : State) (c : CoreId) (q : QEntry) : State :=
  let l := (s.core c).lease
  let t := s.releaseLease c
  match ((s.core c).queue .m).find? fun f =>
      decide (q.order < f.order) && (match f.instr with | .lease _ _ => true | _ => false) with
  | none => t
  | some f =>
    t.onCore c fun x =>
      { x with lease := { (Lease.reset.wait (f.handleAt 0) f.pages f.pc (f.slot .m)) with
          reckoned := l.reckoned, headroom := l.headroom, enqueued := l.enqueued, since := l.since, area := l.area } }

/-- The bound of an M word that crosses nothing (R51, R339). -/
def mBound (q : QEntry) : Nat :=
  match q.instr with
  | .mmaStream _ _ _ _ | .mmaShelf _ _ _ => 32 + q.accessT
  | .drain _ _ _ => 32 + q.accessT
  | _ => 4

/-- A crossing M word begins; one that crosses nothing retires within its bound. -/
def startStream (s : State) (c : CoreId) (q : QEntry) : State :=
  let at_ := match q.instr with
    | .norm _ | .accz _ => s.clock
    | _ => s.clock + 1 + s.freeNat 2 % (q.accessT + 1)
  match mStream c q at_ with
  | some x => (s.onArray (dieOf c) fun a => { a with streams := a.streams ++ [x] }).bump
  | none =>
    match q.instr with
    | .drain _ _ _ => s.soon (.retirement c .m q.order)
    | .shelf _ _ => if q.guardTrue then s.soon (.retirement c .m q.order) else s.retireWithin c .m q 4
    | _ => s.retireWithin c .m q (mBound q)

/-- An M word issues. -/
def issueM (s : State) (c : CoreId) (q : QEntry) : State :=
  let t := (s.markIssued c .m q).notifyIssue c q.notify (mBytes q)
  match q.instr with
  | .lease _ _ => if (s.core c).lease.state = .active then t.soon (.retirement c .m q.order) else t
  | .free _ => (issueFree t c q).retireWithin c .m q 4
  | .shelf _ _ =>
    let k := shelfChoice (s.core c).lease q
    let r := { q with guardTrue := k.2, z := BitVec.ofNat 64 k.1.val }
    let u := (t.onEntry c .m q.order fun x => { x with guardTrue := k.2, performed := !k.2, z := BitVec.ofNat 64 k.1.val }).onCore c fun x =>
      { x with lease := { x.lease with
          current := if k.2 then x.lease.current else k.1, tags := x.lease.tags.set k.1 q.tag } }
    startStream u c r
  | .mmaShelf _ _ _ =>
    let z : Word := BitVec.ofNat 64 (shelfOf (s.core c).lease q).val
    startStream (t.onEntry c .m q.order fun x => { x with z := z }) c { q with z := z }
  | .accsv _ _ => startStream (t.onEntry c .m q.order fun x => x.withOps (accsvOps s c q)) c q
  | _ => startStream t c q

/-- A retired word counts toward the term (R142). -/
def State.countTerm (s : State) (c : CoreId) : State :=
  s.onArray (dieOf c) fun a => if a.holder = some (localOf c) then { a with termWords := a.termWords + 1 } else a

/-- An M word performs and retires; the pins of a LEASE stay with the lease (R96, R142). -/
def retireM (s : State) (c : CoreId) (q : QEntry) : State :=
  match q.instr with
  | .lease _ _ => s.finish c .m { q with pages := [] } 0
  | .free _ => s.finish c .m q 0
  | .drain _ _ _ => ((s.landRest c q).finish c .m q 0).countTerm c
  | .accsv _ _ => ((s.landRest c q).finish c .m q 0).countTerm c
  | _ => ((performM s c q).finish c .m q 0).countTerm c

/-! ## The Y engine -/

/-- A Y word issues: its bound runs from here (R53). -/
def issueY (s : State) (c : CoreId) (q : QEntry) : State := s.startSimple c .y q 0 (yBound q.instr + q.accessT)

/-- A Y word performs and retires. -/
def retireY (s : State) (c : CoreId) (q : QEntry) : State :=
  match q.instr with
  | .fence _ _ => s.retire c .y q
  | .aadd _ _ _ _ _ _ | .amin _ _ _ _ _ _ _ | .amax _ _ _ _ _ _ _ | .axchg _ _ _ _ _ _ | .acas _ _ _ _ _ _ =>
    (performAtomic s c q).retire c .y q
  | _ => (performBlock s c q).retire c .y q

/-! ## The G engine -/

/-- A G word retires; GSTAT writes its register (R138). -/
def retireG (s : State) (c : CoreId) (q : QEntry) : State :=
  match q.instr with
  | .gstat sa _ => (s.writeFor c q sa q.result).finish c .g q 0
  | _ => s.finish c .g q 0

/-! ## The two events (R21) -/

/-- A port's program sends (R224). -/
def State.programSends (s : State) (p : PortId) : Bool :=
  match (s.port p).seqr.program with
  | some g => g.steps.any fun i => match i with | .linkSend _ _ _ _ _ => true | _ => false
  | none => false

/-- The L words with an access that a .sc fence orders: the landing of a send's bytes, an LSTART's whose program sends among them, and a
PULL's reads at the peer (R166, R313). -/
def QEntry.fabricAccess (s : State) (q : QEntry) : Bool :=
  match q.instr with
  | .send _ _ _ _ _ | .sendred _ _ _ _ _ _ | .pull _ _ _ _ _ => true
  | .lstart port _ _ => s.programSends (portOf port)
  | _ => false

/-- A core's engines start words: not while its task is being saved or resumed, but for words of an earlier task (R197,
R203). -/
def mayStart (x : CoreState) (q : QEntry) : Bool := !(x.mode == .saving || x.mode == .resuming) || q.epoch != x.epoch

/-- The word at the head of an engine queue may issue now. -/
def engineReady (s : State) (c : CoreId) (e : Engine) (q : QEntry) : Bool :=
  let x := s.core c
  mayStart x q &&
    !(fenceMarks x e q.order (if e = .l then q.fabricAccess s else q.readsMem) (if e = .l then q.fabricAccess s else q.writesMem)) &&
    !(scheduleStopped x e q) &&
    match e with
    | .a => aReady s c q
    | .g => gridReady s c q
    | .m => mReady s c q
    | .l => linkReady s q
    | .y => true

/-- The start of a word. -/
def issueWord (s : State) (c : CoreId) (e : Engine) (q : QEntry) : State :=
  match e with
  | .a => issueA s c q
  | .g => issueG (s.markIssued c .g q) c q
  | .m => issueM s c q
  | .l => issueL (s.markIssued c .l q) c q
  | .y => issueY s c q

/-- ENGINE_ISSUE: an engine takes the oldest word that it has not taken, at most one in a wc (DESIGN CHOICE, log 84); a tag that does
not match stops it in its queue, and it raises its fault once every earlier word has retired (R21, R99). -/
def execEngineIssue (c : CoreId) (e : Engine) (s : State) : Out :=
  match headWaiting ((s.core c).queue e) with
  | none => .next s
  | some q =>
    if engineReady s c e q = false then .next s
    else
      match q.mismatch.or (checkTags s c q.mcMask (sourceHandles q)) with
      | some line =>
        .next (if (earlier ((s.core c).queue e) q).isEmpty then s.scheduleFault c e q line
               else s.onEntry c e q.order fun x => { x with mismatch := some line })
      | none => .next (issueWord s c e q)

/-! ## Fences (R166, R167) -/

/-- Accesses of a kind's class E that words still owe at a scope before a place in program order (R157, R166). -/
def owesBefore (k : FenceKind) (sc : Scope) (c : CoreId) (x : CoreState) (q : List QEntry) (order : Nat) : Bool :=
  q.any fun f => f.status != .retired && decide (f.order < order) &&
    match k with | .w => owesWrites c x sc f | .r => owesReads c x f | _ => owesReads c x f || owesWrites c x sc f

/-- The sends of one task of a core before a place in program order have all landed, those of its programs' steps too (R166, R313). A .sc
fence awaits them at every scope, since a send has performed at no narrower one than pod (R157; DESIGN CHOICE, log 101). -/
def sendsLanded (s : State) (c : CoreId) (q : QEntry) : Bool :=
  (List.finRange 8).all fun p =>
    ((s.port p).queue ++ (s.port p).flying).all fun m =>
      match m.owner.or m.stepOf with | some (o, n) => !(o == c && m.epoch == q.epoch && decide (n < q.order)) | none => true

/-- An L word has an access that a .sc fence still awaits: a PULL's reads at the peer may have performed before its reply lands, and which
program an LSTART that waits will start is not known (R166). -/
def fabricOwed (s : State) (c : CoreId) (f : QEntry) : Bool :=
  match f.instr, f.status with
  | .pull _ _ _ _ _, .issued _ => !(s.fabric.pulls.any fun u => u.core == c && u.order == f.order && u.read)
  | .lstart _ _ _, .waiting => true
  | _, _ => f.fabricAccess s

/-- Every access in E has performed: the fence may retire (R166). E of a .sc fence has the earlier .sc fences of its core (R167). -/
def fenceReady (s : State) (c : CoreId) (k : FenceKind) (q : QEntry) : Bool :=
  let x := s.core c
  let owed := fun e => owesBefore k q.scope c x (x.words e) q.order
  !owed .a && !owed .m && !owed .y &&
    (k == .r || [x.outQ[(0 : Fin 4)], x.outQ[(1 : Fin 4)]].all fun o => o.all fun p => decide (q.z.toNat ≤ p.serial)) &&
    (k != .sc || (!((x.words .l).any fun f => f.status != .retired && decide (f.order < q.order) && fabricOwed s c f) && sendsLanded s c q &&
      (earlier (x.queue .y) q).all fun f => match f.instr with | .fence .sc _ => f.epoch != q.epoch | _ => true))

/-! ## When the accesses of a word may perform (R156, R157, R160, R164) -/

/-- An ACAS that does not match orders nothing by its release part (R269). -/
def casFails (s : State) (c : CoreId) (q : QEntry) : Bool :=
  match q.instr with
  | .acas _ _ _ _ _ _ => (atomicResult q.instr q.v q.z (s.loadV c q.pages q.sa.toNat (atomicDest q.instr).2)).1.isNone
  | _ => false

/-- The reads, and the writes, of an issued word wait. -/
def readsHeld (s : State) (c : CoreId) (e : Engine) (q : QEntry) : Bool := accessHeld s c e q (q.touch.filter fun t => !t.write)
def writesHeld (s : State) (c : CoreId) (e : Engine) (q : QEntry) : Bool :=
  accessHeld s c e q (q.touch.filter fun t => t.write) || (releaseHeld s c e q && !(casFails s c q))

/-- A word that waits for accesses of earlier words, or for its place, retires later (R63, R164, R166). A fence has no access; a word
of the Y queue that has none waits for nothing. FEED and TAKE keep their order word by word. -/
def retireWaits (s : State) (c : CoreId) (e : Engine) (q : QEntry) : Bool :=
  let x := s.core c
  let stands := match q.instr with | .feed _ _ _ _ | .take _ _ _ _ => false | _ => true
  (stands && ((owesReads c x q && readsHeld s c e q) || writesHeld s c e q)) ||
    match q.instr with
    | .fence k _ => !(fenceReady s c k q)
    | .lease _ _ => x.lease.state != .active && q.epoch == x.epoch && x.works
    | .shelf _ _ => q.guardTrue && (earlier (x.queue .m) q).any fun f => match f.instr with | .shelf _ _ => true | _ => false
    | _ => !(ldInOrder x q)

/-! ## What performs in a wc (R156, R157) -/

/-- A command that reads before it retires, and has no accesses listed. -/
def readsFirst (i : Instr) : Bool :=
  match i with
  | .ld _ _ _ _ _ | .mmaStream _ _ _ _ | .mmaShelf _ _ _ | .shelf _ _ | .accld _ _ | .drain _ _ _ | .lprog _ _ _ => true
  | _ => false

/-- The retirement of a word is due in the next wc. -/
def retiresNext (s : State) (c : CoreId) (e : Engine) (q : QEntry) : Bool :=
  s.timers.any fun t => t.1 == s.clock + 1 && t.2 == .retirement c e q.order

/-- A write of a command may land now: of a DRAIN or an ACCSV, once its bits have crossed; of an XOUT, once its last word has. -/
def mayLand (s : State) (c : CoreId) (q : QEntry) (u : MemOp) : Bool :=
  let crossed := fun (bits : Nat) =>
    ((s.array (dieOf c)).streams.find? fun z => z.core == c && z.number == some q.order).all fun z => decide (bits ≤ z.moved)
  match q.instr with
  | .drain _ _ _ => crossed ((u.k + 1) * codeBits (fmtO q.fmtWord))
  | .accsv _ _ => crossed (if u.k < 65536 then (u.k + 1) * 64 else 4194304 + (u.k - 65535) * 32)
  | .xout _ _ _ _ => ((s.grid c).crossing.find? fun x => x.number == q.order).all fun x => decide (x.lastAt ≤ s.clock)
  | _ => true

/-- A command whose reads wait for writes of its own in walk order, so that the two alternate within a wc (R160, R286, R331). -/
def QEntry.weaves (q : QEntry) : Bool :=
  match q.instr with
  | .gath _ _ _ | .scat _ _ _ => true
  | .copy _ _ _ _ => q.touch.any fun t => !t.write && q.touch.any fun u => u.write && t.ordered u
  | _ => false

/-- The block that a descriptor of core c names, as bytes. -/
def blockBytes (c : CoreId) (d : Word) : Touch := { lo := blockAddr c (notifyAddr d), len := 64, ord := .rc, write := true, bound := 0 }

/-- Nothing writes these bytes behind the landings of this wc any more: no word of a Y queue, no descriptor, and no transfer that has landed
(R156). -/
def State.unwritten (s : State) (us : List Touch) : Bool :=
  let meets := fun (t : Touch) => us.any t.meets
  ((List.finRange 64).all fun c =>
    ((s.core c).queue .y).all (fun f => !(f.touch.any fun t => t.write && meets t)) &&
      engines.all fun e => ((s.core c).queue e).all fun f => f.notify == 0 || !(meets (blockBytes c f.notify))) &&
    (s.notes.all fun n => !(meets (blockBytes n.core n.notify))) &&
    s.closing.all fun e =>
      match e with
      | .messageLanding _ (.landed m) =>
        (match msgBlock m with | some b => !(meets { lo := b, len := 64, ord := .rc, write := true, bound := 0 }) | none => true)
      | _ => true

/-- Accesses to warm memory at an untranslated address do not pass the outbound path (R157). -/
def Touch.outbound (t : Touch) : Bool := decide (t.lo < devSize ∨ hostBase ≤ t.lo)

/-- A core's outbound path, or its die, may accept the writes of a word: they go to DEV or HOST and stand, every read of the word has
performed or is one with its write, and no L or G word reads their bytes; for the die, no core of it has accepted another write of a byte
of them (R157; DEDUCED, log 93). -/
def mayAccept (s : State) (c : CoreId) (q : QEntry) (die : Bool) : Bool :=
  let writes := q.touch.filter fun t => t.write
  let meets := fun (us : List Touch) => us.any fun u => writes.any fun t => t.meets u
  let cores := if die then c :: dieMates c else [c]
  let whole := match q.instr with
    | .st _ _ _ _ _ _ | .aadd _ _ _ _ _ _ | .amin _ _ _ _ _ _ _ | .amax _ _ _ _ _ _ _ | .axchg _ _ _ _ _ _ | .acas _ _ _ _ _ _ => true
    | .copy _ _ _ _ | .gath _ _ _ | .scat _ _ _ | .drain _ _ _ | .accsv _ _ | .xout _ _ _ _ =>
      q.performed && q.ops.all fun u => u.writes && u.stands && mayLand s c q u
    | _ => false
  !writes.isEmpty && whole && writes.all Touch.outbound &&
    cores.all fun d =>
      let x := s.core d
      !((x.queue .l ++ x.queue .g).any fun f => f.status != .retired && meets f.touch) &&
        (!die || engines.all fun e => (x.queue e).all fun f => f.order == q.order && d == c || f.accepted.isNone || !(meets (f.touch.filter fun t => t.write)))

/-- The writes of an issued command that the outbound path, or the die, accepts in this wc. -/
def State.acceptEntry (s : State) (c : CoreId) (e : Engine) (q : QEntry) : State :=
  match q.status with
  | .issued _ =>
    if q.writesMem = false ∨ writesHeld s c e q then s
    else if s.freeNat (3000000 + q.order) % 3 = 1 ∧ q.accepted = none ∧ mayAccept s c q false then (s.onEntry c e q.order fun x => { x with accepted := some .core }).bump
    else if s.freeNat (3000000 + q.order) % 3 = 2 ∧ mayAccept s c q true then (s.onEntry c e q.order fun x => { x with accepted := some .die }).bump
    else s
  | _ => s

/-- The writes of one issued command that land in this wc, a free part of what may (R156; DESIGN CHOICE, log 13). A command that weaves reads
here too what nothing else writes in the rest of the wc, and that joins `reads`. -/
def landEntry (x : State × List Touch) (c : CoreId) (e : Engine) (q : QEntry) : State × List Touch :=
  let s := x.1
  match q.status with
  | .issued _ =>
    if q.ops.isEmpty then x
    else
      let full := retiresNext s c e q
      let reads := q.weaves && !(readsHeld s c e q)
      let writes := !(writesHeld s c e q)
      let p := q.pass c e (fun u =>
        (if u.writes then writes && mayLand s c q u else reads && s.unwritten u.touches) && (full || s.freeNat (1000000 + u.k) % 2 == 1)) s x.2
      (p.state.bump, p.reads)
  | _ => x

/-- The bytes in which the pushes that wait in a core's q0 and q1 will be stored (R65). -/
def pushBytes (c : CoreId) (x : CoreState) : List Touch :=
  ([0, 1] : List (Fin 2)).map fun k =>
    { lo := scratchBase c.val + (x.qptr[k]).toNat, len := 8 * (x.outQ[k.val]).length, ord := .rc, write := true, bound := 0 }

/-- An access of an agent within a scope of core c that may still write where a word has read: a store or a push of the core's S words, or
of its die's; an unretired word, or its descriptor. -/
def scopeWrites (s : State) (c : CoreId) (sc : Scope) (q : QEntry) : Bool :=
  let meets := fun (t : Touch) => q.touch.any t.meets
  (s.stores.any fun p => meets { lo := p.1, len := p.2.length, ord := .rc, write := true, bound := 0 }) ||
    (s.notes.any fun n => meets (blockBytes n.core n.notify)) ||
    (if sc == .core then [c] else c :: dieMates c).any fun d =>
      (pushBytes d (s.core d)).any meets ||
        engines.any fun e => ((s.core d).queue e).any fun f =>
          (f.status != .retired && !(d == c && f.order == q.order) && f.touch.any fun t => t.write && meets t) ||
            (f.status != .retired && f.notify != 0 && meets (blockBytes d f.notify))

/-- The handles through which a command reads as an acquire (R164). -/
def QEntry.acquireHandles (q : QEntry) : List HandleBits :=
  (match q.instr with | .copy _ _ _ _ | .gath _ _ _ | .scat _ _ _ => q.handles.drop 1 | _ => q.handles).filter fun h => hOrdc h == 1

/-- The scope of an acquire: of a command, the widest of its acquiring handles' (R164). -/
def QEntry.acquireScope (q : QEntry) : Scope :=
  match q.acquireHandles.map handleScope with
  | [] => q.scope
  | ss => if ss.contains .module then .module else if ss.contains .die then .die else .core

/-- An acquire at core or die scope orders nothing for an agent beyond it: an LD behind it may read before it, as long as nothing within
the scope may write the bytes before the acquire has performed (R159; DEDUCED, log 93). The answer is that scope. No agent beyond a die
reaches its scratchpads, so that at die scope only DEV and HOST are meant. -/
def looseScope (s : State) (c : CoreId) (q : QEntry) : Option Scope :=
  let x := s.core c
  let reads := q.touch.filter fun t => !t.write
  let holds := (earlier (x.queue .a) q).filter fun f => f.epoch == q.epoch && holdsUp c x reads f
  let narrow := holds.all fun f =>
    f.acquire && (f.acquireScope == .core || (f.acquireScope == .die && reads.all Touch.outbound)) &&
      !(holdsUp c x reads { f with acquire := false })
  match q.instr with
  | .ld _ _ _ _ _ =>
    if narrow && !(behindAccepted s c q reads) then some (if holds.any fun f => f.acquireScope == .die then .die else .core) else none
  | _ => none

/-- The reads of one issued command that perform at the end of this wc, so that they see what lands in it: a free part, and what is left
when it retires in the next (R156; DESIGN CHOICE, log 13). ACCLD and DRAIN read in the wc of their issue (R271, R280). -/
def State.readEntry (s : State) (c : CoreId) (e : Engine) (q : QEntry) : State :=
  match q.status with
  | .issued at_ =>
    if q.ops.isEmpty = false ∧ q.readsMem then
      if readsHeld s c e q then s
      else
        let full := retiresNext s c e q
        (q.pass c e (fun u => !u.writes && (full || s.freeNat (1000000 + u.k) % 2 == 1)) s []).state.bump
    else if readsFirst q.instr = false ∨ q.performed then s
    else
      match q.instr with
      | .accld _ _ => s.onEntry c e q.order fun x => { x.readAll s with performed := true }
      | .drain add _ _ => if at_ = s.clock then s.onEntry c e q.order fun x => x.withOps (drainOps s c q add) else s
      | _ =>
        if readsHeld s c e q then
          match looseScope s c q with
          | some sc =>
            if scopeWrites s c sc q then s.onEntry c e q.order fun x => { x with seen := [] }
            else if s.freeNat (4000000 + q.order) % 2 = 1 then (s.onEntry c e q.order fun x => x.readAll s).bump else s
          | none => s.onEntry c e q.order fun x => { x with seen := [] }
        else
          let r := if retiresNext s c e q ∨ s.freeNat (4000000 + q.order) % 2 = 1 then { q.readAll s with performed := true }
                   else q.readAhead s fun k => s.freeNat (1000000 + k) % 2 == 1
          (s.onEntry c e q.order fun _ => r).bump
  | _ => s

/-- An action on every entry of some queues, core by core. -/
def State.eachEntry {α : Type} (es : List Engine) (cores : α → CoreId → Engine → List QEntry) (act : α → CoreId → Engine → QEntry → α)
    (x : α) : α :=
  (List.finRange 64).foldl (fun x c => es.foldl (fun x e => (cores x c e).foldl (fun x q => act x c e q) x) x) x

/-- The words of an XIN or of a GCFG that were granted in this wc are read once everything has landed that lands in it (R107, R130,
R156). -/
def State.readCrossing (s : State) (c : CoreId) : State :=
  let g := s.grid c
  let t := (g.crossing.filter fun x => x.inward && x.granted && x.words.isEmpty).foldl (fun s x =>
    (s.onGrid c fun g => { g with crossing := g.crossing.map fun y => if y.number = x.number then { y with words := xinWords s c x } else y }).onEntry
      c .a x.number fun q => { q with performed := true }) s
  match g.load with
  | none => t
  | some l =>
    match findEntry (s.core c) .g l.number with
    | none => t
    | some q =>
      let h := q.handleAt 0
      let fresh := (List.range (streamLength h - l.left - l.words.length)).map fun k => t.packWord c q h (l.words.length + k)
      t.onGrid c fun g => { g with load := some { l with words := l.words ++ fresh } }

/-- The queue of an engine of a core. -/
def State.engineQueue (s : State) (c : CoreId) (e : Engine) : List QEntry := (s.core c).queue e

/-- The outbound paths accept writes, and of what the commands of the A, M and Y queues write a free part lands, in front of the engines,
whose checks see what it stamps (R98, R157). -/
def State.landWc (s : State) : State :=
  let a := State.eachEntry [.a, .m, .y] State.engineQueue State.acceptEntry s
  { (State.eachEntry [.a, .m, .y] (fun x => x.1.engineQueue) landEntry (a, ([] : List Touch))).1 with stage := 1 }

/-- The reads of a PULL whose request has landed have performed at the peer by a free wc (R166, R219). -/
def State.readPulls (s : State) : State :=
  let away := fun (u : Pull) =>
    ((s.port u.port).queue ++ (s.port u.port).flying).any fun m =>
      m.owner == some (u.core, u.order) && match m.body with | .pullRequest _ _ => true | _ => false
  let pulls := s.fabric.pulls.map fun u => if away u then u else { u with read := u.read || s.freeNat (5000000 + u.number) % 2 == 1 }
  ({ s with fabric := { s.fabric with pulls := pulls } }).bump

/-- The reads of commands, channels, crossings and leaving flits that perform in this wc see everything that has landed in it (R156). -/
def State.settleWc (s : State) : State :=
  let r := State.eachEntry [.a, .m, .l, .y] State.engineQueue State.readEntry s
  let f := (List.finRange 64).foldl (fun s c => ((s.readStalled c).feedWords c).readCrossing c) r
  { ((List.finRange 8).foldl State.readFlits f).readPulls with stage := 3 }

/-- RETIREMENT: an issued word reaches its last visible effect (R21). -/
def execRetirement (c : CoreId) (e : Engine) (number : Nat) (s : State) : Out :=
  match findEntry (s.core c) e number with
  | none => .next s
  | some q =>
    match q.status with
    | .issued _ =>
      if retireWaits s c e q ∨ (readsFirst q.instr ∧ q.performed = false ∧ q.touch ≠ []) ∨ q.readsLeft then
        .next (s.timer (s.clock + 1) (.retirement c e number))
      else
        .next (match e with
          | .a => retireA s c q
          | .g => retireG s c q
          | .m => retireM s c q
          | .l => retireL s c q
          | .y => retireY s c q)
    | _ => .next s

end Sys2Proof.Machine
end

