-- ==== Sys2Proof/Machine/Image.lean ====
section
/-! DEFINITION. The image slot of a saved task (R198, R360): its bytes, and what a resume loads from them (R199, R266). Where
the manual names the content of an area and not its layout, the model lays it out (log 12). -/

namespace Sys2Proof.Machine

open Sys2Proof

/-! ## Places (R198) -/

/-- Bytes of a slot. -/
def slotSize : Nat := 0x800000
/-- Where the bytes before the scratchpad lines end, and where those lines begin. -/
def slotFixedEnd : Nat := 0x24000
def slotLines : Nat := 0x400000
/-- What a whole save writes but for the scratchpad, and the bytes of one register group. -/
def imageFixed : Nat := 123776
def groupBytes : Nat := 512
/-- Bytes that a save writes or a resume reads in a wc (R197, R267). -/
def imageRate : Nat := 512

/-- The virtual address of a slot of a graph. -/
def Graph.slotVa (g : Graph) (slot : Nat) : Nat := g.images.toNat + slot * slotSize

/-- What an image area may lie on: pages of kind DEV (R191). -/
def imageSpaces : Accepts := { localPad := false, die := false, host := false }

/-- The pages of a range of image bytes: each must be DEV and, for a save, writable (R191, R199; DEDUCED, log 59). -/
def imagePages (s : State) (c : CoreId) (write : Bool) (va n : Nat) : Check (List PageMap) :=
  (translateTouches s c (granules [(va, n)]) []).mapM fun q => do
    let p ← q.2
    pageAllowed imageSpaces write p q.1
    pure p

/-! ## Dirty bits (R199) -/

/-- The first line number of a scratchpad, and its lines. -/
def firstLine (c : CoreId) : Nat := scratchBase c / 256
def lineCount : Nat := 16384

/-- The dirty lines of a core, as places in its scratchpad. -/
def State.dirtyLines (s : State) (c : CoreId) : List Nat :=
  (List.range lineCount).filter fun l => !(s.cleanLines.contains (firstLine c + l))

/-- Every line of a core is clean, or every line is dirty. -/
def State.setLines (s : State) (c : CoreId) (clean : Bool) : State :=
  let a := firstLine c
  { s with cleanLines := s.cleanLines.filter (fun l => decide (l < a)) ++
      (if clean then (List.range lineCount).map fun l => a + l else []) ++
      s.cleanLines.filter fun l => decide (a + lineCount ≤ l) }

/-- Bytes of a save: everything but the register groups and lines that are clean. -/
def State.saveBytes (s : State) (c : CoreId) : Nat :=
  let x := s.core c
  imageFixed - groupBytes * ((!x.dirtyS).toNat + (!x.dirtyH).toNat + (!x.dirtyQ).toNat) + 256 * (s.dirtyLines c).length

/-- Whole wcs that n bytes take. -/
def imageTime (n : Nat) : Nat := (n + imageRate - 1) / imageRate

/-! ## The control state (R360) -/

/-- The three words of a shelf tag. -/
def tagWords (t : Option ShelfTag) : List Nat :=
  match t with
  | none => [0, 0, 0]
  | some t =>
    [t.base.toNat, t.efmt.toNat + t.d0 % 128 * 2 ^ 8 + t.d1 % 512 * 2 ^ 16 + t.gen.toNat * 2 ^ 25 + t.st1.toNat * 2 ^ 32, t.g.toNat]

/-- The code of a saved lease. -/
def leaseCode : LeaseState → Nat
  | .waiting => 1 | .suspended => 2 | _ => 0

/-- The 24 words from 0x240. -/
def ctlWords (x : CoreState) : List Nat :=
  let l := x.lease
  let cc := fun (k : Fin 5) => x.counters[k].toNat
  [ x.pc.toNat
    , cc 0 + cc 1 * 2 ^ 32
    , cc 2 + cc 3 * 2 ^ 32
    , cc 4 + x.preds.toNat * 2 ^ 32 + x.checked.toNat * 2 ^ 40 + x.inh.toNat * 2 ^ 41 + leaseCode l.state * 2 ^ 44 +
        l.headroom * 2 ^ 48 + l.current.val * 2 ^ 56 + l.tags[(0 : Fin 2)].isSome.toNat * 2 ^ 57 +
        l.tags[(1 : Fin 2)].isSome.toNat * 2 ^ 58
    , x.qptr[(0 : Fin 2)].toNat
    , x.qptr[(1 : Fin 2)].toNat
    , x.mcw[(0 : Fin 4)].toNat + x.mcw[(1 : Fin 4)].toNat * 2 ^ 16 + x.mcw[(2 : Fin 4)].toNat * 2 ^ 32 +
        x.mcw[(3 : Fin 4)].toNat * 2 ^ 48
    , x.heatEnable.toNat * 2 ^ 63 + x.heatLevel.toNat
    , x.hthr.toNat
    , x.hfill.toNat
    , x.xpc.toNat
    , x.xcause.toNat + x.xslot.toNat * 2 ^ 8
    , x.xinfo.toNat ] ++
    tagWords l.tags[(0 : Fin 2)] ++ tagWords l.tags[(1 : Fin 2)] ++ [l.spillBase.toNat, l.spillSpace.toNat, x.gen.toNat, 0, 0]

/-- A shelf tag from its three words. -/
def tagOfWords (valid : Bool) (base w g : Nat) : Option ShelfTag :=
  if valid then
    some { base := BitVec.ofNat 64 base, efmt := BitVec.ofNat 4 w, d0 := nbits w 8 7, d1 := nbits w 16 9
           st1 := BitVec.ofNat 32 (nbits w 32 32), gen := BitVec.ofNat 3 (nbits w 25 3), g := BitVec.ofNat 64 g }
  else none

/-- A lease from a control state; what program order knows of it comes from the snapshot. -/
def loadLease (l : Lease) (w : Nat → Nat) : Lease :=
  { l with
    state := match nbits (w 3) 44 2 with | 1 => .waiting | 2 => .suspended | _ => .idle
    headroom := nbits (w 3) 48 5
    current := Fin.ofNat 2 (nbits (w 3) 56 1)
    tags := #v[tagOfWords (nbits (w 3) 57 1 == 1) (w 13) (w 14) (w 15), tagOfWords (nbits (w 3) 58 1 == 1) (w 16) (w 17) (w 18)]
    spillBase := BitVec.ofNat 64 (w 19)
    spillSpace := BitVec.ofNat 3 (w 20) }

/-- A core's state from word k of the control state as `w k`. The snapshot's completion counters hold what has retired since the
save, which is added (R325; DEDUCED, log 58). -/
def loadCtl (x : CoreState) (w : Nat → Nat) : CoreState :=
  { x with
    pc := BitVec.ofNat 64 (w 0)
    counters := #v[x.counters[(0 : Fin 5)] + BitVec.ofNat 32 (w 1), x.counters[(1 : Fin 5)] + BitVec.ofNat 32 (w 1 / 2 ^ 32),
      x.counters[(2 : Fin 5)] + BitVec.ofNat 32 (w 2), x.counters[(3 : Fin 5)] + BitVec.ofNat 32 (w 2 / 2 ^ 32),
      x.counters[(4 : Fin 5)] + BitVec.ofNat 32 (w 3)]
    preds := BitVec.ofNat 8 (nbits (w 3) 32 8) ||| 1
    checked := nbits (w 3) 40 1 == 1
    inh := nbits (w 3) 41 1 == 1
    qptr := #v[BitVec.ofNat 64 (w 4) &&& ~~~7, BitVec.ofNat 64 (w 5) &&& ~~~7]
    mcw := Vector.ofFn fun k => BitVec.ofNat 16 (nbits (w 6) (16 * k.val) 16)
    heatEnable := nbits (w 7) 63 1 == 1
    heatLevel := BitVec.ofNat 32 (w 7)
    hthr := BitVec.ofNat 64 (w 8)
    hfill := BitVec.ofNat 64 (w 9)
    xpc := BitVec.ofNat 64 (w 10)
    xcause := BitVec.ofNat 8 (w 11)
    xslot := BitVec.ofNat 8 (nbits (w 11) 8 8)
    xinfo := BitVec.ofNat 64 (w 12)
    lease := loadLease x.lease w
    gen := BitVec.ofNat 64 (w 21) }

/-! ## Queue entries (R198, R266) -/

/-- A word that popped a format word. -/
def QEntry.popsFormat (q : QEntry) : Bool :=
  match q.instr with
  | .mmaStream _ _ _ _ | .mmaShelf _ _ _ | .drain _ _ _ => true
  | _ => false

/-- Bytes cut or filled up with zeros to n. -/
def fitBytes (n : Nat) (bs : List Byte) : List Byte := (bs ++ List.replicate n 0).take n

/-- The 128 bytes of an entry. -/
def entryBytes (q : QEntry) : List Byte :=
  let hs := q.handles.flatMap fun h => leBytes 32 h.toNat
  leBytes 4 (match encode q.instr with | some w => w.toNat | none => 0) ++ leBytes 4 (q.number % 32) ++ leBytes 8 q.pc.toNat ++
    leBytes 8 q.sa.toNat ++ leBytes 8 q.notify.toNat ++
    fitBytes 96 (if q.popsFormat then fitBytes 64 hs ++ leBytes 8 q.fmtWord.toNat else hs)

/-- A word takes its place in program order. -/
def insertWord (q : QEntry) : List QEntry → List QEntry
  | [] => [q]
  | x :: rest => if q.order < x.order then q :: x :: rest else x :: insertWord q rest

/-- Two lists of a queue's words as one, in program order (R170, R199). -/
def joinWords (ps qs : List QEntry) : List QEntry := ps.foldl (fun l q => insertWord q l) qs

/-- The words of a queue that an image lays out: unissued, in queue order. -/
def CoreState.savedWords (x : CoreState) (e : Engine) : List QEntry :=
  (joinWords x.stayed[engIdx e] (x.queue e)).filter fun q => q.status == .waiting

/-- A word from its entry, byte o of which begins the n-byte value `at_ o n`; what the entry does not hold stays. A word of
another engine is not taken over (DESIGN CHOICE, log 12). -/
def QEntry.fromEntry (q : QEntry) (e : Engine) (at_ : Nat → Nat → Nat) : QEntry :=
  let i := match decode (BitVec.ofNat 32 (at_ 0 4)) with
    | .ok i => if at_ 0 4 / 2 ^ 29 = (engCode e).toNat then i else q.instr
    | .error _ => q.instr
  { q with
    instr := i
    number := q.number / 32 * 32 + at_ 4 4 % 32
    pc := BitVec.ofNat 64 (at_ 8 8)
    sa := BitVec.ofNat 64 (at_ 16 8)
    notify := BitVec.ofNat 64 (at_ 24 8)
    handles := q.handles.zipIdx.map fun h => BitVec.ofNat 256 (at_ (32 + 32 * h.2) 32)
    fmtWord := if q.popsFormat then BitVec.ofNat 64 (at_ 96 8) else q.fmtWord }

/-- The words of a queue from its entries on, the unissued ones in turn from entry k. -/
def wordsFrom (e : Engine) (at_ : Nat → Nat → Nat) : Nat → List QEntry → List QEntry
  | _, [] => []
  | k, q :: rest =>
    if q.status = .waiting then q.fromEntry e (fun o n => at_ (128 * k + o) n) :: wordsFrom e at_ (k + 1) rest
    else q :: wordsFrom e at_ k rest

/-! ## The areas that the model lays out (R198; DESIGN CHOICE, log 12) -/

/-- A list filled up to n. -/
def fillTo (n : Nat) (d : Nat) (xs : List Nat) : List Nat := (xs ++ List.replicate n d).take n

/-- The entries of q0 to q3, inbound and then outbound, eight words to a queue, which fill their area. -/
def queueWords (x : CoreState) : List Nat :=
  (x.inQ.toList.flatMap fun q => fillTo 8 0 (q.map BitVec.toNat)) ++
    x.outQ.toList.flatMap fun q => fillTo 8 0 (q.map fun o => o.value.toNat)

/-- Walk position of each channel, words crossed of each input buffer, what each GRUN and GFILL has left, the occupancy of q0 to q3, inbound
and then outbound, and the L message position, which is 0: no message of an L word that an image holds has been appended (R223). -/
def walkWords (x : CoreState) (g : Grid) : List Nat :=
  (x.channels.toList.map fun o => match o with | some ch => ch.moved | none => 0) ++ (x.inBuf.toList.map InBuffer.crossed) ++
    fillTo 208 0 (g.admits.map fun a => a.left.getD 0) ++ x.inQ.toList.map List.length ++ x.outQ.toList.map List.length ++ [0]

/-- The 256 words of each gate buffer. -/
def bufferWords (x : CoreState) : List Nat :=
  (x.inBuf.toList.flatMap fun b => fillTo 256 0 (b.words.map BitVec.toNat)) ++
    x.outBuf.toList.flatMap fun b => fillTo 256 0 (b.words.map BitVec.toNat)

/-- Occupancy and reservations of each gate buffer. -/
def bufferCounts (x : CoreState) : List Nat :=
  (x.inBuf.toList.flatMap fun b => [b.words.length, 0]) ++ x.outBuf.toList.flatMap fun b => [b.words.length, b.reserved]

/-- One element's ports as 32-bit words: link inputs, latches, results, F. -/
def elemPorts (e : ElemState) : List Nat :=
  (e.links.toList ++ e.latches.toList ++ e.results.toList).map BitVec.toNat ++ [e.flag.toNat]

/-- A board as 32-bit words: a header, 16 words of program for each element, by their difference from the null word, and the elements'
ports. -/
def boardWords (b : Board) : List Nat :=
  (b.ii + 2 ^ 8 * b.vgate.toNat + 2 ^ 16 * boardCode b.status) ::
    ((b.program.toList.flatMap fun p => fillTo 16 0 (p.map fun w => (w ^^^ nullWord).toNat)) ++ b.elems.toList.flatMap elemPorts)

/-- The grid state of R141 as 32-bit words: cold registers, vitrine rows, row states with RP and the masks, ICNT, the boards. -/
def gridWords (g : Grid) : List Nat :=
  (g.cold.toList.flatMap fun r => r.toList.map BitVec.toNat) ++ (g.vitrine.toList.flatMap fun r => r.toList.map BitVec.toNat) ++
    [rowCode g.rows[(0 : Fin 2)] + 4 * rowCode g.rows[(1 : Fin 2)] + 16 * g.rp.val + 2 ^ 8 * g.inMask.toNat +
       2 ^ 16 * g.outMask.toNat, g.icnt.toNat] ++ boardWords g.front ++ boardWords g.back

/-- A board's words: 1, then 2,048 of its program, then 20 for each element. -/
def boardSize : Nat := 1 + 2048 + 128 * 20

/-- An element's ports from its words. -/
def ElemState.fromWords (x : ElemState) (w : Nat → Nat) : ElemState :=
  let v := fun k => BitVec.ofNat 32 (w k)
  { x with
    links := Vector.ofFn fun k => v k.val
    latches := Vector.ofFn fun k => v (4 + k.val)
    results := Vector.ofFn fun k => v (12 + k.val)
    flag := w 19 % 2 == 1 }

/-- A board from its words. -/
def Board.fromWords (b : Board) (w : Nat → Nat) : Board :=
  let ii := w 0 % 32
  { b with
    ii := ii
    vgate := nbits (w 0) 8 1 == 1
    status := match nbits (w 0) 16 2 with | 0 => .ready | 1 => .loading | 2 => .rejected | _ => .draining
    program := Vector.ofFn fun e => (List.range ii).map fun k => BitVec.ofNat 32 (w (1 + 16 * e.val + k)) ^^^ nullWord
    elems := Vector.ofFn fun e => (b.elems[e]).fromWords fun k => w (2049 + 20 * e.val + k) }

/-- A row's state from its code. -/
def rowOfCode (n : Nat) : RowStatus := match n % 4 with | 0 => .empty | 1 => .filling | 2 => .full | _ => .held

/-- A grid from its words; `left` gives what each GRUN and GFILL has left. -/
def Grid.fromWords (g : Grid) (w : Nat → Nat) (left : Nat → Nat) : Grid :=
  { g with
    cold := Vector.ofFn fun e => Vector.ofFn fun r => BitVec.ofNat 32 (w (4 * e.val + r.val))
    vitrine := Vector.ofFn fun v => Vector.ofFn fun k => BitVec.ofNat 32 (w (512 + 64 * v.val + k.val))
    rows := #v[rowOfCode (w 640), rowOfCode (w 640 / 4)]
    rp := Fin.ofNat 2 (nbits (w 640) 4 1)
    inMask := BitVec.ofNat 8 (nbits (w 640) 8 8)
    outMask := BitVec.ofNat 8 (nbits (w 640) 16 8)
    icnt := BitVec.ofNat 32 (w 641)
    front := g.front.fromWords fun k => w (642 + k)
    back := g.back.fromWords fun k => w (642 + boardSize + k)
    admits := g.admits.zipIdx.map fun a => { a.1 with left := a.1.left.map fun _ => left a.2 } }

/-! ## The bytes of a save -/

/-- Free bytes of an image from an offset. -/
def State.freeImage (s : State) (o n : Nat) : List Byte := (List.range n).map fun k => BitVec.ofNat 8 (s.freeNat (100000 + o + k))

/-- An area at an offset whose laid-out bytes are followed by free ones. -/
def State.area (s : State) (o n : Nat) (bs : List Byte) : Nat × List Byte := (o, bs.take n ++ s.freeImage (o + bs.length) (n - bs.length))

/-- The areas that a save writes, as offsets with their bytes; `x` holds the words that are saved, `gen` is the new GEN. -/
def State.imageAreas (s : State) (c : CoreId) (x : CoreState) (t : Task) (colophon : Word) (gen : BitVec 32) (cause : BitVec 8) :
    List (Nat × List Byte) :=
  let words := fun (ws : List Nat) => ws.flatMap (leBytes 8)
  let words32 := fun (ws : List Nat) => ws.flatMap (leBytes 4)
  let g := s.grid c
  [(0, words [gen.toNat + 2 ^ 32, cause.toNat, colophon.toNat, t.node % 2 ^ 16 + t.serial % 2 ^ 32 * 2 ^ 32, 0, 0, 0, 0])] ++
    (if x.dirtyS then [(0x40, words (x.regs.toList.map BitVec.toNat))] else []) ++
    [(0x240, words (ctlWords x))] ++
    (if x.dirtyH then [(0x300, x.handles.toList.flatMap fun h => leBytes 32 h.toNat)] else []) ++
    (if x.dirtyQ then [s.area 0x500 0x200 (words (queueWords x))] else []) ++
    [s.area 0x700 0x80 (words (x.fmtQ.map BitVec.toNat))] ++
    (engines.map fun e => s.area (0x800 + 0x1000 * (engIdx e).val) 0x1000 ((x.savedWords e).flatMap entryBytes)) ++
    [s.area 0x5800 0x800 (words (walkWords x g)), s.area 0x6000 0x4400 (words32 (bufferWords x) ++ words (bufferCounts x)),
     s.area 0x10000 0x10000 (words32 (gridWords g)),
     (0x20000, (List.range lineCount).map fun l => (s.tagOf (firstLine c + l)).setWidth 8)] ++
    (s.dirtyLines c).map fun l => (slotLines + 256 * l, s.mem.readBytes (scratchBase c + 256 * l) 256)

/-- Storing areas of a slot at virtual address `va`. An area lies within one page, since slots are aligned to their size (R191, R198). -/
def State.storeAreas (s : State) (c : CoreId) (pages : List PageMap) (va : Nat) (as : List (Nat × List Byte)) : State :=
  as.foldl (fun s a =>
    match physAddrs c 0 pages (va + a.1) with
    | p :: _ => s.storeBytes p a.2
    | [] => s) s

/-! ## What a resume loads (R199) -/

/-- What a core's channels and buffers hold, from a slot. -/
def loadBuffers (x : CoreState) (at_ : Nat → Nat → Nat) : CoreState :=
  let held := fun (k : Nat) => at_ (0xa000 + 16 * k) 8 % 257
  let words := fun (k : Nat) => (List.range (held k)).map fun j => BitVec.ofNat 32 (at_ (0x6000 + 1024 * k + 4 * j) 4)
  { x with
    channels := Vector.ofFn fun k => (x.channels[k]).map fun ch => { ch with moved := at_ (0x5800 + 8 * k.val) 8 }
    inBuf := Vector.ofFn fun k => { x.inBuf[k] with words := words k.val, crossed := at_ (0x5840 + 8 * k.val) 8 }
    outBuf := Vector.ofFn fun k => { words := words (8 + k.val), reserved := at_ (0xa008 + 16 * (8 + k.val)) 8 % 257 } }

/-- The entries of q0 to q3 and of the format queue, from a slot. -/
def loadQueues (x : CoreState) (at_ : Nat → Nat → Nat) : CoreState :=
  let held := fun (k : Nat) => List.range (at_ (0x5f00 + 8 * k) 8 % 9)
  { x with
    inQ := Vector.ofFn fun k => (held k.val).map fun j => BitVec.ofNat 64 (at_ (0x500 + 64 * k.val + 8 * j) 8)
    outQ := Vector.ofFn fun k => (held (4 + k.val)).map fun j =>
      { (x.outQ[k])[j]?.getD { value := 0, landsAt := 0, afterA := 0, serial := x.pushes } with
        value := BitVec.ofNat 64 (at_ (0x600 + 64 * k.val + 8 * j) 8) }
    fmtQ := x.fmtQ.zipIdx.map fun v => BitVec.ofNat 64 (at_ (0x700 + 8 * v.2) 8) }

/-- The registers, the control state, the queues and the buffers of a slot over a snapshot, whose words all wait to be replayed. -/
def State.loadImage (s : State) (c : CoreId) (pages : List PageMap) (va : Nat) (x : CoreState) : CoreState :=
  let at_ := fun (o n : Nat) => s.loadV c pages (va + o) n
  let y := loadCtl x fun k => at_ (0x240 + 8 * k) 8
  let z := loadBuffers (loadQueues y at_) at_
  { z with
    stayed := Vector.ofFn fun e => wordsFrom (engines[e.val]?.getD .a) (fun o n => at_ (0x800 + 0x1000 * e.val + o) n) 0 z.stayed[e]
    regs := Vector.ofFn fun k => if k.val = 0 then 0 else BitVec.ofNat 64 (at_ (0x40 + 8 * k.val) 8)
    handles := Vector.ofFn fun k => BitVec.ofNat 256 (at_ (0x300 + 32 * k.val) 32) }

/-- The grid state of a slot over a snapshot's. -/
def State.loadGrid (s : State) (c : CoreId) (pages : List PageMap) (va : Nat) (g : Grid) : Grid :=
  g.fromWords (fun k => s.loadV c pages (va + 0x10000 + 4 * k) 4) fun k => s.loadV c pages (va + 0x5880 + 8 * k) 8

/-- The scratchpad lines and their tags from a slot (DEDUCED, log 57). -/
def State.loadLines (s : State) (c : CoreId) (pages : List PageMap) (va : Nat) : State :=
  let t := (List.range lineCount).foldl (fun t l =>
    let bs := (List.range 256).map fun k => s.readV c pages (va + slotLines + 256 * l + k)
    (t.storeBytes (scratchBase c + 256 * l) bs).setTag (firstLine c + l) ((s.readV c pages (va + 0x20000 + l)).setWidth 6)) s
  t

end Sys2Proof.Machine
end

