-- ==== Sys2Proof/Machine/Replay.lean ====
section
/-! DEFINITION. The replay of saved engine words (R199, R266): each is checked again with what it captured, translated and
pinned; a word that fails stays saved with every later word of its queue. -/

namespace Sys2Proof.Machine

open Sys2Proof

/-! ## The check of a saved word (R92, R95, R96, R154, R233) -/

/-- An operand: its handle, its number, the spaces it accepts, and whether the word writes through it. -/
abbrev Operand := HandleBits × HReg × Accepts × Bool

/-- The handle operands of a word in the order of its checks. -/
def operands (q : QEntry) : List Operand :=
  let h := q.handleAt
  match q.instr with
  | .copy f da db _ =>
    [(h 0, da, copyDest f, true), (h 1, db, warmSpaces, false)] ++
      if f = .s24 then [(h 2, nextHandle db, warmSpaces, false)] else []
  | .gath da db _ | .scat da db _ =>
    [(h 0, da, warmOrWindow, true), (h 1, db, warmSpaces, false), (h 2, nextHandle db, warmSpaces, false)]
  | .feed da _ _ _ | .xin _ da _ _ | .gcfg da _ | .shelf da _ | .lprog _ da _ | .mmaShelf da _ _ =>
    [(h 0, da, warmSpaces, false)]
  | .take da _ _ _ | .xout _ da _ _ => [(h 0, da, warmOrWindow, true)]
  | .mmaStream da db _ _ => [(h 0, da, warmSpaces, false), (h 1, db, warmSpaces, false)]
  | .send _ _ ha _ _ | .sendred _ _ _ ha _ _ => [(h 0, ha, { peer := true }, false)]
  | .pull _ _ ha _ _ => [(h 0, ha, noHost, true)]
  | _ => []

/-- Pages and touches of one operand. -/
def recheckOperand (s : State) (c : CoreId) (q : QEntry) (o : Operand) : Check (List PageMap × List Touch) := do
  let p ← checkHandle s c o.1 o.2.1 o.2.2.1 o.2.2.2
  if q.popsFormat then checkSlot o.1 q.fmtWord
  pure (p, touches c (if o.2.2.2 then q.mcMask else 0) p o.2.2.2 (hExtent o.1))

/-- The scale tables that an MMA reads in LOCAL. -/
def tableTouches (c : CoreId) (q : QEntry) : List Touch :=
  match q.instr with
  | .mmaStream _ _ _ _ | .mmaShelf _ _ _ =>
    let w := q.fmtWord
    let nb := q.sa.toNat / 8
    touches c 0 [] false (tablePiece (fmtAsc w) (fmtATab w) (hDim (q.handleAt 0) 1 * nb) ++
      tablePiece (fmtBsc w) (fmtBTab w) (mmaCols q * nb))
  | _ => []

/-- The lease of a saved word that is enqueued again: the unretired M words that belong to it, those of a trap handler among them, which all
stand before it in the queue, and its spill area, which is that of the last LEASE among them or, where none is queued, that of the lease that
stands (R154, R199, R266, R285). -/
def ownLease (c : CoreId) (x : CoreState) : List QEntry × List Touch :=
  let before := x.unretired .m
  match (before.filter fun f => match f.instr with | .lease _ _ => true | _ => false).getLast? with
  | some f => ((before.dropWhile fun w => w.order != f.order).drop 1, touches c 0 f.pages true [(hBase (f.handleAt 0), spillBytes)])
  | none => (before, touches c 0 x.lease.spillPages true [(x.lease.spillBase.toNat, spillBytes)])

/-- The alias rule of an M word (R154). -/
def recheckAlias (s : State) (c : CoreId) (q : QEntry) (touch : List Touch) : Check Unit :=
  let l := ownLease c (s.core c)
  match q.instr with
  | .shelf _ _ | .mmaStream _ _ _ _ | .mmaShelf _ _ _ => aliasCheck l.2 touch (destsOf l.1)
  | .drain _ _ _ | .accsv _ _ => aliasCheck l.2 (touch.filter fun t => t.write) (operandsOf l.1)
  | .accld _ _ => aliasCheck l.2 touch []
  | _ => .ok ()

/-- DRAIN's operand of a saved word, in the order of its checks (R280). -/
def recheckDrain (s : State) (c : CoreId) (q : QEntry) (add : Bool) (da : HReg) : Check (List PageMap × List Touch) := do
  let h := q.handleAt 0
  let p ← checkR92 s c h da false
  checkDrain s h da q.fmtWord
  pure (p, drainTouch c p h q.fmtWord add)

/-- A scalar access of a saved word. -/
def recheckScalar (s : State) (c : CoreId) (q : QEntry) (acc : Accepts) (read write : Bool) (n : Nat) :
    Check (List PageMap × List Touch) :=
  if q.guardTrue then do
    let p ← checkScalar s c acc write q.sa.toNat n
    let t := fun (w : Bool) => touches c (if w then q.mcMask else 0) p w [(q.sa.toNat, n)]
    pure (p, (if write then t true else []) ++ if read then t false else [])
  else .ok ([], q.touch)

/-- An image operand of a saved word. -/
def recheckImage (s : State) (c : CoreId) (q : QEntry) (da : HReg) (n : Nat) (write touched : Bool) :
    Check (List PageMap × List Touch) := do
  let p ← checkImage s c (q.handleAt 0) da n write touched
  pure (p, if touched then touches c 0 p write [(hBase (q.handleAt 0), n)] else [])

/-- The range in another module of a saved word, and whether it can be reached. -/
def recheckPeer (s : State) (c : CoreId) (q : QEntry) (port : BitVec 3) (ha : HReg) (write : Bool) : Check (List PageMap) := do
  let p ← peerPages s c write q.sa.toNat (hPacked (q.handleAt 0)) ha
  checkReach s (portOf port) p
  pure p

/-- The check of a saved word: its pages and what it touches. -/
def recheck (s : State) (c : CoreId) (q : QEntry) : Check (List PageMap × List Touch) := do
  let r ← match q.instr with
    | .ld _ _ ty _ _ => recheckScalar s c q warmSpaces true false (widthBytes ty.width)
    | .st _ _ _ w _ _ => recheckScalar s c q warmOrWindow false true (widthBytes w)
    | .aadd _ _ _ _ _ _ | .amin _ _ _ _ _ _ _ | .amax _ _ _ _ _ _ _ | .axchg _ _ _ _ _ _ | .acas _ _ _ _ _ _ =>
      recheckScalar s c q warmSpaces true true (atomicDest q.instr).2
    | .lease da _ => recheckImage s c q da spillBytes true false
    | .drain add da _ => recheckDrain s c q add da
    | .accsv da _ => recheckImage s c q da accBytes true true
    | .accld da _ => recheckImage s c q da accBytes false true
    | _ =>
      match operands q with
      | [] => pure ([], q.touch)
      | os => do
        let rs ← os.mapM (recheckOperand s c q)
        pure (rs.flatMap Prod.fst, rs.flatMap Prod.snd ++ tableTouches c q)
  recheckAlias s c q r.2
  match q.instr with
  | .send port _ ha _ _ | .sendred port _ _ ha _ _ => do
    let p ← recheckPeer s c q port ha true
    pure (p ++ r.1, r.2)
  | .pull port _ ha _ _ => do
    let p ← recheckPeer s c q port ha false
    pure (p ++ r.1, r.2)
  | _ => pure r

/-! ## Replay (R199) -/

/-- A fault of a re-check: the code, its info, the word and its engine. -/
structure ReplayFault where
  code : BitVec 8
  info : Nat
  word : QEntry
  engine : Engine
  deriving DecidableEq, Repr

/-- A checked word joins its queue again. The first LEASE of a lease that still waits names that lease's pins, where one queued behind a FREE
keeps its own (R155, R285); the last one names the area of the words that follow it (R154), and none of them has a SHELF yet (R149). A SHELF
forms its tag again with the current generation (R340). -/
def State.rejoin (s : State) (c : CoreId) (e : Engine) (q : QEntry) : State :=
  s.onCore c fun x =>
    let y := x.putQueue e (x.queue e ++ [q])
    match q.instr with
    | .lease _ _ =>
      let first := (x.unretired .m).all fun f => match f.instr with | .lease _ _ => false | _ => true
      let k := if x.lease.state = .waiting ∧ first then { x.lease with spillPages := q.pages } else x.lease
      let l := if q.status = .waiting then { k with enqueued := none } else k
      { y with lease := if q.order = l.since then { l with area := touches c 0 q.pages true [(hBase (q.handleAt 0), spillBytes)] } else l }
    | .shelf _ _ =>
      let tag := tileTag x (q.handleAt 0)
      { x.putQueue e (x.queue e ++ [{ q with tag := some tag }]) with
        lease := if q.status = .waiting then { x.lease with enqueued := some tag } else x.lease }
    | .mmaShelf _ _ _ =>
      match ((x.queue .m).filter fun f => match f.instr with | .shelf _ _ => f.status == .waiting | _ => false).getLast? with
      | some f => x.putQueue e (x.queue e ++ [{ q with tag := f.tag }])
      | none => y
    | _ => y

/-- The saved words of one queue in order; what is left over stays saved. -/
def replayQueue (c : CoreId) (e : Engine) : List QEntry → State → Check (State × List QEntry × Option ReplayFault)
  | [], s => .ok (s, [], none)
  | q :: rest, s =>
    if q.status = .retired then replayQueue c e rest (s.rejoin c e q)
    else
      match recheck s c q with
      | .ok (pages, touch) =>
        match pinPages s c pages with
        | .ok t => replayQueue c e rest (t.rejoin c e { q with pages := pages, touch := touch })
        | .error stop => .error stop
      | .error (.trap code info) => .ok (s, q :: rest, some { code := code, info := info, word := q, engine := e })
      | .error stop => .error stop

/-- One queue of a core's saved words. -/
def replayOne (c : CoreId) (r : State × Option ReplayFault) (e : Engine) : Check (State × Option ReplayFault) := do
  let t ← replayQueue c e ((r.1.core c).stayed[engIdx e]) r.1
  pure (t.1.onCore c fun x => { x with stayed := x.stayed.set (engIdx e) t.2.1 }, match r.2 with | some f => some f | none => t.2.2)

/-- The queues `es` of a core's saved words, one after another, and the first fault. Where words of several queues fail, the fault of the
first queue in the order of the engine codes is taken, and the others at the next check (DESIGN CHOICE, log 103). -/
def replayAll (s : State) (c : CoreId) (es : List Engine := engines) : Check (State × Option ReplayFault) := es.foldlM (replayOne c) (s, none)

/-- The fault of a replay is taken at the boundary before the S word at which the task stopped, inside a handler too; the words that have been
replayed run on where it is fatal (R23, R199, R201; DEDUCED, log 38). -/
def State.replayTrap (s : State) (c : CoreId) (f : Option ReplayFault) : State :=
  match f with
  | none => s
  | some f =>
    s.takeTrap c
      { code := f.code, info := BitVec.ofNat 64 f.info, slot := f.word.slot f.engine, addr := f.word.pc
        resume := (s.core c).pc, precise := true }

end Sys2Proof.Machine
end

