-- ==== Sys2Proof/Machine/Preempt.lean ====
section
/-! DEFINITION. PREEMPTION, IMAGE_SAVE_END and TASK_RESUME (R109, R141, R155, R170, R171, R197 to R199, R267). -/

namespace Sys2Proof.Machine

open Sys2Proof

/-! ## Started commands (R109, R141, R155, R171, R197) -/

/-- Whether an entry has been taken and not retired. -/
def QEntry.started (q : QEntry) : Bool := match q.status with | .issued _ => true | _ => false

/-- A started A word that has stopped: a FEED or TAKE between two words, a crossing that the meter has not granted (R109). -/
def stoppedA (g : Grid) (q : QEntry) : Bool :=
  match q.instr with
  | .feed _ _ _ _ | .take _ _ _ _ => true
  | .xin _ _ _ _ | .xout _ _ _ _ => g.crossing.any fun x => x.number == q.order && !x.granted
  | _ => false

/-- A started G word that an image can keep: an admission, a halt, a swap or an edge that waits (R141). -/
def stoppedG (q : QEntry) : Bool :=
  match q.instr with
  | .gcfg _ _ | .gstat _ _ | .gset _ _ _ => false
  | _ => true

/-- A retirement of one of a core's A, G, M and Y words is due. -/
def State.retiring (s : State) (c : CoreId) : Bool :=
  (s.agenda ++ s.closing ++ s.timers.map Prod.snd).any fun e =>
    match e with
    | .retirement d k _ => d == c && k != .l
    | _ => false

/-- A message that reads from core c is leaving a port (R197). -/
def State.messageLeaving (s : State) (c : CoreId) : Bool :=
  (List.finRange 8).any fun p =>
    let x := s.port p
    decide (s.clock < x.busyUntil) && match x.flying.getLast? with | some m => m.core == c | none => false

/-- Every command of a core that has started has completed or stopped, and every result has landed (R171, R197). -/
def State.settled (s : State) (c : CoreId) : Bool :=
  let x := s.core c
  let g := s.grid c
  !s.retiring c &&
    ((x.queue .a).all fun q => !q.started || stoppedA g q) &&
    ((x.queue .g).all fun q => !q.started || stoppedG q) && g.plan.isEmpty && g.running.isNone && !s.flying c && g.load.isNone &&
    ((x.queue .m).all fun q => !q.started || (match q.instr with | .lease _ _ => true | _ => false)) &&
    (x.lease.state == .idle || x.lease.state == .waiting || x.lease.state == .suspended) &&
    ((x.queue .y).all fun q => !q.started || (match q.instr with | .fence _ _ => true | _ => false)) &&
    ((x.queue .l).all fun q => !(q.started && q.epoch == x.epoch &&
      (match q.instr with | .cal _ _ | .lphase _ _ => true | _ => false))) &&
    !s.messageLeaving c && (x.liveShadows s.clock).isEmpty &&
    x.outQ.all fun q => q.all fun o => decide (o.landsAt ≤ s.clock)

/-- The queues that a task leaves behind when it stops; its started L words stay with their ports (R203, R223). -/
def ownQueues : List Engine := [.a, .g, .m, .y]

/-- What a core holds once its task is gone. -/
def CoreState.vacated (x : CoreState) : CoreState :=
  let y := ownQueues.foldl (fun x e => x.putQueue e []) x
  { (y.putQueue .l ((x.queue .l).filter fun q => q.status != .waiting || q.epoch != x.epoch)) with
    mode := .free, task := none, preempt := none, traps := [], shadows := [], squeue := [], held := none, coldLeft := 0
    channels := Vector.replicate 8 none, outQ := Vector.replicate 4 [], stayed := Vector.replicate 5 [] }

/-! ## Draining (R23, R204, log 41) -/

/-- Every word of a stopped task that had to run has run. -/
def CoreState.drained (x : CoreState) : Bool :=
  (ownQueues.all fun e => (x.queue e).isEmpty) && (x.unissued .l).isEmpty &&
    (x.outQ[(0 : Fin 4)]).isEmpty && (x.outQ[(1 : Fin 4)]).isEmpty

/-- An A word that its core's grid alone could move on: a FEED or TAKE that has begun and cannot move, or an XIN that waits for its row
(R104, R105, R128). -/
def State.standsA (s : State) (c : CoreId) (q : QEntry) : Bool :=
  let g := s.grid c
  ((List.finRange 8).any fun k =>
    match (s.core c).channels[k] with
    | some ch => ch.number == q.order && decide (ch.startAt ≤ s.clock) && !(feedReady s c k) && !(takeReady s c k)
    | none => false) ||
    g.crossing.any fun y =>
      y.number == q.order && y.inward && y.row && !y.granted && decide (y.startAt ≤ s.clock) && g.gating &&
        g.rows[(Fin.ofNat 2 (gridEl y.place) : Fin 2)] != .empty

/-- A GLINK that waits will go on waiting: its partner has not asked, or some grid is not idle (R139, R292). -/
def State.edgeStands (s : State) (c : CoreId) : Bool :=
  match (s.grid c).edge with
  | none => true
  | some (_, south, part) =>
    let other := if south then southOf c else northOf c
    let asked := part || (s.grid c).joins south || (other.any fun d => (s.grid d).asks (!south) false)
    !(asked && s.gridIdle c && other.all s.gridIdle)

/-- A spine's member whose task has been stopped moves nothing by itself: no swap or load waits, nothing is in flight, and its streams
stand. -/
def State.memberStands (s : State) (c : CoreId) : Bool :=
  let g := s.grid c
  let x := s.core c
  (x.mode == .draining || x.mode == .free) && g.running.isNone && !s.flying c && g.swap.isNone && g.load.isNone && s.edgeStands c &&
    ((x.queue .a).all fun q => !q.started || s.standsA c q) &&
    (x.queue .g).all fun q => !q.started || (g.admits.any fun a => a.number == q.order) || (g.edge.any fun e => e.1 == q.order)

/-- A member holds up the next iteration for good: it lacks input words or places, or a row that nothing fills (R134). -/
def Member.starved (m : Member) (s : State) : Bool :=
  !(m.supplied s) || (m.gating s && !(m.rowFull s) && (s.grid m.core).rows[m.rp] != .filling)

/-- A grid moves nothing and will not: every member of its spine stands, and what the head admits starves (R134, R140). -/
def State.gridStands (s : State) (c : CoreId) : Bool :=
  let h := s.spineHead c
  let ms := s.spine c
  (ms.all s.memberStands) && (s.grid h).admits.all fun a =>
    !a.supplies s.clock || (!a.fill && (Request.start s h ms false).members.any fun m => m.starved s)

/-- The pushes to q0 and q1 that are left wait for A words before them (R65). -/
def CoreState.pushesStand (x : CoreState) : Bool :=
  ([0, 1] : List (Fin 4)).all fun k =>
    match x.outQ[k] with
    | [] => true
    | o :: _ => (x.unretired .a).any fun e => decide (e.number < o.afterA)

/-- What is left of a stopped task on core c can never move: streams that only its grid could move on, a grid that stands, and words that
no engine can take (DEDUCED, log 41). -/
def State.deadlocked (s : State) (c : CoreId) : Bool :=
  let x := s.core c
  (x.queue .m).isEmpty && (x.queue .y).isEmpty && (x.unissued .l).isEmpty && x.pushesStand && !(s.retiring c) && s.gridStands c &&
    [Engine.a, .g].all fun e => match headWaiting (x.queue e) with | some q => !(engineReady s c e q) | none => true

/-- The streams and the grid words of a core go, with the words behind them. -/
def State.dropStreams (s : State) (c : CoreId) : State :=
  let t := s.discard c ((s.core c).queue .a ++ (s.core c).queue .g)
  (t.onCore c fun x => { (x.putQueue .a []).putQueue .g [] with channels := Vector.replicate 8 none }).onGrid c fun g =>
    { g with admits := [], crossing := [], edge := none }

/-- A word of the A queue that takes words from the grid or gives it words. -/
def QEntry.streams (q : QEntry) : Bool := match q.instr with | .feed _ _ _ _ | .take _ _ _ _ => true | _ => false

/-- An unbounded GRUN of a stopped task would never complete; once no stream of a stopped core of its spine is left that it could serve,
begun or still queued, it admits nothing more, as at HALT (R23, R296; DEDUCED, log 41). -/
def State.haltRuns (s : State) (c : CoreId) : State :=
  if (s.spine c).any fun d => (s.core d).mode == .draining && ((s.core d).queue .a).any fun q => q.streams && q.status != .retired then s
  else s.onGrid c fun g => g.stopRuns (s.clock + 1)

/-- A stopped core is free once its words have run, or what is left of them cannot: its lease ends, and what its queues hold is discarded
(R142, R204, R297). -/
def State.drainStep (s : State) (c : CoreId) : State :=
  let x := s.core c
  if x.mode ≠ .draining then s
  else if x.drained then (s.releaseLease c).onCore c CoreState.ended
  else if s.deadlocked c then ((s.dropStreams c).releaseLease c).onCore c CoreState.ended
  else s.haltRuns c

/-! ## The strike (R197) -/


/-- The S queue stops at the boundary: a held word has not taken effect, the grid makes no request after the next one, and
an ACTIVE lease goes to SAVING (R141, R155, R197). The next request is that of the wc after the strike, since the strike falls into its own
wc's (DESIGN CHOICE, log 102). -/
def State.strike (s : State) (c : CoreId) : State :=
  (s.onCore c fun x =>
    { x with
      mode := .saving, held := none, squeue := []
      lease := if x.lease.state = .active then { x.lease with state := .saving } else x.lease }).onGrid c fun g =>
    { g with freezeAt := some (s.clock + 1) }

/-- The graph of a core whose slot does not translate ends (R199). -/
def State.slotFails (s : State) (c : CoreId) (code : BitVec 8) (info : Nat) : State :=
  match (s.core c).task with
  | some t => s.trapEnd c t code (BitVec.ofNat 64 info) (s.core c).pc
  | none => s

/-- Acting on the pages of a core's whole slot, or what stands in their place. -/
def withSlot (s : State) (c : CoreId) (write : Bool) (f : Nat → List PageMap → State) : Out :=
  match s.graphOf c, (s.core c).task with
  | some g, some t =>
    match imagePages s c write (g.slotVa t.slot) slotSize with
    | .ok pages => .next (f (g.slotVa t.slot) pages)
    | .error (.trap code info) => .next (s.slotFails c code info)
    | .error (.absent a) => .fault (.noSuchDevAddress a)
    | .error _ => .next s
  | _, _ => .next s

/-- An image is being saved. -/
def State.savesImage (s : State) (c : CoreId) : Bool := s.timers.any fun t => t.2 == .imageSaveEnd c

/-- The cold words that every image holds: 512 cold registers and two vitrine rows. How many words the boards with their latches come
to is free, up to 9,216: 2,048 move words and 2,560 port words each (R141, log 37). -/
def coldWords : Nat := 640

/-- PREEMPTION: the strike at the boundary; then, in the first wc in which everything started has completed or stopped, the
save begins, at 512 bytes a wc (R197). The cold words of the grid's state cross meanwhile (R141). -/
def execPreemption (c : CoreId) (s : State) : Out :=
  let x := s.core c
  if x.preempt = none then .next s
  else
    match x.mode with
    | .running => .next ((s.leaveHeld c).strike c)
    | .saving =>
      if s.savesImage c ∨ s.settled c = false then .next s
      else
        withSlot s c true fun _ _ =>
          ((s.timer (s.clock + imageTime (s.saveBytes c)) (.imageSaveEnd c)).onCore c fun x =>
            { x with coldLeft := coldWords + s.freeNat 10 % 9217 }).bump
    | _ => .next s

/-! ## The end of a save (R198, R199) -/

/-- A word as an image keeps it: without pins; a FENCE takes effect again from its place (R170, R199; DEDUCED, log 56). -/
def QEntry.saved (q : QEntry) : QEntry :=
  match q.instr with
  | .fence _ _ => { q with pages := [], status := if q.status = .retired then .retired else .waiting }
  | _ => { q with pages := [] }

/-- What the snapshot keeps: the A, G, M and Y words of the task, and its L words that have not issued. -/
def CoreState.snapshot (x : CoreState) : CoreState :=
  let y := ownQueues.foldl (fun x e => x.putQueue e ((x.queue e).map QEntry.saved)) x
  y.putQueue .l ((x.unissued .l).map QEntry.saved)

/-- Every pin of a task's words and of its lease goes. -/
def State.unpinTask (s : State) (c : CoreId) : State :=
  let x := s.core c
  s.unpinPages c ((ownQueues.flatMap x.queue ++ x.unissued .l).flatMap QEntry.pages ++ x.lease.pins)

/-- The task of a core goes into its slot and the core is free. -/
def State.saveTask (s : State) (c : CoreId) (g : Graph) (t : Task) (va : Nat) (pages : List PageMap) : State :=
  let x := s.core c
  let cause := x.preempt.getD 0
  let gen : BitVec 32 := BitVec.ofNat 32 (s.loadV c pages va 4 + 1)
  let kept := x.snapshot
  let entry : SavedTask :=
    { slot := t.slot, core := c, task := t, cause := cause, readyAt := s.clock + 1, resuming := false
      snapshot := { kept with counters := Vector.replicate 5 0 }
      grid := { s.grid c with laneIn := [], laneOut := [] } }
  let u := (s.storeAreas c pages va (s.imageAreas c kept t g.colophon gen cause)).bump
  let v := ((u.unpinTask c).setLines c true).onGraph t.graph fun y => { y with saved := y.saved ++ [entry] }
  (v.onCore c fun y =>
    { y.vacated with lease := Lease.reset, dirtyS := false, dirtyH := false, dirtyQ := false, holds := some (va, gen) }).putGrid c
    Grid.reset

/-- IMAGE_SAVE_END: once the cold words have crossed too, the image stands in its slot, GEN counts the save, the dirty bits
are clear, and the core is free for the scheduler of this wc (R141, R155, R197 to R199). -/
def execImageSaveEnd (c : CoreId) (s : State) : Out :=
  let x := s.core c
  if x.mode ≠ .saving then .next s
  else if x.coldLeft ≠ 0 then .next (s.timer (s.clock + 1) (.imageSaveEnd c))
  else
    match s.graphOf c, x.task with
    | some g, some t => withSlot s c true fun va pages => s.saveTask c g t va pages
    | _, _ => .next s

/-! ## Resume (R199, R267) -/

/-- A core begins to load a saved task: VALID clears, and the load takes its bytes at 512 a wc; the scratchpad's are read
unless it still holds this slot's generation (R199, R360). -/
def State.beginResume (s : State) (g : Graph) (t : SavedTask) : Out :=
  let c := t.core
  let u := (s.onGraph g.id fun y =>
      { y with saved := y.saved.map fun z => if z.slot = t.slot then { z with resuming := true } else z }).onCore c fun x =>
    { x with mode := .resuming, task := some t.task, coldWrong := [] }
  withSlot u c false fun va pages =>
    let gen := BitVec.ofNat 32 (s.loadV c pages va 4)
    let n := imageFixed + if (s.core c).holds = some (va, gen) then 0 else scratchSize
    ((u.storeV c 0 pages va (leBytes 8 gen.toNat)).timer (s.clock + imageTime n) (.taskResume c)).bump.onCore c fun x =>
      { x with coldLeft := coldWords + s.freeNat 10 % 9217 }

/-- A core with the snapshot of a saved task: the translation buffer, the cache and the L words of earlier tasks stay the
core's (R96, R203, R357). RXLOST comes back with the task (R207; DESIGN CHOICE, log 96). -/
def CoreState.restored (x : CoreState) (t : SavedTask) (now : Nat) : CoreState :=
  let y := x.traps.foldl CoreState.addTrap t.snapshot
  { y with
    tlb := x.tlb, icache := x.icache, filling := x.filling, order := x.order, epochs := x.epochs
    queues := (Vector.replicate 5 []).set 3 (x.queue .l)
    stayed := y.queues.zipWith (fun q p => joinWords p q) y.stayed
    mode := .running, task := some t.task, squeue := [], held := none, issueAt := now + 1, shadows := []
    preempt := x.preempt, rxn := 0, coldLeft := 0, coldWrong := [], holds := x.holds
    dirtyS := false, dirtyH := false, dirtyQ := false }

/-- A LEASE waits among a core's saved M words. -/
def CoreState.leaseStays (x : CoreState) : Bool :=
  (x.stayed[(2 : Fin 5)]).any fun q => match q.instr with | .lease _ _ => true | _ => false

/-- The spill area of a SUSPENDED lease, translated and pinned again as at its LEASE (R155). It is the area of the words that follow, unless
a LEASE is queued behind it (R154, R285). -/
def repinLease (s : State) (c : CoreId) : Check State := do
  let l := (s.core c).lease
  if l.state = .suspended then do
    let pages ← rangePages s c (spaceAccepts {} l.spillSpace.toNat) true l.spillBase.toNat spillBytes
    let t ← pinPages s c pages
    let area := if (s.core c).leaseStays then l.area else touches c 0 pages true [(l.spillBase.toNat, spillBytes)]
    pure (t.onCore c fun x => { x with lease := { x.lease with spillPages := pages, area := area } })
  else pure s

/-- What a replay comes to; a wait for a pin holds the resume (R96, R199). `lease` is the fault of the lease's own spill area, which is
reported as the LEASE's (R155). -/
def replayOut (c : CoreId) (r : Check (State × Option ReplayFault)) (lease : Option (BitVec 8 × Nat)) (wait : State) : Out :=
  match r with
  | .ok t =>
    match lease with
    | none => .next (t.1.replayTrap c t.2)
    | some (code, info) =>
      let l := (t.1.core c).lease
      .next (t.1.takeTrap c
        { code := code, info := BitVec.ofNat 64 info, slot := l.slot, addr := l.pc, resume := (t.1.core c).pc, precise := true })
  | .error (.absent a) => .fault (.noSuchDevAddress a)
  | .error _ => .next wait

/-- The replay of a resume: where the spill area of a SUSPENDED lease fails its translation, the words of the other queues are replayed
whole, and those of the M queue stay saved (R155, R199). -/
def resumeReplay (s : State) (c : CoreId) (wait : State) : Out :=
  match repinLease s c with
  | .ok t => replayOut c (replayAll t c) none wait
  | .error (.trap code info) => replayOut c (replayAll s c [.a, .g, .l, .y]) (some (code, info)) wait
  | .error (.absent a) => .fault (.noSuchDevAddress a)
  | .error _ => .next wait

/-- The saved task that a core loads. -/
def State.loading (s : State) (c : CoreId) : Option SavedTask :=
  match s.graphOf c with
  | some g => g.saved.find? fun t => t.core == c && t.resuming
  | none => none

/-- A word of a board that an image holds comes wrong: of its program, or of an element's links and latches (R141, R263). -/
def Board.received (b : Board) (k : Nat) (v : Word32) : Board :=
  let e : Fin 128 := Fin.ofNat 128 (k / 3)
  let x := b.elems[e]
  if k % 3 = 0 then { b with program := b.program.set e ((b.program[e]).set (k / 384 % (b.program[e]).length) v) }
  else if k % 3 = 1 then { b with elems := b.elems.set e { x with links := x.links.set (Fin.ofNat 4 (k / 384)) v } }
  else { b with elems := b.elems.set e { x with latches := x.latches.set (Fin.ofNat 8 (k / 384)) v } }

/-- A word of a grid's state that an image holds comes wrong (R141, R263). -/
def Grid.received (g : Grid) (k : Nat) (v : Word32) : Grid :=
  let e : Fin 128 := Fin.ofNat 128 (k / 4)
  let r : Fin 2 := Fin.ofNat 2 (k / 4)
  if k % 4 = 0 then { g with cold := g.cold.set e (g.cold[e].set (Fin.ofNat 4 (k / 512)) v) }
  else if k % 4 = 1 then { g with vitrine := g.vitrine.set r (g.vitrine[r].set (Fin.ofNat 64 (k / 8)) v) }
  else if k % 4 = 2 then { g with front := g.front.received (k / 4) v }
  else { g with back := g.back.received (k / 4) v }

/-- The state with a loaded task, before its words are replayed. An edge that an ended task left joined, and that the saved task does not
hold, stays with the neighbour's grid alone, which idles until its task parts it: R141 parts edges at a dispatch (DESIGN CHOICE, log 104).
-/
def State.loadTask (s : State) (c : CoreId) (g : Graph) (t : SavedTask) (va : Nat) (pages : List PageMap) : State :=
  let gen := BitVec.ofNat 32 (s.loadV c pages va 4)
  let kept := (s.core c).holds = some (va, gen)
  let u := if kept then s else (s.loadLines c pages va).setLines c true
  let v := (u.onCore c fun x => { (s.loadImage c pages va (x.restored t s.clock)) with holds := some (va, gen) }).putGrid c
    { (s.core c).coldWrong.foldl (fun g w => g.received w.1 w.2) (s.loadGrid c pages va t.grid) with freezeAt := none }
  v.onGraph g.id fun y => { y with saved := y.saved.filter fun z => !(z.slot == t.slot && z.resuming) }

/-- TASK_RESUME: at the end of the load the task stands on its core again and its saved words are checked and replayed; before
an S word issues, words that failed are checked anew (R199). -/
def execTaskResume (c : CoreId) (s : State) : Out :=
  let x := s.core c
  let later := s.timer (s.clock + 1) (.taskResume c)
  match x.mode with
  | .resuming =>
    if x.coldLeft ≠ 0 then .next later
    else
      match s.graphOf c, s.loading c with
      | some g, some t =>
        match imagePages s c false (g.slotVa t.slot) slotSize with
        | .ok pages =>
          let u := { (s.loadTask c g t (g.slotVa t.slot) pages) with cur := c }
          resumeReplay u c later
        | .error (.trap code info) => .next (s.slotFails c code info)
        | .error (.absent a) => .fault (.noSuchDevAddress a)
        | .error _ => .next later
      | _, _ => .next s
  | .running =>
    if x.hasStayed && !x.inh then
      let u := { s with cur := c }
      replayOut c (replayAll u c) none s
    else .next s
  | _ => .next s

end Sys2Proof.Machine
end

