-- ==== Sys2Proof/Machine/Launch.lean ====
section
/-! DEFINITION. WORK_QUEUE_TAIL_LOSS, GRAPH_ADMISSION, COMPLETION_RECORD_WRITE and QUOTA_PERIOD_START (R186 to R191, R204,
R205). -/

namespace Sys2Proof.Machine

open Sys2Proof

/-! ## Work queues (R186 to R188) -/

/-- A queue's entry of the table. -/
structure QueueEntry where
  at_ : Nat
  ring : Nat
  taila : Nat
  lsz : Nat
  weight : Nat
  pmax : Nat
  head : Nat
  deriving DecidableEq, Repr

/-- The entry of queue n, where WQTAB names memory. -/
def State.queueEntry (s : State) (n : Nat) : Option QueueEntry :=
  let a := s.owner.wqtab.toNat + 32 * n
  if dpaOk a 32 then
    let w := s.load (a + 16) 8
    some { at_ := a, ring := s.load a 8, taila := s.load (a + 8) 8, lsz := nbits w 0 4, weight := nbits w 4 4
           pmax := nbits w 8 3, head := s.load (a + 24) 4 }
  else none

/-- LSZ and W enable the queue. -/
def QueueEntry.enabled (e : QueueEntry) : Bool := e.lsz != 0 && e.weight != 0

/-- RING lies in its space, and TAILA in HOST (R187). -/
def QueueEntry.sound (e : QueueEntry) : Bool :=
  dpaOk e.ring (8 * 2 ^ e.lsz) && decide (hostBase ≤ e.taila) && dpaOk e.taila 4

/-- What the front end keeps of a queue. -/
def Sched.watch (d : Sched) (n : Nat) : WatchedQueue :=
  match d.watched.find? fun w => w.queue == n with
  | some w => w
  | none => { queue := n, reported := false, busy := false }

/-- Changing it. -/
def State.onWatch (s : State) (n : Nat) (f : WatchedQueue → WatchedQueue) : State :=
  let w := f (s.sched.watch n)
  { s with sched := { s.sched with watched := (s.sched.watched.filter fun x => x.queue != n) ++ [w] } }

/-- WORK_QUEUE_TAIL_LOSS: the host stores a tail; the front end re-reads it within 64 wc (R188). -/
def execWorkQueueTailLoss (queue : Fin 32768) (tail : Word32) (s : State) : Out :=
  match s.queueEntry queue.val with
  | none => .next s
  | some e =>
    let t := if decide (hostBase ≤ e.taila) && dpaOk e.taila 4 then s.store e.taila 4 tail.toNat else s
    .next ((t.timer (s.clock + 1 + s.freeNat 2 % 64) (.graphAdmission queue)).bump)

/-! ## Translation by the front end (R187) -/

/-- The page of an address through PTBR; an address outside the translated range fails (R191). -/
def frontPage (s : State) (va : Nat) : Check PageMap :=
  if regionOf va = .translated then walk s va else .error (.trap codeTranslation va)

/-- The pages of n bytes, none of them PEER. -/
def frontPages (s : State) (va n : Nat) : Check (List PageMap) :=
  (granules [(va, n)]).mapM fun g => do
    let p ← frontPage s g.2
    require (p.kind != .peer) codeTranslation g.2
    pure p

/-- A little-endian value through the front end's pages. -/
def frontLoad (s : State) (pages : List PageMap) (va n : Nat) : Nat := s.loadV 0 pages va n

/-! ## Colophons (R189 to R191) -/

/-- Why a graph is not admitted. -/
inductive AdmitStop where
  /-- no record can be written (R191) -/
  | unrecorded
  /-- rejected at an offset, with RECORD and where it translated -/
  | rejected (record place offset : Nat)
  | absent (addr : Nat)
  deriving DecidableEq, Repr

/-- A translation, or `e` where it fails. -/
def orStop {α : Type} (e : AdmitStop) (c : Check α) : Except AdmitStop α :=
  match c with
  | .ok v => .ok v
  | .error (.absent a) => .error (.absent a)
  | .error _ => .error e

/-- A check of the front end. -/
def admitIf (ok : Bool) (e : AdmitStop) : Except AdmitStop Unit := if ok then .ok () else .error e

/-- The image array translates wholly to writable pages of kind DEV (R191). -/
def imageArrayOk (s : State) (va n : Nat) : Check Unit := do
  let ps ← (granules [(va, n)]).mapM fun g => frontPage s g.2
  require (ps.all fun p => p.kind == .dev && !p.readOnly) codeTranslation va

/-- A node from its four words at offset `o`; `lone` says that no node has DEP = 0, which node 0 reports (R190, R191; DEDUCED, log
61). -/
def parseNode (s : State) (record place o nn : Nat) (w : Nat → Nat) (lone : Bool) : Except AdmitStop Node := do
  let bad := fun (k : Nat) => AdmitStop.rejected record place (o + k)
  let nest := nbits (w 2) 0 2 == 1
  let bounds : Vector Nat 4 := Vector.ofFn fun k => nbits (w 1) (16 * k.val) 16
  let nsucc := nbits (w 2) 8 8
  let _ ← orStop (bad 0) (frontPage s (w 0))
  admitIf (w 0 % 4 == 0) (bad 0)
  admitIf (!nest || bounds.all fun b => b != 0) (bad 8)
  admitIf (decide (nbits (w 2) 0 2 ≤ 1) && nbits (w 2) 4 4 == 0 && nbits (w 2) 32 32 == 0 && !(nest && nbits (w 2) 2 2 == 3) &&
    !lone) (bad 0x10)
  let ps ← if nsucc = 0 then pure [] else orStop (bad 0x18) (frontPages s (w 3) (2 * nsucc))
  let succ := (List.range nsucc).map fun k => frontLoad s ps (w 3 + 2 * k) 2
  admitIf (succ.all fun i => decide (i < nn)) (bad 0x18)
  pure
    { entry := BitVec.ofNat 64 (w 0), nest := nest
      order := match nbits (w 2) 2 2 with | 0 => .row | 1 => .column | _ => .morton
      bounds := bounds, succ := succ, count := nbits (w 2) 16 16, placed := 0, ended := 0 }

/-- The graph that a colophon at `va` describes (R189 to R191; DEDUCED, log 62). -/
def parseColophon (s : State) (va queue pmax : Nat) : Except AdmitStop Graph := do
  let ps ← orStop .unrecorded (frontPages s va 128)
  let w := fun (k : Nat) => frontLoad s ps (va + 8 * k) 8
  let rp ← orStop .unrecorded (frontPages s (w 2) 64)
  admitIf (w 2 % 64 == 0) .unrecorded
  let place := (physAddrs 0 0 rp (w 2)).headD 0
  let bad := AdmitStop.rejected (w 2) place
  let nn := nbits (w 0) 16 16
  admitIf (nbits (w 0) 5 11 == 0 && nbits (w 0) 32 32 == 0 && nn != 0) (bad 0)
  admitIf (nbits (w 4) 32 32 == 0 && (w 3 == 0 || (w 4 != 0 && w 4 % 1024 == 0))) (bad 0x20)
  let slots := nbits (w 7) 0 7
  admitIf (w 6 % slotSize == 0) (bad 0x30)
  orStop (bad 0x30) (imageArrayOk s (w 6) (max slots 1 * slotSize))
  admitIf (nbits (w 7) 7 57 == 0 && decide (1 ≤ slots ∧ slots ≤ 64)) (bad 0x38)
  for p in List.range 8 do
    admitIf (nbits (w (8 + p)) 56 8 == 0) (bad (0x40 + 8 * p))
  let tp ← orStop (bad 0x80) (frontPages s (va + 128) (32 * nn))
  let word := fun (n k : Nat) => frontLoad s tp (va + 128 + 32 * n + 8 * k) 8
  let lone := (List.range nn).all fun n => nbits (word n 2) 16 16 != 0
  let nodes ← (List.range nn).mapM fun n => parseNode s (w 2) place (0x80 + 32 * n) nn (word n) (lone && n == 0)
  pure
    { id := s.sched.nextGraph, queue := queue, colophon := BitVec.ofNat 64 va, pri := min (nbits (w 0) 0 3) pmax
      chk := nbits (w 0) 3 1 == 1, hpt := nbits (w 0) 4 1 == 1, handler := BitVec.ofNat 64 (w 1)
      record := BitVec.ofNat 64 (w 2), recordAt := place, quota := BitVec.ofNat 64 (w 3), period := w 4
      cmask := BitVec.ofNat 64 (w 5), images := BitVec.ofNat 64 (w 6), slots := slots
      hints := Vector.ofFn fun p => (nbits (w (8 + p.val)) 0 32, nbits (w (8 + p.val)) 32 24)
      nodes := nodes, readyAt := s.clock + 1, used := [], saved := [], pend := 0, failed := 0, quse := 0, overdraft := 0
      exhausted := false, ending := none }

/-- A rejected graph: it runs nothing, and its record carries STATUS 3 and code 0x20 (R191). -/
def rejectedGraph (s : State) (va queue record place offset : Nat) : Graph :=
  { id := s.sched.nextGraph, queue := queue, colophon := BitVec.ofNat 64 va, pri := 0, chk := false, hpt := false, handler := 0
    record := BitVec.ofNat 64 record, recordAt := place, quota := 0, period := 0, cmask := 0, images := 0, slots := 0
    hints := Vector.replicate 8 (0, 0), nodes := [], readyAt := s.clock, used := [], saved := [], pend := 0, failed := 0, quse := 0
    overdraft := 0, exhausted := false
    ending := some { status := 3, code := 0x20, addr := 0, info := BitVec.ofNat 64 offset, node := 0, core := 0, serial := 0 } }

/-! ## Admission (R188) -/

/-- The longest time of one read of n bytes: T of its space for 64 bytes, then 64 bytes a wc (R87, R188; DEDUCED, log 60). -/
def frontTime (host : Bool) (n : Nat) : Nat := (if host then 1200 else 88) + (n + 63) / 64 - 1

/-- The longest time of a translated read, its walk included; a read that does not translate ends at once. -/
def frontReadTime (s : State) (va n : Nat) : Nat :=
  match frontPages s va n with
  | .ok (p :: ps) => 4 * 88 * (ps.length + 1) + frontTime (p.kind == .host) n
  | _ => 4 * 88

/-- The longest time from the start of an entry's read to the end of its checks. -/
def admitBound (s : State) (e : QueueEntry) : Nat :=
  let at_ := e.ring + e.head % 2 ^ e.lsz * 8
  let va := s.load at_ 8
  match frontPages s va 128 with
  | .ok ps =>
    let nn := nbits (frontLoad s ps va 8) 16 16
    match frontPages s (va + 128) (32 * nn) with
    | .ok tp =>
      let lists := (List.range nn).map fun n =>
        let k := nbits (frontLoad s tp (va + 128 + 32 * n + 16) 8) 8 8
        if k = 0 then 0 else frontReadTime s (frontLoad s tp (va + 128 + 32 * n + 24) 8) (2 * k)
      frontTime (decide (hostBase ≤ e.ring)) 8 + frontReadTime s va (128 + 32 * nn) + lists.sum
    | .error _ => frontTime (decide (hostBase ≤ e.ring)) 8 + frontReadTime s va 128
  | .error _ => frontTime (decide (hostBase ≤ e.ring)) 8 + 4 * 88

/-- The most graphs that are active (R188). -/
def maxGraphs : Nat := 4096

/-- The front end looks at a queue: a sound, enabled one with an entry before the tail begins to be read; one that is not
sound is reported once (R187, R188). Before READY no queue is watched (R265). -/
def State.lookAtQueue (s : State) (queue : Fin 32768) (e : QueueEntry) : State :=
  let w := s.sched.watch queue.val
  if e.enabled = false ∨ s.owner.mstat.getLsbD 4 = false then s
  else if e.sound = false then
    if w.reported then s
    else
      (s.errorRecord { type := 10, die := 0xff, unit := 0xff, addr := s.freeNat 9 % 2 ^ 64, detail := queue.val }).bump.onWatch
        queue.val fun x => { x with reported := true }
  else
    let reading := (s.sched.watched.filter WatchedQueue.busy).length
    if e.head = s.load e.taila 4 ∨ maxGraphs ≤ s.sched.graphs.length + reading then s.onWatch queue.val id
    else
      ((s.timer (s.clock + 1 + s.freeNat 2 % admitBound s e) (.graphAdmission queue)).bump).onWatch queue.val fun x =>
        { x with busy := true }

/-- A graph joins the active ones. -/
def State.addGraph (s : State) (g : Graph) : State :=
  { s with sched := { s.sched with graphs := s.sched.graphs ++ [g], nextGraph := s.sched.nextGraph + 1 } }

/-- The checks of an entry end: its graph is admitted or rejected, or a type-11 record is written; HEAD + 1 is written, and the
next entry follows (R188, R191). -/
def State.admitEntry (s : State) (queue : Fin 32768) (e : QueueEntry) : Out :=
  let va := s.load (e.ring + e.head % 2 ^ e.lsz * 8) 8
  let next := fun (t : State) =>
    Host.Outcome.next (((t.store (e.at_ + 24) 4 ((e.head + 1) % 2 ^ 32)).onWatch queue.val fun w => { w with busy := false }).soon
      (.graphAdmission queue))
  match parseColophon s va queue.val e.pmax with
  | .ok g => next (s.addGraph g)
  | .error (.rejected record place offset) => next (s.addGraph (rejectedGraph s va queue.val record place offset))
  | .error .unrecorded =>
    next (s.errorRecord { type := 11, die := 0xff, unit := 0xff, addr := va, detail := queue.val })
  | .error (.absent a) => .fault (.noSuchDevAddress a)

/-- GRAPH_ADMISSION: the tail is read anew and an entry's read begins, or the checks of the entry in hand end (R188). -/
def execGraphAdmission (queue : Fin 32768) (s : State) : Out :=
  let idle := s.onWatch queue.val fun w => { w with busy := false }
  match s.queueEntry queue.val with
  | none => .next idle
  | some e =>
    if (s.sched.watch queue.val).busy then
      if e.enabled && e.sound then s.admitEntry queue e else .next idle
    else .next (s.lookAtQueue queue e)

/-! ## Completion records (R204) -/

/-- An L word that still accesses the module once its task has gone: an LPROG its image, an LSTART the sources of its steps, and any word
the block that its descriptor names. -/
def QEntry.outlives (q : QEntry) : Bool :=
  q.status != .retired && (q.notify != 0 || match q.instr with | .lprog _ _ _ | .lstart _ _ _ => true | _ => false)

/-- Every access of a graph's tasks has performed: no task of it runs, no started command of it is left, and the pushes of a
core without a task are stored. -/
def State.performed (s : State) (g : Nat) : Bool :=
  (s.coresOf g).isEmpty && (List.finRange 64).all fun c =>
    let x := s.core c
    (ownQueues.all fun e => (x.queue e).all fun q => q.graph != g) && ((x.queue .l).all fun q => q.graph != g || !q.outlives) &&
      (x.mode != .free || ((x.outQ[(0 : Fin 4)]).isEmpty && (x.outQ[(1 : Fin 4)]).isEmpty))

/-- The 64 bytes of a completion record. -/
def recordBytes (g : Graph) (e : GraphEnd) (now : Nat) : List Byte :=
  leBytes 8 (e.status.toNat + e.code.toNat * 256) ++ leBytes 8 e.addr.toNat ++ leBytes 8 e.info.toNat ++
    leBytes 8 (e.node % 2 ^ 16 + e.core.val * 2 ^ 16 + e.serial % 2 ^ 32 * 2 ^ 32) ++ leBytes 8 (g.quse / 5) ++
    leBytes 8 (g.overdraft / 5) ++ leBytes 8 (now % 2 ^ 64) ++ leBytes 8 (g.failed % 2 ^ 32)

/-- VALID clears in the slot of a task that is discarded (R155, R360). -/
def State.clearValid (s : State) (g : Graph) (t : SavedTask) : State :=
  match imagePages s t.core true (g.slotVa t.slot) 64 with
  | .ok pages => s.storeV t.core 0 pages (g.slotVa t.slot + 4) [0]
  | .error _ => s

/-- Where a record lands: RECORD is translated where it is used (R187). One that no longer translates lands where it stood at
admission (DESIGN CHOICE, log 85). -/
def State.recordPlace (s : State) (g : Graph) : Check Nat :=
  match frontPages s g.record.toNat 64 with
  | .ok ps => .ok ((physAddrs 0 0 ps g.record.toNat).headD g.recordAt)
  | .error (.absent a) => .error (.absent a)
  | .error _ => .ok g.recordAt

/-- COMPLETION_RECORD_WRITE: once the graph has ended, PEND is zero and every access has performed, its record is written and
the graph is no longer active (R204). -/
def execCompletionRecordWrite (graph : Nat) (s : State) : Out :=
  match s.graphById graph with
  | none => .next s
  | some g =>
    match g.ending with
    | none => .next s
    | some e =>
      if g.pend ≠ 0 ∨ s.performed graph = false then .next s
      else
        match s.recordPlace g with
        | .ok place =>
          let t := (g.saved.foldl (fun s t => s.clearValid g t) s).storeBytes place (recordBytes g e s.clock)
          let u := { t with sched := { t.sched with graphs := t.sched.graphs.filter fun x => x.id != graph } }
          .next ((u.sched.watched.filter fun w => !w.busy).foldl (fun s w => s.soon (.graphAdmission (Fin.ofNat 32768 w.queue))) u)
        | .error (.absent a) => .fault (.noSuchDevAddress a)
        | .error _ => .next s

/-! ## Quotas (R205) -/

/-- QUOTA_PERIOD_START: the overdraft is debited from the new period; a graph still at its quota waits further (R205). -/
def execQuotaPeriodStart (graph : Nat) (s : State) : Out :=
  .next (s.onGraph graph fun g =>
    let rest := g.quse - g.quota.toNat * 5
    { g with quse := rest, overdraft := rest, exhausted := g.quota != 0 && decide (g.quota.toNat * 5 ≤ rest) })

end Sys2Proof.Machine
end

