-- ==== Sys2Proof/Machine/Sched.lean ====
section
/-! DEFINITION. TASK_DISPATCH (R193 to R195): the scheduler's turns, the walk of a loop nest, the state of a task at dispatch
(R55, R56), and the pre-emptions that make room (R197). -/

namespace Sys2Proof.Machine

open Sys2Proof

/-! ## The walk of a loop nest (R193) -/

/-- Tuples of a Morton block below the bounds: `base` is its first tuple, and its code's low b bits are free. -/
def mortonCount (bounds base : List Nat) (b : Nat) : Nat :=
  ((List.range 4).map fun k => min (bounds.getD k 1 - base.getD k 0) (2 ^ ((b + 3 - k) / 4))).foldl (· * ·) 1

/-- The tuple with ordinal n of the Morton block at `base` with b free code bits: code bit 4 j + k is bit j of i_k. -/
def mortonNth (bounds : List Nat) : Nat → List Nat → Nat → List Nat
  | 0, base, _ => base
  | b + 1, base, n =>
    let low := mortonCount bounds base b
    if n < low then mortonNth bounds b base n
    else mortonNth bounds b (base.modify (b % 4) fun v => v + 2 ^ (b / 4)) (n - low)

/-- The tuple of a loop nest with ordinal n in its order. -/
def Node.tuple (x : Node) (n : Nat) : List Nat :=
  let b := x.bounds
  match x.order with
  | .row => [n / (b[3] * b[2] * b[1]), n / (b[3] * b[2]) % b[1], n / b[3] % b[2], n % b[3]]
  | .column => [n % b[0], n / b[0] % b[1], n / (b[0] * b[1]) % b[2], n / (b[0] * b[1] * b[2])]
  | .morton => mortonNth b.toList 64 [0, 0, 0, 0] n

/-! ## Dispatch (R55, R56, R141, R193, R194, R199) -/

/-- The scalar registers of a task at dispatch. -/
def dispatchRegs (g : Graph) (x : Node) (serial : Nat) : Vector Word 64 :=
  let i := if x.nest then x.tuple serial else [0, 0, 0, 0]
  let r : List Word := [0] ++ i.map (BitVec.ofNat 64) ++ [BitVec.ofNat 64 serial, g.colophon]
  Vector.ofFn fun k => (r[k.val]?).getD 0

/-- A core at dispatch: its cache, its translation buffer and the L words of earlier tasks stay. -/
def CoreState.dispatched (x : CoreState) (t : Task) (g : Graph) (n : Node) (now : Nat) : CoreState :=
  { CoreState.reset with
    regs := dispatchRegs g n t.serial, pc := n.entry, checked := g.chk
    tlb := x.tlb, icache := x.icache, filling := x.filling, queues := (Vector.replicate 5 []).set 3 (x.queue .l)
    order := x.order, epoch := x.epochs + 1, epochs := x.epochs + 1, gen := x.gen
    task := some t, mode := .running, issueAt := now + 1 }

/-- A core parts an edge: its neighbour's grid and the neighbour's saved task forget it, unless a saved task of the core itself still holds
it (R141). -/
def State.partEdge (s : State) (c : CoreId) (south : Bool) : State :=
  match if south then southOf c else northOf c with
  | none => s
  | some d =>
    if s.savedJoins c south then s
    else (s.onGrid d fun h => if south then { h with joinNorth := false } else { h with joinSouth := false }).partSaved d (!south)

/-- The grid of a core at dispatch: both edges are parted (R141). -/
def State.resetGrid (s : State) (c : CoreId) : State := ((s.partEdge c false).partEdge c true).putGrid c Grid.reset

/-- The next tuple of node n of a graph starts on core c, in a free slot (DESIGN CHOICE, log 55). -/
def State.startTask (s : State) (c : CoreId) (g : Graph) (n : Nat) : State :=
  match g.nodes[n]?, g.freeSlot with
  | some x, some slot =>
    let t : Task := { graph := g.id, node := n, serial := x.placed, slot := slot }
    let u := (((s.resetGrid c).setLines c false).onCore c fun y => y.dispatched t g x s.clock)
    u.onGraph g.id fun h =>
      { h with used := h.used ++ [slot], nodes := h.nodes.modify n fun y => { y with placed := y.placed + 1 } }
  | _, _ => s

/-! ## Turns (R195) -/

/-- The dispatchable items of a queue at a priority, in the arrival order of its graphs (DEDUCED, log 29). -/
def State.itemsOf (s : State) (queue pri : Nat) : List (Graph × Item) :=
  (s.sched.graphs.filter fun g => g.queue == queue && g.pri == pri).flatMap fun g => (s.items g).map fun i => (g, i)

/-- The candidates: queues with the priorities at which they hold an item. -/
def State.candidates (s : State) : List (Nat × Nat) :=
  ((s.sched.graphs.filter fun g => !(s.items g).isEmpty).map fun g => (g.queue, g.pri)).eraseDups

/-- Waiting times: a new candidate's counts from now, and a queue that is none has none. -/
def State.countWaits (s : State) : State :=
  let since := s.candidates.map fun k =>
    match s.sched.since.find? fun x => x.1 == k with
    | some x => x
    | none => (k, s.clock)
  { s with sched := { s.sched with since := since } }

/-- Waiting time in units of 65,536 wc. -/
def State.waited (s : State) (queue pri : Nat) : Nat :=
  match s.sched.since.find? fun x => x.1 == (queue, pri) with
  | some x => (s.clock - x.2) / 65536
  | none => 0

/-- The weight a queue's turn starts with: min(W + a, 30). -/
def State.effectiveWeight (s : State) (queue pri : Nat) : Nat :=
  min ((match s.queueEntry queue with | some e => e.weight | none => 0) + s.waited queue pri) 30

/-- The smallest of some numbers. -/
def leastOf : List Nat → Option Nat
  | [] => none
  | a :: rest => some (rest.foldl min a)

/-- The candidate whose turn comes after queue `last`, wrapping. -/
def nextQueue (qs : List Nat) (last : Option Nat) : Option Nat :=
  match last with
  | none => leastOf qs
  | some l => match leastOf (qs.filter fun q => decide (l < q)) with | some q => some q | none => leastOf qs

/-- The turn of a priority. -/
def Sched.turnOf (d : Sched) (pri : Nat) : Option Turn := d.turns.find? fun t => t.pri == pri

/-- Setting it. -/
def State.setTurn (s : State) (t : Turn) : State :=
  { s with sched := { s.sched with turns := (s.sched.turns.filter fun x => x.pri != t.pri) ++ [t] } }

/-- The end of a queue's turn: its waiting time starts anew. -/
def State.endTurn (s : State) (pri queue : Nat) : State :=
  let since := s.sched.since.map fun x => if x.1.1 = queue then (x.1, s.clock) else x
  let t := { s with sched := { s.sched with since := since } }
  t.setTurn { pri := pri, last := queue, current := none }

/-- A turn whose queue holds no item any more ends; only the want of a core holds one (R195). -/
def State.endTurns (s : State) : State :=
  s.sched.turns.foldl (fun t x =>
    match x.current with
    | some (q, _) => if s.candidates.contains (q, x.pri) then t else t.endTurn x.pri q
    | none => t) s

/-- The queue whose turn it is among the candidates of a priority; a turn of a queue that is no candidate any more ends. -/
def State.takeTurn (s : State) (pri : Nat) : State × Option (Nat × Nat) :=
  let qs := (s.candidates.filter fun k => k.2 == pri).map Prod.fst
  let held := match s.sched.turnOf pri with | some t => t.current | none => none
  match held with
  | some (q, n) =>
    if qs.contains q then (s, some (q, n))
    else
      let t := s.endTurn pri q
      match nextQueue qs (some q) with
      | some r => (t.setTurn { pri := pri, last := r, current := some (r, t.effectiveWeight r pri) }, some (r, t.effectiveWeight r pri))
      | none => (t, none)
  | none =>
    match nextQueue qs ((s.sched.turnOf pri).map Turn.last) with
    | some r => (s.setTurn { pri := pri, last := r, current := some (r, s.effectiveWeight r pri) }, some (r, s.effectiveWeight r pri))
    | none => (s, none)

/-- A queue has placed one item of its turn. -/
def State.spendTurn (s : State) (pri queue left : Nat) : State :=
  if left ≤ 1 then s.endTurn pri queue else s.setTurn { pri := pri, last := queue, current := some (queue, left - 1) }

/-! ## Placing (R193, R195) -/

/-- The lowest-numbered free core that an item may take and that this wc has not used. -/
def State.coreFor (s : State) (used : List CoreId) (g : Graph) (i : Item) : Option CoreId :=
  (List.finRange 64).find? fun c => itemAllows g i c && s.coreFree c && !(used.contains c)

/-- The item that a turn places: among its queue's first graph, the first that finds a core; an item whose core is busy is passed over for a
later one of its graph, and the queue's next graph waits (DESIGN CHOICE, log 100). -/
def State.pick (s : State) (used : List CoreId) (queue pri : Nat) : Option (Graph × Item × CoreId) :=
  match s.itemsOf queue pri with
  | [] => none
  | (g, _) :: _ =>
    ((s.itemsOf queue pri).filter fun x => x.1.id == g.id).findSome? fun x => (s.coreFor used x.1 x.2).map fun c => (x.1, x.2, c)

/-- An item takes its core. -/
def State.place (s : State) (g : Graph) (i : Item) (c : CoreId) : Out :=
  match i with
  | .tuple _ n => .next (s.startTask c g n)
  | .resume _ slot _ =>
    match g.saved.find? fun t => t.slot == slot with
    | some t => s.beginResume g t
    | none => .next s

/-- The placements of a wc: at most `fuel`, resumes counted, one to a core, at the highest priority that has an item; where that priority has
none left, the next one is served in the same wc (R193, R195; DESIGN CHOICE, log 100). -/
def placeItems : Nat → List CoreId → State → Out × List CoreId
  | 0, used, s => (.next s, used)
  | fuel + 1, used, s =>
    match s.candidates with
    | [] => (.next s, used)
    | k :: ks =>
      let pri := ks.foldl (fun m x => max m x.2) k.2
      match s.takeTurn pri with
      | (t, none) => (.next t, used)
      | (t, some (queue, left)) =>
        match t.pick used queue pri with
        | none => (.next t, used)
        | some (g, i, c) =>
          match t.place g i c with
          | .next u => placeItems fuel (used ++ [c]) (u.spendTurn pri queue left)
          | out => (out, used)

/-! ## Making room (R197) -/

/-- The queues of a priority in the order of their turns. -/
def State.turnOrder (s : State) (pri : Nat) : List Nat :=
  let qs := ascending ((s.candidates.filter fun k => k.2 == pri).map Prod.fst)
  match s.sched.turnOf pri with
  | none => qs
  | some t =>
    let first := match t.current with | some (q, _) => q | none => t.last + 1
    qs.filter (fun q => decide (first ≤ q)) ++ qs.filter fun q => decide (q < first)

/-- Every dispatchable item of a queue at a priority: of the tuples of a graph, which may all take the same cores, as many as the module has
cores. -/
def State.itemsLeft (s : State) (queue pri : Nat) : List (Graph × Item) :=
  (s.sched.graphs.filter fun g => g.queue == queue && g.pri == pri).flatMap fun g =>
    let is := g.allItems (s.striking g.id) s.clock
    (match is.head? with | some (.tuple _ _) => is.take 64 | _ => is).map fun i => (g, i)

/-- Lists served in turns: the first turn of each takes as many as its first number says, every later one as its second. -/
def inTurns {α : Type} : Nat → List (Nat × Nat × List α) → List α
  | 0, _ => []
  | _, [] => []
  | fuel + 1, (n, e, xs) :: rest =>
    xs.take n ++ inTurns fuel (rest ++ if (xs.drop n).isEmpty then [] else [(e, e, xs.drop n)])

/-- The places that the turn of a queue has left, or starts with. -/
def State.turnLeft (s : State) (queue pri : Nat) : Nat :=
  match s.sched.turnOf pri with
  | some { current := some (q, n), .. } => if q = queue then max n 1 else max (s.effectiveWeight queue pri) 1
  | _ => max (s.effectiveWeight queue pri) 1

/-- Every dispatchable item, in the order in which R195 would place them: by turns of the queues of each priority. -/
def State.allItems (s : State) : List (Graph × Item) :=
  [7, 6, 5, 4, 3, 2, 1, 0].flatMap fun pri =>
    let qs := (s.turnOrder pri).map fun q => (s.turnLeft q pri, max (s.effectiveWeight q pri) 1, s.itemsLeft q pri)
    inTurns (qs.length + (qs.map fun q => q.2.2.length).sum) qs

/-- A core that a pre-emption for priority is freeing. -/
def CoreState.yielding (x : CoreState) : Bool := (x.mode == .running || x.mode == .saving) && x.preempt == some 1

/-- The core that an item pre-empts: the lowest-priority task below its own among the allowed cores that no item has taken and
that are not being saved, the highest core number on a tie. A pre-emption that waits for a heat pause does not shut its core out
(R197). -/
def State.victim (s : State) (taken : List CoreId) (g : Graph) (i : Item) : Option CoreId :=
  let cs := (List.finRange 64).reverse.filter fun c =>
    itemAllows g i c && !(taken.contains c) && (s.core c).mode == .running && (s.core c).preempt != some 1 &&
      decide (s.priority c < g.pri)
  match cs with
  | [] => none
  | a :: rest => some (rest.foldl (fun m c => if s.priority c < s.priority m then c else m) a)

/-- One item's claim: a free core, a core that is being freed, else the core it pre-empts. A core that is being freed serves the first item
that may take it, whichever item's claim of an earlier wc began its save (DESIGN CHOICE, log 100). A claim puts its cause in the place of
that of an order which has not struck (DESIGN CHOICE, log 92). -/
def claimOne (r : State × List CoreId) (x : Graph × Item) : State × List CoreId :=
  let (s, taken) := r
  let open_ := (List.finRange 64).find? fun c =>
    itemAllows x.1 x.2 c && !(taken.contains c) && (s.coreFree c || (s.core c).yielding)
  match open_ with
  | some c => (s, taken ++ [c])
  | none =>
    match s.victim taken x.1 x.2 with
    | some c => (s.onCore c fun y => { y with preempt := some 1 }, taken ++ [c])
    | none => (s, taken)

/-- Items that found no free core claim cores of lower priority (R197). -/
def State.makeRoom (s : State) (used : List CoreId) : State := (s.allItems.foldl claimOne (s, used)).1

/-- TASK_DISPATCH: the scheduler's placements of one wc, at most 16, and the pre-emptions that make room for the items that
found no core (R193 to R195, R197); before COLD nothing is dispatched (R265). -/
def execTaskDispatch (s : State) : Out :=
  let t := ((List.finRange 64).foldl (fun s c => s.drainStep c) s).countWaits.endTurns
  if !s.owner.mstat.getLsbD 2 then .next t
  else match placeItems 16 [] t with
  | (.next u, used) => .next (u.makeRoom used)
  | (out, _) => out

end Sys2Proof.Machine
end

