-- ==== Sys2Proof/Machine/Optics.lean ====
section
/-! DEFINITION. Events of optics and power: MONITOR_INTERVAL_END and ORNG_WRITE (R247, R248), DROOP and
DROOP_INJECTION_STOP (R251), WARM_BUDGET_WINDOW_END (R252, R253, R259). -/

namespace Sys2Proof.Machine

open Sys2Proof

/-! ## Rings (R247, R248) -/

/-- The largest reading: 8,192 counts, and the 10 % that a part may lie from it (R248). -/
def pdLimit : Nat := 9011

/-- A part's own value of a nominal one, within 10 % of it (R248, log 5). -/
def partValue (nominal place : Nat) : Int :=
  let spread := nominal / 10
  ((nominal - spread + Config.reading place 0 % (2 * spread + 1) : Nat) : Int)

/-- The temperature of a warm die in units of 1/1,000 K against the part's reference (log 5). -/
def dieHeat (d now : Nat) : Int := (Config.reading (3000 + d) now % 200001 : Nat) - 100000

/-- The heater code at which ring n reaches wavelength w: the code that ring w of its fibre needs, 2,048 more for a spare, and 40 codes
fewer for each K of its port's die; every nominal value is the part's within 10 % (R248). -/
def neededCode (n w now : Nat) : Int :=
  let base : Int := (Config.reading (20000 + n / 18 * 16 + w) 0 % 4096 : Nat)
  let spare := if n % 18 < 16 then 0 else partValue 2048 (40000 + n)
  base + spare - partValue 40 (50000 + n) * dieHeat (n / 144 / 2) now / 1000

/-- PD for an error in heater codes: 4 counts per code up to 2,048 codes, beyond that 8,192 (R248). -/
def pdOf (n : Nat) (error : Int) : Int :=
  let most := partValue 8192 (60000 + n)
  if 2048 < error then most
  else if error < -2048 then -most
  else (partValue 4000 (70000 + n) * error).tdiv 1000

/-- The interval that ends at `now` reflects a heater write of wc t: it began after t + 64 (R248). -/
def settledSince (t now : Nat) : Bool := decide (t + 64 < now - 64)

/-- A ring's PD for the interval that ends now: 0 for a ring whose WL is 16; its resonance error against the wavelength it names, positive
when it needs more heat; and before the interval reflects the last heater write, a reading that is free within the range (R248). -/
def Ring.monitored (r : Ring) (n now : Nat) : Ring :=
  { r with pd :=
      if r.wl = 16 then 0
      else if settledSince r.htrAt now then BitVec.ofInt 16 (pdOf n (neededCode n r.wl.toNat now - r.htr.toNat))
      else BitVec.ofNat 16 (Config.reading n now % (2 * pdLimit + 1)) - BitVec.ofNat 16 pdLimit }

/-- MONITOR_INTERVAL_END: at multiples of 64 wc every PD takes the result of the interval that has ended (R248). -/
def execMonitorIntervalEnd (s : State) : Out :=
  .next { s with rings := s.rings.mapIdx fun n r => r.monitored n s.clock }

/-- A write of ORNG in wc `at_`: HTR and WL, where a WL of 17 to 31 is taken as 16; the rest of the register is RO or RES (R247). -/
def Ring.written (r : Ring) (v : Word) (at_ : Nat) : Ring :=
  { r with htr := v.setWidth 12, htrAt := at_, wl := if (v.extractLsb' 16 5).toNat ≤ 16 then v.extractLsb' 16 5 else 16 }

/-- ORNG_WRITE: a write of a ring register acts from the wc after it (R247, R248); WL serves from a boundary on (R249). -/
def execOrngWrite (n : Fin 1152) (value : Word) (s : State) : Out :=
  .next { s with rings := s.rings.set n (s.rings[n].written value (s.clock - 1)) }

/-! ## Droops (R251) -/

/-- The first wc of the window that holds wc t. -/
def windowStart (t : Nat) : Nat := t / 1024 * 1024

/-- Wcs of injection of a cluster in the current window up to now. -/
def State.injectedNow (s : State) (k : Fin 16) : Nat :=
  s.power.injected[k] + match s.power.injecting[k] with
    | some start => s.clock - max start (windowStart s.clock)
    | none => 0

/-- Wcs of injection of a cluster up to now in the window of the last wc: at a boundary, in the window that ends. -/
def State.injectedBefore (s : State) (k : Fin 16) : Nat :=
  s.power.injected[k] + match s.power.injecting[k] with
    | some start => s.clock - max start (windowStart (s.clock - 1))
    | none => 0

/-- An injection that began at `start`, with `used` wcs in its window before it, ends at the latest here: 128 wc on, or when the
window's counter reaches 64; the counter starts anew at a window boundary. -/
def injectionLimit (start used : Nat) : Nat :=
  let edge := windowStart start + 1024
  if start + (64 - used) ≤ edge then start + (64 - used) else min (start + 128) (edge + 64)

/-- A cluster is forced to the high rail until the window ends, and DRPFRC counts it. -/
def State.forceHigh (s : State) (k : Fin 16) : State :=
  let p := s.power
  { s with power := { p with forced := p.forced ||| BitVec.ofNat 16 (2 ^ k.val), drpfrc := p.drpfrc.set k (p.drpfrc[k] + 1) } }

/-- DROOP: the supply of a low-rail cluster falls below its threshold; the event counts and the high rail injects, or the
cluster is forced at once where its counter has reached its limit. -/
def execDroop (k : Fin 16) (s : State) : Out :=
  let p := s.power
  if p.railHigh k.val ∨ (p.injecting[k]).isSome then .next s
  else
    let t := { s with power := { p with drpev := p.drpev.set k (p.drpev[k] + 1) } }
    let used := s.injectedNow k
    if 64 ≤ used then .next (t.forceHigh k)
    else
      .next (({ t with power := { t.power with injecting := t.power.injecting.set k (some s.clock) } }).timer
        (injectionLimit s.clock used) (.droopInjectionStop k false))

/-- Injection has reached one of its limits. -/
def State.injectionOver (s : State) (k : Fin 16) : Bool :=
  match s.power.injecting[k] with
  | some start => decide (start + 128 ≤ s.clock) || decide (64 ≤ s.injectedBefore k)
  | none => false

/-- DROOP_INJECTION_STOP: the supply has recovered, or a limit is reached while the droop persists and the cluster is forced. -/
def execDroopInjectionStop (k : Fin 16) (recovered : Bool) (s : State) : Out :=
  if (s.power.injecting[k]).isNone ∨ (recovered = false ∧ s.injectionOver k = false) then .next s
  else
    let p := s.power
    let t := { s with power := { p with injected := p.injected.set k (s.injectedNow k), injecting := p.injecting.set k none } }
    .next (if recovered then t else t.forceHigh k)

/-! ## The warm budget (R252, R253, R259) -/

/-- The effective budget E. -/
def Power.effective (p : Power) : Nat := if p.rklim = 0 then p.pwbud.toNat else min p.pwbud.toNat p.rkshr.toNat

/-- A cluster with bit k of a mask. -/
def clusterBit (k : Nat) : BitVec 16 := BitVec.ofNat 16 (2 ^ k)

/-- The step that a window's draw brings (R252). -/
def Power.budgetStep (p : Power) : Power :=
  let draw := p.pwarm.toNat
  let e := p.effective
  if e < draw then
    match (List.range 16).reverse.find? fun k => p.railHigh k && !p.forced.getLsbD k with
    | some k => { p with stepped := p.stepped ||| clusterBit k }
    | none => if (List.range 16).any p.railHigh then p else { p with ovr := true }
  else
    let q := { p with ovr := false }
    if draw + 128 ≤ e then
      match (List.range 16).find? fun k => p.stepped.getLsbD k with
      | some k => { q with stepped := q.stepped &&& ~~~(clusterBit k) }
      | none => q
    else q

/-- The owner's values that waited for the boundary take effect; a share then starts at floor(RKLIM / n), which is free where n is
0 (R253, R259). -/
def Power.ownerStep (p : Power) (free : Nat) : Power :=
  let rklim := p.nextRklim.getD p.rklim
  let rkid := p.nextRkid.getD p.rkid
  let n := nbits rkid.toNat 8 5
  let share : BitVec 16 := if n = 0 then BitVec.ofNat 16 free else BitVec.ofNat 16 (rklim.toNat / n)
  { p with
    pwbud := p.nextPwbud.getD p.pwbud, rklim := rklim, rkid := rkid
    rkshr := if p.nextRklim.isSome || p.nextRkid.isSome then share else p.rkshr
    nextPwbud := none, nextRklim := none, nextRkid := none }

/-- The draw of the transmit groups over the window that has ended, in units of 0.5 W (R242). -/
def State.opticsDraw (s : State) : Nat := (s.power.drawn + 256000) / 512000

/-- WARM_BUDGET_WINDOW_END: PWARM takes the ended window's draw: that of the transmit groups, and the rest, which is free (R242,
log 5); one step is taken; an episode over budget writes one record; forces and injection counters end with the window; the
owner's values take effect (R251, R252, R259; DEDUCED, log 64). -/
def execWarmBudgetWindowEnd (s : State) : Out :=
  let p := { s.power with pwarm := BitVec.ofNat 16 (min 65535 (Config.reading 2000 s.clock % 65536 + s.opticsDraw)), drawn := 0 }
  let q := p.budgetStep
  let r := { (q.ownerStep (s.freeNat 12)) with forced := 0, injected := Vector.replicate 16 0 }
  let t := ({ s with power := r }).bump
  .next (if q.ovr && !p.ovr then t.recordNowhere 6 0xff 0xff else t)

end Sys2Proof.Machine
end

