-- ==== Sys2Proof/Machine/OwnerWindow.lean ====
section
/-! DEFINITION. The owner window (R257 to R261): claims and hand-over, the registers, the calendar bank (R230), owner stops and
pre-emptions, attestation and firmware updates. -/

namespace Sys2Proof.Machine

open Sys2Proof

/-! ## Masters (R258) -/

/-- A master's number as OWN holds it. -/
def masterCode : Master → BitVec 2
  | .host => 1 | .controller => 2

def State.onOwner (s : State) (f : Owner → Owner) : State := { s with owner := f s.owner }

/-- A discarded write (R257). -/
def State.rejectWrite (s : State) : State := s.onOwner fun o => { o with orej := o.orej + 1 }

/-- A write that only the owner's takes effect (R257). The host's writes of the wc of its own claim wait with the claim, since OWN stands for
them as the wc leaves it (R258; DEDUCED, log 91). -/
def State.ownerOnly (s : State) (m : Master) (i : Instr) (f : State → State) : State :=
  if s.owner.own = masterCode m then f s
  else if m = .host ∧ s.owner.own = 0 ∧ s.owner.claimAt.isSome then s.onOwner fun o => { o with waits := o.waits ++ [i] }
  else s.rejectWrite

/-- A claim (R258). With no owner the controller becomes the owner at once; the host does when its wc ends, unless a claim of the
controller lands in the same wc, which discards the host's (DEDUCED, log 91). The claim of a hand-over's target completes it in time;
any other is discarded. -/
def State.claim (s : State) (m : Master) : State :=
  let o := s.owner
  let me := masterCode m
  if o.own = 0 then
    match m, o.claimAt with
    | .host, none => s.onOwner fun o => { o with claimAt := some s.clock }
    | .host, some _ => s.rejectWrite
    | .controller, none => s.onOwner fun o => { o with own := me }
    | .controller, some _ =>
      s.onOwner fun o => { o with own := me, claimAt := none, waits := [], orej := o.orej + 1 + BitVec.ofNat 64 o.waits.length }
  else
    match o.handDeadline with
    | some d =>
      if o.ohand = me ∧ o.own ≠ me ∧ s.clock ≤ d then
        s.onOwner fun o => { o with own := me, ohand := 0, handDeadline := none }
      else s.rejectWrite
    | none => s.rejectWrite

/-- The end of a wc: the host's claim stands, and its writes of the wc act. -/
def State.settleOwner (s : State) : State :=
  if s.owner.claimAt.isSome then
    { s.onOwner fun o => { o with own := masterCode .host, claimAt := none, waits := [] } with agenda := s.agenda ++ s.owner.waits }
  else s

/-- OCLAIM. -/
def execOclaim (m : Master) (s : State) : Out := .next (s.claim m)

/-- The wcs within which a hand-over's claim must land. -/
def handWindow : Nat := 2000000

/-- A write of OHAND by the owner: 0 releases; another value names a target (DEDUCED, log 70). -/
def State.handOver (s : State) (v : Word) : State :=
  if v.setWidth 2 = (0 : BitVec 2) then s.onOwner fun o => { o with own := 0, ohand := 0, handDeadline := none }
  else
    (s.onOwner fun o => { o with ohand := v.setWidth 2, handDeadline := some (s.clock + handWindow) }).timer
      (s.clock + handWindow + 1) .handoverTimeout

/-- OHAND. -/
def execOhand (m : Master) (value : Word) (s : State) : Out := .next (s.ownerOnly m (.ohand m value) fun t => t.handOver value)

/-- HANDOVER_TIMEOUT: no claim has landed in time; OHAND returns to 0 (R258). -/
def execHandoverTimeout (s : State) : Out :=
  match s.owner.handDeadline with
  | some d => .next (if d < s.clock then s.onOwner fun o => { o with ohand := 0, handDeadline := none } else s)
  | none => .next s

/-! ## Registers (R257, R259) -/

/-- A write of PTBR, whose RES bits it ignores: every entry that is not pinned is invalidated (R5, R6, R94, R97, R259). -/
def State.writePtbr (s : State) (v : Word) : State :=
  (s.onOwner fun o => { o with ptbr := v &&& 0x000ffffffffff000 }).invalidate fun _ => true

/-- PTBR_WRITE. -/
def execPtbrWrite (m : Master) (value : Word) (s : State) : Out := .next (s.ownerOnly m (.ptbrWrite m value) fun t => t.writePtbr value)

/-- A write of HBUDGET: it waits for a window (R113, R259). The window gives back all 64 bits as written, and the budget takes the low 32
(DESIGN CHOICE, log 42). -/
def State.writeHbudget (s : State) (v : Word) : State :=
  { s with meter := { s.meter with written := v, pending := s.meter.pending ++ [(v.toNat, s.clock)] } }

/-- HBUDGET_WRITE. -/
def execHbudgetWrite (m : Master) (value : Word) (s : State) : Out := .next (s.ownerOnly m (.hbudgetWrite m value) fun t => t.writeHbudget value)

/-! ### The calendar bank (R206, R230) -/

/-- The first slot boundary of a calendar at or after wc t (R208). -/
def Bank.boundaryFrom (b : Bank) (t : Nat) : Nat :=
  if t ≤ b.epoch then b.epoch else b.epoch + (t - b.epoch + b.slen - 1) / b.slen * b.slen

/-- The pending bank with its written epoch: CALBANK, BSLEN, BGUARD, BCNT, BFLT, BEPOCH, BN. -/
def Fabric.pendingBank (f : Fabric) : Bank :=
  let r := fun (k : Fin 7) => f.bregs[k].toNat
  { slen := nbits (r 0) 0 32, guard := nbits (r 1) 0 16, slots := nbits (r 2) 0 6, flight := nbits (r 3) 0 16, epoch := r 4
    pod := nbits (r 5) 0 7
    calendar := Vector.ofFn fun p => Vector.ofFn fun j =>
      let b := (f.calbank[p.val * 64 + j.val]?).getD 0
      if b.getLsbD 7 then none else some (Fin.ofNat 64 b.toNat) }

/-- The front end starts to watch the work queues (R265; DEDUCED, log 65). -/
def State.watchAll (s : State) : State :=
  let on := (List.finRange 32768).filter fun q => match s.queueEntry q.val with | some e => e.enabled | none => false
  on.foldl (fun s q => s.soon (.graphAdmission q)) s

/-- READY follows OPT once a bank is loaded. -/
def State.readyTest (s : State) : State :=
  if s.owner.mstat.getLsbD 3 && s.fabric.active.isSome && !s.owner.mstat.getLsbD 4 then
    (s.onOwner fun o => { o with mstat := o.mstat ||| 16 }).watchAll
  else s

/-- The bank is loaded: the first load is active at once; a later one fixes TSW and the new epoch (R230). -/
def State.loadBank (s : State) (count : Word) : State :=
  let f := { s.fabric with bregs := s.fabric.bregs.set 6 count }
  let bank := f.pendingBank
  match f.active with
  | none => ({ s with fabric := { f with active := some bank } }).readyTest
  | some b =>
    let tsw := b.boundaryFrom (max count.toNat (s.count + 1))
    { s with fabric := { f with change := some (tsw, max bank.epoch (tsw + 20000), bank), rsw := BitVec.ofNat 64 tsw } }

/-- BSWITCH: the write loads the bank; a change waits for TSW. -/
def execBswitch (m : Master) (value : Word) (s : State) : Out :=
  .next (s.ownerOnly m (.bswitch m value) fun t =>
    let u := t.loadBank value
    match u.fabric.change with
    | some c => u.timer (u.clock + (c.1 - u.count)) .calendarSwitch
    | none => u)

/-! ### Stops and pre-emptions (R259) -/

/-- Every active graph admitted from a colophon address stops with STATUS 4 (R204). -/
def State.stopGraphs (s : State) (colophon : Word) : State :=
  (s.sched.graphs.filter fun g => g.colophon == colophon).foldl (fun s g => s.endGraph g.id
    { status := 4, code := 0, addr := 0, info := 0, node := 0, core := 0, serial := 0 }) s

/-- OSTOP. -/
def execOstop (m : Master) (value : Word) (s : State) : Out :=
  .next (s.ownerOnly m (.ostop m value) fun t => (t.onOwner fun o => { o with ostop := value }).stopGraphs value)

/-- An owner pre-emption is ordered on every masked core that runs a task (R197; DEDUCED, log 92). -/
def State.preemptMask (s : State) (mask : Word) : State :=
  ((List.finRange 64).filter fun c => mask.getLsbD c.val).foldl (fun s c =>
    let x := s.core c
    if (x.mode = .running ∨ x.mode = .resuming) ∧ (x.preempt = none ∨ heatPauses x) then s.onCore c fun y => { y with preempt := some 3 } else s) s

/-- OPRE. -/
def execOpre (m : Master) (value : Word) (s : State) : Out :=
  .next (s.ownerOnly m (.opre m value) fun t => (t.onOwner fun o => { o with opre := value }).preemptMask value)

/-- RTDUE of every named port is set (R235). -/
def State.setRtdue (s : State) (v : Word) : State :=
  { s with ports := s.ports.mapIdx fun p x => if v.getLsbD p then { x with rtdue := true } else x }

/-- RTSET. -/
def execRtset (m : Master) (value : Word) (s : State) : Out := .next (s.ownerOnly m (.rtset m value) fun t => t.setRtdue value)

/-! ### The other registers -/

/-- Eight bytes of a byte array from place n. -/
def setBytes8 {n : Nat} (v : Vector Byte n) (at_ : Nat) (w : Word) : Vector Byte n :=
  v.mapIdx fun k b => if at_ ≤ k ∧ k < at_ + 8 then BitVec.ofNat 8 (w.toNat / 256 ^ (k - at_)) else b

/-- A write of an owner register that has no row of its own; RO offsets take nothing, and RES bits are ignored (R5, R6, R257). An
entry of CALBANK is a byte of its own (log 42). -/
def State.writeOwner (s : State) (offset : Nat) (v : Word) : State :=
  let power := fun (f : Power → Power) => { s with power := f s.power }
  if 0x1000 ≤ offset ∧ offset < 0x1200 then
    { s with fabric := { s.fabric with calbank := s.fabric.calbank.mapIdx fun k b => if k = offset - 0x1000 then v.setWidth 8 &&& 0xbf else b } }
  else
    match offset with
    | 0x0108 => let t := s.onOwner fun o => { o with wqtab := v }; if s.owner.mstat.getLsbD 4 then t.watchAll else t
    | 0x0118 => power fun p => { p with nextPwbud := some (v.setWidth 16) }
    | 0x0120 => power fun p => { p with crsel := v.setWidth 16 }
    | 0x0128 => power fun p => { p with nextRklim := some (v.setWidth 16) }
    | 0x0130 => power fun p => { p with nextRkid := some (v &&& 0x1f3f) }
    | 0x0138 => { s with fabric := { s.fabric with rrbase := v } }
    | 0x0180 => s.onOwner fun o => { o with errbase := v }
    | 0x0188 => s.onOwner fun o => { o with errsz := v }
    | 0x0198 => s.onOwner fun o => { o with errtail := v }
    | 0x1200 => { s with fabric := { s.fabric with bregs := s.fabric.bregs.set 0 (v &&& 0xffffffff) } }
    | 0x1208 => { s with fabric := { s.fabric with bregs := s.fabric.bregs.set 1 (v &&& 0xffff) } }
    | 0x1210 => { s with fabric := { s.fabric with bregs := s.fabric.bregs.set 2 (v &&& 0x3f) } }
    | 0x1218 => { s with fabric := { s.fabric with bregs := s.fabric.bregs.set 3 (v &&& 0xffff) } }
    | 0x1220 => { s with fabric := { s.fabric with bregs := s.fabric.bregs.set 4 v } }
    | 0x1228 => { s with fabric := { s.fabric with bregs := s.fabric.bregs.set 5 (v &&& 0x7f) } }
    | 0x2400 => s.onOwner fun o => { o with sess := v }
    | 0x2408 => s.onOwner fun o => { o with alpol := v }
    | 0x2410 => s.onOwner fun o => { o with fwaddr := v }
    | _ => s

/-! ## Reads (R257) -/

/-- The word of eight bytes of a byte array at place n. -/
def bytes8 {n : Nat} (v : Vector Byte n) (at_ : Nat) : Nat := leNat ((v.toList.drop at_).take 8)

/-- ASTAT: busy, done, NOKEY (R261). -/
def Owner.astat (o : Owner) : Nat := o.busy.toNat + 2 * o.done.toNat + 4 * o.nokey.toNat

/-- What a read of the owner window gives at an offset. Claims and strobes read as nothing. The manual gives the attestation
registers' order and the ends of their range, and the model their places (DESIGN CHOICE, log 88). -/
def State.ownerValue (s : State) (offset : Nat) : Option Nat :=
  let o := s.owner
  let f := s.fabric
  if 0x1000 ≤ offset ∧ offset < 0x1200 then (f.calbank[offset - 0x1000]?).map BitVec.toNat
  else if 0x2000 ≤ offset ∧ offset < 0x2040 then some (bytes8 o.anonce (offset / 8 * 8 - 0x2000))
  else if 0x2108 ≤ offset ∧ offset < 0x2308 then some (bytes8 o.aresp (offset / 8 * 8 - 0x2108))
  else if 0x2308 ≤ offset ∧ offset < 0x2348 then some (bytes8 o.meas (offset / 8 * 8 - 0x2308))
  else if 0x3000 ≤ offset ∧ offset < 0x4000 then
    some (leNat ((List.range 8).map fun k => Config.idcert (offset / 8 * 8 - 0x3000 + k)))
  else
    match offset with
    | 0x0000 => some o.own.toNat
    | 0x0010 => some o.ohand.toNat
    | 0x0018 => some o.orej.toNat
    | 0x0020 => some o.mstat.toNat
    | 0x0100 => some o.ptbr.toNat
    | 0x0108 => some o.wqtab.toNat
    | 0x0110 => some s.meter.written.toNat
    | 0x0118 => some (match s.power.nextPwbud with | some v => v.toNat | none => s.power.pwbud.toNat)
    | 0x0120 => some s.power.crsel.toNat
    | 0x0128 => some (match s.power.nextRklim with | some v => v.toNat | none => s.power.rklim.toNat)
    | 0x0130 => some (match s.power.nextRkid with | some v => v.toNat | none => s.power.rkid.toNat)
    | 0x0138 => some f.rrbase.toNat
    | 0x0140 => some o.ostop.toNat
    | 0x0148 => some o.opre.toNat
    | 0x0180 => some o.errbase.toNat
    | 0x0188 => some o.errsz.toNat
    | 0x0190 => some o.errhead.toNat
    | 0x0198 => some o.errtail.toNat
    | 0x01a0 => some o.errlost.toNat
    | 0x0200 => some o.ecccnt.toNat
    | 0x0208 => some o.feccnt.toNat
    | 0x0210 => some o.rtycnt.toNat
    | 0x0218 => some o.parcnt.toNat
    | 0x1200 => some f.bregs[0].toNat
    | 0x1208 => some f.bregs[1].toNat
    | 0x1210 => some f.bregs[2].toNat
    | 0x1218 => some f.bregs[3].toNat
    | 0x1220 => some f.bregs[4].toNat
    | 0x1228 => some f.bregs[5].toNat
    | 0x1230 => some f.bregs[6].toNat
    | 0x2048 => some o.astat
    | 0x2348 => some o.loglen.toNat
    | 0x2400 => some o.sess.toNat
    | 0x2408 => some o.alpol.toNat
    | 0x2410 => some o.fwaddr.toNat
    | 0x2418 => some o.fwgo.toNat
    | _ => none

/-! ## Attestation (R261) -/

/-- What an attestation signs: nonce, MEAS and LOGLEN. -/
def Owner.message (o : Owner) : List Byte := o.anonce.toList ++ o.meas.toList ++ leBytes 8 o.loglen.toNat

/-- AGO: any master starts an attestation; one written while busy is discarded. The signature comes within its bound. -/
def execAgo (_m : Master) (s : State) : Out :=
  if s.owner.busy then .next s
  else
    let t := s.onOwner fun o => { o with busy := true, done := false, asked := o.message }
    .next ((t.timer (s.clock + 1 + s.freeNat 2 % 40000000) .attestationDone).bump)

/-- ATTESTATION_DONE: the signature stands in ARESP; without a key there is none (R261, R262). -/
def execAttestationDone (s : State) : Out :=
  let o := s.owner
  if o.busy = false then .next s
  else if o.nokey then .next (s.onOwner fun o => { o with busy := false, asked := [] })
  else
    .next ((s.onOwner fun o =>
      { o with busy := false, done := true, aresp := Config.signature s.free o.asked, asked := [] }).bump)

/-! ## Firmware (R260) -/

/-- An image passes its checks: the signatures of its stages, and its version against the rollback fuses (R260). -/
def imageAccepted (key : Nat) (addr : Word) : Bool :=
  Config.firmwareVerifies key addr && decide (Config.rollbackCount % 65 ≤ Config.firmwareVersion key addr)

/-- FWGO: the image at FWADDR is verified; it runs from the next reset, or it is dropped and a record written. -/
def execFwgo (m : Master) (value : Word) (s : State) : Out :=
  .next (s.ownerOnly m (.fwgo m value) fun t =>
    let u := t.onOwner fun o => { o with fwgo := value }
    if imageAccepted s.free s.owner.fwaddr then (u.onOwner fun o => { o with fwNext := some o.fwaddr, fwNextKey := s.free }).bump
    else u.recordNowhere 9 0xff 0xff)

/-! ## A write by its offset (R257) -/

/-- OWNER_REGISTER_WRITE: a write at the offset of a register that has a row of its own acts as that row, OCLAIM and AGO among them, which take
any master's; ANONCE takes any master's write, and every other register only the owner's (R257, R261; DEDUCED, log 66). -/
def execOwnerRegisterWrite (m : Master) (offset : BitVec 14) (value : Word) (s : State) : Out :=
  let o := offset.toNat
  match o with
  | 0x0008 => execOclaim m s
  | 0x0010 => execOhand m value s
  | 0x0100 => execPtbrWrite m value s
  | 0x0110 => execHbudgetWrite m value s
  | 0x0140 => execOstop m value s
  | 0x0148 => execOpre m value s
  | 0x1230 => execBswitch m value s
  | 0x1238 => execRtset m value s
  | 0x2040 => execAgo m s
  | 0x2418 => execFwgo m value s
  | _ =>
    if 0x2000 ≤ o ∧ o < 0x2040 then
      .next (s.onOwner fun x => { x with anonce := setBytes8 x.anonce (o / 8 * 8 - 0x2000) value })
    else .next (s.ownerOnly m (.ownerRegisterWrite m offset value) fun t => t.writeOwner o value)

end Sys2Proof.Machine
end

