-- ==== Sys2Proof/Machine/Regroup.lean ====
section
/-! DEFINITION. Guards and slot boundaries (R215, R228, R234, R235, R253), message boundaries (R238 to R240, R244, R249),
retraining and its idle gaps (R236, R237), and calendar changes (R230 to R232). -/

namespace Sys2Proof.Machine

open Sys2Proof

/-! ## Idle gaps (R236) -/

/-- A graph has a task on the module. -/
def State.graphRuns (s : State) (g : Nat) : Bool := !(s.coresOf g).isEmpty

/-- The gaps that hints declare on a port at this wc: of each hint, the one that began last, in whichever rotation. -/
def State.hintGaps (s : State) (p : PortId) : List Nat :=
  match s.slot with
  | none => []
  | some x =>
    let long := x.bank.slots * x.bank.slen
    let u := x.number * x.bank.slen + x.offset
    s.sched.graphs.flatMap fun (g : Graph) =>
      let h : Nat × Nat := g.hints[p]
      if h.2 = 0 ∨ s.graphRuns g.id = false ∨ u < h.1 then []
      else
        let since := (u - h.1) % long
        if since < h.2 then [s.clock + h.2 - since] else []

/-- The end of the longest declared gap that is open on a port. -/
def State.gapEnd (s : State) (p : PortId) : Option Nat :=
  (((s.port p).gaps.filter fun g => decide (g.1 ≤ s.clock ∧ s.clock < g.2.1)).map fun g => g.2.1).foldl
    (fun m e => match m with | some v => some (max v e) | none => some e)
    ((s.hintGaps p).foldl (fun m e => match m with | some v => some (max v e) | none => some e) none)

/-- IDLE_GAP_END: gaps that have ended go, their LIDLEs retire, and an announcement lapses once no gap is open (R236, R237). -/
def execIdleGapEnd (p : PortId) (s : State) : Out :=
  let ended := (s.port p).gaps.filter fun g => decide (g.2.1 ≤ s.clock)
  let t := s.onPort p fun x => { x with gaps := x.gaps.filter fun g => decide (s.clock < g.2.1) }
  let u := ended.foldl (fun s g => match g.2.2 with | some o => s.soon (.retirement o.1 .l o.2) | none => s) t
  .next (if (u.gapEnd p).isNone ∧ (u.port p).trainUntil.isNone then
    u.onPort p fun x => { x with train := false, announced := [], trainAcks := [] } else u)

/-! ## Retraining (R235, R237) -/

/-- The wcs that a retraining takes the port off. -/
def trainLength : Nat := 80000

/-- A port transmits and receives nothing (R237). -/
def Port.off (x : Port) (now : Nat) : Bool :=
  match x.trainUntil with | some e => decide (e - trainLength ≤ now) | none => false

/-- RETRAIN_START: at a slot boundary inside a gap that is long enough, once every peer has acknowledged; a port without peers has no
one to announce it to (R237). -/
def execRetrainStart (p : PortId) (s : State) : Out :=
  let x := s.port p
  match s.slot, s.gapEnd p with
  | some t, some e =>
    let until_ := s.clock + t.bank.flight + 1 + trainLength
    let acked := (s.portPeers p).all fun q => x.trainAcks.contains q
    if t.offset = 0 ∧ x.rtdue ∧ (x.train ∨ s.portPeers p = []) ∧ x.trainUntil.isNone ∧ acked ∧ until_ ≤ e then
      .next ((s.onPort p fun y => { y with train := true, trainUntil := some until_ }).timer until_ (.retrainEnd p))
    else .next s
  | _, _ => .next s

/-- RETRAIN_END: RTDUE and TRAIN clear and RTCNT counts (R237). -/
def execRetrainEnd (p : PortId) (s : State) : Out :=
  match (s.port p).trainUntil with
  | none => .next s
  | some e =>
    if s.clock < e then .next s
    else .next (s.onPort p fun x =>
      { x with trainUntil := none, train := false, announced := [], trainAcks := [], rtdue := false, rtcnt := x.rtcnt + 1 })

/-- A port's monitor looks at the rotation that has ended: more corrected flits than one in 2^20 received make a retraining due. The
counts are of the flits that the model sees, with a free number of control flits (R235, log 35). -/
def Port.monitor (x : Port) (control : Nat) : Port :=
  { x with
    rtdue := x.rtdue || decide (x.received + control < x.corrected * 2 ^ 20)
    received := 0, corrected := 0 }

/-- A rotation has ended: every port's monitor looks at it (R235). -/
def State.monitorAll (s : State) : State :=
  ((List.finRange 8).foldl (fun t p => t.onPort p fun y => y.monitor (s.freeNat (3000 + p.val))) s).bump

/-- A rotation has ended in the wc before this one. -/
def State.rotationEnds (s : State) : Bool :=
  match s.slot with | some x => x.index == 0 && x.offset == 0 && decide (0 < x.rotation) | none => false

/-- SLOT_BOUNDARY: where a rotation begins, each port's monitor looks at the one that has ended (R235). -/
def execSlotBoundary (s : State) : Out := .next (if s.rotationEnds then s.monitorAll else s)

/-! ## Guards (R215) -/

/-- The message of this module that q holds or has forwarded: at most one (R212). -/
def Port.relayedBy (x : Port) (q : ModuleId) : Option Msg := (x.flying ++ x.reports).find? fun m => m.via == some q && !m.forwarded

/-- The peer may report a relayed message forwarded: it went out in an earlier slot, and it lands before these control flits do (R212,
R229). -/
def Msg.reportable (m : Msg) (now slotStart flight : Nat) : Bool := decide (m.admittedAt < slotStart ∧ m.landsAt ≤ now + flight + 1)

/-- What the joined module's control flits say: its state is not this module's, so their content is free; it can report on
nothing that is not there (R212, R213, R215, R228, R229, R232, R237, R253, log 36). -/
def State.controlFlits (s : State) (p : PortId) (x : Slot) (q : ModuleId) : CtlMsg :=
  let bit := fun (k : Nat) => s.freeNat (4000 + 16 * p.val + k) % 2 == 1
  let num := fun (k : Nat) => s.freeNat (5000 + 16 * p.val + k)
  let y := s.port p
  let freed : Bool := match y.relayedBy q with
    | some m => bit 0 && m.reportable s.clock x.start x.bank.flight
    | none => false
  let failed : Bool := match y.relayedBy q with
    | some m => bit 1 && !freed && decide (m.admittedAt < s.fabric.switchedAt) && y.flying.contains m
    | none => false
  { stage := 0, peer := q, relayFreed := freed, relayFailed := failed
    acks := (y.unacked[q].filter fun v =>
      s.freeNat (6000 + v.toNat) % 2 == 1 && !((y.queue ++ y.flying).any fun m => m.dest == q && ordered m.cls && m.seq == v)).map
        BitVec.toNat
    marker := if bit 2 then some (BitVec.ofNat 8 (num 0)) else none
    peerTrains := bit 3
    peerOff := if bit 3 && bit 4 then some (s.clock + num 1, s.clock + num 1 + trainLength) else none
    trainAck := y.announced.any fun a => a.1 == q && decide (a.2 < s.clock)
    budget := if bit 6 then
        some { peer := q, rack := num 2 % 64, share := num 3 % 65536, cap := num 4 % 65536, demand := num 5 % 65536 }
      else none
    relockFailed := bit 7 }

/-- Every message for q ahead of a marker has landed, or has been reported forwarded (R228). -/
def Port.aheadDone (x : Port) (q : ModuleId) (count : Nat) : Bool :=
  !((x.queue ++ x.flying ++ x.reports).any fun m => m.own && m.dest == q && decide (m.number < count) && !(m.via.isSome && m.forwarded))

/-- The guard's markers for q leave (R228). -/
def Port.sendMarks (x : Port) (q : ModuleId) : Port :=
  (x.markDue.filter fun d => d.1 == q && x.aheadDone q d.2.2).foldl (fun y d =>
    { y with markSent := y.markSent.set q (some d.2.1), markDue := y.markDue.erase d }) x

/-- New shares from a budget message, computed by the lower-numbered module's formula, exactly (R9, R253; DEDUCED, log 63). -/
def newShare (own : ModuleId) (p : Power) (b : BudgetMsg) : Int :=
  let mine := (p.rkshr.toNat, p.pwbud.toNat, p.demand)
  let theirs := (b.share, b.cap, b.demand)
  let first := own.val < b.peer.val
  let A := if first then mine else theirs
  let B := if first then theirs else mine
  let pool : Int := ((A.1 + B.1) % 2 ^ 32 : Nat)
  let lo : Int := max 1200 (pool - B.2.1)
  let hi : Int := min A.2.1 (pool - 1200)
  let sA := min (max (pool * A.2.2 / (A.2.2 + B.2.2 : Nat)) lo) hi
  if first then sA else pool - sA

/-- The budget exchange of a guard: on one port, and only within a rack (R253). -/
def State.exchangeBudget (s : State) (p : PortId) (x : Slot) (m : CtlMsg) : State :=
  match m.budget with
  | some b =>
    if p.val = (x.rotation * x.bank.slots + x.index) % 8 ∧ b.rack = nbits s.power.rkid.toNat 0 6 then
      let t := { s with power := { s.power with nextShare := some (BitVec.ofInt 16 (newShare s.fabric.self s.power b)) } }
      t.timer (x.start + x.bank.slen - 1) .rackShareApply
    else s
  | none => s

/-- WL writes of one side of a port take effect (R249). -/
def State.serveRings (s : State) (p : PortId) (receive : Bool) : State :=
  { s with rings := s.rings.mapIdx fun n r =>
      if n / 144 = p.val ∧ (n % 144 / 72 = 1) = receive then { r with serves := r.wl } else r }

/-- The announcement of a retraining goes to q in a guard and lands at a wc (R237). -/
def Port.announce (x : Port) (q : ModuleId) (gap : Bool) (at_ : Nat) : Port :=
  let train := x.train || (x.rtdue && gap && x.trainUntil.isNone)
  { x with train := train, announced := if train && !(x.announced.any fun a => a.1 == q) then x.announced ++ [(q, at_)] else x.announced }

/-- A peer's port is off at a wc (R237). -/
def Port.peerOffAt (x : Port) (q : ModuleId) (at_ : Nat) : Bool :=
  x.peerOff.any fun o => o.1 == q && decide (o.2.1 ≤ at_ ∧ at_ < o.2.2)

/-- The slot joins a port to q, whose port transmits (R215, R237). -/
def State.hears (s : State) (p : PortId) (x : Slot) (q : ModuleId) : Bool :=
  x.bank.peer p x.index == some q && !((s.port p).peerOffAt q s.clock)

/-- The slot joins a port to q, this port transmits, and q's port receives what lands F + 1 wc later (R215, R237). -/
def State.tells (s : State) (p : PortId) (x : Slot) (q : ModuleId) : Bool :=
  x.bank.peer p x.index == some q && !((s.port p).off s.clock) && !((s.port p).peerOffAt q (s.clock + x.bank.flight + 1))

/-- A marker of q may arrive: no message that q appended ahead of it waits here or is still arriving (R229). -/
def State.markerFree (s : State) (p : PortId) (q : ModuleId) (g : BitVec 8) : Bool :=
  let ahead := fun (m : InboundMsg) => m.source == q && decide ((g - m.ahead).toNat < 128) && (match m.kind with | .relay _ _ => false | _ => true)
  !((s.port p).reseq.any ahead) &&
    !((s.closing ++ s.timers.map Prod.snd).any fun e => match e with | .messageLanding o (.inbound m) => o == p && ahead m | _ => false)

/-- The slot after this one joins the port to a peer, to whose light its receiver relocks (R234). -/
def Slot.nextPeer (x : Slot) (p : PortId) : Bool := (x.bank.peer p ((x.number + 1) % x.bank.slots)).isSome

/-- GUARD_CONTROL_EXCHANGE: in the guard's first wc receive rings take their wavelengths, and where the slot joined a peer the flits
leave, with markers, the announcement of a retraining and the budget message, unless the port that they leave or reach is off; 48 wc on the relock to the next slot's peer has
succeeded or not; F + 1 wc on the peer's flits land (R212, R213, R215, R228, R229, R234, R237, R249, R253). -/
def execGuardControlExchange (p : PortId) (m : CtlMsg) (s : State) : Out :=
  if m.stage = 0 then
    match s.slot with
    | none => .next s
    | some x =>
      let r := s.serveRings p true
      let r := if (s.port p).off s.clock = false ∧ x.nextPeer p then
          r.timer (s.clock + 48) (.guardControlExchange p { m with stage := 1 })
        else r
      let lands := s.clock + x.bank.flight + 1
      let t := if s.tells p x m.peer then r.onPort p fun y => (y.sendMarks m.peer).announce m.peer (s.gapEnd p).isSome lands else r
      let u := if s.tells p x m.peer ∧ s.hears p x m.peer then t.exchangeBudget p x m else t
      let v := if s.hears p x m.peer then u.timer lands (.guardControlExchange p { m with stage := 2 }) else u
      .next ((v.marksDone p).foldl State.soon v)
  else if m.stage = 1 then .next (s.onPort p fun y => { y with rtdue := y.rtdue || m.relockFailed })
  else if (s.port p).off s.clock then .next s
  else
    let q := m.peer
    let failed := if m.relayFailed then (s.port p).flying.filter (fun f => f.via == some q && !f.forwarded) else []
    let t := s.onPort p fun y =>
      { y with
        relayBusy := if m.relayFreed || m.relayFailed then y.relayBusy.set q false else y.relayBusy
        flying := (y.flying.filter fun f => !failed.contains f).map fun f =>
          if m.relayFreed ∧ f.via = some q then { f with forwarded := true } else f
        reports := if m.relayFreed then y.reports.filter fun f => f.via != some q else y.reports
        unacked := y.unacked.set q (y.unacked[q].filter fun v => !m.acks.contains v.toNat)
        relayV := match y.relayV[q] with
          | some v => if m.acks.contains v.toNat then y.relayV.set q none else y.relayV
          | none => y.relayV
        markGot := match m.marker with | some g => if s.markerFree p q g then y.markGot.set q (some g) else y.markGot | none => y.markGot
        trainAcks := if m.trainAck && y.train && !y.trainAcks.contains q then y.trainAcks ++ [q] else y.trainAcks
        peerOff := (match m.peerOff with | some o => [(q, o.1, o.2)] | none => []) ++
          y.peerOff.filter fun o => decide (s.clock < o.2.2) && (o.1 != q || m.peerOff.isNone) }
    let u := failed.foldl State.failMsg t
    .next ((u.marksDone p).foldl State.soon u)

/-- RACK_SHARE_APPLY: the share of the exchange holds from the guard's last wc (R253). -/
def execRackShareApply (s : State) : Out :=
  match s.power.nextShare with
  | some v => .next { s with power := { s.power with rkshr := v, nextShare := none } }
  | none => .next s

/-! ## Message boundaries (R238 to R240, R244, R249) -/

/-- One gating order meets its boundary: dropped whole after a wake or while a group of its mask is WAKING (R244). -/
def Port.gate (x : Port) (o : GateOrder) : Port :=
  let waking := (List.range 16).any fun k => o.mask.getLsbD k && x.groups[k]? == some .waking
  if o.dropped || waking then { x with drops := x.drops + 1, lastDrop := o.mask }
  else { x with groups := x.groups.mapIdx fun k g => if o.mask.getLsbD k && g == .on then .gated else g }

/-- MESSAGE_BOUNDARY: no flit of an admitted message remains to leave; shed masks, gating orders and WL writes take effect. -/
def execMessageBoundary (p : PortId) (s : State) : Out :=
  let x := s.port p
  if s.clock < x.busyUntil then .next s
  else
    let shed := match x.sheds.getLast? with | some m => m.1 | none => x.shed
    let y := x.gates.foldl Port.gate { x with shed := shed, sheds := [], gates := [] }
    let done := x.sheds.map (fun m => (m.2.1, m.2.2)) ++ x.gates.filterMap fun o => o.owner
    let t := (s.onPort p fun _ => y).serveRings p false
    .next (done.foldl (fun s o => s.soon (.retirement o.1 .l o.2)) t)

/-! ## Calendar changes (R230 to R232) -/

/-- The ports' phase. -/
def State.setPhase (s : State) (ph : PortPhase) : State := { s with ports := s.ports.map fun x => { x with phase := ph } }

/-- A PULL that the change reports failed: its bytes stand, it comes off PEND, and it retires (R232). -/
def State.failPull (s : State) (u : Pull) : State :=
  let t := { s with fabric := { s.fabric with pulls := s.fabric.pulls.filter fun w => w.number != u.number } }
  let v := match findEntry (s.core u.core) .l u.order with
    | some q => (t.onGraph q.graph fun g => { g with failed := g.failed + 1 }).graphPend q.graph (-(u.left : Int))
    | none => t
  v.soon (.retirement u.core .l u.order)

/-- Counters and marks of a port for peers that come and go (R232; DESIGN CHOICE, log 51). -/
def Port.changePeers (x : Port) (old new : List ModuleId) (marking : Bool) : Port :=
  (List.finRange 64).foldl (fun y q =>
    if new.contains q = false then
      { y with
        seqOut := y.seqOut.set q 0, seqIn := y.seqIn.set q 0, unacked := y.unacked.set q []
        relayBusy := y.relayBusy.set q false, relayV := y.relayV.set q none, markGot := y.markGot.set q none
        reports := y.reports.filter fun m => m.via != some q && m.dest != q
        halves := y.halves.filter fun h => h.1 != q
        markSent := y.markSent.set q none
        markDue := y.markDue.filter fun d => d.1 != q }
    else if old.contains q = false then
      { y with
        markGot := y.markGot.set q (some y.mgen), markSent := y.markSent.set q none
        markDue := if marking then y.markDue ++ [(q, y.mgen, 0)] else y.markDue }
    else y) x

/-- An LMARK of a port has issued and not retired. -/
def State.marking (s : State) (p : PortId) : Bool :=
  (List.finRange 64).any fun c => ((s.core c).queue .l).any fun q =>
    match q.instr, q.status with | .lmark port, .issued _ => port.toNat == p.val | _, _ => false

/-- The new calendar applies to one port (R232); `old` are its peers until now. A message of this module that an intermediate holds is
forwarded or discarded by the intermediate's own calendar, which is not this module's state: one that remains a peer reports it in a
guard; of one that does not, a free bit says whether it discards the message (log 36). -/
def State.applyChange (s : State) (p : PortId) (old : List ModuleId) : State :=
  let new := s.portPeers p
  let x := s.port p
  let gone := fun (q : ModuleId) => !new.contains q
  let lost := x.queue.filter fun m => gone m.dest
  let held := x.flying.filter fun m =>
    (match m.via with | some i => gone i | none => false) && !m.forwarded && decide (s.clock < m.landsAt) &&
      s.freeNat (7000 + m.number) % 2 == 1
  let pulls := s.fabric.pulls.filter fun u => u.port == p && gone u.peer
  let t := s.onPort p fun y =>
    { (y.changePeers old new (s.marking p)) with
      queue := y.queue.filter fun m => !gone m.dest
      flying := y.flying.filter fun m => !held.contains m
      relays := y.relays.filter fun r => match r.kind with | .relay d _ => !gone d | _ => true
      reseq := y.reseq.filter fun r => !gone r.source }
  let u := (lost ++ held).foldl (fun s m => match m.body with | .pullRequest _ _ => s | _ => s.failMsg m) t
  let v := pulls.foldl State.failPull u
  let w := ((x.reseq.filter fun r => gone r.source).foldl (fun s r => s.recordOf 5 (portDie p) p.val ((msgPlace r 0).getD 0)) v).bump
  if (w.port p).seqr.running then w.endProgram p else w

/-- CALENDAR_SWITCH: at TSW the bank becomes active and the ports go dark (R230 to R232). The monitors look at a rotation that ends there; of
one that it cuts off the counts go (R235; DEDUCED, log 35). -/
def execCalendarSwitch (s : State) : Out :=
  match s.fabric.change with
  | none => .next s
  | some (tsw, epoch, bank) =>
    if s.count < tsw then .next s
    else
      let old := (List.finRange 8).map fun p => (p, s.portPeers p)
      let ended := if s.rotationEnds then s.monitorAll
        else (List.finRange 8).foldl (fun t p => t.onPort p fun y => { y with received := 0, corrected := 0 }) s
      let t := { ended with
        fabric := { ended.fabric with active := some { bank with epoch := epoch }, change := none, switchedAt := s.clock } }
      let u := old.foldl (fun s o => s.applyChange o.1 o.2) (t.setPhase .dark)
      let wait := epoch - s.count
      let v := (u.timer (s.clock + wait - 2000) .relockWindow).timer (s.clock + wait) .newEpoch
      .next (((List.finRange 8).flatMap v.marksDone).foldl State.soon v)

/-- RELOCK_WINDOW: the new matchings are lit; no data moves (R231). -/
def execRelockWindow (s : State) : Out :=
  match s.fabric.active with
  | some b => .next (if s.count + 2000 = b.epoch ∧ (s.port 0).phase = .dark then s.setPhase .relock else s)
  | none => .next s

/-- NEW_EPOCH: slot 0 of the new calendar opens (R231). -/
def execNewEpoch (s : State) : Out :=
  match s.fabric.active with
  | some b => .next (if b.epoch ≤ s.count then s.setPhase .run else s)
  | none => .next s

end Sys2Proof.Machine
end

