-- ==== Sys2Proof/Machine/Service.lean ====
section
/-! DEFINITION. Alarms (R262), errors (R263), host accesses (R256), and bring-up and reset (R77, R260, R261, R265). -/

namespace Sys2Proof.Machine

open Sys2Proof

/-! ## Alarms (R262) -/

/-- A cause raises an alarm: a cold die does so only in a keyed session. -/
def State.alarms (s : State) (cause : AlarmCause) : Bool :=
  match cause with
  | .coldDie _ => s.owner.sess.getLsbD 0
  | _ => true

/-- The die byte of an alarm's record. -/
def alarmDie : AlarmCause → Nat
  | .coldDie d => d.val
  | _ => 0xff

/-- ALARM: by ALPOL the identity key is erased within 2,000 wc, and the session ends; a record is written (DEDUCED, log 67). -/
def execAlarm (cause : AlarmCause) (s : State) : Out :=
  if s.alarms cause = false then .next s
  else
    let t := s.onOwner fun o =>
      { o with
        eraseAt := if o.alpol.getLsbD 0 && o.eraseAt.isNone then some (s.clock + 1 + s.freeNat 2 % 2000) else o.eraseAt
        sess := if o.alpol.getLsbD 1 then 0 else o.sess }
    .next (t.bump.recordNowhere 7 (alarmDie cause) 0xff)

/-- The key is gone once its erasure is done. -/
def State.eraseKey (s : State) : State :=
  match s.owner.eraseAt with
  | some t => if t ≤ s.clock then s.onOwner fun o => { o with nokey := true, eraseAt := none } else s
  | none => s

/-! ## Errors (R263) -/

/-- The die and unit bytes of a site. -/
def siteBytes (e : ErrorSite) : Nat × Nat :=
  ((match e.die with | some d => d.val | none => 0xff), (match e.unit with | some u => u.val | none => 0xff))

/-- The site of a flit: an Ozpex port's lies on the die that carries its optics (R13, R264). -/
def flitSite (e : ErrorSite) : ErrorSite :=
  match e.unit with
  | some u => if u.val < 8 then { e with die := some (Fin.ofNat 4 (u.val / 2)) } else e
  | none => e

/-- Bits that come wrong stand as received: n bytes of memory from an address are free, where it is memory (R263, log 89). -/
def State.receivedBits (s : State) (a n : Nat) : State :=
  let b := a / n * n
  if b + n ≤ devSize ∨ (0x4000000000 ≤ b ∧ b + n ≤ peerLimit) ∨ (hostBase ≤ b ∧ b + n ≤ hostBase + hostSize) then
    (s.storeBytes b ((List.range n).map fun k => BitVec.ofNat 8 (s.freeNat (8000 + k)))).bump
  else s

/-- An error that is delivered as received: a record. -/
def State.siteRecord (s : State) (type : Nat) (e : ErrorSite) : State := s.recordOf type (siteBytes e).1 (siteBytes e).2 e.addr.toNat

/-- ECC_ERROR. -/
def execEccError (correctable : Bool) (site : ErrorSite) (s : State) : Out :=
  .next (if correctable then s.onOwner fun o => { o with ecccnt := o.ecccnt + 1 } else (s.siteRecord 1 site).receivedBits site.addr.toNat 8)

/-- A corrected flit counts, and at an Ozpex port its monitor counts it too (R235, R263). -/
def State.flitCorrected (s : State) (e : ErrorSite) : State :=
  let t := s.onOwner fun o => { o with feccnt := o.feccnt + 1 }
  match e.unit with
  | some u => if u.val < 8 then t.onPort (Fin.ofNat 8 u.val) fun x => { x with corrected := x.corrected + 1 } else t
  | none => t

/-- An issued word reads n bytes from an address wrong: for that word alone they are free (R263, log 89). -/
def State.wrongRead (s : State) (c : CoreId) (e : Engine) (q : QEntry) (a n : Nat) : State :=
  (s.onEntry c e q.order fun x => { x with seen := (a, (List.range n).map fun k => BitVec.ofNat 8 (s.freeNat (8000 + k))) :: x.seen }).bump

/-- Every issued word whose reads meet n bytes from an address. -/
def State.readersOf (s : State) (a n : Nat) : List (CoreId × Engine × QEntry) :=
  (List.finRange 64).flatMap fun c => engines.flatMap fun e =>
    (((s.core c).queue e).filter fun q =>
      q.status != .waiting && q.status != .retired && q.touch.any fun t => !t.write && decide (t.lo < a + n ∧ a < t.lo + t.len)).map
      fun q => (c, e, q)

/-- A flit of the package fabric arrives wrong: its bits stand at the address, or only one word that reads them sees them so; which of the
two is free (R263, log 89). -/
def State.receivedFlit (s : State) (a : Nat) : State :=
  let b := a / 64 * 64
  let rs := s.readersOf b 64
  match rs[s.freeNat 8100 % (rs.length + 1)]? with
  | some r => s.wrongRead r.1 r.2.1 r.2.2 b 64
  | none => s.receivedBits a 64

/-- FLIT_ERROR. What an Ozpex port received wrong is in the message that lands, which is an input (log 89). -/
def execFlitError (correctable : Bool) (site : ErrorSite) (s : State) : Out :=
  .next (if correctable then s.flitCorrected site
    else if site.unit.isSome then s.siteRecord 2 (flitSite site)
    else (s.siteRecord 2 site).receivedFlit site.addr.toNat)

/-- CXL_LINK_ERROR: retried and counted. -/
def execCxlLinkError (s : State) : Out := .next (s.onOwner fun o => { o with rtycnt := o.rtycnt + 1 })

/-- A word of one of a grid's XINs and XOUTs takes the value v; an XOUT's elements that have still to land hold it (R102, R107). -/
def State.receivedCross (s : State) (c : CoreId) (k : Nat) (v : Word32) : State :=
  let at_ := k / 64 % (s.grid c).crossing.length
  let t := s.onGrid c fun g => { g with crossing := g.crossing.modify at_ fun x => { x with words := x.words.set (k % 64) v } }
  match (t.grid c).crossing[at_]? with
  | some x =>
    if x.inward then t
    else t.onEntry c .a x.number fun q =>
      { q with ops := q.ops.map fun u => ((xoutOps c q x.words).find? fun w => w.k == u.k).getD u }
  | none => t

/-- A cold word of an image of core c stands as received: outward as the task is saved, inward as it is loaded (R141). -/
def State.receivedImage (s : State) (c : CoreId) (k : Nat) (v : Word32) : State :=
  let x := s.core c
  if x.coldLeft = 0 then s
  else if x.mode = .saving then s.onGrid c fun g => g.received k v
  else s.onCore c fun x => { x with coldWrong := x.coldWrong ++ [(k, v)] }

/-- A crossing word of a core's grid stands as received: a free one of those of an XIN or XOUT, of a gate buffer, of a GCFG, or of a task's
image takes the value v (R263, log 89). -/
def State.receivedGrid (s : State) (c : CoreId) (k : Nat) (v : Word32) : State :=
  let r : Fin 8 := Fin.ofNat 8 (k / 4)
  if (s.core c).coldLeft ≠ 0 then s.receivedImage c k v
  else if k % 4 = 0 then s.receivedCross c (k / 4) v
  else if k % 4 = 1 then s.onCore c fun x => { x with inBuf := x.inBuf.set r { x.inBuf[r] with words := (x.inBuf[r]).words.set 0 v } }
  else if k % 4 = 2 then
    s.onCore c fun x =>
      { x with outBuf := x.outBuf.set r { x.outBuf[r] with words := (x.outBuf[r]).words.set ((x.outBuf[r]).words.length - 1) v } }
  else s.onGrid c fun g => { g with load := g.load.map fun l => { l with words := l.words.set (k / 4 % l.words.length) v } }

/-- A value that an M word carries outward stands as received: a free one of those that have still to land; that of a DRAIN.add makes the sum
free (R263, log 89). -/
def wrongOut (k v : Nat) (us : List MemOp) : List MemOp :=
  us.modify (k % us.length) fun u =>
    match u.what with
    | .land (.bytes bs) => { u with what := .land (.bytes (leBytes bs.length v)) }
    | .land (.nibble high _) => { u with what := .land (.nibble high (v % 16)) }
    | .land (.addTo _ ofmt _) => { u with what := .land (.bytes (leBytes (if ofmt = 4 then 2 else 4) v)) }
    | _ => u

/-- A crossing word of an M word of core c, or of the spill of its array, stands as received (R263, log 89). -/
def State.receivedArray (s : State) (c : CoreId) (k : Nat) (v : Word) : State :=
  let issued := ((s.core c).queue .m).filter fun q => q.status != .waiting && q.status != .retired
  match issued[k % (issued.length + 1)]? with
  | some q =>
    let reads := q.touch.filter fun t => !t.write
    match reads[k / 8 % reads.length]?, q.ops with
    | some t, [] => s.wrongRead c .m q ((t.lo + k / 64 % (t.len + 1)) / 4 * 4) 4
    | _, _ => s.onEntry c .m q.order fun x => { x with ops := wrongOut (k / 8) v.toNat x.ops }
  | none =>
    match (s.array (dieOf c)).streams.find? fun z => z.number.isNone with
    | some z => s.onArray (dieOf c) fun a => if z.inward then { a with wrong := a.wrong ++ [(k, v)] } else a.received k v
    | none => s

/-- A crossing word stands as received: a free one of those of the core's grid and of its array (R263, log 89). -/
def State.receivedWord (s : State) (c : CoreId) : State :=
  let v : Word := BitVec.ofNat 64 (s.freeNat 8000)
  let k := s.freeNat 8001
  (if k % 2 = 0 then s.receivedGrid c (k / 2) (v.setWidth 32) else s.receivedArray c (k / 2) v).bump

/-- CROSSING_PARITY_ERROR: counted and recorded, and the word delivered as received. -/
def execCrossingParityError (c : CoreId) (s : State) : Out :=
  .next (((s.onOwner fun o => { o with parcnt := o.parcnt + 1 }).recordNowhere 3 (dieOf c).val (localOf c).val).receivedWord c)

/-! ## Host accesses (R256) -/

/-- A byte of DEV, by CXL.mem, or of the host's own memory, which the device reads by CXL.cache (R256). -/
def hostByte (a : Nat) : Bool := decide (a < devSize ∨ (hostBase ≤ a ∧ a < hostBase + hostSize))

/-- HOST_MEMORY_ACCESS: what the host writes lands, and what it reads is what stands there; a byte outside DEV and HOST is none of the
device's (R157, R256). -/
def execHostMemoryAccess (access : HostAccess) (s : State) : Out :=
  match access with
  | .read a n => .next { s with hostData := (List.range n).map fun k => if hostByte (a + k) then s.loadByte (a + k) else 0 }
  | .write a bs =>
    .next (bs.zipIdx.foldl (fun s b => if hostByte (a + b.2) then s.storeBytes (a + b.2) [b.1] else s) s)

/-! ## Bring-up (R261, R265) -/

/-- One stage is measured: MEAS and the log. -/
def Owner.measure (o : Owner) (stage : List Byte) : Owner :=
  let d := Config.sha512 stage
  { o with meas := Config.sha512 (o.meas.toList ++ d.toList), log := o.log ++ [d], loglen := o.loglen + 1 }

/-- The owner window as a start leaves it: the image that runs is the one an update left, its stages are verified and measured, and
with them the FW step is done; the DRAM step ends at a free later wc. An image that fails its checks leaves the module there
(R260, R261, R265, log 39). -/
def Owner.start (o : Owner) (clock wait : Nat) : Owner :=
  let key := if o.fwNext.isSome then o.fwNextKey else o.fwKey
  let addr := o.fwNext.getD o.fwAddr
  let kept : Owner := { Owner.reset with nokey := o.nokey || o.eraseAt.isSome, fwKey := key, fwAddr := addr }
  if imageAccepted key addr then
    { ((Config.bootStages key).foldl Owner.measure kept) with mstat := 1, stepAt := some (clock + 1 + wait, 1) }
  else kept

/-- The module as a start leaves it: the reset values, with the FW step done. HOST's memory is the host's (R260, R261, R265, log
39; DEDUCED, log 68). -/
def State.start (s : State) (clock : Nat) (pads : Bool) : State :=
  let fresh := State.reset
  { fresh with
    clock := clock
    free := s.free + 1
    mem := s.mem.filter fun cell => decide (hostBase ≤ cell.1) || (pads && decide (devSize ≤ cell.1))
    tags := if pads then s.tags else []
    fabric := { fresh.fabric with self := s.fabric.self }
    owner := s.owner.start clock (s.freeNat 2) }

/-- The optics step: every ring is tuned to its code, and every transmit group is ON (R242, R247). A ring that serves nothing
takes a code that is the part's (DESIGN CHOICE, log 78). Where the code that a ring needs lies outside 0 to 4,095, HTR takes it modulo
4,096 (DESIGN CHOICE, log 109). -/
def State.tuneOptics (s : State) : State :=
  { s with
    rings := s.rings.mapIdx fun n (r : Ring) =>
      { r with htrAt := s.clock
               htr := if r.wl = 16 then BitVec.ofNat 12 (Config.reading (10000 + n) s.clock)
                 else BitVec.ofInt 12 (neededCode n r.wl.toNat s.clock) }
    ports := s.ports.map fun (x : Port) => { x with groups := Vector.replicate 16 GroupStatus.on } }

/-- A bring-up step ends in its wc: DRAM is trained and zeroed, or the optics are ready (R265). -/
def State.bringUp (s : State) : State :=
  match s.owner.stepAt with
  | none => s
  | some (at_, k) =>
    if s.clock < at_ then s
    else
      let t := s.onOwner fun o => { o with stepAt := none, mstat := o.mstat ||| BitVec.ofNat 5 (2 ^ k.val) }
      if k = 1 then { t with mem := t.mem.filter fun cell => decide (devSize ≤ cell.1) }
      else if k = 3 then t.tuneOptics.readyTest
      else t

/-- POWER_ON. -/
def execPowerOn (s : State) : Out := .next (s.start 0 false)

/-- MODULE_RESET: the counter runs on, and the scratchpads keep their bytes (R14, log 39). -/
def execModuleReset (s : State) : Out := .next (s.start s.clock true)

/-- COLD_READY: the cold dies are ready; the optics step ends at a free later wc (R265). -/
def execColdReady (s : State) : Out :=
  if s.owner.mstat.getLsbD 1 = false ∨ s.owner.mstat.getLsbD 2 then .next s
  else
    .next (s.onOwner fun o => { o with mstat := o.mstat ||| 4, stepAt := some (s.clock + 1 + s.freeNat 2, 3) }).bump

/-- COLD_EXCURSION: a cold die rises above 4.6 K after COLD; a record is written and tasks run on (R265). -/
def execColdExcursion (d : DieId) (s : State) : Out :=
  .next (if s.owner.mstat.getLsbD 2 then s.recordNowhere 8 d.val 0xff else s)

end Sys2Proof.Machine
end

