-- ==== Sys2Proof/Machine/Dispatch.lean ====
section
/-! DEFINITION. The one match of the machine: every row of the opcode table to its meaning. -/

namespace Sys2Proof.Machine

open Sys2Proof

/-- What an instruction, a link step or an event does to the module. -/
def exec (i : Instr) (s : State) : Host.Outcome State Fault Refusal :=
  match i with
  | .nop => Sys2Proof.Machine.execNop s
  | .add x0 x1 x2 x3 => Sys2Proof.Machine.execAdd x0 x1 x2 x3 s
  | .sub x0 x1 x2 x3 => Sys2Proof.Machine.execSub x0 x1 x2 x3 s
  | .mul x0 x1 x2 x3 => Sys2Proof.Machine.execMul x0 x1 x2 x3 s
  | .mulh x0 x1 x2 x3 => Sys2Proof.Machine.execMulh x0 x1 x2 x3 s
  | .mulhn x0 x1 x2 x3 => Sys2Proof.Machine.execMulhn x0 x1 x2 x3 s
  | .div x0 x1 x2 x3 => Sys2Proof.Machine.execDiv x0 x1 x2 x3 s
  | .divn x0 x1 x2 x3 => Sys2Proof.Machine.execDivn x0 x1 x2 x3 s
  | .rem x0 x1 x2 x3 => Sys2Proof.Machine.execRem x0 x1 x2 x3 s
  | .remn x0 x1 x2 x3 => Sys2Proof.Machine.execRemn x0 x1 x2 x3 s
  | .and x0 x1 x2 x3 => Sys2Proof.Machine.execAnd x0 x1 x2 x3 s
  | .or x0 x1 x2 x3 => Sys2Proof.Machine.execOr x0 x1 x2 x3 s
  | .xor x0 x1 x2 x3 => Sys2Proof.Machine.execXor x0 x1 x2 x3 s
  | .shl x0 x1 x2 x3 => Sys2Proof.Machine.execShl x0 x1 x2 x3 s
  | .shr x0 x1 x2 x3 => Sys2Proof.Machine.execShr x0 x1 x2 x3 s
  | .sha x0 x1 x2 x3 => Sys2Proof.Machine.execSha x0 x1 x2 x3 s
  | .clz x0 x1 x2 => Sys2Proof.Machine.execClz x0 x1 x2 s
  | .popc x0 x1 x2 => Sys2Proof.Machine.execPopc x0 x1 x2 s
  | .min x0 x1 x2 x3 => Sys2Proof.Machine.execMin x0 x1 x2 x3 s
  | .minn x0 x1 x2 x3 => Sys2Proof.Machine.execMinn x0 x1 x2 x3 s
  | .max x0 x1 x2 x3 => Sys2Proof.Machine.execMax x0 x1 x2 x3 s
  | .maxn x0 x1 x2 x3 => Sys2Proof.Machine.execMaxn x0 x1 x2 x3 s
  | .cmp x0 x1 x2 x3 x4 => Sys2Proof.Machine.execCmp x0 x1 x2 x3 x4 s
  | .plog x0 x1 x2 x3 => Sys2Proof.Machine.execPlog x0 x1 x2 x3 s
  | .sel x0 x1 x2 x3 => Sys2Proof.Machine.execSel x0 x1 x2 x3 s
  | .mov x0 x1 => Sys2Proof.Machine.execMov x0 x1 s
  | .lit x0 x1 x2 => Sys2Proof.Machine.execLit x0 x1 x2 s
  | .sts x0 x1 x2 x3 x4 => Sys2Proof.Machine.execSts x0 x1 x2 x3 x4 s
  | .b x0 x1 => Sys2Proof.Machine.execB x0 x1 s
  | .call x0 x1 => Sys2Proof.Machine.execCall x0 x1 s
  | .ret x0 => Sys2Proof.Machine.execRet x0 s
  | .jr x0 x1 => Sys2Proof.Machine.execJr x0 x1 s
  | .loop x0 x1 => Sys2Proof.Machine.execLoop x0 x1 s
  | .waitc x0 x1 => Sys2Proof.Machine.execWaitc x0 x1 s
  | .rdv x0 => Sys2Proof.Machine.execRdv x0 s
  | .fmt x0 => Sys2Proof.Machine.execFmt x0 s
  | .hset x0 x1 x2 => Sys2Proof.Machine.execHset x0 x1 x2 s
  | .hget x0 x1 x2 => Sys2Proof.Machine.execHget x0 x1 x2 s
  | .hmov x0 x1 => Sys2Proof.Machine.execHmov x0 x1 s
  | .hoff x0 x1 x2 => Sys2Proof.Machine.execHoff x0 x1 x2 s
  | .hslice x0 x1 x2 x3 x4 => Sys2Proof.Machine.execHslice x0 x1 x2 x3 x4 s
  | .addi x0 x1 x2 => Sys2Proof.Machine.execAddi x0 x1 x2 s
  | .andi x0 x1 x2 => Sys2Proof.Machine.execAndi x0 x1 x2 s
  | .ori x0 x1 x2 => Sys2Proof.Machine.execOri x0 x1 x2 s
  | .xori x0 x1 x2 => Sys2Proof.Machine.execXori x0 x1 x2 s
  | .shli x0 x1 x2 => Sys2Proof.Machine.execShli x0 x1 x2 s
  | .shri x0 x1 x2 => Sys2Proof.Machine.execShri x0 x1 x2 s
  | .shai x0 x1 x2 => Sys2Proof.Machine.execShai x0 x1 x2 s
  | .cmpi x0 x1 x2 x3 => Sys2Proof.Machine.execCmpi x0 x1 x2 x3 s
  | .movi x0 x1 => Sys2Proof.Machine.execMovi x0 x1 s
  | .movhi x0 x1 x2 => Sys2Proof.Machine.execMovhi x0 x1 x2 s
  | .lds x0 x1 x2 x3 => Sys2Proof.Machine.execLds x0 x1 x2 x3 s
  | .ld x0 x1 x2 x3 x4 => Sys2Proof.Machine.execLd x0 x1 x2 x3 x4 s
  | .st x0 x1 x2 x3 x4 x5 => Sys2Proof.Machine.execSt x0 x1 x2 x3 x4 x5 s
  | .copy x0 x1 x2 x3 => Sys2Proof.Machine.execCopy x0 x1 x2 x3 s
  | .gath x0 x1 x2 => Sys2Proof.Machine.execGath x0 x1 x2 s
  | .scat x0 x1 x2 => Sys2Proof.Machine.execScat x0 x1 x2 s
  | .feed x0 x1 x2 x3 => Sys2Proof.Machine.execFeed x0 x1 x2 x3 s
  | .take x0 x1 x2 x3 => Sys2Proof.Machine.execTake x0 x1 x2 x3 s
  | .xin x0 x1 x2 x3 => Sys2Proof.Machine.execXin x0 x1 x2 x3 s
  | .xout x0 x1 x2 x3 => Sys2Proof.Machine.execXout x0 x1 x2 x3 s
  | .seqt x0 x1 x2 => Sys2Proof.Machine.execSeqt x0 x1 x2 s
  | .gcfg x0 x1 => Sys2Proof.Machine.execGcfg x0 x1 s
  | .gswap x0 => Sys2Proof.Machine.execGswap x0 s
  | .gswapat x0 x1 => Sys2Proof.Machine.execGswapat x0 x1 s
  | .grun x0 x1 => Sys2Proof.Machine.execGrun x0 x1 s
  | .ghalt x0 => Sys2Proof.Machine.execGhalt x0 s
  | .gfill x0 x1 => Sys2Proof.Machine.execGfill x0 x1 s
  | .gset x0 x1 x2 => Sys2Proof.Machine.execGset x0 x1 x2 s
  | .glink x0 x1 x2 => Sys2Proof.Machine.execGlink x0 x1 x2 s
  | .gstat x0 x1 => Sys2Proof.Machine.execGstat x0 x1 s
  | .lease x0 x1 => Sys2Proof.Machine.execLease x0 x1 s
  | .free x0 => Sys2Proof.Machine.execFree x0 s
  | .shelf x0 x1 => Sys2Proof.Machine.execShelf x0 x1 s
  | .mmaStream x0 x1 x2 x3 => Sys2Proof.Machine.execMmaStream x0 x1 x2 x3 s
  | .mmaShelf x0 x1 x2 => Sys2Proof.Machine.execMmaShelf x0 x1 x2 s
  | .norm x0 => Sys2Proof.Machine.execNorm x0 s
  | .accz x0 => Sys2Proof.Machine.execAccz x0 s
  | .accsv x0 x1 => Sys2Proof.Machine.execAccsv x0 x1 s
  | .accld x0 x1 => Sys2Proof.Machine.execAccld x0 x1 s
  | .drain x0 x1 x2 => Sys2Proof.Machine.execDrain x0 x1 x2 s
  | .send x0 x1 x2 x3 x4 => Sys2Proof.Machine.execSend x0 x1 x2 x3 x4 s
  | .sendred x0 x1 x2 x3 x4 x5 => Sys2Proof.Machine.execSendred x0 x1 x2 x3 x4 x5 s
  | .pull x0 x1 x2 x3 x4 => Sys2Proof.Machine.execPull x0 x1 x2 x3 x4 s
  | .cal x0 x1 => Sys2Proof.Machine.execCal x0 x1 s
  | .lprog x0 x1 x2 => Sys2Proof.Machine.execLprog x0 x1 x2 s
  | .lstart x0 x1 x2 => Sys2Proof.Machine.execLstart x0 x1 x2 s
  | .lphase x0 x1 => Sys2Proof.Machine.execLphase x0 x1 s
  | .lmark x0 => Sys2Proof.Machine.execLmark x0 s
  | .lhold x0 x1 => Sys2Proof.Machine.execLhold x0 x1 s
  | .lshed x0 x1 => Sys2Proof.Machine.execLshed x0 x1 s
  | .lgate x0 x1 => Sys2Proof.Machine.execLgate x0 x1 s
  | .lwake x0 x1 => Sys2Proof.Machine.execLwake x0 x1 s
  | .lidle x0 x1 => Sys2Proof.Machine.execLidle x0 x1 s
  | .aadd x0 x1 x2 x3 x4 x5 => Sys2Proof.Machine.execAadd x0 x1 x2 x3 x4 x5 s
  | .amin x0 x1 x2 x3 x4 x5 x6 => Sys2Proof.Machine.execAmin x0 x1 x2 x3 x4 x5 x6 s
  | .amax x0 x1 x2 x3 x4 x5 x6 => Sys2Proof.Machine.execAmax x0 x1 x2 x3 x4 x5 x6 s
  | .axchg x0 x1 x2 x3 x4 x5 => Sys2Proof.Machine.execAxchg x0 x1 x2 x3 x4 x5 s
  | .acas x0 x1 x2 x3 x4 x5 => Sys2Proof.Machine.execAcas x0 x1 x2 x3 x4 x5 s
  | .fence x0 x1 => Sys2Proof.Machine.execFence x0 x1 s
  | .phreg x0 x1 => Sys2Proof.Machine.execPhreg x0 x1 s
  | .phdrop x0 => Sys2Proof.Machine.execPhdrop x0 s
  | .phsig x0 => Sys2Proof.Machine.execPhsig x0 s
  | .phwait x0 x1 => Sys2Proof.Machine.execPhwait x0 x1 s
  | .pharr x0 => Sys2Proof.Machine.execPharr x0 s
  | .phbyt x0 x1 => Sys2Proof.Machine.execPhbyt x0 x1 s
  | .rninit x0 x1 => Sys2Proof.Machine.execRninit x0 x1 s
  | .rnclm x0 x1 => Sys2Proof.Machine.execRnclm x0 x1 s
  | .rnpub x0 x1 => Sys2Proof.Machine.execRnpub x0 x1 s
  | .rntake x0 x1 => Sys2Proof.Machine.execRntake x0 x1 s
  | .rnret x0 x1 => Sys2Proof.Machine.execRnret x0 x1 s
  | .rnwaitf x0 => Sys2Proof.Machine.execRnwaitf x0 s
  | .rnwaite x0 => Sys2Proof.Machine.execRnwaite x0 s
  | .trap x0 => Sys2Proof.Machine.execTrap x0 s
  | .eret => Sys2Proof.Machine.execEret s
  | .halt => Sys2Proof.Machine.execHalt s
  | .yield => Sys2Proof.Machine.execYield s
  | .sprd x0 x1 x2 => Sys2Proof.Machine.execSprd x0 x1 x2 s
  | .spwr x0 x1 x2 => Sys2Proof.Machine.execSpwr x0 x1 x2 s
  | .tlbi x0 x1 => Sys2Proof.Machine.execTlbi x0 x1 s
  | .icinv x0 x1 => Sys2Proof.Machine.execIcinv x0 x1 s
  | .heatr x0 x1 => Sys2Proof.Machine.execHeatr x0 x1 s
  | .bkpt x0 => Sys2Proof.Machine.execBkpt x0 s
  | .linkEnd => Sys2Proof.Machine.execLinkEnd s
  | .linkSend x0 x1 x2 x3 x4 => Sys2Proof.Machine.execLinkSend x0 x1 x2 x3 x4 s
  | .linkWait x0 x1 => Sys2Proof.Machine.execLinkWait x0 x1 s
  | .linkWake x0 => Sys2Proof.Machine.execLinkWake x0 s
  | .linkGate x0 => Sys2Proof.Machine.execLinkGate x0 s
  | .setk x0 x1 => Sys2Proof.Machine.execSetk x0 x1 s
  | .linkLoop x0 x1 => Sys2Proof.Machine.execLinkLoop x0 x1 s
  | .seta x0 x1 => Sys2Proof.Machine.execSeta x0 x1 s
  | .adda x0 x1 => Sys2Proof.Machine.execAdda x0 x1 s
  | .parm x0 => Sys2Proof.Machine.execParm x0 s
  | .illegalWord x0 => Sys2Proof.Machine.execIllegalWord x0 s
  | .icacheLineFill x0 => Sys2Proof.Machine.execIcacheLineFill x0 s
  | .engineIssue x0 x1 => Sys2Proof.Machine.execEngineIssue x0 x1 s
  | .retirement x0 x1 x2 => Sys2Proof.Machine.execRetirement x0 x1 x2 s
  | .heldWordPasses x0 => Sys2Proof.Machine.execHeldWordPasses x0 s
  | .outboundQueueStore x0 x1 => Sys2Proof.Machine.execOutboundQueueStore x0 x1 s
  | .asyncTrapTaken x0 => Sys2Proof.Machine.execAsyncTrapTaken x0 s
  | .preemption x0 => Sys2Proof.Machine.execPreemption x0 s
  | .imageSaveEnd x0 => Sys2Proof.Machine.execImageSaveEnd x0 s
  | .taskResume x0 => Sys2Proof.Machine.execTaskResume x0 s
  | .taskDispatch => Sys2Proof.Machine.execTaskDispatch s
  | .workQueueTailLoss x0 x1 => Sys2Proof.Machine.execWorkQueueTailLoss x0 x1 s
  | .graphAdmission x0 => Sys2Proof.Machine.execGraphAdmission x0 s
  | .completionRecordWrite x0 => Sys2Proof.Machine.execCompletionRecordWrite x0 s
  | .quotaPeriodStart x0 => Sys2Proof.Machine.execQuotaPeriodStart x0 s
  | .meterWindowStart => Sys2Proof.Machine.execMeterWindowStart s
  | .meterCycle => Sys2Proof.Machine.execMeterCycle s
  | .channelWordMove x0 => Sys2Proof.Machine.execChannelWordMove x0 s
  | .gridPass x0 => Sys2Proof.Machine.execGridPass x0 s
  | .xinLanding x0 => Sys2Proof.Machine.execXinLanding x0 s
  | .xoutRead x0 => Sys2Proof.Machine.execXoutRead x0 s
  | .gcfgLoadEnd x0 => Sys2Proof.Machine.execGcfgLoadEnd x0 s
  | .boardSwap x0 => Sys2Proof.Machine.execBoardSwap x0 s
  | .boardDrained x0 => Sys2Proof.Machine.execBoardDrained x0 s
  | .spineEdgeJoin x0 => Sys2Proof.Machine.execSpineEdgeJoin x0 s
  | .spineEdgePart x0 => Sys2Proof.Machine.execSpineEdgePart x0 s
  | .arrayArbitration x0 => Sys2Proof.Machine.execArrayArbitration x0 s
  | .leaseTermEnd x0 => Sys2Proof.Machine.execLeaseTermEnd x0 s
  | .spillSaveEnd x0 => Sys2Proof.Machine.execSpillSaveEnd x0 s
  | .spillRestoreEnd x0 => Sys2Proof.Machine.execSpillRestoreEnd x0 s
  | .slotBoundary => Sys2Proof.Machine.execSlotBoundary s
  | .guardControlExchange x0 x1 => Sys2Proof.Machine.execGuardControlExchange x0 x1 s
  | .rackShareApply => Sys2Proof.Machine.execRackShareApply s
  | .messageAdmission x0 => Sys2Proof.Machine.execMessageAdmission x0 s
  | .messageLanding x0 x1 => Sys2Proof.Machine.execMessageLanding x0 x1 s
  | .linkProgramStart x0 => Sys2Proof.Machine.execLinkProgramStart x0 s
  | .calendarSwitch => Sys2Proof.Machine.execCalendarSwitch s
  | .relockWindow => Sys2Proof.Machine.execRelockWindow s
  | .newEpoch => Sys2Proof.Machine.execNewEpoch s
  | .retrainStart x0 => Sys2Proof.Machine.execRetrainStart x0 s
  | .retrainEnd x0 => Sys2Proof.Machine.execRetrainEnd x0 s
  | .messageBoundary x0 => Sys2Proof.Machine.execMessageBoundary x0 s
  | .groupWakeEnd x0 x1 => Sys2Proof.Machine.execGroupWakeEnd x0 x1 s
  | .monitorIntervalEnd => Sys2Proof.Machine.execMonitorIntervalEnd s
  | .orngWrite x0 x1 => Sys2Proof.Machine.execOrngWrite x0 x1 s
  | .droop x0 => Sys2Proof.Machine.execDroop x0 s
  | .droopInjectionStop x0 x1 => Sys2Proof.Machine.execDroopInjectionStop x0 x1 s
  | .warmBudgetWindowEnd => Sys2Proof.Machine.execWarmBudgetWindowEnd s
  | .oclaim x0 => Sys2Proof.Machine.execOclaim x0 s
  | .ohand x0 x1 => Sys2Proof.Machine.execOhand x0 x1 s
  | .handoverTimeout => Sys2Proof.Machine.execHandoverTimeout s
  | .ptbrWrite x0 x1 => Sys2Proof.Machine.execPtbrWrite x0 x1 s
  | .hbudgetWrite x0 x1 => Sys2Proof.Machine.execHbudgetWrite x0 x1 s
  | .bswitch x0 x1 => Sys2Proof.Machine.execBswitch x0 x1 s
  | .ostop x0 x1 => Sys2Proof.Machine.execOstop x0 x1 s
  | .opre x0 x1 => Sys2Proof.Machine.execOpre x0 x1 s
  | .rtset x0 x1 => Sys2Proof.Machine.execRtset x0 x1 s
  | .ownerRegisterWrite x0 x1 x2 => Sys2Proof.Machine.execOwnerRegisterWrite x0 x1 x2 s
  | .ago x0 => Sys2Proof.Machine.execAgo x0 s
  | .attestationDone => Sys2Proof.Machine.execAttestationDone s
  | .fwgo x0 x1 => Sys2Proof.Machine.execFwgo x0 x1 s
  | .alarm x0 => Sys2Proof.Machine.execAlarm x0 s
  | .eccError x0 x1 => Sys2Proof.Machine.execEccError x0 x1 s
  | .flitError x0 x1 => Sys2Proof.Machine.execFlitError x0 x1 s
  | .cxlLinkError => Sys2Proof.Machine.execCxlLinkError s
  | .crossingParityError x0 => Sys2Proof.Machine.execCrossingParityError x0 s
  | .hostMemoryAccess x0 => Sys2Proof.Machine.execHostMemoryAccess x0 s
  | .powerOn => Sys2Proof.Machine.execPowerOn s
  | .moduleReset => Sys2Proof.Machine.execModuleReset s
  | .coldReady => Sys2Proof.Machine.execColdReady s
  | .coldExcursion x0 => Sys2Proof.Machine.execColdExcursion x0 s
  | .idleGapEnd x0 => Sys2Proof.Machine.execIdleGapEnd x0 s

end Sys2Proof.Machine
end

