-- ==== Sys2Proof/Machine/Turn.lean ====
section
/-! DEFINITION. What a core and a sequencer do in their turn of a wc (R20, R24, R197, R201, R224, R327, R358), and how a
word is laid where the next step takes it. -/

namespace Sys2Proof.Machine

open Sys2Proof

/-- What a turn comes to: a row of the opcode table to execute, nothing, or a DEV address that does not exist. -/
inductive Action where
  | run (i : Instr) (s : State)
  | idle (s : State)
  | absent (addr : Nat)
  deriving DecidableEq, Repr

/-- The turn of a core that issues: the word at the head of the S queue, a wait for a fill, or the translation fault of
a word whose line does not translate (R274, R358). -/
def issueTurn (c : CoreId) (s : State) : Action :=
  let t := s.fetchAhead c 32
  match (t.core c).squeue with
  | (_, w) :: _ =>
    match decode w with
    | .ok i => .run i t
    | .error _ => .run (.illegalWord w) t
  | [] =>
    match codePage t (t.core c).pc.toNat with
    | .ok _ => .idle t
    | .error (.absent a) => .absent a
    | .error (.trap code info) => .idle (t.faultHere code (BitVec.ofNat 64 info))
    | .error _ => .idle t

/-- The turn of a core in a wc: at the S-queue boundary a pending trap comes first, then a pre-emption; else a held word
is tried, or the next word issues (R20, R201). Fetch goes on while issue waits (R358). -/
def coreTurn (c : CoreId) (s : State) : Action :=
  let x := s.core c
  if x.mode ≠ .running then .idle s
  else if (takeable x).isSome then .run (.asyncTrapTaken c) s
  else if x.preempt.isSome && !heatPauses x then .run (.preemption c) s
  else if s.clock < x.issueAt then .idle (if x.fetchAt ≤ s.clock then s.fetchAhead c 32 else s)
  else if x.hasStayed && !x.inh then .run (.taskResume c) s
  else if x.held.isSome then .run (.heldWordPasses c) (s.fetchAhead c 32)
  else issueTurn c s

/-- A word that reads memory as the issue stage executes it (R62, R271). -/
def readsAtIssue : Instr → Bool
  | .lds _ _ _ _ | .accld _ _ => true
  | _ => false

/-- The word at the head of the S queue reads memory as it issues. -/
def headReads (x : CoreState) : Bool :=
  match x.squeue with
  | (_, w) :: _ => (match decode w with | .ok i => readsAtIssue i | .error _ => false)
  | [] => false

/-- The turn of a core as its wc begins: a word that reads memory as it issues has its turn once everything has landed that lands in the
wc (R156); every other word acts on what stands at the start of its wc (R341). -/
def earlyTurn (c : CoreId) (s : State) : Action :=
  match coreTurn c s with
  | .run i t =>
    if readsAtIssue i || (i == .heldWordPasses c && headReads (t.core c)) then .idle { s with late := s.late ++ [c] } else .run i t
  | a => a

/-- The turn that was put off: the word issues, or the held word is tried. -/
def lateTurn (c : CoreId) (s : State) : Action :=
  let x := s.core c
  if x.mode ≠ .running then .idle s
  else if x.held.isSome then .run (.heldWordPasses c) (s.fetchAhead c 32)
  else issueTurn c s

/-- The turn of a port's sequencer: one step of its program in each wc (R224). -/
def portTurn (p : PortId) (s : State) : Action :=
  let q := (s.port p).seqr
  if q.running = false then .idle s
  else
    match q.program with
    | none => .idle s
    | some g =>
      match g.steps[q.step]? with
      | some i => .run i s
      | none => .idle s

/-! ## A word where the next step takes it -/

/-- The address at which a word is laid: the last word of a line, so that fetch stops behind it. -/
def placeAddr : Word := 0x10000003c

/-- A line whose last word is w. -/
def placeLine (w : Word32) : ILine :=
  { line := lineOf placeAddr.toNat
    bytes := Vector.ofFn fun i : Fin 64 => if i.val < 60 then 0 else BitVec.ofNat 8 (w.toNat / 256 ^ (i.val - 60)) }

/-- Core 0 runs a task whose next word is w, in a line that its cache holds; it has its turn next. -/
def State.placeWord (s : State) (w : Word32) : State :=
  { (s.onCore 0 fun x =>
      { x with
        mode := .running
        task := match x.task with | some t => some t | none => some { graph := 0, node := 0, serial := 0, slot := 0 }
        pc := placeAddr, squeue := [], icache := [placeLine w], held := none, issueAt := 0, traps := [], preempt := none }) with
    agenda := [], turn := [], portTurn := [], closing := [], stage := 3, notes := [], late := [0], cur := 0 }

/-- Port 0's sequencer runs a program whose next step is i. -/
def State.placeStep (s : State) (i : Instr) : State :=
  { (s.onPort 0 fun p =>
      { p with seqr := { p.seqr with
          program := some { core := 0, entries := [], steps := [i], pinned := false }, running := true, step := 0 } }) with
    agenda := [], turn := [], portTurn := [0], closing := [], stage := 3, notes := [], curPort := 0 }

/-- A word of the opcode table where the next step takes it: a Hjelurn word on core 0, else a link step on port 0. -/
def State.placeTableWord (s : State) (w : Nat) : State :=
  let word := BitVec.ofNat 32 w
  match decode word with
  | .ok _ => s.placeWord word
  | .error _ =>
    match decodeLink word with
    | .ok i => s.placeStep i
    | .error _ => s.placeWord word

end Sys2Proof.Machine
end

