-- ==== Sys2Proof/Machine/Tick.lean ====
section
/-! DEFINITION. The passing of a wc: which events are due in it, in which order, and whose turns follow (log 1). -/

namespace Sys2Proof.Machine

open Sys2Proof

/-! ## Events of a wc -/

def when (b : Bool) (es : List Instr) : List Instr := if b then es else []

/-- Windows, intervals and periods that begin at this wc (R110, R205, R248, R252). -/
def periodEvents (s : State) : List Instr :=
  when (s.count % 1024 == 0) [.meterWindowStart, .warmBudgetWindowEnd] ++ when (s.count % 64 == 0) [.monitorIntervalEnd] ++
    (s.sched.graphs.filter fun g => g.quota != 0 && g.period != 0 && s.count % g.period == 0).map fun g => .quotaPeriodStart g.id

/-- A guard begins on a port (R215, R234, R249). -/
def guardEvents (s : State) (x : Slot) (p : PortId) : List Instr :=
  when (s.clock == x.guardAt) [.guardControlExchange p (s.controlFlits p x ((x.bank.peer p x.index).getD s.fabric.self))]

/-- A port's gaps, announcements and programs (R225, R236, R237). -/
def portEvents (s : State) (p : PortId) : List Instr :=
  let x := s.port p
  when ((x.gaps.any fun g => decide (g.2.1 ≤ s.clock)) || (x.train && x.trainUntil.isNone && (s.gapEnd p).isNone)) [.idleGapEnd p] ++
    when (x.seqr.owner.isSome && !x.seqr.running) [.linkProgramStart p]

/-- Slot boundaries, retraining, guards and ports (R208, R215, R237). -/
def fabricEvents (s : State) : List Instr :=
  (match s.slot with
   | some x =>
     when (x.offset == 0) (.slotBoundary :: ((List.finRange 8).filter fun p => (s.port p).train || ((s.port p).rtdue && (s.portPeers p).isEmpty)).map .retrainStart) ++
       (List.finRange 8).flatMap (guardEvents s x)
   | none => []) ++ (List.finRange 8).flatMap (portEvents s)

/-- The events of a core's grid (R108, R124, R131, R139). -/
def gridEvents (s : State) (c : CoreId) : List Instr :=
  let g := s.grid c
  let joins := match southOf c with | some d => g.asks true false || (s.grid d).asks false false | none => false
  when (s.spineHead c == c) (s.passEvents c) ++ when (g.swap.isSome && g.plan.isEmpty) [.boardSwap c] ++
    when (g.back.status == .draining) [.boardDrained c] ++ when joins [.spineEdgeJoin c] ++
    when (g.asks true true || g.asks false true) [.spineEdgePart c]

/-- A core's streams and pushes (R65, R103). -/
def streamEvents (s : State) (c : CoreId) : List Instr :=
  let x := s.core c
  when (x.channels.toList.any Option.isSome) [.channelWordMove c] ++ when (!(x.outQ[(0 : Fin 4)]).isEmpty) [.outboundQueueStore c false] ++
    when (!(x.outQ[(1 : Fin 4)]).isEmpty) [.outboundQueueStore c true]

/-- The next word of a core's M queue is a FREE, which issues as the wc begins, so that the array it frees is granted in it (R143). -/
def freesNext (s : State) (c : CoreId) : Bool :=
  match headWaiting ((s.core c).queue .m) with | some q => (match q.instr with | .free _ => true | _ => false) | none => false

/-- The engines of a core that have a word to take (R21): each takes at most one in a wc (DESIGN CHOICE, log 84). -/
def issueEvents (s : State) (c : CoreId) : List Instr :=
  (engines.filter fun e => (headWaiting ((s.core c).queue e)).isSome && !(e == .m && freesNext s c)).map (.engineIssue c)

/-- Boundary and admission of a port, which see what the words and the steps of the wc have appended (R210, R238, R244, R249). -/
def messageEvents (p : PortId) : List Instr := [.messageBoundary p, .messageAdmission p]

/-- Saves that have still to begin, and the scheduler (R193, R197, R204). -/
def schedulerEvents (s : State) : List Instr :=
  ((List.finRange 64).filter fun c => (s.core c).mode == .saving && !s.savesImage c).map .preemption ++ [.taskDispatch] ++
    (s.sched.graphs.filter fun g => g.ending.isSome && g.pend == 0).map fun g => .completionRecordWrite g.id

/-- The events with which a wc begins: what the fabric brings, the ends of terms, and the arrays that are freed. -/
def openingEvents (s : State) : List Instr :=
  fabricEvents s ++ (List.finRange 4).map .leaseTermEnd ++ ((List.finRange 64).filter (freesNext s)).map fun c => .engineIssue c .m

/-- The other events that a wc brings by itself, in order. An array that is freed late in it is granted at its end. -/
def wcEvents (s : State) : List Instr :=
  let cs := List.finRange 64
  let arrays : List Instr := (List.finRange 4).map .arrayArbitration
  (List.finRange 8).flatMap messageEvents ++ cs.flatMap (gridEvents s) ++ cs.flatMap (streamEvents s) ++ arrays ++
    cs.flatMap (issueEvents s) ++ [.meterCycle] ++ schedulerEvents s ++ arrays

/-! ## The wc -/

/-- The draw of one transmit group in mW (R242). -/
def groupDraw : GroupStatus → Nat
  | .asleep => 0 | .gated => 60 | .waking => 672 | .on => 672

/-- What the transmit groups draw in this wc, in mW. -/
def State.groupsDraw (s : State) : Nat := (s.ports.toList.flatMap fun x => x.groups.toList.map groupDraw).sum

/-- The wc number advances: phases updated in the last wc are tested, the stores of its S words land (R62), the meter shows its total,
lane bookings move on, what the ports draw adds up, and places that retirements freed are free. -/
def State.nextWc (s : State) : State :=
  let t := s.endOfCycleTests.landStores
  let cores := t.cores.map fun (x : CoreState) => { x with freed := Vector.replicate 5 0 }
  let grids := t.grids.map fun (g : Grid) => { g with laneIn := g.laneIn.drop 1, laneOut := g.laneOut.drop 1 }
  let u : State :=
    { t with clock := t.clock + 1, meter := { t.meter with atStart := t.meter.total }
             power := { t.power with drawn := t.power.drawn + t.groupsDraw }, cores := cores, grids := grids }
  ((List.finRange 64).foldl (fun s c => s.passParams c 16) u).eraseKey.settleOwner.bringUp

/-- The wc's reads perform, and a host's claim that has stood to its end makes the host the owner (R156, R258). -/
def State.closeWc (s : State) : State := s.settleWc.settleOwner

/-- How far the wc must have come for what it brings next. -/
def State.stageDue (s : State) : Nat := match s.closing with | e :: _ => stageFor (closeKey e) | [] => 3

/-- The descriptor that acts next: the first one, once no event is left that comes before it (R172). -/
def State.noteDue (s : State) : Option (Note × List Note) :=
  match s.notes, s.closing with
  | n :: rest, e :: _ => if keyLt n.key (closeKey e) then some (n, rest) else none
  | n :: rest, [] => some (n, rest)
  | [], _ => none

/-- An event that has its place among those of the second half: a landing by its port and source (R221), and a read of the host's, which
sees everything that lands in its wc (R156). -/
def waitsInWc (e : Instr) : Bool :=
  match e with
  | .hostMemoryAccess (.read _ _) => true
  | _ => closes e

/-- An injection that reaches its limit where a window ends stops in that window (R251). -/
def endsInjection : Instr → Bool
  | .droopInjectionStop _ _ => true
  | _ => false

/-- The next wc begins: windows and intervals that end with the last one come before what is due in it (R248). -/
def State.tick (s : State) : State :=
  let t := s.nextWc
  let due := (t.timers.takeWhile fun x => decide (x.1 ≤ t.clock)).map Prod.snd
  { t with
    timers := t.timers.dropWhile fun x => decide (x.1 ≤ t.clock)
    agenda := due.filter endsInjection ++ periodEvents t ++ (due.filter fun e => !(closes e) && !(endsInjection e)) ++ openingEvents t
    closing := (due.filter closes).foldl (fun es e => insertClosing e es) (wcEvents t)
    stage := 0
    notes := []
    late := []
    turn := (List.finRange 64).filter fun c => (t.core c).mode == .running
    portTurn := (List.finRange 8).filter fun p => (t.port p).seqr.running || (t.port p).seqr.owner.isSome
    free := t.free + 1 }

end Sys2Proof.Machine
end

