-- ==== Sys2Proof/Machine/Step.lean ====
section
/-! DEFINITION. One step of the module: an event that is due, the turn of a core or of a sequencer, an event of the second half of the
wc, the landings and the reads of the wc, a descriptor that acts, or the passing of a wc. -/

namespace Sys2Proof.Machine

open Sys2Proof

/-- Carrying out what a turn comes to. -/
def act (a : Action) : Host.Outcome State Fault Refusal :=
  match a with
  | .run i s => exec i s
  | .idle s => .next s
  | .absent addr => .fault (.noSuchDevAddress addr)

/-- The end of a wc: the turns of the cores whose word reads memory as it issues, then the passing of the wc. -/
def endStep (s : State) : Host.Outcome State Fault Refusal :=
  match s.late with
  | c :: rest => act (lateTurn c { s with late := rest, cur := c })
  | [] => .next s.tick

/-- The second half of a wc. In front of the engines its writes land; behind them, and behind the turns of the sequencers, the words of the
grids retire that are over; in front of the meter, whose requests count the words that a FEED has brought (R134), its reads perform
(R98, R156, log 1). A descriptor acts where no event is left that comes before it. -/
def closingStep (s : State) : Host.Outcome State Fault Refusal :=
  if s.stage = 0 ∧ s.stageDue ≠ 0 then .next s.landWc
  else
    match (if s.stageDue = 0 then [] else s.portTurn) with
    | p :: rest => act (portTurn p { s with portTurn := rest, curPort := p })
    | [] =>
      if s.stage = 1 ∧ 2 ≤ s.stageDue then .next s.sweepGrids
      else
        match s.noteDue with
        | some n => .next (({ s with notes := n.2 }).applyNote n.1)
        | none =>
          if s.stage = 2 ∧ s.stageDue = 3 then .next s.closeWc
          else
            match s.closing with
            | e :: rest => exec e { s with closing := rest }
            | [] => endStep s

/-- One step: the events with which the wc begins, the turns of cores, its second half, and its end. -/
def step (s : State) : Host.Outcome State Fault Refusal :=
  match s.agenda with
  | e :: rest =>
    if waitsInWc e then .next { s with agenda := rest, closing := insertClosing e s.closing } else exec e { s with agenda := rest }
  | [] =>
    match s.turn with
    | c :: rest => act (earlyTurn c { s with turn := rest, cur := c })
    | [] => closingStep s

/-- `s` with a word of the opcode table where `step` takes its next instruction. -/
def State.withFetchWord (s : State) (nbits w : Nat) : State := s.placeTableWord (w % 2 ^ nbits)

end Sys2Proof.Machine
end

