-- ==== Sys2Proof/Safety.lean ====
section
/-! DEFINITION. What the claims are stated in: when a run is safe, when a word is free to act, what a word changes and what it
leaves alone, and the invariant of the module. Every predicate here is over states alone. -/

namespace Sys2Proof.Machine

open Sys2Proof

/-! ## Runs and the invariant -/

/-- A run of n steps that ends in a state: it met no fault and no refusal. -/
def runsFor (n : Nat) (s : State) : Prop := ∃ t, Host.Core.run core n s = .next t

/-- A state from which no run stops. -/
def State.safe (s : State) : Prop := ∀ n, runsFor n s

/-- The invariant of every step: memory is in its canonical form. -/
def State.Inv (s : State) : Prop := Memory.wf s.mem = true

/-! ## Operands -/

/-- The scalar register that names inbound and outbound queue q: s60 to s63 (R25). -/
def queueReg (q : Fin 4) : SReg := BitVec.ofNat 6 (60 + q.val)

/-- A queue that a list of sources names. -/
def reads (srcs : List SReg) (q : Fin 4) : Prop := queueReg q ∈ srcs

/-- Every queue that the sources name holds an entry (R26). -/
def State.hasValues (s : State) (srcs : List SReg) : Prop := ∀ q : Fin 4, reads srcs q → s.me.inQ[q] ≠ []

/-- The queue that a destination names has room, and a push to q0 or q1 will be stored inside LOCAL (R65). -/
def State.hasRoom (s : State) (d : SReg) : Prop :=
  ∀ q : Fin 4, d = queueReg q → (s.me.outQ[q]).length < 8 ∧
    (q = 0 → (s.me.qptr[(0 : Fin 2)]).toNat + 8 * (s.me.outQ[q]).length + 8 ≤ 0x400000) ∧
    (q = 1 → (s.me.qptr[(1 : Fin 2)]).toNat + 8 * (s.me.outQ[q]).length + 8 ≤ 0x400000)

/-- In checked mode no source still waits for a result (R43). -/
def State.scoreboardFree (s : State) (srcs : List SReg) (hs : List HReg) : Prop :=
  s.me.checked = true → ∀ h ∈ s.me.shadows, s.clock < h.landsAt →
    (h.handle = false → ∀ r ∈ srcs, r.toNat ≠ h.reg) ∧ (h.handle = true → ∀ r ∈ hs, r.toNat ≠ h.reg)

/-- Nothing holds or faults a word with these sources and this destination before it acts (R22, R26, R43, R65). -/
structure State.Free (s : State) (srcs : List SReg) (hs : List HReg) (d : SReg) : Prop where
  scoreboard : s.scoreboardFree srcs hs
  values : s.hasValues srcs
  room : s.hasRoom d

/-! ## Effects -/

/-- Each queue that the sources name has given up one entry (R26, R63). -/
def State.popped (s t : State) (srcs : List SReg) : Prop :=
  ∀ q : Fin 4, (reads srcs q → t.me.inQ[q] = (s.me.inQ[q]).drop 1) ∧ (¬ reads srcs q → t.me.inQ[q] = s.me.inQ[q])

/-- The shadow of a result (R41): past a bound of 1 the old value of its register stays readable until the bound has passed; no older value
is readable longer; what other registers and the handles still let a read see is as before. -/
def State.shaded (s t : State) (d : SReg) (bound : Nat) : Prop :=
  (d ≠ 0 → d.toNat < 60 →
    (1 < bound → ∃ h ∈ t.me.shadows, h.handle = false ∧ h.reg = d.toNat ∧ h.old = (s.me.regs[d.toNat] : Word).setWidth 256 ∧
      h.landsAt = s.clock + bound) ∧
    ∀ h ∈ t.me.shadows, h.handle = false → h.reg = d.toNat → h.landsAt ≤ s.clock + bound) ∧
  ∀ h : Shadow, s.clock < h.landsAt → (h.handle = true ∨ h.reg ≠ d.toNat ∨ d = 0) → (h ∈ t.me.shadows ↔ h ∈ s.me.shadows)

/-- A result has gone where its destination says: s0 discards it, q0 to q3 push it, any other register holds it, in whose shadow its old
value stays; every other register and every other queue is as before. A pushed entry fills within the bound (R25, R41, R42, R65). -/
def State.wrote (s t : State) (d : SReg) (v : Word) (bound : Nat) : Prop :=
  s.shaded t d bound ∧
  (∀ r : SReg, t.me.regs[r.toNat] = if r = d ∧ r ≠ 0 ∧ r.toNat < 60 then v else s.me.regs[r.toNat]) ∧
  ∀ q : Fin 4,
    (d ≠ queueReg q → t.me.outQ[q] = s.me.outQ[q]) ∧
    (d = queueReg q → ∃ o, t.me.outQ[q] = s.me.outQ[q] ++ [o] ∧ o.value = v ∧ s.clock < o.landsAt ∧
      o.landsAt ≤ s.clock + max bound 1 ∧ o.afterA = s.me.enqueued[(0 : Fin 5)])

/-- Issue goes on with the word at `target`, `after` wc from now. -/
def State.goesTo (s t : State) (target : Word) (after : Nat) : Prop :=
  t.me.pc = target ∧ t.me.issueAt = s.clock + after ∧ t.me.held = none

/-- Issue goes on with the next word in the next wc (R20). -/
def State.goesOn (s t : State) : Prop := s.goesTo t (s.me.pc + 4) 1

/-! ## Frames -/

/-- Every byte of memory reads as before. -/
def State.sameMemory (s t : State) : Prop := ∀ a, t.loadByte a = s.loadByte a

/-- Nothing but the executing core has changed: memory, the other cores, the grids, the arrays, the meter, the fabric, the
ports, the rings, power, launch, the owner window, the events and the clock are as before (`free` is the model's own). -/
def State.onlyMe (s t : State) : Prop :=
  t = { s with cores := t.cores, free := t.free } ∧ ∀ c : CoreId, c ≠ s.cur → t.core c = s.core c

/-- What the issue stage moves with every word: the pc, the S queue, the hold, the wcs of the next issue and of the next fetch. -/
def CoreState.issueFrame (x y : CoreState) : CoreState :=
  { x with pc := y.pc, squeue := y.squeue, held := y.held, issueAt := y.issueAt, fetchAt := y.fetchAt }

/-- A scalar word touches nothing of its core but the issue stage, registers, queue entries and shadows: predicates, handles,
counters, the format queue, engine queues, the translation buffer, the trap registers and all else stay. -/
def CoreState.scalarFrame (x y : CoreState) : Prop :=
  y = { x.issueFrame y with
    regs := y.regs, inQ := y.inQ, outQ := y.outQ, pushes := y.pushes, shadows := y.shadows, dirtyS := y.dirtyS, dirtyQ := y.dirtyQ }

/-- A scalar word with a result: its pops, its result, the next word, and nothing else. -/
structure State.Scalar (s t : State) (srcs : List SReg) (d : SReg) (v : Word) (bound : Nat) : Prop where
  pops : s.popped t srcs
  result : s.wrote t d v bound
  next : s.goesOn t
  memory : s.sameMemory t
  frame : s.me.scalarFrame t.me
  only : s.onlyMe t

/-- A word that writes a predicate: p0 discards it; every other predicate, every register and every outbound queue stays
(R25, R59). -/
structure State.Predicate (s t : State) (srcs : List SReg) (p : PReg) (b : Bool) : Prop where
  pops : s.popped t srcs
  result : ∀ r : PReg, t.me.preds.getLsbD r.toNat = if r = p ∧ r ≠ 0 then b else s.me.preds.getLsbD r.toNat
  next : s.goesOn t
  memory : s.sameMemory t
  frame : t.me = { s.me.issueFrame t.me with preds := t.me.preds, inQ := t.me.inQ, dirtyQ := t.me.dirtyQ }
  only : s.onlyMe t

/-- A handle word: the handle hd is v, every other handle and every register stays (R93). -/
structure State.HandleWritten (s t : State) (srcs : List SReg) (hd : HReg) (v : HandleBits) : Prop where
  pops : s.popped t srcs
  result : ∀ h : HReg, t.me.handles[h.toNat] = if h = hd then v else s.me.handles[h.toNat]
  next : s.goesOn t
  memory : s.sameMemory t
  frame : t.me = { s.me.issueFrame t.me with
    handles := t.me.handles, inQ := t.me.inQ, shadows := t.me.shadows, dirtyH := t.me.dirtyH, dirtyQ := t.me.dirtyQ }
  only : s.onlyMe t

/-- A word that has no effect but to let issue go on: every register, queue and byte stays. -/
structure State.Passed (s t : State) (srcs : List SReg) : Prop where
  pops : s.popped t srcs
  next : s.goesOn t
  memory : s.sameMemory t
  frame : t.me = { s.me.issueFrame t.me with inQ := t.me.inQ, dirtyQ := t.me.dirtyQ }
  only : s.onlyMe t

/-- A taken branch: issue goes on at the target 3 wc later, and nothing but lk and popped entries changes (R24). -/
structure State.Branched (s t : State) (srcs : List SReg) (target : Word) : Prop where
  pops : s.popped t srcs
  next : s.goesTo t target 3
  memory : s.sameMemory t
  frame : t.me = { s.me.issueFrame t.me with
    regs := t.me.regs, inQ := t.me.inQ, shadows := t.me.shadows, dirtyS := t.me.dirtyS, dirtyQ := t.me.dirtyQ }
  only : s.onlyMe t

/-- Every scalar register stays. -/
def State.sameRegs (s t : State) : Prop := t.me.regs = s.me.regs

/-! ## Values and forms -/

/-- The low bits of a register at a type's width. -/
def low (ty : ScalarType) (v : Word) : BitVec (widthBits ty.width) := v.setWidth (widthBits ty.width)

/-- A result of a type's width in a register: zero-extended for a natural type, sign-extended for a signed one (R27). -/
def spread (ty : ScalarType) (x : BitVec (widthBits ty.width)) : Word :=
  if ty.natural then x.setWidth 64 else x.signExtend 64

/-- A value of an instruction completes in every state that lets it: exec answers a next state in which the result stands. -/
def completes (i : Instr) (s : State) (srcs : List SReg) (hs : List HReg) (d : SReg) (v : Word) (bound : Nat) : Prop :=
  s.Free srcs hs d → ∃ t, exec i s = .next t ∧ s.Scalar t srcs d v bound

/-- No FENCE of these kinds of the running task has still to retire. -/
def State.unfenced (s : State) (kinds : List FenceKind) : Prop :=
  ∀ q ∈ s.me.queue .y, q.status ≠ .retired → q.epoch = s.me.epoch → ∀ k sc, q.instr = .fence k sc → k ∉ kinds

/-- The word w of the code at an address: in the cached line (`cached`), in a line whose fill is in progress, or in memory where the
line is absent and its page translates (R309, R357). -/
def State.codeWord (s : State) (x : Word) (w : Word32) (cached : Bool) : Prop :=
  match icacheFind s.me (lineOf x.toNat), s.me.filling.find? (fun f => f.line.line == lineOf x.toNat) with
  | some l, _ => w = wordIn l x.toNat ∧ cached = true
  | none, some f => w = wordIn f.line x.toNat ∧ cached = false
  | none, none => (∃ p, codePage s x.toNat = .ok p ∧ w = BitVec.ofNat 32 (s.loadV 0 [p] x.toNat 4)) ∧ cached = false

/-- The bits of a handle field: first bit and width (R35, R90). -/
def fieldBits : HField → Nat × Nat
  | .base => (0, 64) | .fmt => (64, 16) | .flags => (80, 16) | .dims => (96, 64)
  | .st1 => (160, 32) | .st2 => (192, 32) | .st3 => (224, 32)

/-- Issue goes on at an address within a bound (R22, R54, R271). -/
def State.settlesOn (s t : State) (target : Word) (bound : Nat) : Prop :=
  t.me.pc = target ∧ s.clock < t.me.issueAt ∧ t.me.issueAt ≤ s.clock + bound ∧ t.me.held = none

/-! ## Enqueue -/

/-- An engine word with these sources and pages enters its queue now: its values are there, its queue has room, its pages
stand in the translation buffer, which takes their pins and is then that of `u` (R20, R21, R26, R96). -/
structure State.Enters (s : State) (e : Engine) (srcs : List SReg) (pages : List PageMap) (u : State) : Prop where
  values : s.hasValues srcs
  place : s.me.occupancy e < 32
  held : ∀ p ∈ pages, (tlbLookup s.me p.va).isSome
  pins : pinPages s s.cur pages = .ok u

/-- The entry of a word as it joins: its word, its address, its place in its queue and in program order, its task; it waits (R20,
R23). -/
structure State.EntryOf (s : State) (e : Engine) (i : Instr) (q : QEntry) : Prop where
  instr : q.instr = i
  pc : q.pc = s.me.pc
  number : q.number = s.me.enqueued[engIdx e]
  order : q.order = s.me.order
  epoch : q.epoch = s.me.epoch
  status : q.status = .waiting

/-- The entry q has joined its queue, behind those that stand there; the other queues stay; pins are taken; the sources are
popped; issue goes on, behind an ACCLD at most 16 + T wc later. Registers, predicates, handles, counters and memory stay (R20, R96, R271). -/
structure State.Joined (s t : State) (e : Engine) (srcs : List SReg) (q : QEntry) (u : State) : Prop where
  queue : t.me.queue e = s.me.queue e ++ [q]
  others : ∀ k, k ≠ e → t.me.queue k = s.me.queue k
  count : t.me.enqueued = s.me.enqueued.set (engIdx e) (s.me.enqueued[engIdx e] + 1)
  pins : t.me.tlb = u.me.tlb
  pops : s.popped t srcs
  next : match q.instr with | .accld _ _ => s.settlesOn t (s.me.pc + 4) (17 + q.accessT) | _ => s.goesOn t
  memory : s.sameMemory t
  others_ : ∀ c : CoreId, c ≠ s.cur → t.core c = s.core c

/-- What an enqueue changes of its core besides fields that its word names. -/
def CoreState.enqueueFrame (x y : CoreState) : CoreState :=
  { x.issueFrame y with
    inQ := y.inQ, dirtyQ := y.dirtyQ, tlb := y.tlb, queues := y.queues, enqueued := y.enqueued, order := y.order }

/-- An engine word whose operands have passed its checks completes: exec answers a next state in which its entry has joined its
queue with its pages, and `P` holds of the entry and of the core. -/
def State.joins (s : State) (i : Instr) (e : Engine) (srcs : List SReg) (pages : List PageMap) (P : QEntry → CoreState → Prop) :
    Prop :=
  ∀ u, s.Enters e srcs pages u → ∃ t q, exec i s = .next t ∧ s.EntryOf e i q ∧ q.pages = pages ∧ s.Joined t e srcs q u ∧
    s.onlyMe t ∧ P q t.me

/-- The queue that an engine word joins, with the registers that its enqueue pops from (R20, R26, R49 to R53). -/
def wordQueue : Instr → Option (Engine × List SReg)
  | .ld _ _ _ _ a | .xin _ _ a _ | .xout _ _ a _ | .seqt _ a _ => some (.a, [a])
  | .st _ _ _ _ v a => some (.a, [v, a])
  | .copy _ _ _ _ | .gath _ _ _ | .scat _ _ _ | .feed _ _ _ _ | .take _ _ _ _ => some (.a, [])
  | .gcfg _ _ | .gswap _ | .ghalt _ | .glink _ _ _ => some (.g, [])
  | .gswapat a _ | .grun a _ | .gfill a _ | .gset _ a _ => some (.g, [a])
  | .gstat _ _ => some (.g, [])
  | .lease _ _ | .free _ | .shelf _ _ | .norm _ | .accz _ | .accsv _ _ | .accld _ _ | .drain _ _ _ => some (.m, [])
  | .mmaStream _ _ a _ | .mmaShelf _ a _ => some (.m, [a])
  | .send _ _ _ a _ | .sendred _ _ _ _ a _ | .pull _ _ _ a _ | .cal _ a | .lstart _ a _ => some (.l, [a])
  | .lshed _ a | .lgate _ a | .lwake _ a | .lidle _ a => some (.l, [a])
  | .lphase w a => some (.l, if w then [a] else [])
  | .lprog _ _ _ | .lmark _ | .lhold _ _ => some (.l, [])
  | .aadd _ _ _ _ v a | .amin _ _ _ _ _ v a | .amax _ _ _ _ _ v a | .axchg _ _ _ _ v a => some (.y, [v, a])
  | .acas _ _ _ _ v a => some (.y, [v, a, v + 1])
  | .fence _ _ => some (.y, [])
  | .phreg _ a | .phdrop a | .phsig a | .rnclm _ a | .rntake _ a => some (.y, [a])
  | .phbyt a b | .rninit a b | .rnpub a b | .rnret a b => some (.y, [a, b])
  | _ => none

/-- The physical address of a block in LOCAL or DIE that core c names by x (R87, R216). -/
def blockAt (c : CoreId) (x : Nat) : Nat :=
  0x4000000000 + if x < 0x400000 then c.val * 0x400000 + x else c.val / 16 * 16 * 0x400000 + (x - 0x40000000)

/-- x is the address of a block: a multiple of 64 in LOCAL or DIE (R172). -/
def isBlock (x : Nat) : Prop := x % 64 = 0 ∧ (x < 0x400000 ∨ 0x40000000 ≤ x ∧ x < 0x44000000)

/-- The core has changed by an enqueue alone. -/
def State.enqueuedOnly (s : State) (y : CoreState) : Prop := y = s.me.enqueueFrame y

/-- The core has changed by an enqueue and in its lease's bookkeeping. -/
def State.leasedOnly (s : State) (y : CoreState) : Prop := y = { s.me.enqueueFrame y with lease := y.lease }

/-- The core has changed by an enqueue that took a format word. -/
def State.formattedOnly (s : State) (y : CoreState) : Prop :=
  y = { s.me.enqueueFrame y with lease := y.lease, fmtQ := y.fmtQ } ∧ y.fmtQ = s.me.fmtQ.drop 1

/-! ## X words -/

/-- A result of an X word: the register holds it, or its queue has it as its newest value; every other register and value stays. The
entries before it have landed, since an X word is serialising (R22, R25, R65). -/
def State.wroteX (s t : State) (d : SReg) (v : Word) : Prop :=
  (∀ r : SReg, t.me.regs[r.toNat] = if r = d ∧ r ≠ 0 ∧ r.toNat < 60 then v else s.me.regs[r.toNat]) ∧
  ∀ q : Fin 4, (t.me.outQ[q]).map OutEntry.value = (s.me.outQ[q]).map OutEntry.value ++ if d = queueReg q then [v] else []

/-- A serialising word touches of its core the issue stage; every S result before it has landed, and the outbound queues hold what they held
(R22). -/
def CoreState.serialFrame (x y : CoreState) : CoreState := { x.issueFrame y with shadows := [], outQ := y.outQ }

/-- The outbound queues hold the same values. -/
def State.samePushes (s t : State) : Prop := ∀ q : Fin 4, (t.me.outQ[q]).map OutEntry.value = (s.me.outQ[q]).map OutEntry.value

/-! ## Traps -/

/-- The handler of a core's graph; 0 where there is none. -/
def State.handlerOf (s : State) (c : CoreId) : Word := match s.graphOf c with | some g => g.handler | none => 0

/-- The executing core has entered its handler: the trap registers hold the cause, XINFO, XSLOT and where to return; INH is set;
issue goes on at the handler; every other register and every byte stays (R201, R202). -/
structure State.Entered (s t : State) (code : BitVec 8) (info : Word) (slot : BitVec 8) (resume : Word) : Prop where
  xpc : t.me.xpc = resume
  xcause : t.me.xcause = code
  xinfo : t.me.xinfo = info
  xslot : t.me.xslot = slot
  inh : t.me.inh = true
  pc : t.me.pc = s.handlerOf s.cur
  held : t.me.held = none
  regs : t.me.regs = s.me.regs
  preds : t.me.preds = s.me.preds
  handles : t.me.handles = s.me.handles
  queues : t.me.queues = s.me.queues
  counters : t.me.counters = s.me.counters
  memory : s.sameMemory t

/-- The graph g is active and nothing has ended it. -/
def State.Stands (s : State) (g : Nat) : Prop :=
  (∃ x ∈ s.sched.graphs, x.id = g) ∧ ∀ x ∈ s.sched.graphs, x.id = g → x.ending = none

/-- The graph g of the state has ended with a trap: STATUS 2, the code, XINFO, the word's address and the task (R204). -/
def State.EndedBy (t : State) (g : Nat) (code : BitVec 8) (info addr : Word) (task : Task) (c : CoreId) : Prop :=
  (∃ x ∈ t.sched.graphs, x.id = g) ∧ ∀ x ∈ t.sched.graphs, x.id = g →
    x.ending = some { status := 2, code := code, addr := addr, info := info, node := task.node, core := c, serial := task.serial }

/-! ## Events -/

/-- Every register, predicate, handle and completion counter of every core, and every byte of memory, is as before. -/
def State.quiet (s t : State) : Prop :=
  s.sameMemory t ∧ ∀ c : CoreId, (t.core c).regs = (s.core c).regs ∧ (t.core c).preds = (s.core c).preds ∧
    (t.core c).handles = (s.core c).handles ∧ (t.core c).counters = (s.core c).counters

/-- Nothing but one port has changed. -/
def State.onlyPort (s t : State) (p : PortId) : Prop := t = { s with ports := t.ports } ∧ ∀ q, q ≠ p → t.port q = s.port q

/-- The sequencer that steps has gone to a step with these k and a; the rest of its port and of the module stays (R224). -/
def State.stepped (s t : State) (step : Nat) (ks : Vector (BitVec 16) 4) (as : Vector (BitVec 32) 4) : Prop :=
  s.onlyPort t s.curPort ∧
    t.port s.curPort = { s.port s.curPort with seqr := { (s.port s.curPort).seqr with step := step, k := ks, a := as } }

/-- Every byte outside a set of addresses reads as before. -/
def State.sameOutside (s t : State) (touched : Nat → Prop) : Prop := ∀ a, ¬ touched a → t.loadByte a = s.loadByte a

/-- Every core but one is as before. -/
def State.othersSame (s t : State) (c : CoreId) : Prop := ∀ d : CoreId, d ≠ c → t.core d = s.core d

/-- A core has left the word that it held at a boundary, to go on at `pc`: a PHARR whose phase has moved is complete, and one whose phase has
not has given back the signal that was its own; no other held word has taken effect (R182, R201). -/
def State.leavesHeld (s t : State) (c : CoreId) (pc : Word) : Prop :=
  match (s.core c).held with
  | some (.phaseMoved p v fresh) =>
    if (s.phaser p).phase = v.toNat then
      pc = (s.core c).pc ∧ (t.core c).counters = (s.core c).counters ∧
        (t.phaser p).sgd = (if fresh then (s.phaser p).sgd &&& ~~~(BitVec.ofNat 16 (2 ^ (c.val % 16))) else (s.phaser p).sgd) ∧
        s.sameOutside t fun a => p + 12 ≤ a ∧ a < p + 14
    else
      pc = (s.core c).pc + 4 ∧ (t.core c).counters = (s.core c).counters.set 4 ((s.core c).counters[4] + 1) ∧ s.sameMemory t
  | _ => pc = (s.core c).pc ∧ (t.core c).counters = (s.core c).counters ∧ s.sameMemory t

/-- An entry of an engine queue that may retire now: it is issued, it belongs to the running task, what it reads before it retires has
been read, and nothing makes it wait (R21, R63, R156, R160, R164). -/
structure State.Retires (s : State) (c : CoreId) (e : Engine) (q : QEntry) : Prop where
  found : findEntry (s.core c) e q.order = some q
  issued : ∃ w, q.status = .issued w
  waits : retireWaits s c e q = false
  read : (readsFirst q.instr = true → q.performed = true ∨ q.touch = []) ∧ q.readsLeft = false
  mine : q.epoch = (s.core c).epoch

/-- The running task's words of a queue, oldest first. -/
def CoreState.mine (x : CoreState) (e : Engine) : List QEntry := (x.queue e).filter fun f => f.epoch == x.epoch

/-- The completion counter counts a retirement in order: once its word is the oldest of its task, with no later one done; not
while an older one is left (R66). -/
def State.counted (s t : State) (c : CoreId) (e : Engine) (q : QEntry) : Prop :=
  (∀ rest, (s.core c).mine e = q :: rest → (∀ f ∈ rest, f.order ≠ q.order ∧ f.status ≠ .retired) →
    (t.core c).counters[engIdx e] = (s.core c).counters[engIdx e] + 1) ∧
  ∀ f rest, (s.core c).mine e = f :: rest → f.order ≠ q.order → f.status ≠ .retired →
    (t.core c).counters[engIdx e] = (s.core c).counters[engIdx e]

/-- The n bytes of an access lie in a row at each of these physical addresses, which do not meet (R87, R89). -/
def placed (c : CoreId) (mask : BitVec 16) (pages : List PageMap) (va n : Nat) (bases : List Nat) : Prop :=
  (∀ i, i < n → physAddrs c mask pages (va + i) = bases.map (· + i)) ∧ bases.Pairwise fun x y => x + n ≤ y ∨ y + n ≤ x

/-- Every register, predicate, handle and completion counter of every core is as before. -/
def State.sameTasks (s t : State) : Prop := ∀ c : CoreId, (t.core c).regs = (s.core c).regs ∧ (t.core c).preds = (s.core c).preds ∧
  (t.core c).handles = (s.core c).handles ∧ (t.core c).counters = (s.core c).counters

/-- An error record of a type, with its die and unit bytes, has been written at ERRHEAD with the wc, or counts as lost where the
ring takes none; no other byte changes (R264). -/
def State.recorded (s t : State) (type : Fin 16) (die unit : Nat) : Prop :=
  let o := s.owner
  let at_ := o.errbase.toNat + 64 * (o.errhead.toNat % 2 ^ (o.errsz.toNat % 16))
  (o.ringOk = true → o.ringFull = false →
    t.owner.errhead = o.errhead + 1 ∧ t.owner.errlost = o.errlost ∧ t.load at_ 1 = type.val ∧ t.load (at_ + 1) 1 = die ∧
      t.load (at_ + 2) 1 = unit ∧ t.load (at_ + 4) 4 = (o.events[type] + 1).toNat ∧ t.load (at_ + 16) 8 = s.clock % 2 ^ 64 ∧
      t.owner.events[type] = 0 ∧ s.sameOutside t fun a => at_ ≤ a ∧ a < at_ + 64) ∧
  (o.ringOk = false ∨ o.ringFull = true →
    t.owner.errhead = o.errhead ∧ t.owner.errlost = o.errlost + 1 ∧ t.owner.events[type] = o.events[type] + 1 ∧ s.sameMemory t)

/-! ## Elements -/

/-- The element of a format that stands at the first of its physical addresses; nothing stands nowhere (R70). -/
def elemIn (s : State) (as : List Nat) (efmt : Nat) (high : Bool) : Nat :=
  match as with
  | a :: _ => if efmtBits efmt = 4 then (s.loadByte a).toNat / (if high then 16 else 1) % 16 else s.load a (efmtBytes efmt)
  | [] => 0

/-- Where the element of a format at a reference lands through the destination of a command, and where it is read. -/
def destOf (c : CoreId) (q : QEntry) (x : ElemRef) : List Nat := physAddrs c q.mcMask q.pages x.addr
def sourceOf (c : CoreId) (q : QEntry) (x : ElemRef) : List Nat := physAddrs c 0 q.pages x.addr

/-- One element lands at every address of its place: each becomes f of what stood there; the other nibble of its byte, and every other byte,
stays (R70, R89). -/
def State.elemLands (s t : State) (as : List Nat) (efmt : Nat) (high : Bool) (f : Nat → Nat) : Prop :=
  (∀ a ∈ as, elemIn t [a] efmt high = f (elemIn s [a] efmt high) % 2 ^ efmtBits efmt ∧
    (efmtBits efmt = 4 → elemIn t [a] efmt (!high) = elemIn s [a] efmt (!high))) ∧
  s.sameOutside t fun x => ∃ a ∈ as, a ≤ x ∧ x < a + efmtBytes efmt

/-- The copies of one element do not meet. -/
def apart (as : List Nat) (efmt : Nat) : Prop := as.Pairwise fun x y => x + efmtBytes efmt ≤ y ∨ y + efmtBytes efmt ≤ x

/-- What a scratchpad line's tag is once elements with these addresses have landed through a handle (R98). -/
def State.stampedBy (s t : State) (h : HandleBits) (landed : Nat → Prop) : Prop :=
  ∀ l, ((hAwr h = true ∧ ∃ a, landed a ∧ scratchLine a = some l) → t.tagOf l = hAtag h) ∧
    (¬(hAwr h = true ∧ ∃ a, landed a ∧ scratchLine a = some l) → t.tagOf l = s.tagOf l)

/-! ## Move words -/

/-- R122 and R123 as a table: the latency, the port and the result of trigger code d for the moved value t, with the latches and the flag of an
element as they stand. Division and square root are apart (R125). -/
def unitResult (x : ElemState) (d : Nat) (t : Word32) : Option (Nat × FlightPort × Word32) :=
  let fb := x.latches[(0 : Fin 8)]
  let fc := x.latches[(1 : Fin 8)]
  let ib := x.latches[(2 : Fin 8)]
  let cb := x.latches[(3 : Fin 8)]
  let mb := x.latches[(4 : Fin 8)]
  let vw := x.latches[(5 : Fin 8)]
  let vl := x.latches[(6 : Fin 8)]
  let by_ := ib.toNat % 32
  let bit := fun (b : Bool) => some (1, FlightPort.compare, if b then (1 : Word32) else 0)
  let fp := fun (n : Nat) (r : Fin 7) (v : Nat) => some (n, FlightPort.result r, BitVec.ofNat 32 v)
  let lane := fun (bits : Nat) => vw.toNat / 2 ^ (bits * (t.toNat % (32 / bits))) % 2 ^ bits
  let pack := fun (bits : Nat) (v : Nat) => some (2, FlightPort.vpLane (vl.toNat % (32 / bits)) bits, BitVec.ofNat 32 v)
  match d with
  | 0x10 => fp 4 0 (ffma fp32 t.toNat fb.toNat fc.toNat)
  | 0x11 => fp 4 0 (fadd fp32 t.toNat fb.toNat)
  | 0x12 => fp 4 0 (fmul fp32 t.toNat fb.toNat)
  | 0x13 => some (1, .result 1, t + ib)
  | 0x14 => some (1, .result 1, t - ib)
  | 0x15 => some (1, .result 1, t &&& ib)
  | 0x16 => some (1, .result 1, t ||| ib)
  | 0x17 => some (1, .result 1, t ^^^ ib)
  | 0x18 => some (1, .result 1, t <<< by_)
  | 0x19 => some (1, .result 1, t >>> by_)
  | 0x1a => some (1, .result 1, t.sshiftRight by_)
  | 0x1b => bit (flt fp32 t.toNat cb.toNat)
  | 0x1c => bit (flt fp32 t.toNat cb.toNat || feq fp32 t.toNat cb.toNat)
  | 0x1d => bit (feq fp32 t.toNat cb.toNat)
  | 0x1e => bit (decide (t.toInt < cb.toInt))
  | 0x1f => bit (t == cb)
  | 0x20 => some (1, .result 2, if x.flag then t else cb)
  | 0x21 => fp 1 3 (fminmax fp32 false t.toNat mb.toNat)
  | 0x22 => fp 1 3 (fminmax fp32 true t.toNat mb.toNat)
  | 0x23 => some (1, .result 3, if t.toInt ≤ mb.toInt then t else mb)
  | 0x24 => some (1, .result 3, if t.toInt ≤ mb.toInt then mb else t)
  | 0x25 => fp 2 4 (lane 16 * 65536)
  | 0x26 => fp 2 4 (toIeee fp32 false (halfExact 8 (lane 8)))
  | 0x27 => fp 2 4 (toIeee fp32 false (halfExact 4 (lane 4)))
  | 0x28 => fp 2 4 (toIeee fp32 false (fp4Exact (lane 4)))
  | 0x29 => pack 16 (convert 4 false (fp32.value t.toNat) (nanTo fp32 bf16 t.toNat))
  | 0x2a => pack 8 (convert 3 false (fp32.value t.toNat) 0)
  | 0x2b => pack 4 (convert 2 false (fp32.value t.toNat) 0)
  | 0x2c => pack 4 (convert 0 false (fp32.value t.toNat) 0)
  | _ => none

/-- Two destination codes trigger one unit: they stand in one range of R122 with one result port. -/
def oneUnit (d e : Nat) : Prop :=
  ∃ r ∈ [(0x10, 0x12), (0x13, 0x1a), (0x1b, 0x20), (0x21, 0x24), (0x25, 0x28), (0x29, 0x2c), (0x2d, 0x2e)],
    r.1 ≤ d ∧ d ≤ r.2 ∧ r.1 ≤ e ∧ e ≤ r.2

/-- A value is under way in the front board of a grid. -/
def State.flies (s t : State) (c : CoreId) (pulse elem : Nat) (port : FlightPort) (v : Word32) : Prop :=
  t = s.onGrid c fun g => { g with front := { g.front with flights := g.front.flights ++
    [{ at_ := pulse, elem := Fin.ofNat 128 elem, port := port, value := v }] } }

/-- What a move of the value v to destination d does in pulse p (R118, R122, R125, R127, R139): a register, a latch or a neighbour's link input
takes it at the next pulse, the neighbouring grid's across a joined edge 2 pulses later, and at an edge that is not joined nothing does; at the
east edge the gate buffer takes it; a unit's result lands after its latency; a trigger of DIV or SQRT within 24 pulses of the last is discarded
and sets DOV. -/
def State.moved (s t : State) (c : CoreId) (now rec : PassRecord) (p : Nat) (e : Fin 128) (d : Nat) (v : Word32) : Prop :=
  let x := (s.grid c).front.elems[e]
  let row := e.val / 16
  let col := e.val % 16
  let flies := fun (at_ k : Nat) (port : FlightPort) (w : Word32) => s.flies t c (p + at_) k port w
  let across := fun (other : Option CoreId) (joined : Bool) (k : Nat) (port : FlightPort) =>
    (∀ n, other = some n → joined = true → s.flies t n (p + 2) k port v) ∧ ((other = none ∨ joined = false) → t = s)
  (d < 4 → flies 1 e.val (.cold (Fin.ofNat 4 d)) v) ∧
  (d = 4 → (row ≠ 0 → flies 1 (e.val - 16) (.link 2) v) ∧ (row = 0 → across (northOf c) (s.joinedNorth c) (112 + col) (.link 2))) ∧
  (d = 5 → (col ≠ 15 → flies 1 (e.val + 1) (.link 3) v) ∧
    (col = 15 → t = s.onCore c fun y =>
      let b := y.outBuf[(Fin.ofNat 8 row : Fin 8)]
      let words := if now.outMask.getLsbD row then b.words ++ [v] else b.words
      let reserved := if rec.outMask.getLsbD row then b.reserved - 1 else b.reserved
      { y with outBuf := y.outBuf.set (Fin.ofNat 8 row : Fin 8) { words := words, reserved := reserved } })) ∧
  (d = 6 → (row ≠ 7 → flies 1 (e.val + 16) (.link 0) v) ∧ (row = 7 → across (southOf c) (s.joinedSouth c) col (.link 0))) ∧
  (d = 7 → (col ≠ 0 → flies 1 (e.val - 1) (.link 1) v) ∧ (col = 0 → t = s)) ∧
  (8 ≤ d → d < 16 → flies 1 e.val (.latch (Fin.ofNat 8 (d - 8))) v) ∧
  (∀ n port w, unitResult x d v = some (n, port, w) → flies n e.val port w) ∧
  (d = 0x2d ∨ d = 0x2e →
    let w : Word32 := BitVec.ofNat 32 (if d = 0x2e then fsqrt fp32 v.toNat else fdiv fp32 v.toNat (x.latches[(7 : Fin 8)]).toNat)
    ((∃ q, x.lastDiv = some q ∧ p < q + 24) → t = s.onGrid c fun g => { g with dov := true }) ∧
    ((∀ q, x.lastDiv = some q → q + 24 ≤ p) → t = s.onGrid c fun g => { g with front := { g.front with
      elems := g.front.elems.set e { x with lastDiv := some p }
      flights := g.front.flights ++ [{ at_ := p + 24, elem := e, port := .result 6, value := w }] } }))

/-! ## Accumulator rows -/

/-- The rounding of R79 and R81: q is the integer nearest to v / 2^h, and the even one of two that are as near. -/
def nearestEven (v : Int) (h : Nat) (q : Int) : Prop :=
  2 * (v - q * 2 ^ h).natAbs ≤ 2 ^ h ∧ (2 * (v - q * 2 ^ h).natAbs = 2 ^ h → q % 2 = 0)

/-- b is an exact number times 2^k, rounded. -/
def scaledTo (x : Exact) (k b : Int) : Prop :=
  let v : Int := if x.neg then -(x.m : Int) else x.m
  if 0 ≤ x.e + k then b = v * 2 ^ (x.e + k).toNat else nearestEven v (-(x.e + k)).toNat b

/-- One block on one accumulator row (R79): E rises to the largest of its own and of the exponents of the block results that are not 0; every
mantissa is the old one at the new exponent plus the block result, each rounded. -/
def rowTakes (r r' : AccRow) (xs : Fin 32 → Exact) : Prop :=
  ∃ e : Int, r.e.toInt ≤ e ∧ (∀ j, (xs j).m ≠ 0 → (Nat.log2 (xs j).m : Int) + 1 + (xs j).e ≤ e) ∧
    (e = r.e.toInt ∨ ∃ j, (xs j).m ≠ 0 ∧ (Nat.log2 (xs j).m : Int) + 1 + (xs j).e = e) ∧
    r'.e = BitVec.ofInt 12 e ∧ r'.g = r.g ∧ r'.sp = r.sp ∧
    ∀ j : Fin 32, ∃ a b : Int, nearestEven (r.m[j]).toInt (e - r.e.toInt).toNat a ∧ scaledTo (xs j) (30 - e) b ∧
      r'.m[j] = BitVec.ofInt 48 (a + b)

/-! ## The step -/

/-- A step of a link program (R224). -/
def isLinkStep : Instr → Bool
  | .linkEnd | .linkSend _ _ _ _ _ | .linkWait _ _ | .linkWake _ | .linkGate _ | .setk _ _ | .linkLoop _ _ | .seta _ _ | .adda _ _
  | .parm _ => true
  | _ => false

/-- Core c issues: it runs, its issue stage is ready and holds no word, and no trap, no pre-emption and no saved word
comes before its next word (R20, R199, R201). -/
structure State.Issues (s : State) (c : CoreId) : Prop where
  running : (s.core c).mode = .running
  ready : (s.core c).issueAt ≤ s.clock
  held : (s.core c).held = none
  traps : (s.core c).traps = []
  preempt : (s.core c).preempt = none
  stayed : (s.core c).hasStayed = false

/-- The word that core c issues next: the head of its S queue, or the word of a cached line at its pc (R20, R357). -/
def State.nextWord (s : State) (c : CoreId) (w : Word32) : Prop :=
  (∃ rest, (s.core c).squeue = ((s.core c).pc, w) :: rest) ∨
    ((s.core c).squeue = [] ∧ ∃ l, icacheFind (s.core c) (lineOf (s.core c).pc.toNat) = some l ∧ w = wordIn l (s.core c).pc.toNat)

/-- What fetch adds before core c issues: its cache and its S queue move, fills begin; nothing else (R20, R358). -/
structure State.FetchedFor (s u : State) (c : CoreId) : Prop where
  current : u.cur = c
  core : u.core c = { s.core c with squeue := (u.core c).squeue, icache := (u.core c).icache, filling := (u.core c).filling }
  others : s.othersSame u c
  rest : u = { s with cur := c, cores := u.cores, timers := u.timers }
  memory : s.sameMemory u

/-- Core c's next word w issues from the state s: its instruction, or an illegal word, is executed in the state that fetch leaves. -/
def State.runsWord (s : State) (c : CoreId) (w : Word32) (out : Host.Outcome State Fault Refusal) : Prop :=
  ∃ u, s.FetchedFor u c ∧ out = exec (match decode w with | .ok i => i | .error _ => .illegalWord w) u

/-- The word reads memory as the issue stage executes it: an LDS or an ACCLD (R62, R271). -/
def wordReads (w : Word32) : Bool := match decode w with | .ok i => readsAtIssue i | .error _ => false

end Sys2Proof.Machine
end

