-- ==== Sys2Proof/Certificates/Slice0/Obligations.lean ====
section
/-! DEFINITION. The statements for the provers. Each says what the rules it cites say, over every state and operand that
meets its hypotheses. A word that "answers a next state" completes with its own effect. -/

open Sys2Proof Sys2Proof.Machine

/-! ## S engine: typed words -/

/-- R25, R26, R41: what a source reads. s0 reads 0; a queue-mapped register reads the oldest entry; any other reads its register
when no result of it is still inside its bound, and otherwise, in each 32-bit half, the new value or one that it replaces. -/
def Obligations.SourcesRead : Prop :=
  ∀ (s : State) (k : Nat),
    s.src k 0 = 0 ∧
    (∀ q : Fin 4, s.src k (queueReg q) = (s.me.inQ[q]).headD 0) ∧
    ∀ r : SReg, r ≠ 0 → r.toNat < 60 →
      ((∀ h ∈ s.me.shadows, h.handle = false → h.reg = r.toNat → h.landsAt ≤ s.clock) → s.src k r = s.me.regs[r.toNat]) ∧
      ∀ half : Nat, half < 2 → ∃ v : HandleBits, (v = (s.me.regs[r.toNat] : Word).setWidth 256 ∨
          ∃ h ∈ s.me.shadows, h.handle = false ∧ h.reg = r.toNat ∧ s.clock < h.landsAt ∧ h.old = v) ∧
        (s.src k r).extractLsb' (32 * half) 32 = v.extractLsb' (32 * half) 32

/-- R41, R57: ADD, SUB, MUL, AND, OR and XOR act on the low bits of both operands, wrap at the width and extend the result by the type; a
shift moves by the amount modulo the width: SHL brings in zeros, SHR zeros, SHA copies of the sign. Each completes, pops its queue sources
once, sends its result to its destination within its bound and leaves everything else alone. -/
def Obligations.TypedArithmetic : Prop :=
  (∀ (s : State) (ty : ScalarType) (d a b : SReg),
    let x := low ty (s.src 0 a)
    let y := low ty (s.src 1 b)
    completes (.add ty d a b) s [a, b] [] d (spread ty (x + y)) 1 ∧
    completes (.sub ty d a b) s [a, b] [] d (spread ty (x - y)) 1 ∧
    completes (.mul ty d a b) s [a, b] [] d (spread ty (x * y)) 3 ∧
    completes (.and ty d a b) s [a, b] [] d (spread ty (x &&& y)) 1 ∧
    completes (.or ty d a b) s [a, b] [] d (spread ty (x ||| y)) 1 ∧
    completes (.xor ty d a b) s [a, b] [] d (spread ty (x ^^^ y)) 1) ∧
  ∀ (s : State) (ty : ScalarType) (d a b : SReg),
    let x := low ty (s.src 0 a)
    let n := (s.src 1 b).toNat % widthBits ty.width
    completes (.shl ty d a b) s [a, b] [] d (spread ty (x <<< n)) 1 ∧
    (ty.natural = true → completes (.shr ty d a b) s [a, b] [] d (spread ty (x >>> n)) 1) ∧
    (ty.natural = false → completes (.sha ty d a b) s [a, b] [] d (spread ty (x.sshiftRight n)) 1)

/-- R27, R57: the high half of a product is that of the product at twice the width, signed for MULH and natural for MULHN; quotients
round toward zero and remainders take the dividend's sign; a zero divisor gives all ones and the dividend, and the most negative
number by −1 itself and 0. -/
def Obligations.HighAndDivisionWords : Prop :=
  (∀ (s : State) (ty : ScalarType) (d a b : SReg),
     let t := widthBits ty.width
     let x := low ty (s.src 0 a)
     let y := low ty (s.src 1 b)
     (ty.natural = false →
       completes (.mulh ty d a b) s [a, b] [] d (spread ty (((x.signExtend (2 * t)) * (y.signExtend (2 * t))).extractLsb' t t)) 4) ∧
     (ty.natural = true →
       completes (.mulhn ty d a b) s [a, b] [] d (spread ty (((x.setWidth (2 * t)) * (y.setWidth (2 * t))).extractLsb' t t)) 4)) ∧
  (∀ (s : State) (ty : ScalarType) (d a b : SReg),
     let x := low ty (s.src 0 a)
     let y := low ty (s.src 1 b)
     (ty.natural = false →
       completes (.div ty d a b) s [a, b] [] d (spread ty (if y = 0 then -1 else x.sdiv y)) 20 ∧
       completes (.rem ty d a b) s [a, b] [] d (spread ty (x.srem y)) 20) ∧
     (ty.natural = true →
       completes (.divn ty d a b) s [a, b] [] d (spread ty (if y = 0 then -1 else x.udiv y)) 20 ∧
       completes (.remn ty d a b) s [a, b] [] d (spread ty (x.umod y)) 20))

/-- R57: minimum and maximum, signed and natural; CLZ counts the leading zeros at the width, the whole width for 0; POPC counts the
ones. -/
def Obligations.MinMaxAndCountWords : Prop :=
  (∀ (s : State) (ty : ScalarType) (d a b : SReg),
     let x := low ty (s.src 0 a)
     let y := low ty (s.src 1 b)
     (ty.natural = false →
       completes (.min ty d a b) s [a, b] [] d (spread ty (if x.slt y then x else y)) 1 ∧
       completes (.max ty d a b) s [a, b] [] d (spread ty (if x.slt y then y else x)) 1) ∧
     (ty.natural = true →
       completes (.minn ty d a b) s [a, b] [] d (spread ty (if x.ult y then x else y)) 1 ∧
       completes (.maxn ty d a b) s [a, b] [] d (spread ty (if x.ult y then y else x)) 1)) ∧
  (∀ (s : State) (ty : ScalarType) (d a : SReg), ty.natural = true →
     let t := widthBits ty.width
     let x := low ty (s.src 0 a)
     (∃ n, n ≤ t ∧ (∀ i, i < n → x.getLsbD (t - 1 - i) = false) ∧ (n < t → x.getLsbD (t - 1 - n) = true) ∧
       completes (.clz ty d a) s [a] [] d (BitVec.ofNat 64 n) 1) ∧
     completes (.popc ty d a) s [a] [] d (BitVec.ofNat 64 ((List.range t).countP fun i => x.getLsbD i)) 1)

/-- R25, R30, R59, R60: CMP and CMPI compare at the type's width and sign, or as i64 with the immediate, and write one predicate; PLOG
writes bit 2 pa + pb of fn. p0 reads true and discards a write. A cond of 6 or 7 is no instruction. -/
def Obligations.PredicateWords : Prop :=
  (∀ (s : State) (p : PReg),
    (∀ (c : Cond) (ty : ScalarType) (a b : SReg), s.Free [a, b] [] 0 →
      let x := low ty (s.src 0 a)
      let y := low ty (s.src 1 b)
      let lt := if ty.natural then x.ult y else x.slt y
      ∃ t, exec (.cmp c ty p a b) s = .next t ∧ s.Predicate t [a, b] p
        (match c with | .eq => x == y | .ne => x != y | .lt => lt | .ge => !lt | .le => lt || x == y | .gt => !(lt || x == y))) ∧
    (∀ (c : Cond) (a : SReg) (imm : BitVec 12), s.Free [a] [] 0 →
      let x := s.src 0 a
      let y : Word := imm.signExtend 64
      ∃ t, exec (.cmpi c p a imm) s = .next t ∧ s.Predicate t [a] p
        (match c with
          | .eq => x == y | .ne => x != y | .lt => x.slt y | .ge => !(x.slt y) | .le => x.slt y || x == y
          | .gt => !(x.slt y || x == y))) ∧
    ∀ (pa pb : PReg) (fn : BitVec 4), s.Free [] [] 0 →
      let bit := fun r : PReg => r == 0 || s.me.preds.getLsbD r.toNat
      ∃ t, exec (.plog p pa pb fn) s = .next t ∧
        s.Predicate t [] p (fn.getLsbD ((if bit pa then 2 else 0) + if bit pb then 1 else 0))) ∧
  ∀ w : Word32, w.extractLsb' 29 3 = 0 → (w.extractLsb' 23 6 = 0x17 ∨ w.extractLsb' 24 5 = 0x1c) → 6 ≤ (w.extractLsb' 17 3).toNat →
    ∃ r, decode w = .error r

/-- R29, R41, R58, R60, R273, R318, R319, R333, R338: the register-immediate words act on all 64 bits with the immediate sign-extended; MOV
copies all 64 bits; SEL reads both sources and takes the first under a true guard; NOP does nothing but let issue go on. -/
def Obligations.ImmediateWords : Prop :=
  (∀ (s : State) (d a : SReg) (imm : BitVec 12) (n : BitVec 6),
    let x := s.src 0 a
    let y : Word := imm.signExtend 64
    completes (.addi d a imm) s [a] [] d (x + y) 1 ∧
    completes (.andi d a imm) s [a] [] d (x &&& y) 1 ∧
    completes (.ori d a imm) s [a] [] d (x ||| y) 1 ∧
    completes (.xori d a imm) s [a] [] d (x ^^^ y) 1 ∧
    completes (.shli d a n) s [a] [] d (x <<< n) 1 ∧
    completes (.shri d a n) s [a] [] d (x >>> n) 1 ∧
    completes (.shai d a n) s [a] [] d (x.sshiftRight n.toNat) 1 ∧
    completes (.movi d imm) s [] [] d y 1 ∧
    completes (.movhi d a imm) s [a] [] d (y <<< 12 ||| (x.extractLsb' 0 12).setWidth 64) 1) ∧
  ∀ (s : State) (d a b : SReg) (g : Guard),
    completes (.mov d a) s [a] [] d (s.src 0 a) 1 ∧
    completes (.sel g d a b) s [a, b] [] d
      (if (g.pred == 0 || s.me.preds.getLsbD g.pred.toNat) != g.invert then s.src 0 a else s.src 1 b) 1 ∧
    ∃ t, exec .nop s = .next t ∧ s.Passed t []

/-! ## S engine: literals, LOCAL, branches, waits, handles -/

/-- R32, R41, R309, R357: LIT loads a literal from the code at its own address plus the offset: from the cached line where it stands (bound
4), else from the line of a fill in progress, or from memory, whose line then begins to fill (bound 320); i32 is sign-extended and n32
zero-extended. That a literal whose line is absent is taken from the bytes of the fill, as it began or begins, is the model's reading
(log 10). -/
def Obligations.LiteralWords : Prop :=
  ∀ (s : State) (d : SReg) (off : BitVec 15) (size : LitSize), s.Free [] [] d →
    let x : Word := s.me.pc + off.signExtend 64 * 4
    let fills := fun (t : State) (y : Word) (w : Word32) => ∃ f ∈ t.me.filling, f.line.line = lineOf y.toNat ∧ w = wordIn f.line y.toNat
    x.toNat % 4 = 0 →
    (∀ lo c, s.codeWord x lo c → size ≠ .w64 →
      ∃ t, exec (.lit size d off) s = .next t ∧
        s.wrote t d (if size = .i32 then lo.signExtend 64 else lo.setWidth 64) (if c then 4 else 320) ∧
        (c = false → fills t x lo) ∧ s.goesOn t ∧ s.sameMemory t ∧ ∀ k : CoreId, k ≠ s.cur → t.core k = s.core k) ∧
    (∀ lo c hi e, s.codeWord x lo c → s.codeWord (x + 4) hi e → size = .w64 →
      ∃ t, exec (.lit size d off) s = .next t ∧ s.wrote t d (hi ++ lo) (if c && e then 4 else 320) ∧
        (c = false → fills t x lo) ∧ (e = false → fills t (x + 4) hi) ∧
        s.goesOn t ∧ s.sameMemory t ∧ ∀ k : CoreId, k ≠ s.cur → t.core k = s.core k)

/-- R27, R33, R41, R62, R200, R305, R343: LDS loads the scalar at LOCAL a + off × size, extended by its type; STS under a true guard leaves
the low bytes of v to be stored there, which no agent sees in its own wc, and under a false one nothing; when the wc ends they stand in
memory, and no other byte has changed. An address that is not a multiple of the size gives LDS, and STS under a true guard, trap 0x03, and
one outside LOCAL trap 0x05. That an STS or a JR under a false guard pops no queue entry is the model's reading (log 7). -/
def Obligations.LocalAccesses : Prop :=
  (∀ (s : State),
     (∀ (ty : ScalarType) (d a : SReg) (off : BitVec 9), s.Free [a] [] d → s.unfenced [.r, .rw, .sc] →
       let n := widthBytes ty.width
       let x := s.src 0 a + BitVec.ofNat 64 (off.toNat * n)
       x.toNat % n = 0 → x.toNat + n ≤ 0x400000 →
       ∃ t, exec (.lds ty d a off) s = .next t ∧
         s.Scalar t [a] d (spread ty (BitVec.ofNat _ (s.load (0x4000000000 + s.cur.val * 0x400000 + x.toNat) n))) 6) ∧
     ∀ (g : Guard) (w : Width) (v a : SReg) (off : BitVec 5),
       (s.guardTrue g = false → (∃ t, exec (.sts g w v a off) s = .next t ∧ s.Passed t []) ∧
         ∃ t, exec (.jr g a) s = .next t ∧ s.Passed t []) ∧
       (s.guardTrue g = true → s.Free [v, a] [] 0 → s.unfenced [.w, .rw, .sc] →
         let n := widthBytes w
         let x := s.src 1 a + BitVec.ofNat 64 (off.toNat * n)
         let at_ := 0x4000000000 + s.cur.val * 0x400000 + x.toNat
         (x.toNat % n = 0 → x.toNat + n ≤ 0x400000 →
           ∃ t, exec (.sts g w v a off) s = .next t ∧ t.stores = s.stores ++ [(at_, leBytes n (s.src 0 v).toNat)] ∧
             s.popped t [v, a] ∧ s.goesOn t ∧ s.sameRegs t ∧ t = { s with stores := t.stores, cores := t.cores, free := t.free } ∧
             ∀ c : CoreId, c ≠ s.cur → t.core c = s.core c) ∧
         (x.toNat % n ≠ 0 → exec (.sts g w v a off) s = .next (s.faultHere 0x03 x)) ∧
         (x.toNat % n = 0 → 0x400000 < x.toNat + n → exec (.sts g w v a off) s = .next (s.faultHere 0x05 x)))) ∧
  (∀ (s : State) (at_ n v : Nat), s.stores = [(at_, leBytes n v)] →
     let t := s.landStores
     t.stores = [] ∧ (∀ k, k < n → t.loadByte (at_ + k) = BitVec.ofNat 8 (v / 256 ^ k)) ∧
       ∀ c, c < at_ ∨ at_ + n ≤ c → t.loadByte c = s.loadByte c) ∧
  (∀ (s : State) (ty : ScalarType) (d a : SReg) (off : BitVec 9), s.Free [a] [] d → s.unfenced [.r, .rw, .sc] →
     let n := widthBytes ty.width
     let x := s.src 0 a + BitVec.ofNat 64 (off.toNat * n)
     (x.toNat % n ≠ 0 → exec (.lds ty d a off) s = .next (s.faultHere 0x03 x)) ∧
     (x.toNat % n = 0 → 0x400000 < x.toNat + n → exec (.lds ty d a off) s = .next (s.faultHere 0x05 x)))

/-- R24, R31, R61, R274, R303, R310, R328: a branch under a true guard goes on 3 wc later at its own address plus four times the
offset, or at lk or a register; CALL writes lk; LOOP counts down and branches until the count is 0; a register target with a low bit
set takes trap 0x02; a branch under a false guard has no effect (of a JR that names a queue, LocalAccesses says it). -/
def Obligations.BranchWords : Prop :=
  ∀ (s : State) (g : Guard) (off : BitVec 19) (a : SReg),
    let target : Word := s.me.pc + off.signExtend 64 * 4
    (s.guardTrue g = false →
      (∃ t, exec (.b g off) s = .next t ∧ s.Passed t []) ∧ (∃ t, exec (.call g off) s = .next t ∧ s.Passed t []) ∧
      (∃ t, exec (.ret g) s = .next t ∧ s.Passed t []) ∧ ((∀ q, a ≠ queueReg q) → ∃ t, exec (.jr g a) s = .next t ∧ s.Passed t [])) ∧
    (s.guardTrue g = true →
      (∃ t, exec (.b g off) s = .next t ∧ s.Branched t [] target ∧ s.sameRegs t) ∧
      (∃ t, exec (.call g off) s = .next t ∧ s.Branched t [] target ∧ s.wrote t 59 (s.me.pc + 4) 1) ∧
      (s.Free [59] [] 0 → (s.src 0 59).toNat % 4 = 0 →
        ∃ t, exec (.ret g) s = .next t ∧ s.Branched t [59] (s.src 0 59) ∧ s.sameRegs t) ∧
      (s.Free [a] [] 0 → (s.src 0 a).toNat % 4 = 0 →
        ∃ t, exec (.jr g a) s = .next t ∧ s.Branched t [a] (s.src 0 a) ∧ s.sameRegs t) ∧
      (s.Free [59] [] 0 → (s.src 0 59).toNat % 4 ≠ 0 → exec (.ret g) s = .next (s.faultHere 0x02 (s.src 0 59))) ∧
      (s.Free [a] [] 0 → (s.src 0 a).toNat % 4 ≠ 0 → exec (.jr g a) s = .next (s.faultHere 0x02 (s.src 0 a)))) ∧
    ∀ (c : SReg) (o : BitVec 17), c.toNat < 60 → s.Free [c] [] 0 →
      ∃ t, exec (.loop c o) s = .next t ∧ s.wrote t c (s.src 0 c - 1) 1 ∧
        (if s.src 0 c = 1 then s.goesOn t else s.goesTo t (s.me.pc + o.signExtend 64 * 4) 3) ∧ s.sameMemory t ∧ s.onlyMe t

/-- R67, R68, R85, R283, R326, R350: WAITC goes on once its counter has reached the target within a half-range window; RDV once no
masked queue holds an unretired word, nor q0 or q1 an entry where A is masked; FMT appends its source to the format queue. -/
def Obligations.WaitWords : Prop :=
  ∀ (s : State) (a : SReg),
    (∀ sel : Engine, s.Free [a] [] 0 →
      ((s.me.counters[engIdx sel] : BitVec 32) - (s.src 0 a).setWidth 32).toNat < 2 ^ 31 →
      ∃ t, exec (.waitc sel a) s = .next t ∧ s.Passed t [a]) ∧
    (∀ k : EngineMask,
      (∀ e : Engine, (match e with | .a => k.a | .g => k.g | .m => k.m | .l => k.l | .y => k.y) = true → s.me.unretired e = []) →
      (k.a = true → s.me.outQ[(0 : Fin 4)] = [] ∧ s.me.outQ[(1 : Fin 4)] = []) →
      ∃ t, exec (.rdv k) s = .next t ∧ s.Passed t []) ∧
    (s.Free [a] [] 0 → s.me.fmtQ.length < 16 →
      ∃ t, exec (.fmt a) s = .next t ∧ t.me.fmtQ = s.me.fmtQ ++ [s.src 0 a] ∧ s.popped t [a] ∧ s.goesOn t ∧ s.sameRegs t ∧
        s.sameMemory t ∧ s.onlyMe t)

/-- R90, R93, R300: HSET replaces one field and no other bit; HGET reads one, sign-extended for a stride; HMOV copies; HOFF adds to
the base; HSLICE narrows a dimension and moves the base by `start` elements, or takes trap 0x08 when the slice does not fit. That XINFO
is then the number of the handle is the model's reading (log 8), and so is the step of an element of a reserved EFMT (log 82). -/
def Obligations.HandleWords : Prop :=
  ∀ (s : State) (hd ha : HReg) (a b : SReg) (f : HField),
    (s.Free [a] [] 0 → ∃ t v, exec (.hset f hd a) s = .next t ∧ s.HandleWritten t [a] hd v ∧
      ∀ i, i < 256 → v.getLsbD i = if (fieldBits f).1 ≤ i ∧ i < (fieldBits f).1 + (fieldBits f).2
        then (s.src 0 a).getLsbD (i - (fieldBits f).1) else (s.me.handles[hd.toNat] : HandleBits).getLsbD i) ∧
    completes (.hget f a ha) s [] [ha] a
      (match f with
        | .st1 | .st2 | .st3 => ((s.handle 0 ha).extractLsb' (fieldBits f).1 32).signExtend 64
        | _ => ((s.handle 0 ha).extractLsb' (fieldBits f).1 (fieldBits f).2).setWidth 64) 1 ∧
    (s.Free [] [ha] 0 → ∃ t, exec (.hmov hd ha) s = .next t ∧ s.HandleWritten t [] hd (s.handle 0 ha)) ∧
    (s.Free [a] [ha] 0 → ∃ t, exec (.hoff hd ha a) s = .next t ∧
      s.HandleWritten t [a] hd ((s.handle 0 ha).extractLsb' 64 192 ++ ((s.handle 0 ha).extractLsb' 0 64 + s.src 0 a))) ∧
    ∀ k : BitVec 2, s.Free [a, b] [ha] 0 →
      (sliceOk k.toNat (s.handle 0 ha) (s.src 0 a) (s.src 1 b) = true →
        ∃ t v, exec (.hslice k hd ha a b) s = .next t ∧ s.HandleWritten t [a, b] hd v ∧
          hDim v k.toNat = (s.src 1 b).toNat ∧
          hBase v = (((hBase (s.handle 0 ha) : Nat) + sliceBytes k.toNat (s.handle 0 ha) (s.src 0 a).toNat) % 2 ^ 64).toNat ∧
          (∀ j, j < 4 → j ≠ k.toNat → hDim v j = hDim (s.handle 0 ha) j) ∧ hEfmt v = hEfmt (s.handle 0 ha) ∧
          ∀ j, 1 ≤ j → j < 4 → hStride v j = hStride (s.handle 0 ha) j) ∧
      (sliceOk k.toNat (s.handle 0 ha) (s.src 0 a) (s.src 1 b) = false →
        exec (.hslice k hd ha a b) s = .next (s.faultHere 0x08 (ha.setWidth 64)))

/-! ## Enqueue: the A, G, M, L and Y words -/

/-- R20, R33, R87, R92, R96, R200, R304, R343: LD and ST whose address passes its checks join the A queue with the address, the data
and the translation; an ST under a false guard joins with no check. The address of an LD that lies in no space it may use takes trap
0x05, else one that is not a multiple of its size trap 0x06. -/
def Obligations.ScalarAccesses : Prop :=
  (∀ (s : State) (acq rel q1 : Bool) (sc : Scope) (ty : ScalarType) (g : Guard) (w : Width) (v a : SReg),
     (∀ pages, checkScalar s s.cur warmSpaces false (s.src 0 a).toNat (widthBytes ty.width) = .ok pages →
       s.joins (.ld acq sc ty q1 a) .a [a] pages fun q y => q.sa = s.src 0 a ∧ q.acquire = acq ∧ s.enqueuedOnly y) ∧
     (∀ pages, s.guardTrue g = true → checkScalar s s.cur warmOrWindow true (s.src 1 a).toNat (widthBytes w) = .ok pages →
       s.joins (.st g rel sc w v a) .a [v, a] pages fun q y =>
         q.sa = s.src 1 a ∧ q.v = s.src 0 v ∧ q.guardTrue = true ∧ q.release = rel ∧ s.enqueuedOnly y) ∧
     (s.guardTrue g = false →
       s.joins (.st g rel sc w v a) .a [v, a] [] fun q y => q.guardTrue = false ∧ q.touch = [] ∧ s.enqueuedOnly y)) ∧
  (∀ (s : State) (acq q1 : Bool) (sc : Scope) (ty : ScalarType) (a : SReg),
     s.hasValues [a] → s.me.occupancy .a < 32 →
     let x := (s.src 0 a).toNat
     let slot : BitVec 8 := 1#3 ++ BitVec.ofNat 5 s.me.enqueued[(0 : Fin 5)]
     let inSpace := x < 0x400000 ∨ (0x40000000 ≤ x ∧ x < 0x44000000) ∨ (0x100000000 ≤ x ∧ x < 0x10000000000000)
     (¬ inSpace → exec (.ld acq sc ty q1 a) s = .next (s.faultHere 0x05 (s.src 0 a) slot)) ∧
     (inSpace → x % widthBytes ty.width ≠ 0 → exec (.ld acq sc ty q1 a) s = .next (s.faultHere 0x06 (s.src 0 a) slot)))

/-- R36, R100, R104, R105, R107, R184, R278, R279, R286, R331, R351: the words of the A engine but LD and ST whose operands pass their
checks join the A queue with their descriptor: COPY, GATH and SCAT with their handles, the destination first; FEED, TAKE, XIN, XOUT and
SEQT with their handle and their scalar operand. -/
def Obligations.TensorWordsJoin : Prop :=
  (∀ (s : State) (da db : HReg) (nt : NtField),
     let ha := s.handle 0 da
     let hb := s.handle 1 db
     let hc := s.handle 2 (db + 1)
     checkNotify nt (s.descriptor nt) = .ok () →
     (∀ f pa pb pc, checkHandle s s.cur ha da (copyDest f) true = .ok pa → checkHandle s s.cur hb db warmSpaces false = .ok pb →
       (if f = .s24 then checkHandle s s.cur hc (db + 1) warmSpaces false = .ok pc else pc = []) →
       copyForm f da db ha hb hc = .ok () →
       s.joins (.copy f da db nt) .a [] (pa ++ (pb ++ pc)) fun q y =>
         q.handles = (if f = .s24 then [ha, hb, hc] else [ha, hb]) ∧ q.notify = s.descriptor nt ∧ s.enqueuedOnly y) ∧
     (∀ pa pb pc, checkHandle s s.cur ha da warmOrWindow true = .ok pa → checkHandle s s.cur hb db warmSpaces false = .ok pb →
       checkHandle s s.cur hc (db + 1) warmSpaces false = .ok pc → hEfmt ha = hEfmt hb → 6 ≤ hEfmt hc → hEfmt hc ≤ 9 →
       ((∀ k, k < 4 → hDim hc k = hDim ha k) →
         s.joins (.gath da db nt) .a [] (pa ++ (pb ++ pc)) fun q y =>
           q.handles = [ha, hb, hc] ∧ q.notify = s.descriptor nt ∧ s.enqueuedOnly y) ∧
       ((∀ k, k < 4 → hDim hc k = hDim hb k) →
         s.joins (.scat da db nt) .a [] (pa ++ (pb ++ pc)) fun q y =>
           q.handles = [ha, hb, hc] ∧ q.notify = s.descriptor nt ∧ s.enqueuedOnly y))) ∧
  ∀ (s : State) (da : HReg) (a : SReg) (nt : NtField) (ch qn : BitVec 3) (row : Bool),
    let ha := s.handle 0 da
    checkNotify nt (s.descriptor nt) = .ok () →
    (∀ pages, checkHandle s s.cur ha da warmSpaces false = .ok pages →
      s.joins (.feed da ch qn nt) .a [] pages fun q y => q.handles = [ha] ∧ q.notify = s.descriptor nt ∧ s.enqueuedOnly y) ∧
    (∀ pages, checkHandle s s.cur ha da warmOrWindow true = .ok pages →
      s.joins (.take da ch qn nt) .a [] pages fun q y => q.handles = [ha] ∧ q.notify = s.descriptor nt ∧ s.enqueuedOnly y) ∧
    (∀ pages, checkHandle s s.cur ha da warmSpaces false = .ok pages → streamLength ha ≤ (if row then 64 else 1) →
      checkGridAddr row (s.src 0 a) = .ok () →
      s.joins (.xin row da a nt) .a [a] pages fun q y =>
        q.handles = [ha] ∧ q.sa = s.src 0 a ∧ q.notify = s.descriptor nt ∧ s.enqueuedOnly y) ∧
    (∀ pages, checkHandle s s.cur ha da warmOrWindow true = .ok pages → streamLength ha ≤ (if row then 64 else 1) →
      checkGridAddr row (s.src 0 a) = .ok () →
      s.joins (.xout row da a nt) .a [a] pages fun q y =>
        q.handles = [ha] ∧ q.sa = s.src 0 a ∧ q.notify = s.descriptor nt ∧ s.enqueuedOnly y) ∧
    (∀ pages, checkHandle s s.cur ha da { warmOrWindow with dev := false, host := false } false = .ok pages →
      s.joins (.seqt da a nt) .a [a] [] fun q y =>
        q.handles = [ha] ∧ q.sa = s.src 0 a ∧ q.notify = s.descriptor nt ∧ s.enqueuedOnly y)

/-- R130, R131, R133, R136 to R139, R222 to R228, R236, R239, R240, R276, R311, R313: the G words, and the L words but SEND, SENDRED and PULL, join
their queue with what they read at enqueue. -/
def Obligations.GridWordsJoin : Prop :=
  (∀ (s : State) (da : HReg) (a : SReg) (nt : NtField) (x y : Bool),
     checkNotify nt (s.descriptor nt) = .ok () →
     let plain := fun (v : Word) (q : QEntry) (z : CoreState) => q.sa = v ∧ q.notify = s.descriptor nt ∧ s.enqueuedOnly z
     (∀ pages, checkHandle s s.cur (s.handle 0 da) da warmSpaces false = .ok pages → hEfmt (s.handle 0 da) = 8 →
       s.joins (.gcfg da nt) .g [] pages fun q z =>
         q.handles = [s.handle 0 da] ∧ q.notify = s.descriptor nt ∧ s.enqueuedOnly z) ∧
     s.joins (.gswap nt) .g [] [] (plain 0) ∧
     s.joins (.gswapat a nt) .g [a] [] (plain (s.src 0 a)) ∧
     s.joins (.grun a nt) .g [a] [] (plain (s.src 0 a)) ∧
     s.joins (.ghalt nt) .g [] [] (plain 0) ∧
     s.joins (.gfill a nt) .g [a] [] (plain (s.src 0 a)) ∧
     s.joins (.gset x a nt) .g [a] [] (plain (s.src 0 a)) ∧
     s.joins (.glink x y nt) .g [] [] (plain 0) ∧
     s.joins (.gstat a nt) .g [] [] (plain 0)) ∧
  ∀ (s : State) (port : BitVec 3) (da : HReg) (a : SReg) (nt : NtField) (x : Bool),
    checkNotify nt (s.descriptor nt) = .ok () →
    let plain := fun (v : Word) (q : QEntry) (z : CoreState) => q.sa = v ∧ s.enqueuedOnly z
    s.joins (.cal port a) .l [a] [] (plain (s.src 0 a)) ∧
    (∀ pages, checkHandle s s.cur (s.handle 0 da) da warmSpaces false = .ok pages → hEfmt (s.handle 0 da) = 8 →
      s.joins (.lprog port da nt) .l [] pages fun q z => q.handles = [s.handle 0 da] ∧ s.enqueuedOnly z) ∧
    s.joins (.lstart port a nt) .l [a] [] (plain (s.src 0 a)) ∧
    s.joins (.lphase x a) .l (if x then [a] else []) [] (plain (if x then s.src 0 a else 0)) ∧
    s.joins (.lmark port) .l [] [] (plain 0) ∧
    s.joins (.lhold port x) .l [] [] (plain 0) ∧
    s.joins (.lshed port a) .l [a] [] (plain (s.src 0 a)) ∧
    s.joins (.lgate port a) .l [a] [] (plain (s.src 0 a)) ∧
    s.joins (.lwake port a) .l [a] [] (plain (s.src 0 a)) ∧
    s.joins (.lidle port a) .l [a] [] (plain (s.src 0 a))

/-- R142, R145, R146, R148, R152, R285: LEASE joins when no lease is reckoned and sets H = 14; FREE, SHELF, NORM, ACCZ, ACCSV and ACCLD
join under a reckoned lease; FREE ends the reckoned lease, SHELF sets the reckoned tag, and NORM and ACCZ set H = 0. -/
def Obligations.LeaseWordsJoin : Prop :=
  ∀ (s : State) (da : HReg) (nt : NtField),
    let h := s.handle 0 da
    let l := s.me.lease
    checkNotify nt (s.descriptor nt) = .ok () →
    (∀ pages, l.reckoned = false → checkImage s s.cur h da spillBytes true = .ok pages →
      s.joins (.lease da nt) .m [] pages fun q y =>
        q.handles = [h] ∧ y.lease.reckoned = true ∧ y.lease.headroom = 14 ∧ y.lease.enqueued = none ∧
          (l.state = .idle → y.lease.state = .waiting ∧ y.lease.spillPages = pages) ∧ (l.state ≠ .idle → y.lease.state = l.state) ∧
          s.leasedOnly y) ∧
    (l.reckoned = true →
      (s.joins (.free nt) .m [] [] fun _ y => y.lease = { l with reckoned := false } ∧ s.leasedOnly y) ∧
      (s.joins (.norm nt) .m [] [] fun _ y => y.lease = { l with headroom := 0 } ∧ s.leasedOnly y) ∧
      (s.joins (.accz nt) .m [] [] fun _ y => y.lease = { l with headroom := 0 } ∧ s.leasedOnly y) ∧
      (∀ pages, checkHandle s s.cur h da warmSpaces false = .ok pages → hEfmt h ≤ 4 → hDim h 0 % 8 = 0 →
        hDim h 0 ≤ shelfDepth (hEfmt h) → hDim h 1 ≤ 256 → hDim h 2 = 1 → hDim h 3 = 1 →
        checkAlias s (touches s.cur 0 pages false (hExtent h)) (destTouches s.me) = .ok () →
        s.joins (.shelf da nt) .m [] pages fun q y =>
          q.handles = [h] ∧ q.tag = some (tileTag s.me h) ∧ y.lease = { l with enqueued := some (tileTag s.me h) } ∧ s.leasedOnly y) ∧
      (∀ pages, checkImage s s.cur h da accBytes true true = .ok pages →
        checkAlias s (touches s.cur 0 pages true [(hBase h, accBytes)]) (operandTouches s.me) = .ok () →
        s.joins (.accsv da nt) .m [] pages fun q y => q.handles = [h] ∧ y.lease = l ∧ s.leasedOnly y) ∧
      ∀ pages, checkImage s s.cur h da accBytes false true = .ok pages →
        checkAlias s (touches s.cur 0 pages false [(hBase h, accBytes)]) [] = .ok () →
        s.joins (.accld da nt) .m [] pages fun q y =>
          q.handles = [h] ∧ y.lease = { l with headroom := imageHeadroom s pages (hBase h) } ∧ s.leasedOnly y)

/-- R80, R84, R149, R150, R153: an MMA or a DRAIN that passes its checks takes the oldest format word and joins; the MMA's headroom
falls under H, which stays at most 14. -/
def Obligations.FormattedWordsJoin : Prop :=
  ∀ (s : State) (da db : HReg) (a : SReg) (nt : NtField) (add : Bool) (q : QEntry) (f : CoreState → CoreState),
    (∀ i b, (i = .mmaStream da db a nt ∧ b = some db ∨ i = .mmaShelf da a nt ∧ b = none) →
      mmaCheck s i da b (s.src 0 a) nt = .ok (q, f) →
      s.joins i .m [a] q.pages fun p y =>
        p = q ∧ s.me.fmtQ.head? = some p.fmtWord ∧ s.me.lease.reckoned = true ∧
          y.lease.headroom = s.me.lease.headroom + headroomOf ((s.src 0 a).toNat % 2 ^ 32 / 8) ∧ y.lease.headroom ≤ 14 ∧
          s.formattedOnly y) ∧
    ∀ w rest pages, let h := s.handle 0 da
      s.me.lease.reckoned = true → s.me.fmtQ = w :: rest → drainFormatOk w add = true →
      checkHandle s s.cur h da drainSpaces false = .ok pages → checkSlot h w = .ok () → hDim h 0 ≤ 256 → hDim h 1 ≤ 256 →
      hDim h 2 = 1 → hDim h 3 = 1 → hEfmt h = fmtO w → checkNotRO s h da drainSpaces = .ok () →
      checkAlias s (touches s.cur 0 pages true (hExtent h)) (operandTouches s.me) = .ok () →
      checkNotify nt (s.descriptor nt) = .ok () →
      s.joins (.drain add da nt) .m [] pages fun p y =>
        p.handles = [h] ∧ p.fmtWord = w ∧ y.lease = s.me.lease ∧ s.formattedOnly y

/-- R204, R216 to R219, R325: SEND, SENDRED and PULL whose operands pass their checks join the L queue, and their bytes join the PEND of
the task's graph; of the core nothing but its queue, its pops and its pins changes, and nothing else of the module. -/
def Obligations.SendsJoin : Prop :=
  ∀ (s : State) (port : BitVec 3) (cls : MsgClass) (op : Reduction) (un : Bool) (da : HReg) (a : SReg) (nt : NtField)
    (pd pa : List PageMap) (u : State),
    let h := s.handle 0 da
    let va := (s.src 0 a).toNat
    let joined := fun (i : Instr) => ∃ t q, exec i s = .next t ∧ s.EntryOf .l i q ∧ q.handles = [h] ∧ q.sa = s.src 0 a ∧
      s.Joined t .l [a] q u ∧ s.enqueuedOnly t.me ∧ t = { s with cores := t.cores, free := t.free, sched := t.sched } ∧
      (∀ k, s.me.task = some k → t.sched = { s.sched with graphs := s.sched.graphs.map fun g =>
        if g.id == k.graph then { g with pend := g.pend + hPacked h } else g }) ∧ (s.me.task = none → t.sched = s.sched)
    s.Enters .l [a] (pd ++ pa) u →
    (checkHandle s s.cur h da { peer := true } false = .ok pa → hSpace h < 3 → peerPages s s.cur true va (hPacked h) da = .ok pd →
      checkReach s (portOf port) pd = .ok () → checkSendNotify nt (s.descriptor nt) = .ok () →
      joined (.send port cls da a nt) ∧
      (4 ≤ hEfmt h → hEfmt h ≤ 9 → va % efmtBytes (hEfmt h) = 0 → joined (.sendred port op un da a nt))) ∧
    (∀ px, checkHandle s s.cur h da { multicast := true, peer := true } false = .ok pa → hSpace h < 3 →
      (∀ w, regionOf (hBase h) ≠ .multicast w) → checkHandle s s.cur h da noHost true = .ok px →
      peerPages s s.cur false va (hPacked h) da = .ok pd → checkReach s (portOf port) pd = .ok () →
      checkNotify nt (s.descriptor nt) = .ok () → joined (.pull port cls da a nt))

/-- R33, R34, R148, R166, R172, R174, R180, R183, R268, R269: the words of the Y engine that do not block join the Y queue. An atomic joins with
address and data, ACAS with s(v+1) as well; under a true guard its access is checked, under a false one there is none. FENCE, when it
orders writes, raises the scratchpad generation; a phaser or ring word joins with its block's address when that is a multiple of 64 in
LOCAL or DIE. -/
def Obligations.AtomicWordsJoin : Prop :=
  (∀ (s : State) (g : Guard) (o : AtomicOrd) (sc : Scope) (w n : Bool) (v a : SReg) (pages : List PageMap),
     (if s.guardTrue g then checkScalar s s.cur warmSpaces true (s.src 0 a).toNat (if w then 8 else 4) = .ok pages else pages = []) →
     let plain := fun (q : QEntry) (z : CoreState) =>
       q.sa = s.src 0 a ∧ q.v = s.src 1 v ∧ q.guardTrue = s.guardTrue g ∧ s.enqueuedOnly z
     s.joins (.aadd g o sc w v a) .y [v, a] pages plain ∧
     s.joins (.amin g o sc w n v a) .y [v, a] pages plain ∧
     s.joins (.amax g o sc w n v a) .y [v, a] pages plain ∧
     s.joins (.axchg g o sc w v a) .y [v, a] pages plain ∧
     s.joins (.acas g o sc w v a) .y [v, a, v + 1] pages fun q z => plain q z ∧ q.z = s.src 2 (v + 1)) ∧
  ∀ (s : State) (k : FenceKind) (sc : Scope) (role : PhaserRole) (d a b : SReg),
    (s.joins (.fence k sc) .y [] [] fun _ z =>
      z.gen = (if k = .r then s.me.gen else s.me.gen + 1) ∧ z = { s.me.enqueueFrame z with gen := z.gen }) ∧
    ((s.src 0 a).toNat % 64 = 0 → ((s.src 0 a).toNat < 0x400000 ∨ 0x40000000 ≤ (s.src 0 a).toNat ∧ (s.src 0 a).toNat < 0x44000000) →
      let plain := fun (v : Word) (q : QEntry) (z : CoreState) => q.sa = s.src 0 a ∧ q.v = v ∧ s.enqueuedOnly z
      s.joins (.phreg role a) .y [a] [] (plain 0) ∧
      s.joins (.phdrop a) .y [a] [] (plain 0) ∧
      s.joins (.phsig a) .y [a] [] (plain 0) ∧
      s.joins (.phbyt a b) .y [a, b] [] (plain (s.src 1 b)) ∧
      s.joins (.rninit a b) .y [a, b] [] (plain (s.src 1 b)) ∧
      s.joins (.rnclm d a) .y [a] [] (plain 0) ∧
      s.joins (.rnpub a b) .y [a, b] [] (plain (s.src 1 b)) ∧
      s.joins (.rntake d a) .y [a] [] (plain 0) ∧
      s.joins (.rnret a b) .y [a, b] [] (plain (s.src 1 b)))

/-- R20, R22, R66, R172, R174, R175, R180, R182: an engine word of any queue whose operands have come is held, without effect,
while its queue holds 32 words. A blocking word of a block in LOCAL or DIE is held while an earlier Y word of the task has not retired; after that it
passes when its condition holds, and cc.y counts it, is held when it does not hold, PHARR after its signal, and takes its fault on an
invalid ring or a phaser whose masks leave the core out. -/
def Obligations.HeldAtIssue : Prop :=
  (∀ (s : State) (i : Instr) (e : Engine) (srcs : List SReg), wordQueue i = some (e, srcs) → s.hasValues srcs →
     32 ≤ s.me.occupancy e → exec i s = .next (s.hold (.queueFull e))) ∧
  (∀ (s : State) (a b : SReg), (s.hasValues [a] → s.me.unretired .y ≠ [] → ∀ i ∈ [Instr.rnwaitf a, .rnwaite a, .pharr a],
      exec i s = .next (s.hold .earlierY)) ∧
    (s.hasValues [a, b] → s.me.unretired .y ≠ [] → exec (.phwait a b) s = .next (s.hold .earlierY))) ∧
  (∀ (s : State) (a b : SReg), isBlock (s.src 0 a).toNat → s.me.unretired .y = [] →
     let p := blockAt s.cur (s.src 0 a).toNat
     let bit := s.cur.val % 16
     let fault := fun (code : BitVec 8) => s.faultHere code (s.src 0 a) (5#3 ++ BitVec.ofNat 5 s.me.enqueued[(4 : Fin 5)])
     let passed := fun (i : Instr) (srcs : List SReg) => ∃ t, exec i s = .next t ∧
       t.me.counters = s.me.counters.set 4 (s.me.counters[4] + 1) ∧ s.popped t srcs ∧ s.goesOn t ∧ s.sameRegs t ∧ s.sameMemory t ∧
       s.onlyMe t
     (s.hasValues [a] →
       (ringHasFilled s p = some true → passed (.rnwaitf a) [a]) ∧ (ringHasFree s p = some true → passed (.rnwaite a) [a]) ∧
       (ringHasFilled s p = some false → exec (.rnwaitf a) s = .next (s.hold (.ringFilled p))) ∧
       (ringHasFree s p = some false → exec (.rnwaite a) s = .next (s.hold (.ringFree p))) ∧
       ((s.ring p).valid = false → ∀ i ∈ [Instr.rnwaitf a, .rnwaite a], exec i s = .next (fault 0x13)) ∧
       ((s.phaser p).smask.getLsbD bit = true → (s.phaser p).wmask.getLsbD bit = true →
         ∃ t, exec (.pharr a) s = .next t ∧ t.me.held = some (.phaseMoved p (BitVec.ofNat 32 (s.phaser p).phase) (!((s.phaser p).sgd.getLsbD bit))) ∧
           (t.phaser p).sgd = (s.phaser p).sgd ||| BitVec.ofNat 16 (2 ^ bit) ∧ (t.phaser p).phase = (s.phaser p).phase ∧ p ∈ t.tests ∧
           (∀ c, c < p + 8 ∨ p + 14 ≤ c → t.loadByte c = s.loadByte c) ∧ s.sameRegs t) ∧
       ((s.phaser p).smask.getLsbD bit = false ∨ (s.phaser p).wmask.getLsbD bit = false →
         exec (.pharr a) s = .next (fault 0x14))) ∧
     (s.hasValues [a, b] →
       let moved := (BitVec.ofNat 32 (s.phaser p).phase - (s.src 1 b).setWidth 32).toNat
       ((s.phaser p).wmask.getLsbD bit = true →
         (1 ≤ moved → moved < 2 ^ 31 → passed (.phwait a b) [a, b]) ∧
         (moved = 0 ∨ 2 ^ 31 ≤ moved → exec (.phwait a b) s = .next (s.hold (.phasePast p ((s.src 1 b).setWidth 32))))) ∧
       ((s.phaser p).wmask.getLsbD bit = false → exec (.phwait a b) s = .next (fault 0x14))))

/-! ## X words and traps -/

/-- R23, R40, R200 to R204, R275, R348: TRAP and BKPT outside a handler enter the handler of the graph with cause 0x1a or 0x1b; with no
handler the graph ends with the trap's code, inside a handler with a double trap whose XINFO is that code; a word that is no instruction ends
its graph with code 0x01 and XINFO the word. ERET in a handler clears INH and goes on at XPC, or ends the graph with code 0x02 where XPC is
no word's address; outside one it ends the graph with code 0x1d. -/
def Obligations.TrapsAndReturns : Prop :=
  (∀ (s : State) (code : BitVec 11) (k : Task), s.me.task = some k → s.handlerOf s.cur ≠ 0 → s.me.inh = false →
     (∃ t, exec (.trap code) s = .next t ∧ s.Entered t 0x1a (code.setWidth 64) 0 (s.me.pc + 4)) ∧
     ∃ t, exec (.bkpt code) s = .next t ∧ s.Entered t 0x1b (code.setWidth 64) 0 (s.me.pc + 4)) ∧
  (∀ (s : State) (code : BitVec 11) (w : Word32) (k : Task), s.me.task = some k → s.Stands k.graph →
     let ends := fun (i : Instr) (code : BitVec 8) (info : Word) =>
       ∃ t, exec i s = .next t ∧ t.EndedBy k.graph code info s.me.pc k s.cur ∧ t.me.mode = .draining ∧ s.sameMemory t
     (s.me.inh = false → s.handlerOf s.cur = 0 →
       ends (.trap code) 0x1a (code.setWidth 64) ∧ ends (.bkpt code) 0x1b (code.setWidth 64)) ∧
     (s.me.inh = true → ends (.trap code) 0x1c 0x1a ∧ ends (.bkpt code) 0x1c 0x1b) ∧
     ends (.illegalWord w) 0x01 (w.setWidth 64) ∧
     (s.me.inh = true → s.me.xpc.toNat % 4 ≠ 0 → ends .eret 0x02 s.me.xpc) ∧
     (s.me.inh = false → ends .eret 0x1d 0)) ∧
  ∀ (s : State), s.me.inh = true → s.me.xpc.toNat % 4 = 0 →
    ∃ t, exec .eret s = .next t ∧ t.me.inh = false ∧ s.settlesOn t s.me.xpc 8 ∧ s.sameRegs t ∧ t.me.preds = s.me.preds ∧
      t.me.handles = s.me.handles ∧ t.me.xpc = s.me.xpc ∧ t.me.xcause = s.me.xcause ∧ t.me.queues = s.me.queues ∧
      s.sameMemory t ∧ s.onlyMe t

/-- R142, R192, R203, R296: HALT whose A, G, M and Y words have retired ends the task: the core is free and has no lease, the slot is
released, the task counts toward its node, and no byte of memory changes; else it is held. -/
def Obligations.HaltEndsTask : Prop :=
  ∀ (s : State) (k : Task), s.me.task = some k →
    ((∀ e : Engine, e ≠ .l → s.me.unretired e = []) → s.me.outQ[(0 : Fin 4)] = [] → s.me.outQ[(1 : Fin 4)] = [] →
      ∃ t, exec .halt s = .next t ∧ t.me.mode = .free ∧ t.me.task = none ∧ t.me.lease = Lease.reset ∧ s.sameRegs t ∧
        s.sameMemory t ∧ (∀ c : CoreId, c ≠ s.cur → t.core c = s.core c) ∧
        ∀ (i : Nat) (g : Graph), s.sched.graphs[i]? = some g → ∃ g' : Graph, t.sched.graphs[i]? = some g' ∧ (g.id ≠ k.graph → g' = g) ∧
          (g.id = k.graph → k.slot ∉ g'.used ∧
            ∀ n : Node, g.nodes[k.node]? = some n → ∃ n' : Node, g'.nodes[k.node]? = some n' ∧ n'.ended = n.ended + 1)) ∧
    ((∃ e : Engine, e ≠ .l ∧ s.me.unretired e ≠ []) →
      ∃ t, exec .halt s = .next t ∧ t.me = { s.me with held := some .taskEnd } ∧ s.sameMemory t)

/-- R97, R117, R203, R298, R301, R302, R348: YIELD with no item waiting for its core only lets issue go on, with one it orders a
pre-emption of cause 4; ICINV drops the line of an x that translates, or every line, of the core's cache and what fetch had taken, and reads a fill of it
anew; HEATR reads the total in
force at the start of this wc in fJ, the core's HTHR or HFILL, or the budget. -/
def Obligations.ManagementWords : Prop :=
  (∀ (s : State),
     let pri := match s.graphOf s.cur with | some g => g.pri | none => 0
     ∃ t, exec .yield s = .next t ∧ s.settlesOn t (s.me.pc + 4) 4 ∧ s.sameMemory t ∧ s.onlyMe t ∧ s.samePushes t ∧
       t.me = { s.me.serialFrame t.me with preempt := t.me.preempt } ∧ t.me.preempt = if s.waitsForCore s.cur pri then some 4 else s.me.preempt) ∧
  (∀ (s : State) (all : Bool) (x : SReg) (sel : HeatSel),
     (s.Free (if all then [] else [x]) [] 0 →
       ∃ t, exec (.icinv all x) s = .next t ∧ s.settlesOn t (s.me.pc + 4) 32 ∧ t.me.squeue = [] ∧ s.sameMemory t ∧ s.onlyMe t ∧
         s.popped t (if all then [] else [x]) ∧ s.samePushes t ∧
         t.me = { s.me.serialFrame t.me with
           inQ := t.me.inQ, dirtyQ := t.me.dirtyQ, icache := t.me.icache, filling := t.me.filling } ∧
         (∀ f : LineFill, all = false → ((∃ e, codePage s (s.src 0 x).toNat = .error e) ∨ f.line.line ≠ lineOf (s.src 0 x).toNat) →
           (f ∈ t.me.filling ↔ f ∈ s.me.filling)) ∧ t.me.icache = (if all then [] else match codePage s (s.src 0 x).toNat with
           | .ok _ => s.me.icache.filter fun l => l.line != lineOf (s.src 0 x).toNat
           | .error _ => s.me.icache)) ∧
     (s.Free [] [] x →
       ∃ t, exec (.heatr sel x) s = .next t ∧ s.settlesOn t (s.me.pc + 4) 2 ∧ s.sameMemory t ∧ s.onlyMe t ∧
         t.me = { s.me.serialFrame t.me with
           regs := t.me.regs, pushes := t.me.pushes, shadows := t.me.shadows, dirtyS := t.me.dirtyS, dirtyQ := t.me.dirtyQ } ∧
         s.wroteX t x (match sel with
           | .total => BitVec.ofNat 64 (s.meter.atStart / 5)
           | .thr => s.me.hthr
           | .fill => s.me.hfill
           | .budget => BitVec.ofNat 64 (s.meter.budget % 2 ^ 32))))

/-- R5, R69, R89, R115, R202, R207, R241, R245 to R247, R253, R341, R342: SPRD reads the special register code + y into x, SPWR writes x
into a register that is RW, without its RES bits, and nothing else, into one that is RO nothing; either takes the illegal-word trap on a number
that is unassigned. What each number reads is the state that its chapter names. -/
def Obligations.SpecialRegisters : Prop :=
  (∀ (s : State) (x y : SReg) (code : BitVec 11), s.Free [y] [] x →
     let n := code.toNat + (s.src 0 y).toNat
     (∀ v, s.special s.cur n = some v →
       ∃ t, exec (.sprd x y code) s = .next t ∧ s.wroteX t x (BitVec.ofNat 64 v) ∧ s.popped t [y] ∧ s.settlesOn t (s.me.pc + 4) 2 ∧
         t.me.preds = s.me.preds ∧ t.me.handles = s.me.handles ∧ s.sameMemory t ∧ s.onlyMe t) ∧
     (s.special s.cur n = none → exec (.sprd x y code) s =
       .next (s.faultHere 0x01 (((6#3 ++ 5#6 ++ x ++ y ++ code : BitVec 32)).setWidth 64)))) ∧
  (∀ (s : State) (x y : SReg) (code : BitVec 11), s.Free [x, y] [] 0 →
     let n := code.toNat + (s.src 1 y).toNat
     let v := s.src 0 x
     (s.special s.cur n = none → exec (.spwr x y code) s =
       .next (s.faultHere 0x01 (((6#3 ++ 6#6 ++ x ++ y ++ code : BitVec 32)).setWidth 64))) ∧
     ((s.special s.cur n).isSome →
       ∃ t, exec (.spwr x y code) s = .next t ∧ s.popped t [x, y] ∧ s.settlesOn t (s.me.pc + 4) 2 ∧ s.sameRegs t ∧ s.sameMemory t ∧
         t.me.checked = (if n = 0x001 then v.getLsbD 0 else s.me.checked) ∧
         t.me.qptr[(0 : Fin 2)] = (if n = 0x008 then v &&& ~~~7 else s.me.qptr[(0 : Fin 2)]) ∧
         t.me.qptr[(1 : Fin 2)] = (if n = 0x009 then v &&& ~~~7 else s.me.qptr[(1 : Fin 2)]) ∧
         (∀ k : Fin 4, t.me.mcw[k] = if n = 0x024 + k.val then v.setWidth 16 else s.me.mcw[k]) ∧
         t.me.heatEnable = (if n = 0x045 then v.getLsbD 63 else s.me.heatEnable) ∧
         t.me.heatLevel = (if n = 0x045 then v.setWidth 32 else s.me.heatLevel) ∧
         t.me.xpc = (if n = 0x060 then v else s.me.xpc) ∧ t.me.rxn = (if n = 0x087 then v.setWidth 9 else s.me.rxn) ∧
         t.me.counters = s.me.counters ∧ t.me.hthr = s.me.hthr ∧ t.me.hfill = s.me.hfill ∧ t.me.xcause = s.me.xcause ∧
         t.me.xinfo = s.me.xinfo ∧ t.me.xslot = s.me.xslot ∧ t.me.inh = s.me.inh ∧ t.me.preds = s.me.preds ∧
         t.me.handles = s.me.handles ∧ t.owner = s.owner ∧ t.power = s.power ∧ t.fabric = s.fabric ∧
         (n < 0x380 ∨ 0x800 ≤ n → s.onlyMe t) ∧
         (0x380 ≤ n → n < 0x800 → (s.clock + 1, .orngWrite (Fin.ofNat 1152 (n - 0x380)) v) ∈ t.timers))) ∧
  ∀ (s : State) (c : CoreId),
    let x := s.core c
    let o := s.power
    let is := fun (n v : Nat) => s.special c n = some v
    is 0x001 x.checked.toNat ∧ is 0x002 c.val ∧ is 0x003 (s.clock % 2 ^ 64) ∧
    (∀ k : Fin 2, is (0x008 + k.val) x.qptr[k].toNat) ∧
    is 0x00c ((x.inQ[(0 : Fin 4)]).length + 16 * (x.inQ[(1 : Fin 4)]).length + 256 * (x.inQ[(2 : Fin 4)]).length +
      4096 * (x.inQ[(3 : Fin 4)]).length) ∧
    (∀ k : Fin 5, is (0x010 + k.val) x.counters[k].toNat) ∧ is 0x020 (s.owner.ptbr.toNat / 4096 % 2 ^ 40 * 4096) ∧
    (∀ k : Fin 4, is (0x024 + k.val) x.mcw[k].toNat) ∧
    is 0x040 (s.meter.budget % 2 ^ 32) ∧ is 0x041 (s.meter.atStart / 5) ∧ is 0x042 s.meter.last ∧ is 0x043 x.hthr.toNat ∧
    is 0x044 x.hfill.toNat ∧ is 0x045 (x.heatEnable.toNat * 2 ^ 63 + x.heatLevel.toNat) ∧
    (∃ v, is 0x048 v ∧ v < 256 ∧ ∀ k : Fin 8, v.testBit k.val = x.channels[k].isSome) ∧
    is 0x060 x.xpc.toNat ∧ is 0x061 x.xcause.toNat ∧ is 0x062 x.xinfo.toNat ∧ is 0x063 x.xslot.toNat ∧ is 0x064 x.inh.toNat ∧
    (∀ g, s.graphOf c = some g → is 0x070 (g.quse / 5)) ∧
    (∀ b, s.fabric.active = some b → is 0x080 b.slen ∧ is 0x081 b.guard ∧ is 0x082 b.slots ∧ is 0x083 b.epoch ∧ is 0x084 b.flight ∧
      is 0x085 (s.fabric.self.val + b.pod * 256)) ∧
    is 0x086 s.fabric.rrbase.toNat ∧ is 0x087 x.rxn.toNat ∧ is 0x088 x.rxlost.toNat ∧ is 0x089 s.fabric.rsw.toNat ∧
    (∀ p : PortId,
      let y := s.port p
      (∃ v, is (0x090 + p.val) v ∧ v / 2 ^ 48 = y.rtcnt.toNat ∧
        (∀ k : Fin 16, v.testBit (32 + k.val) = (y.groups[k] == .gated)) ∧ v / 2 ^ 24 % 256 = y.mgen.toNat ∧ v / 2 ^ 8 % 2 ^ 16 = 0 ∧
        v.testBit 7 = y.rtdue ∧ v.testBit 6 = y.train ∧ v.testBit 5 = s.portDrained p ∧ v.testBit 4 = y.held ∧
        v % 16 = match y.phase with | .run => 0 | .dark => 1 | .relock => 2) ∧
      is (0x098 + p.val) y.shed.toNat ∧
      ∃ v, is (0x0a0 + p.val) v ∧ v / 2 ^ 48 = y.drops.toNat ∧ v / 2 ^ 32 % 2 ^ 16 = y.lastDrop.toNat ∧
        (∀ k : Fin 16, v.testBit (16 + k.val) = (y.groups[k] == .waking)) ∧
        ∀ k : Fin 16, v.testBit k.val = (y.groups[k] == .asleep)) ∧
    is 0x0b0 o.pwbud.toNat ∧ is 0x0b1 o.pwarm.toNat ∧ is 0x0b2 o.crsel.toNat ∧
    (∃ v, is 0x0b3 v ∧ v < 2 ^ 16 ∧
      ∀ k : Fin 16, v.testBit k.val = (o.forced.getLsbD k.val || (o.crsel.getLsbD k.val && !o.stepped.getLsbD k.val))) ∧
    is 0x0b4 (o.ovr.toNat + 2 * (o.forced.getLsbD (c.val / 4)).toNat) ∧
    is 0x0b5 (o.drpev[(clusterOf c)]).toNat ∧ is 0x0b6 (o.drpfrc[(clusterOf c)]).toNat ∧ is 0x0b8 o.rklim.toNat ∧ is 0x0b9 o.rkshr.toNat ∧
    is 0x0ba (max 1200 (min o.pwbud.toNat (o.pwarm.toNat + 128))) ∧
    is 0x0bb (o.rkid.toNat % 64 + 256 * (o.rkid.toNat / 256 % 32)) ∧
    (∀ k : Fin 1152, is (0x380 + k.val) (s.rings[k].pd.toNat * 2 ^ 48 + s.rings[k].wl.toNat * 2 ^ 16 + s.rings[k].htr.toNat)) ∧
    ∀ n, n ∉ [0x001, 0x002, 0x003, 0x008, 0x009, 0x00c, 0x020, 0x048, 0x070] → (n < 0x010 ∨ 0x014 < n) → (n < 0x024 ∨ 0x027 < n) →
      (n < 0x040 ∨ 0x045 < n) → (n < 0x060 ∨ 0x064 < n) → (n < 0x080 ∨ 0x089 < n) → (n < 0x090 ∨ 0x0a7 < n) → (n < 0x0b0 ∨ 0x0bb < n ∨ n = 0x0b7) →
      (n < 0x380 ∨ 0x7ff < n) → s.special c n = none

/-- R97, R346: TLBI drops every entry in its range from every translation buffer, when none of them is pinned, and keeps the rest; one
that is pinned stays, stale, and holds the word, which waits for those pins alone and passes once they are gone. The kind that TLBI.kind drops is
that of the translation an enqueue of this core would take: the model's reading (log 80). -/
def Obligations.TlbiInvalidates : Prop :=
  ∀ (s : State) (r : TlbiRange) (x : SReg),
    let srcs := if r = .all then [] else [x]
    let va := (s.src 0 x).toNat
    let hit := fun p : PageMap => match r with
      | .all => true
      | .page => regionOf va == .translated && p.covers va
      | .kind => match kindNow s va with | some k => p.kind == k | none => false
    s.Free srcs [] 0 →
    ((∀ c, ∀ e ∈ (s.core c).tlb, hit e.page = true → e.pins = 0) →
      ∃ t, exec (.tlbi r x) s = .next t ∧ s.popped t srcs ∧ s.settlesOn t (s.me.pc + 4) 16 ∧ s.sameRegs t ∧ s.sameMemory t ∧
        ∀ c, (∀ e ∈ (t.core c).tlb, e ∈ (s.core c).tlb ∧ hit e.page = false) ∧
          ∀ e ∈ (s.core c).tlb, hit e.page = false → e.stale = false → e ∈ (t.core c).tlb) ∧
    ((∃ c, ∃ e ∈ (s.core c).tlb, hit e.page = true ∧ 0 < e.pins) →
      ∃ t ps, exec (.tlbi r x) s = .next t ∧ t.me.held = some (.unpinned ps) ∧ t.me.pc = s.me.pc ∧ s.sameRegs t ∧ s.sameMemory t ∧
        (∀ c p, (c, p) ∈ ps ↔ ∃ e ∈ (s.core c).tlb, e.page = p ∧ hit p = true ∧ 0 < e.pins) ∧
        ∀ c, ∀ e ∈ (t.core c).tlb, hit e.page = true → e.stale = true ∧ 0 < e.pins) ∧
    ∀ (c : CoreId) (ps : List (CoreId × PageMap)) (w : Word32) (rest : List (Word × Word32)),
      (s.core c).held = some (.unpinned ps) → (s.core c).squeue = ((s.core c).pc, w) :: rest → decode w = .ok (.tlbi r x) →
      (∀ k p, (k, p) ∈ ps → ∀ e ∈ (s.core k).tlb, e.page = p → e.pins = 0) →
      let u := { s with cur := c }
      ∃ t, exec (.heldWordPasses c) s = .next t ∧ u.popped t srcs ∧ u.settlesOn t (u.me.pc + 4) 16 ∧ u.sameRegs t ∧ s.sameMemory t ∧
        u.onlyMe t

/-- R22, R97, R182, R201, R327: pending traps are kept in ascending code, and at the boundary the first of them is taken; a PHARR that is held there
is complete where its phase has moved, and has given its signal back where it has not; a held word whose condition holds issues again at once, a PHARR
whose phase has moved and a PHWAIT whose phase has passed are complete, and a word whose condition does not hold stays held. -/
def Obligations.BoundaryEvents : Prop :=
  (∀ (s : State) (c : CoreId) (p : PendingTrap) (rest : List PendingTrap) (k : Task), (s.core c).traps = p :: rest →
     (s.core c).task = some k → (s.core c).inh = false → s.handlerOf c ≠ 0 → fatalCode p.code = false →
     ∃ t, exec (.asyncTrapTaken c) s = .next t ∧ (t.core c).pc = s.handlerOf c ∧
       (t.core c).xcause = p.code ∧ (t.core c).xinfo = p.info ∧ (t.core c).xslot = p.slot ∧ (t.core c).inh = true ∧
       (t.core c).traps = rest ∧ (t.core c).regs = (s.core c).regs ∧ (t.core c).queues = (s.core c).queues ∧
       (∀ d, d ≠ c → t.core d = s.core d) ∧ s.leavesHeld t c (t.core c).xpc) ∧
  (∀ (x : CoreState) (p : PendingTrap), x.traps.Pairwise (fun a b => a.code.toNat ≤ b.code.toNat) →
     (x.addTrap p).traps.Pairwise (fun a b => a.code.toNat ≤ b.code.toNat) ∧
       ∀ a, a ∈ (x.addTrap p).traps ↔ a = p ∨ a ∈ x.traps) ∧
  (∀ (s : State) (c : CoreId) (h : Hold), (s.core c).held = some h →
     (holdMet s c h = false → exec (.heldWordPasses c) s = .next s) ∧
     (holdMet s c h = true → (∀ p v f, h ≠ .phaseMoved p v f ∧ h ≠ .phasePast p v) → (∀ ps, h ≠ .unpinned ps) →
       ∃ t, exec (.heldWordPasses c) s = .next t ∧ t.turn = c :: s.turn ∧ t.core c = { s.core c with held := none } ∧
         s.sameMemory t ∧ ∀ d, d ≠ c → t.core d = s.core d) ∧
     (∀ p v f, (h = .phaseMoved p v f ∧ (s.phaser p).phase ≠ v.toNat) ∨
         (h = .phasePast p v ∧ 1 ≤ (BitVec.ofNat 32 (s.phaser p).phase - v).toNat ∧
           (BitVec.ofNat 32 (s.phaser p).phase - v).toNat < 2 ^ 31) →
       ∃ t, exec (.heldWordPasses c) s = .next t ∧ (t.core c).pc = (s.core c).pc + 4 ∧ (t.core c).held = none ∧
         (t.core c).counters = (s.core c).counters.set 4 ((s.core c).counters[4] + 1) ∧ (t.core c).regs = (s.core c).regs ∧
         s.sameMemory t))

/-! ## Link programs -/

/-- R224, R226, R240, R242 to R244: SETK, SETA, ADDA write k and a, LOOP counts k down to its target, PARM takes the oldest parameter
into a; WAIT holds until the phase has its slot and offset, PARM until a parameter is there; WAKE takes the named GATED groups to WAKING,
to be ON 320 wc later, and drops the gating orders it meets; GATE leaves an order for the next message boundary. Each takes its wc. -/
def Obligations.LinkSteps : Prop :=
  (∀ (s : State) (k a : BitVec 2) (value : BitVec 16) (wide : BitVec 24) (target slot : BitVec 8) (off : BitVec 20),
     let y := (s.port s.curPort).seqr
     (∃ t, exec (.setk k value) s = .next t ∧ s.stepped t (y.step + 1) (y.k.set k.toNat value) y.a) ∧
     (∃ t, exec (.seta a wide) s = .next t ∧ s.stepped t (y.step + 1) y.k (y.a.set a.toNat (wide.signExtend 32))) ∧
     (∃ t, exec (.adda a wide) s = .next t ∧ s.stepped t (y.step + 1) y.k (y.a.set a.toNat (y.a[a.toNat] + wide.signExtend 32))) ∧
     (∃ t, exec (.linkLoop k target) s = .next t ∧
       if y.k[k.toNat] = 0 then s.stepped t (y.step + 1) y.k y.a
       else s.stepped t target.toNat (y.k.set k.toNat (y.k[k.toNat] - 1)) y.a) ∧
     (∀ (v : Word) (rest : List Word), (s.port s.curPort).params = v :: rest → ∃ t, exec (.parm a) s = .next t ∧
       s.onlyPort t s.curPort ∧ t.port s.curPort = { s.port s.curPort with
         params := rest, seqr := { y with step := y.step + 1, a := y.a.set a.toNat (v.setWidth 32) } }) ∧
     ((s.port s.curPort).params = [] → exec (.parm a) s = .next s) ∧
     ∀ x, s.slot = some x →
       (x.index = slot.toNat → off.toNat ≤ x.offset →
         ∃ t, exec (.linkWait slot off) s = .next t ∧ s.stepped t (y.step + 1) y.k y.a) ∧
       (x.index ≠ slot.toNat ∨ x.offset < off.toNat → exec (.linkWait slot off) s = .next s)) ∧
  (∀ (s : State) (mask : BitVec 16),
     let p := s.curPort
     let y := (s.port p).seqr
     (∃ t, exec (.linkWake mask) s = .next t ∧ s.quiet t ∧ (t.port p).seqr = { y with step := y.step + 1 } ∧
       (∀ k : Fin 16, (t.port p).groups[k] =
         if mask.getLsbD k.val ∧ (s.port p).groups[k] = .gated then .waking else (s.port p).groups[k]) ∧
       (t.port p).gates = (s.port p).gates.map (fun o => if o.mask &&& mask ≠ 0 then { o with dropped := true } else o) ∧
       ((∃ k : Fin 16, mask.getLsbD k.val = true ∧ (s.port p).groups[k] = .gated) →
         ∃ m : BitVec 16, (s.clock + 320, .groupWakeEnd p m) ∈ t.timers ∧
           ∀ k : Fin 16, m.getLsbD k.val = true ↔ mask.getLsbD k.val = true ∧ (s.port p).groups[k] = .gated) ∧
       ∀ q, q ≠ p → t.port q = s.port q) ∧
     (∃ t, exec (.linkGate mask) s = .next t ∧ s.onlyPort t p ∧ t.port p = { s.port p with
       gates := (s.port p).gates ++ [{ mask := mask, owner := none, dropped := false }], seqr := { y with step := y.step + 1 } }) ∧
     ∃ t, exec (.groupWakeEnd p mask) s = .next t ∧ s.onlyPort t p ∧
       (∀ k : Fin 16, (t.port p).groups[k] =
         if mask.getLsbD k.val ∧ (s.port p).groups[k] = .waking then .on else (s.port p).groups[k]) ∧
       t.port p = { s.port p with groups := (t.port p).groups })

/-- R217, R223 to R225: LINK_PROGRAM_START completes: a loaded program runs from step 0, with k0 to k3 and a0 to a3 at 0, once the phase
has reached its LSTART's value. END completes in every state: it stops the program, frees its pages and retires the LSTART. SEND
completes where its ranges stand: it queues the bytes of its source entry for its destination's module, in messages of at most 16 KiB,
the next step follows, and no byte of memory changes. -/
def Obligations.LinkPrograms : Prop :=
  (∀ (s : State) (p : PortId) (o : CoreId × Nat × Word),
     (s.port p).seqr.owner = some o → (s.port p).seqr.running = false → s.phaseAt o.2.2 = true →
     ∃ t, exec (.linkProgramStart p) s = .next t ∧ s.onlyPort t p ∧
       t.port p = { s.port p with seqr := { (s.port p).seqr with
         running := true, step := 0, k := Vector.replicate 4 0, a := Vector.replicate 4 0 } }) ∧
  (∀ (s : State), ∃ t, exec .linkEnd s = .next t ∧ s.quiet t ∧ (t.port s.curPort).seqr.running = false ∧
     (t.port s.curPort).seqr.owner = none ∧ (∀ g, (t.port s.curPort).seqr.program = some g → g.pinned = false) ∧
     (∀ o, (s.port s.curPort).seqr.owner = some o → (.retirement o.1 .l o.2.1) ∈ t.closing) ∧
     ∀ q, q ≠ s.curPort → t.port q = s.port q) ∧
  ∀ (s : State) (cls : MsgClass) (src dst : BitVec 4) (so dd : BitVec 2) (g : LinkProgram) (e d : LinkEntry) (page : PageMap),
    let p := s.curPort
    let y := (s.port p).seqr
    let h := offsetBase e.handle (y.a[so.toNat].signExtend 64)
    let va := hBase (offsetBase d.handle (y.a[dd.toNat].signExtend 64))
    y.program = some g → g.entries[src.toNat]? = some e → g.entries[dst.toNat]? = some d → sourceInside e h = true →
    covered d.pages va (hPacked h) = true → tagMismatch s g.core 0 h = none → d.pages.find? (fun q => q.covers va) = some page →
    ∃ t, exec (.linkSend cls src dst so dd) s = .next t ∧ s.quiet t ∧ (t.port p).seqr = { y with step := y.step + 1 } ∧
      (∃ ms : List Msg, (t.port p).queue = (s.port p).queue ++ ms ∧ (ms.map Msg.bytes).sum = hPacked h ∧
        ∀ m ∈ ms, m.dest = page.module ∧ m.cls = cls ∧ m.bytes ≤ 16384 ∧ m.owner = none) ∧
      ∀ q, q ≠ p → t.port q = s.port q

/-- R208, R217 to R219, R222, R223, R225 to R228, R236, R239, R240, R242, R243, R276, R307, R308, R311, R314, R334: the words of the L queue as they
issue: SEND, SENDRED and PULL append their messages, which are held while the port is; CAL reads the calendar and LPHASE the phase as they retire;
LSTART takes its port's sequencer, or faults where it holds no program; LMARK starts a generation, LHOLD holds or releases, LSHED and LGATE wait for a
message boundary, LWAKE wakes GATED groups and sets its end 320 wc on, LIDLE declares its gap. No byte and no register changes at issue. That
relay permission is asked of a transfer's pages as a whole is the model's choice (log 97). -/
def Obligations.LinkWordsIssue : Prop :=
  (∀ (s : State) (c : CoreId) (q : QEntry), headWaiting ((s.core c).queue .l) = some q → engineReady s c .l q = true → q.mismatch = none →
     checkTags s c q.mcMask (sourceHandles q) = none → q.notify = 0 →
     let retires : Instr := .retirement c .l q.order
     let n := hPacked (q.handleAt 0)
     let goes := fun (t : State) => exec (.engineIssue c .l) s = .next t ∧ s.quiet t
     let starts := fun (t : State) (f : QEntry → QEntry) => goes t ∧ s.othersSame t c ∧
       (t.core c).queue .l = ((s.core c).queue .l).map fun x => if x.order = q.order then f { x with status := .issued s.clock } else x
     let within := fun (t : State) (bound : Nat) => ∃ k, s.clock < k ∧ k ≤ s.clock + bound ∧ (k, retires) ∈ t.timers
     let others := fun (t : State) (p : PortId) => ∀ r, r ≠ p → t.port r = s.port r
     let sends := fun (port : BitVec 3) (P : Msg → Prop) =>
       let p : PortId := Fin.ofNat 8 port.toNat
       ∀ page, q.pages.find? (fun g => g.covers q.sa.toNat) = some page →
         (n = 0 → ∃ t, starts t id ∧ retires ∈ t.closing ∧ (t.port p).queue = (s.port p).queue) ∧
         (n ≠ 0 → ∃ t, starts t id ∧ others t p ∧ ∃ ms : List Msg, (t.port p).queue = (s.port p).queue ++ ms ∧
           ∀ m ∈ ms, m.dest = page.module ∧ m.owner = some (c, q.order) ∧ m.held = (s.port p).held ∧ P m)
     let carries := fun (port : BitVec 3) (P : Msg → Prop) => sends port P ∧
       (n ≠ 0 → ∀ page, q.pages.find? (fun g => g.covers q.sa.toNat) = some page → ∀ t, exec (.engineIssue c .l) s = .next t →
         ∃ ms : List Msg, (t.port (Fin.ofNat 8 port.toNat)).queue = (s.port (Fin.ofNat 8 port.toNat)).queue ++ ms ∧
           (ms.map Msg.bytes).sum = n ∧ ∀ m ∈ ms, 0 < m.bytes ∧ m.bytes ≤ 16384)
     match q.instr with
     | .send port cls _ _ _ => carries port fun m => m.cls = cls ∧ m.body = .data
     | .sendred port op un _ _ _ => carries port fun m => m.cls = (if un then .f else .d) ∧ m.body = .reduce op (BitVec.ofNat 4 (hEfmt (q.handleAt 0)))
     | .pull port cls _ _ _ => sends port fun m => m.cls = .d ∧ m.bytes = 0 ∧ m.relayOk = false ∧ ∃ ok, m.body = .pullRequest cls ok
     | .cal port _ => ∃ (t : State) (v : Word), starts t (fun x => { x with result := v }) ∧ within t 4 ∧ v.extractLsb' 8 3 = port ∧
         (∀ b m, s.fabric.active = some b → q.sa.toNat < b.slots →
           ((b.calendar[(Fin.ofNat 8 port.toNat : Fin 8)]).toList)[q.sa.toNat]? = some (some m) →
           v = BitVec.ofNat 64 (port.toNat * 256 + m.val)) ∧
         ((∀ b, s.fabric.active = some b → b.slots ≤ q.sa.toNat ∨
             ((b.calendar[(Fin.ofNat 8 port.toNat : Fin 8)]).toList)[q.sa.toNat]? = some none) →
           v = BitVec.ofNat 64 (2 ^ 63 + port.toNat * 256))
     | .lphase _ _ => ∃ t, starts t id ∧ within t 2
     | .lprog _ _ _ => ∃ t, starts t id ∧ within t (16 + (extentBytes (q.handleAt 0) + 255) / 256 + q.accessT)
     | .lstart port _ _ =>
       let p : PortId := Fin.ofNat 8 port.toNat
       ((s.port p).seqr.program ≠ none → ∃ t, starts t id ∧ others t p ∧
         t.port p = { s.port p with seqr := { (s.port p).seqr with owner := some (c, q.order, q.sa) } }) ∧
       ((s.port p).seqr.program = none → q.epoch = (s.core c).epoch → (s.core c).task ≠ none → (s.core c).mode = .running →
         ∃ t, exec (.engineIssue c .l) s = .next t ∧ s.sameMemory t ∧ (t.core c).regs = (s.core c).regs ∧ (∀ r, t.port r = s.port r) ∧
           ({ code := 0x12, info := 0, slot := q.slot .l, addr := q.pc } : PendingTrap) ∈ (t.core c).traps)
     | .lmark port =>
       let p : PortId := Fin.ofNat 8 port.toNat
       let g := (s.port p).mgen + 1
       ∃ t, starts t (fun x => { x with result := g.setWidth 64 }) ∧ others t p ∧
         t.port p = { s.port p with mgen := g, markDue := (s.port p).markDue ++ (s.portPeers p).map fun m => (m, g, (s.port p).sent) } ∧
         (s.portPeers p = [] → retires ∈ t.closing)
     | .lhold port release =>
       let p : PortId := Fin.ofNat 8 port.toNat
       ∃ t, starts t id ∧ others t p ∧ retires ∈ t.closing ∧
         t.port p = { s.port p with held := !release, queue := (t.port p).queue } ∧ (release = false → (t.port p).queue = (s.port p).queue) ∧
         (release = true → (t.port p).queue = (s.port p).queue.map fun m => { m with held := false })
     | .lshed port _ =>
       let p : PortId := Fin.ofNat 8 port.toNat
       ∃ t, starts t id ∧ others t p ∧ t.port p = { s.port p with sheds := (s.port p).sheds ++ [(q.sa, c, q.order)] }
     | .lgate port _ =>
       let p : PortId := Fin.ofNat 8 port.toNat
       ∃ t, starts t id ∧ others t p ∧ t.port p = { s.port p with gates := (s.port p).gates ++
         [{ mask := q.sa.extractLsb' 0 16, owner := some (c, q.order), dropped := !q.guardTrue }] }
     | .lwake port _ =>
       let p : PortId := Fin.ofNat 8 port.toNat
       ∃ t, goes t ∧ others t p ∧ (s.clock + 320, retires) ∈ t.timers ∧
         (∀ k : Fin 16, (t.port p).groups[k] =
           if q.sa.getLsbD k.val = true ∧ (s.port p).groups[k] = .gated then .waking else (s.port p).groups[k]) ∧
         ((∃ k : Fin 16, q.sa.getLsbD k.val = true ∧ (s.port p).groups[k] = .gated) → ∃ m : BitVec 16,
           (s.clock + 320, .groupWakeEnd p m) ∈ t.timers ∧
             ∀ k : Fin 16, m.getLsbD k.val = (q.sa.getLsbD k.val && (s.port p).groups[k] == .gated))
     | .lidle port _ =>
       let p : PortId := Fin.ofNat 8 port.toNat
       let k := q.sa.toNat % 2 ^ 32
       (k = 0 → ∃ t, starts t id ∧ retires ∈ t.closing ∧ ∀ r, t.port r = s.port r) ∧
       (k ≠ 0 → ∃ t, starts t id ∧ others t p ∧ (s.clock + k, .idleGapEnd p) ∈ t.timers ∧
         t.port p = { s.port p with gaps := (s.port p).gaps ++ [(s.clock, s.clock + k, some (c, q.order))] })
     | _ => True) ∧
  ∀ (s : State) (c : CoreId) (q : QEntry), s.Retires c .l q → q.notify = 0 → (s.core c).task ≠ none → (s.core c).mode = .running →
    let ends := fun (t : State) => exec (.retirement c .l q.order) s = .next t ∧ s.sameMemory t ∧ s.othersSame t c ∧ s.counted t c .l q ∧
      (t.core c).preds = (s.core c).preds ∧ (t.core c).handles = (s.core c).handles ∧ ∀ p, t.port p = s.port p
    let writes := fun (d : SReg) (v : Word) => d.toNat < 60 →
      (∀ x ∈ (s.core c).shadows, s.clock < x.landsAt → x.handle = false → x.reg ≠ d.toNat) →
      ∃ t, ends t ∧ ∀ r : SReg, (t.core c).regs[r.toNat] = if r = d ∧ r ≠ 0 then v else (s.core c).regs[r.toNat]
    let now : Word := match s.slot with
      | none => BitVec.allOnes 64
      | some x => BitVec.ofNat 64 (x.rotation % 2 ^ 32 * 2 ^ 32 + x.index * 2 ^ 24 + x.offset)
    match q.instr with
    | .cal _ d => writes d q.result
    | .lphase false d => writes d now
    | .lphase true d => (s.phaseAt q.sa = true → writes d now) ∧
        (s.phaseAt q.sa = false → ∃ t, exec (.retirement c .l q.order) s = .next t ∧ t = { s with timers := t.timers } ∧
          (s.clock + 1, .retirement c .l q.order) ∈ t.timers)
    | .send _ _ _ _ _ | .sendred _ _ _ _ _ _ | .pull _ _ _ _ _ | .lstart _ _ _ | .lmark _ | .lhold _ _ | .lshed _ _ | .lgate _ _ | .lwake _ _
    | .lidle _ _ => ∃ t, ends t ∧ (t.core c).regs = (s.core c).regs
    | _ => True

/-! ## Engines -/

/-- R21, R23, R41, R44, R91, R100, R104, R105, R107, R109, R278, R286, R331, R351: an engine takes the oldest word that it has not taken; where
none waits, or the word may not issue, nothing changes. A word of the A or the Y queue is issued now, and with no descriptor its issue changes no
byte: loads, stores, tensor commands and Y words retire within their bounds, a tensor command with its accesses still to perform in walk order; SEQT
begins within 4 wc; FEED and TAKE take their channel and XIN and XOUT join their grid's crossings, or move nothing and retire at once where the extent
is empty. (The words of the G, M and L queues: GridWordsIssue, MatrixWords, LinkWordsIssue.) -/
def Obligations.EnginesIssue : Prop :=
  (∀ (s : State) (c : CoreId) (e : Engine), headWaiting ((s.core c).queue e) = none → exec (.engineIssue c e) s = .next s) ∧
  ∀ (s : State) (c : CoreId) (e : Engine) (q : QEntry), headWaiting ((s.core c).queue e) = some q →
    (engineReady s c e q = false → exec (.engineIssue c e) s = .next s) ∧
    (engineReady s c e q = true → q.mismatch = none → checkTags s c q.mcMask (sourceHandles q) = none → q.notify = 0 →
      let h := q.handleAt 0
      let retires : Instr := .retirement c e q.order
      let starts := fun (t : State) (f : QEntry → QEntry) => exec (.engineIssue c e) s = .next t ∧ s.quiet t ∧ s.othersSame t c ∧
        (t.core c).queue e = ((s.core c).queue e).map fun x => if x.order = q.order then f { x with status := .issued s.clock } else x
      let within := fun (t : State) (bound : Nat) => ∃ n, s.clock < n ∧ n ≤ s.clock + max bound 1 ∧ (n, retires) ∈ t.timers
      let takesChannel := fun (ch qn : BitVec 3) (take : Bool) => ∃ t, starts t id ∧
        (streamLength h = 0 → retires ∈ t.closing ∧ (t.core c).channels = (s.core c).channels) ∧
        (streamLength h ≠ 0 → ∃ o : Channel, (∀ k : Fin 8, (t.core c).channels[k] = if k.val = ch.toNat then some o else (s.core c).channels[k]) ∧
          o.number = q.order ∧ o.take = take ∧ o.queue.val = qn.toNat ∧ o.moved = 0 ∧ o.length = streamLength h ∧ s.clock < o.startAt ∧
          o.startAt ≤ s.clock + 24 + q.accessT)
      let crosses := fun (row inward : Bool) => ∃ t, starts t id ∧
        (streamLength h = 0 → retires ∈ t.closing ∧ (t.grid c).crossing = (s.grid c).crossing) ∧
        (streamLength h ≠ 0 → ∃ x : CrossState, (t.grid c).crossing = (s.grid c).crossing ++ [x] ∧ x.number = q.order ∧ x.inward = inward ∧
          x.row = row ∧ x.place = q.sa ∧ x.granted = false ∧ x.done = false ∧ s.clock < x.startAt ∧ x.startAt ≤ s.clock + 16 + q.accessT)
      (e = .y → ∃ t, starts t id ∧ within t (yBound q.instr + q.accessT)) ∧
      (e = .a → match q.instr with
        | .ld _ _ _ _ _ | .st _ _ _ _ _ _ => ∃ t, starts t id ∧ within t (8 + q.accessT)
        | .copy _ _ _ _ | .gath _ _ _ | .scat _ _ _ =>
          ∃ t, starts t (fun x => { x with performed := true, ops := tensorOps c q }) ∧ within t (aBound q)
        | .seqt _ _ _ => ∃ t, starts t id ∧ (seqtLines h = [] → retires ∈ t.closing) ∧ (seqtLines h ≠ [] → within t 4)
        | .feed _ ch qn _ => takesChannel ch qn false
        | .take _ ch qn _ => takesChannel ch qn true
        | .xin row _ _ _ => crosses row true
        | .xout row _ _ _ => crosses row false
        | _ => True))

/-- R33, R63, R66, R87, R98, R100, R304, R336, R343: an ST stores the low bytes of v at every place its address names, under a true guard
alone; an LD pushes its value, extended by its type, to q0 or q1; SEQT sets the tag of one line of its extent in a wc, in every masked
core and in ascending address, and retires with the last. No other byte, tag, register, predicate or handle changes, and cc.a counts in
order. -/
def Obligations.AWordsRetire : Prop :=
  ∀ (s : State) (c : CoreId) (q : QEntry) (g : Guard) (rel acq q1 : Bool) (sc : Scope) (w : Width) (ty : ScalarType) (v a : SReg)
    (h : HReg) (nt : NtField), s.Retires c .a q → q.notify = 0 →
    let performs := fun (t : State) => exec (.retirement c .a q.order) s = .next t ∧ s.othersSame t c ∧ (t.core c).regs = (s.core c).regs ∧
      (t.core c).preds = (s.core c).preds ∧ (t.core c).handles = (s.core c).handles
    (q.instr = .st g rel sc w v a → ∀ bases, placed c q.mcMask q.pages q.sa.toNat (widthBytes w) bases →
      ∃ t, performs t ∧ s.counted t c .a q ∧ t.tags = s.tags ∧ (t.core c).inQ = (s.core c).inQ ∧
        (q.guardTrue = true → ∀ b ∈ bases, ∀ i, i < widthBytes w → t.loadByte (b + i) = q.v.extractLsb' (8 * i) 8) ∧
        s.sameOutside t fun x => q.guardTrue = true ∧ ∃ b ∈ bases, b ≤ x ∧ x < b + widthBytes w) ∧
    (q.instr = .ld acq sc ty q1 a → ∀ base, placed c 0 q.pages q.sa.toNat (widthBytes ty.width) [base] →
      ∃ t, performs t ∧ s.counted t c .a q ∧ s.sameMemory t ∧ t.tags = s.tags ∧
        (∀ k : Fin 4, (t.core c).inQ[k] = (s.core c).inQ[k] ++
          if k.val = q1.toNat then
            [spread ty (BitVec.ofNat _ (leNat ((List.range (widthBytes ty.width)).map fun i => q.sees s (base + i))))]
          else [])) ∧
    (q.instr = .seqt h a nt → ∀ line, (seqtLines (q.handleAt 0))[q.z.toNat]? = some line →
      ∃ t, performs t ∧ s.sameMemory t ∧ (t.core c).inQ = (s.core c).inQ ∧
        (∀ l, t.tagOf l = if l ∈ (padAddrs c q.mcMask (line * 256)).map (· / 256) then q.sa.setWidth 6 else s.tagOf l) ∧
        (q.z.toNat + 1 = (seqtLines (q.handleAt 0)).length → s.counted t c .a q) ∧
        (q.z.toNat + 1 < (seqtLines (q.handleAt 0)).length → (t.core c).counters = (s.core c).counters ∧
          (s.clock + 1, .retirement c .a q.order) ∈ t.timers ∧ ∀ f, findEntry (t.core c) .a q.order = some f → f.z = q.z + 1))

/-- R36, R70, R89, R98, R105, R107, R156, R184, R278, R279, R286, R287, R331, R332, R344: a word of which reads are left does not retire; what is left
of a COPY, GATH or SCAT at its end performs in walk order, which is the model's choice (log 13, 22), and the word retires. Performed from its first
access in that order, COPY reads and writes element by element; COPY.s24 zeroes a group and
sets its two elements; GATH reads an index, then the element of its table with that place in walk order, and writes it; SCAT writes the element that
an index names; an index of the table's size or more lands nothing. An XOUT lands its elements from the words that have crossed. Through a handle
with AWR the lines they land in are stamped. A TAKE that is alone lands as many words as its stream, its buffer and the wc's 64 places allow, and is
then to retire; as a FEED or TAKE retires its channel is free. -/
def Obligations.TensorWordsRetire : Prop :=
  (∀ (s : State) (c : CoreId) (q : QEntry), s.Retires c .a q → q.notify = 0 →
     let ends := fun (t u : State) => exec (.retirement c .a q.order) s = .next t ∧ u.sameMemory t ∧ t.tags = u.tags ∧ s.counted t c .a q ∧
       s.othersSame t c ∧ (t.core c).regs = (s.core c).regs ∧ (t.core c).preds = (s.core c).preds ∧ (t.core c).handles = (s.core c).handles ∧
       (t.core c).inBuf = (s.core c).inBuf ∧ (t.core c).outBuf = (s.core c).outBuf
     match q.instr with
     | .copy _ _ _ _ | .gath _ _ _ | .scat _ _ _ => ∃ t, ends t (s.landRest c q) ∧ (t.core c).channels = (s.core c).channels
     | .xout _ _ _ _ => ∃ t, ends t (s.landRest c q) ∧ (t.grid c).crossing = (s.grid c).crossing.filter fun x => x.number != q.order
     | .xin _ _ _ _ => ∃ t, ends t s ∧ (t.grid c).crossing = (s.grid c).crossing.filter fun x => x.number != q.order
     | .feed _ _ _ _ | .take _ _ _ _ => ∃ t, ends t s ∧ ∀ k : Fin 8, (t.core c).channels[k] = ((s.core c).channels[k]).filter fun o => o.number != q.order
     | _ => True) ∧
  (∀ (s : State) (c : CoreId) (e : Engine) (n at_ : Nat) (q : QEntry), findEntry (s.core c) e n = some q → q.status = .issued at_ →
     q.readsLeft = true → exec (.retirement c e n) s = .next (s.timer (s.clock + 1) (.retirement c e n))) ∧
  (∀ (s : State) (c : CoreId) (q : QEntry) (da db : HReg) (nt : NtField), q.notify = 0 →
     let t := s.landRest c q
     let ha := q.handleAt 0
     let hb := q.handleAt 1
     let hi := q.handleAt 2
     let efmt := hEfmt ha
     let copies := fun (red : Option Reduction) =>
       (∀ x ∈ hElems ha, apart (destOf c q x) efmt) → (red ≠ none → 4 ≤ efmt ∧ efmt ≤ 9) → q.ops = tensorOps c q →
       let N := min (hElems ha).length (hElems hb).length
       ∃ st : Nat → State, st 0 = s ∧ (st N).sameMemory t ∧
         (∀ n x y, (hElems ha)[n]? = some x → (hElems hb)[n]? = some y →
           let v := elemIn (st n) (sourceOf c q y) (hEfmt hb) y.high
           (st n).elemLands (st (n + 1)) (destOf c q x) efmt x.high fun old =>
             match red with | none => v | some op => reduceElem op efmt old v) ∧
         s.stampedBy t ha fun a => ∃ n x, n < N ∧ (hElems ha)[n]? = some x ∧ a ∈ destOf c q x
     (q.instr = .copy .plain da db nt → copies none) ∧
     (q.instr = .copy .redAdd da db nt → copies (some .add)) ∧
     (q.instr = .copy .redMin da db nt → copies (some .min)) ∧
     (q.instr = .copy .redMax da db nt → copies (some .max)) ∧
     (q.instr = .copy .s24 da db nt → q.ops = tensorOps c q →
       (∀ r ra i : Nat, (hRows ha)[r]? = some ra → i < hDim ha 0 → apart (destOf c q (rowElem ha ra i)) efmt) →
       let G := hDim ha 0 / 4
       let R := min (hRows ha).length (min (hRows hb).length (hRows hi).length)
       ∃ st : Nat → State, st 0 = s ∧ (st (R * G)).sameMemory t ∧ (hAwr ha = false → ∀ l, t.tagOf l = s.tagOf l) ∧
         ∀ r g ra rb rm : Nat, g < G → (hRows ha)[r]? = some ra → (hRows hb)[r]? = some rb → (hRows hi)[r]? = some rm →
           let m := elemIn (st (r * G + g)) (sourceOf c q (rowElem hi rm g)) 6 false
           let dest := fun (i : Nat) => rowElem ha ra (4 * g + i)
           let lands := fun (x y : State) (i v : Nat) => x.elemLands y (destOf c q (dest i)) efmt (dest i).high fun _ => v
           let value := fun (x : State) (i : Nat) => elemIn x (sourceOf c q (rowElem hb rb (2 * g + i))) (hEfmt hb) (rowElem hb rb (2 * g + i)).high
           ∃ u : Nat → State, u 0 = st (r * G + g) ∧ u 6 = st (r * G + g + 1) ∧ (∀ i, i < 4 → lands (u i) (u (i + 1)) i 0) ∧
             lands (u 4) (u 5) (m % 4) (value (u 4) 0) ∧ lands (u 5) (u 6) (m / 4 % 4) (value (u 5) 1)) ∧
     (q.instr = .gath da db nt → q.ops = tensorOps c q → (∀ x ∈ hElems ha, apart (destOf c q x) efmt) →
       let N := min (hElems ha).length (hElems hi).length
       ∃ st : Nat → State, st 0 = s ∧ (st N).sameMemory t ∧
         let index := fun (n : Nat) (y : ElemRef) => elemIn (st n) (sourceOf c q y) (hEfmt hi) y.high
         (∀ n x y, (hElems ha)[n]? = some x → (hElems hi)[n]? = some y →
           (∀ z, (hElems hb)[index n y]? = some z → (st n).elemLands (st (n + 1)) (destOf c q x) efmt x.high fun _ =>
             elemIn (st n) (sourceOf c q z) (hEfmt hb) z.high) ∧
           ((hElems hb)[index n y]? = none → (st n).sameMemory (st (n + 1)))) ∧
         s.stampedBy t ha fun a => ∃ n x y, (hElems ha)[n]? = some x ∧ (hElems hi)[n]? = some y ∧ index n y < (hElems hb).length ∧
           a ∈ destOf c q x) ∧
     (q.instr = .scat da db nt → q.ops = tensorOps c q → (∀ x ∈ hElems ha, apart (destOf c q x) efmt) →
       let N := min (hElems hb).length (hElems hi).length
       ∃ st : Nat → State, st 0 = s ∧ (st N).sameMemory t ∧
         let index := fun (n : Nat) (y : ElemRef) => elemIn (st n) (sourceOf c q y) (hEfmt hi) y.high
         (∀ n x y, (hElems hb)[n]? = some x → (hElems hi)[n]? = some y →
           (∀ z, (hElems ha)[index n y]? = some z → (st n).elemLands (st (n + 1)) (destOf c q z) efmt z.high fun _ =>
             elemIn (st n) (sourceOf c q x) (hEfmt hb) x.high) ∧
           ((hElems ha)[index n y]? = none → (st n).sameMemory (st (n + 1)))) ∧
         s.stampedBy t ha fun a => ∃ n y z, n < N ∧ (hElems hi)[n]? = some y ∧ (hElems ha)[index n y]? = some z ∧ a ∈ destOf c q z) ∧
     ∀ ws, q.ops = xoutOps c q ws → (∀ x ∈ hElems ha, apart (destOf c q x) efmt) →
       ∃ st : Nat → State, st 0 = s ∧ (st (hElems ha).length).sameMemory t ∧ ∀ n x, (hElems ha)[n]? = some x →
         (st n).elemLands (st (n + 1)) (destOf c q x) efmt x.high fun _ => streamElem ha ws n) ∧
  ∀ (s : State) (c : CoreId) (k : Fin 8) (ch : Channel) (q : QEntry), (s.core c).works = true → (s.core c).channels[k] = some ch →
    findEntry (s.core c) .a ch.number = some q → (∀ j : Fin 8, j ≠ k → (s.core c).channels[j] = none) → ch.take = true →
    ch.startAt ≤ s.clock → q.notify = 0 → earlier ((s.core c).queue .a) q = [] →
    (∀ (d : CoreId) (e : Engine), ∀ f ∈ (s.core d).queue e, f.accepted = none) →
    let h := q.handleAt 0
    ch.length ≤ streamLength h →
    let bits := efmtBits (hEfmt h)
    let w := efmtBytes (hEfmt h)
    let ws := ((s.core c).outBuf[ch.queue]).words
    let n := min 64 (min (ch.length - ch.moved) ws.length)
    let word := fun (i : Nat) => if i + 1 = ch.moved then ch.half.toNat else (ws.getD (i - ch.moved) 0).toNat
    let last := fun (m : Nat) => m / hDim h 0 * rowWords h + if bits = 64 then 2 * (m % hDim h 0) + 1 else m % hDim h 0 * bits / 32
    let mine := fun (m : Nat) (x : ElemRef) => (hElems h)[m]? = some x ∧ ch.moved ≤ last m ∧ last m < ch.moved + n
    (∀ m x, mine m x → ∀ i, i < w → physAddrs c q.mcMask q.pages (x.addr + i) = (destOf c q x).map (· + i)) →
    (∀ m x l y, mine m x → mine l y → ∀ a ∈ destOf c q x, ∀ b ∈ destOf c q y, (m, a) ≠ (l, b) →
      a + w ≤ b ∨ b + w ≤ a ∨ bits = 4 ∧ a = b ∧ x.high ≠ y.high) →
    ∃ t, exec (.channelWordMove c) s = .next t ∧ s.othersSame t c ∧ (t.core c).regs = (s.core c).regs ∧
      ((t.core c).outBuf[ch.queue]).words = ws.drop n ∧ (∀ j : Fin 8, j ≠ ch.queue → (t.core c).outBuf[j] = (s.core c).outBuf[j]) ∧
      (t.core c).inBuf = (s.core c).inBuf ∧
      (∃ d, (t.core c).channels[k] = some d ∧ d.moved = ch.moved + n ∧ d.number = ch.number ∧
        (d.moved = ch.length → (.retirement c .a ch.number) ∈ t.closing)) ∧
      (∀ m x, mine m x → ∀ a ∈ destOf c q x, elemIn t [a] (hEfmt h) x.high =
        if bits = 64 then word (last m - 1) + word (last m) * 2 ^ 32 else word (last m) / 2 ^ (m % hDim h 0 * bits % 32) % 2 ^ bits) ∧
      (hAwr h = false → t.tags = s.tags) ∧
      s.sameOutside t fun z => ∃ m x a, mine m x ∧ a ∈ destOf c q x ∧ a ≤ z ∧ z < a + w

/-- What an atomic leaves in memory for an old value, with its operand y and, for ACAS, z; all n bytes wide (R183). -/
def atomicNew : Instr → Nat → Nat → Nat → Nat → Nat
  | .aadd _ _ _ _ _ _, n, old, y, _ => (old + y) % 256 ^ n
  | .amin _ _ _ _ nat _ _, n, old, y, _ =>
    if nat then min old y else if (BitVec.ofNat (8 * n) y).toInt < (BitVec.ofNat (8 * n) old).toInt then y else old
  | .amax _ _ _ _ nat _ _, n, old, y, _ =>
    if nat then max old y else if (BitVec.ofNat (8 * n) old).toInt < (BitVec.ofNat (8 * n) y).toInt then y else old
  | .axchg _ _ _ _ _ _, _, _, y, _ => y
  | .acas _ _ _ _ _ _, _, old, y, z => if old = y then z else old
  | _, _, old, _, _ => old

/-- R33, R34, R42, R183, R268, R269: an atomic under a true guard reads and writes its place at once and gives v the old value, sign
extended for the signed forms of AMIN and AMAX; under a false guard it does neither. No other byte changes; cc.y counts in order. -/
def Obligations.AtomicsRetire : Prop :=
  ∀ (s : State) (c : CoreId) (q : QEntry) (g : Guard) (o : AtomicOrd) (sc : Scope) (wide nat : Bool) (v a : SReg) (base : Nat),
    q.instr ∈ [.aadd g o sc wide v a, .amin g o sc wide nat v a, .amax g o sc wide nat v a, .axchg g o sc wide v a,
      .acas g o sc wide v a] →
    s.Retires c .y q → placed c 0 q.pages q.sa.toNat (atomicBytes wide) [base] →
    let n := atomicBytes wide
    let old := s.load base n
    let signed := match q.instr with | .amin _ _ _ _ x _ _ | .amax _ _ _ _ x _ _ => !x | _ => false
    ∃ t, exec (.retirement c .y q.order) s = .next t ∧ s.counted t c .y q ∧ s.othersSame t c ∧
      s.sameOutside t (fun x => base ≤ x ∧ x < base + n) ∧
      (q.guardTrue = false → s.sameMemory t ∧ (t.core c).regs = (s.core c).regs) ∧
      (q.guardTrue = true → t.load base n = atomicNew q.instr n old (q.v.toNat % 256 ^ n) (q.z.toNat % 256 ^ n) ∧
        (v.toNat < 60 → (∀ x ∈ (s.core c).shadows, s.clock < x.landsAt → x.handle = false → x.reg ≠ v.toNat) →
          ∀ r : SReg, (t.core c).regs[r.toNat] =
          if r = v ∧ r ≠ 0 then
            (if signed then (BitVec.ofNat (8 * n) old).signExtend 64 else BitVec.ofNat 64 old)
          else (s.core c).regs[r.toNat]))

/-- R66, R172 to R174, R179 to R182, R329: a ring or phaser word acts on its block at once. RNINIT makes n FREE slots; RNCLM takes the slot
at TAIL from FREE to CLAIMED, RNPUB one from CLAIMED to FILLED, RNTAKE the slot at HEAD from FILLED to TAKEN, RNRET one from TAKEN to
FREE. PHREG sets the core's bits of SMASK and WMASK by its role, PHDROP clears them, PHSIG sets its bit of SGD, PHBYT moves PEND, and the
phase is tested when the wc ends. An update that faults posts its trap and changes no byte. -/
def Obligations.BlockWordsRetire : Prop :=
  (∀ (s : State) (c : CoreId) (q : QEntry) (d a b : SReg), s.Retires c .y q → checkBlock q.sa.toNat = .ok () →
     let p := blockAddr c q.sa.toNat
     let r := s.ring p
     let i := r.tail % r.n
     let j := r.head % r.n
     let k := q.v.toNat
     let n := k % 128
     let sz := k / 4096 % 16
     let ringFault : PendingTrap := { code := 0x13, info := q.sa, slot := q.slot .y, addr := q.pc }
     let ends := fun (t : State) => exec (.retirement c .y q.order) s = .next t ∧ s.counted t c .y q ∧ s.othersSame t c ∧
       s.sameOutside t fun x => p ≤ x ∧ x < p + 64
     let gives := fun (t : State) (v : Word) => (d.toNat < 60 →
       (∀ x ∈ (s.core c).shadows, s.clock < x.landsAt → x.handle = false → x.reg ≠ d.toNat) →
       ∀ z : SReg, (t.core c).regs[z.toNat] = if z = d ∧ z ≠ 0 then v else (s.core c).regs[z.toNat])
     let moves := fun (t : State) (m x : Nat) => ∀ l, l < 64 → (t.ring p).slot l = if l = m then x else r.slot l
     let fails := ∃ t, ends t ∧ s.sameMemory t ∧ ringFault ∈ (t.core c).traps ∧ (t.core c).regs = (s.core c).regs
     (q.instr = .rninit a b →
       if 1 ≤ n ∧ n ≤ 64 ∧ 3 ≤ sz ∧ 64 + n * 2 ^ sz ≤ 0x400000 - p % 0x400000 then
         ∃ t, ends t ∧ (t.core c).regs = (s.core c).regs ∧ (t.ring p).n = n ∧ (t.ring p).sz = sz ∧ (t.ring p).head = 0 ∧
           (t.ring p).tail = 0 ∧ (t.ring p).clm = 0 ∧ ∀ l, l < 64 → (t.ring p).slot l = 0
       else fails) ∧
     (q.instr = .rnclm d a →
       if r.valid = false then fails
       else if r.slot i = 0 then
         ∃ t, ends t ∧ gives t (BitVec.ofNat 64 i) ∧ moves t i 1 ∧ (t.ring p).tail = (r.tail + 1) % 2 ^ 32 ∧
           (t.ring p).head = r.head ∧ (t.ring p).clm = r.clm + 1 ∧ (t.ring p).n = r.n ∧ (t.ring p).sz = r.sz
       else ∃ t, ends t ∧ gives t (BitVec.allOnes 64) ∧ s.sameMemory t) ∧
     (q.instr = .rnpub a b →
       if r.valid ∧ k < r.n ∧ r.slot k = 1 then
         ∃ t, ends t ∧ (t.core c).regs = (s.core c).regs ∧ moves t k 2 ∧ (t.ring p).clm = (r.clm + 127) % 128 ∧ (t.ring p).head = r.head ∧
           (t.ring p).tail = r.tail ∧ (t.ring p).n = r.n ∧ (t.ring p).sz = r.sz
       else fails) ∧
     (q.instr = .rntake d a →
       if r.valid = false then fails
       else if r.slot j = 2 then
         ∃ t, ends t ∧ gives t (BitVec.ofNat 64 j) ∧ moves t j 3 ∧ (t.ring p).head = (r.head + 1) % 2 ^ 32 ∧
           (t.ring p).tail = r.tail ∧ (t.ring p).clm = r.clm ∧ (t.ring p).n = r.n ∧ (t.ring p).sz = r.sz
       else ∃ t, ends t ∧ gives t (BitVec.allOnes 64) ∧ s.sameMemory t) ∧
     (q.instr = .rnret a b →
       if r.valid ∧ k < r.n ∧ r.slot k = 3 then
         ∃ t, ends t ∧ (t.core c).regs = (s.core c).regs ∧ moves t k 0 ∧ (t.ring p).head = r.head ∧ (t.ring p).tail = r.tail ∧
           (t.ring p).clm = r.clm ∧ (t.ring p).n = r.n ∧ (t.ring p).sz = r.sz
       else fails)) ∧
  (∀ (s : State) (c : CoreId) (q : QEntry) (a b : SReg) (role : PhaserRole), s.Retires c .y q → checkBlock q.sa.toNat = .ok () →
     let p := blockAddr c q.sa.toNat
     let y := s.phaser p
     let me := (localOf c).val
     let ends := fun (t : State) => exec (.retirement c .y q.order) s = .next t ∧ s.counted t c .y q ∧ s.othersSame t c ∧
       (t.core c).regs = (s.core c).regs ∧ (s.sameOutside t fun x => p ≤ x ∧ x < p + 64) ∧ (t.phaser p).phase = y.phase
     let bit := fun (m : BitVec 16) (old : BitVec 16) (on : Bool) => ∀ l, m.getLsbD l = if l = me then on else old.getLsbD l
     (q.instr = .phreg role a → ∃ t, ends t ∧ p ∈ t.tests ∧ bit (t.phaser p).smask y.smask (role != .wait) ∧
       bit (t.phaser p).wmask y.wmask (role != .sig) ∧
       bit (t.phaser p).sgd y.sgd (role != .wait && y.sgd.getLsbD me) ∧ (t.phaser p).pend = y.pend) ∧
     (q.instr = .phdrop a → ∃ t, ends t ∧ p ∈ t.tests ∧ bit (t.phaser p).smask y.smask false ∧
       bit (t.phaser p).wmask y.wmask false ∧ bit (t.phaser p).sgd y.sgd false ∧ (t.phaser p).pend = y.pend) ∧
     (q.instr = .phsig a →
       if y.smask.getLsbD me then
         ∃ t, ends t ∧ p ∈ t.tests ∧ (t.phaser p).smask = y.smask ∧ (t.phaser p).wmask = y.wmask ∧
           bit (t.phaser p).sgd y.sgd true ∧ (t.phaser p).pend = y.pend
       else
         ∃ t, ends t ∧ s.sameMemory t ∧
           ({ code := 0x14, info := q.sa, slot := q.slot .y, addr := q.pc } : PendingTrap) ∈ (t.core c).traps) ∧
     (q.instr = .phbyt a b → ∃ t, ends t ∧ p ∈ t.tests ∧ (t.phaser p).smask = y.smask ∧ (t.phaser p).wmask = y.wmask ∧
       (t.phaser p).sgd = y.sgd ∧ (t.phaser p).pend = (y.pend + q.v.toNat) % 2 ^ 28))

/-- R94 to R96, R172, R176 to R178, R181, R216, R220: a notify descriptor whose KIND is reserved, or whose block is not one of LOCAL or DIE, does not
pass. A phaser descriptor with BYT adds a command's destination bytes to PEND at its issue and takes off those that land, which for COPY, GATH and
SCAT come to the same; a retirement leaves a note, with which a ring descriptor publishes its slot and one with SIG signals, or the fault is posted,
and ends the graph of a task that has ended, which is the model's reading (log 53); at the destination of a transfer the same acts on the block there, and what would fault is recorded. A walk reads four levels from ROOT; an entry that is not valid, a leaf
that is out of place, reserved, misaligned or out of its space faults; a table or a page past the DEV stacks does not exist (log 26). An address is
translated by the entry that the buffer holds, else by the walk. -/
def Obligations.DescriptorsAndTranslation : Prop :=
  (∀ (s : State) (c : CoreId) (e : Engine) (q : QEntry) (nt : NtField) (d : Word) (n : Nat),
     let x := d.toNat % 2 ^ 32
     let p := blockAt c x
     let kind := d.extractLsb' 62 2
     let y := s.phaser p
     let r := s.ring p
     let k := d.toNat / 2 ^ 32 % 64
     let onPend := fun (t : State) => p ∈ t.tests ∧ (t.phaser p).phase = y.phase ∧ (t.phaser p).smask = y.smask ∧ (t.phaser p).wmask = y.wmask ∧
       (t.phaser p).sgd = y.sgd ∧ t.cores = s.cores ∧ s.sameOutside t fun a => p ≤ a ∧ a < p + 64
     (nt ≠ 0 → kind ≠ 1#2 → kind ≠ 2#2 → checkNotify nt d = .error (.trap 0x07 nt.toNat)) ∧
     (nt ≠ 0 → kind = 1#2 ∨ kind = 2#2 →
       (¬(x < 0x400000 ∨ 0x40000000 ≤ x ∧ x < 0x44000000) → checkNotify nt d = .error (.trap 0x05 x)) ∧
       ((x < 0x400000 ∨ 0x40000000 ≤ x ∧ x < 0x44000000) → x % 64 ≠ 0 → checkNotify nt d = .error (.trap 0x06 x)) ∧
       (isBlock x → checkNotify nt d = .ok ())) ∧
     (isBlock x →
       (kind = 2#2 → d.getLsbD 60 = true → n ≠ 0 →
         (onPend (s.notifyIssue c d n) ∧ ((s.notifyIssue c d n).phaser p).pend = (y.pend + n) % 2 ^ 28) ∧
         (onPend (s.notifyLanded c d n) ∧ (((s.notifyLanded c d n).phaser p).pend : Int) = ((y.pend : Int) - n) % 2 ^ 28)) ∧
       (kind ≠ 2#2 ∨ d.getLsbD 60 = false ∨ n = 0 → s.notifyIssue c d n = s ∧ s.notifyLanded c d n = s) ∧
       (kind = 1#2 → (r.valid = true ∧ k < r.n ∧ r.slot k = 1 →
           ∃ t, s.notifyRetired c d = .ok t ∧ t.cores = s.cores ∧ (∀ l, l < 64 → (t.ring p).slot l = if l = k then 2 else r.slot l) ∧ (t.ring p).clm = (r.clm + 127) % 128 ∧
             (t.ring p).head = r.head ∧ (t.ring p).tail = r.tail ∧ (t.ring p).n = r.n ∧ (t.ring p).sz = r.sz ∧
             s.sameOutside t fun a => p ≤ a ∧ a < p + 64) ∧
         (¬(r.valid = true ∧ k < r.n ∧ r.slot k = 1) → s.notifyRetired c d = .error 0x13)) ∧
       (kind = 2#2 → d.getLsbD 61 = true →
         (y.smask.getLsbD (localOf c).val = true → ∃ t, s.notifyRetired c d = .ok t ∧ p ∈ t.tests ∧ t.cores = s.cores ∧
           (∀ l, (t.phaser p).sgd.getLsbD l = (l == (localOf c).val || y.sgd.getLsbD l)) ∧ (t.phaser p).smask = y.smask ∧
             (t.phaser p).wmask = y.wmask ∧ (t.phaser p).pend = y.pend ∧ (t.phaser p).phase = y.phase ∧
             s.sameOutside t fun a => p ≤ a ∧ a < p + 64) ∧
         (y.smask.getLsbD (localOf c).val = false → s.notifyRetired c d = .error 0x14)) ∧
       (kind = 2#2 ∧ d.getLsbD 61 = false ∨ kind = 0#2 ∨ kind = 3#2 → s.notifyRetired c d = .ok s)) ∧
     (∀ (w : Note) (code : BitVec 8), w.core = c → w.notify = d → s.notifyRetired c d = .error code →
       (w.epoch = (s.core c).epoch → (s.core c).task ≠ none → (s.core c).mode = .running ∨ (s.core c).mode = .saving →
         s.sameMemory (s.applyNote w) ∧ s.othersSame (s.applyNote w) c ∧
           ({ code := code, info := BitVec.ofNat 64 x, slot := w.slot, addr := w.pc } : PendingTrap) ∈ ((s.applyNote w).core c).traps) ∧
       ((s.core c).task = none → s.savedHere c w.epoch = false → ∀ (j : Nat) (g : Graph), s.sched.graphs[j]? = some g → g.id = w.graph →
         g.ending = none → ∃ h : Graph, (s.applyNote w).sched.graphs[j]? = some h ∧ h.ending = some
           { status := 2, code := code, addr := w.pc, info := BitVec.ofNat 64 x, node := w.node, core := c, serial := w.serial })) ∧
     (∀ w t, s.notifyRetired c d = .ok t → w.core = c → w.notify = d → s.applyNote w = t) ∧
     (e = .a ∨ e = .g ∨ e = .m → s.Retires c e q → q.ops = [] → (∀ sc w ty q1 a, q.instr ≠ .ld sc w ty q1 a) →
       (∀ sc w g x v a, q.instr ≠ .st g sc w x v a) → (∀ da sa t, q.instr ≠ .seqt da sa t) → (∀ da t, q.instr ≠ .lease da t) →
       ∃ t, exec (.retirement c e q.order) s = .next t ∧ s.sameMemory t ∧ (t.core c).traps = (s.core c).traps ∧
         ∃ w : Note, w.core = c ∧ w.order = q.order ∧ w.epoch = q.epoch ∧ w.graph = q.graph ∧ w.node = q.node ∧ w.serial = q.serial ∧
           w.notify = q.notify ∧ w.slot = slotCode (engCode e) q.number ∧ w.pc = q.pc ∧
           if notifyActs q.notify then ∀ v, v ∈ t.notes ↔ v = w ∨ v ∈ s.notes else t.notes = s.notes) ∧
     (headWaiting ((s.core c).queue .a) = some q → engineReady s c .a q = true → q.mismatch = none →
       checkTags s c q.mcMask (sourceHandles q) = none →
       let ha := q.handleAt 0
       let hb := q.handleAt 1
       let bytes := match q.instr with
         | .copy _ _ _ _ | .gath _ _ _ | .take _ _ _ _ | .xout _ _ _ _ => hRowCount ha * rowBytes ha
         | .scat _ _ _ => hCount hb * efmtBits (hEfmt hb) / 8
         | _ => 0
       (∃ t, exec (.engineIssue c .a) s = .next t ∧ (s.notifyIssue c q.notify bytes).sameMemory t) ∧
       ∀ da db k, (sameDims ha hb = true → q.instr ∈ [Instr.copy .plain da db k, .copy .redAdd da db k, .copy .redMin da db k, .copy .redMax da db k] →
           ((tensorOps c q).map MemOp.counts).sum = bytes) ∧
         (sameDims ha (q.handleAt 2) = true → q.instr = .gath da db k → ((tensorOps c q).map MemOp.counts).sum = bytes) ∧
         (sameDims hb (q.handleAt 2) = true → q.instr = .scat da db k → ((tensorOps c q).map MemOp.counts).sum = bytes))) ∧
  (∀ (s : State) (port : PortId) (m : InboundMsg) (n p : Nat), msgBlock m = some p →
     let y := s.phaser p
     let r := s.ring p
     let k := m.notify.toNat / 2 ^ 32 % 64
     let kind := m.notify.extractLsb' 62 2
     (kind = 2#2 → m.notify.getLsbD 60 = true → n ≠ 0 →
       let t := s.landNotify m n
       p ∈ t.tests ∧ t.cores = s.cores ∧ ((t.phaser p).pend : Int) = ((y.pend : Int) - n) % 2 ^ 28 ∧ s.sameOutside t fun a => p ≤ a ∧ a < p + 64) ∧
     (kind ≠ 2#2 ∨ m.notify.getLsbD 60 = false → s.landNotify m n = s) ∧
     (kind ≠ 1#2 → s.landPublish port m = s) ∧
     (kind = 1#2 → let t := s.landPublish port m
       (r.valid = true ∧ k < r.n ∧ r.slot k = 1 →
         t.cores = s.cores ∧ (∀ l, l < 64 → (t.ring p).slot l = if l = k then 2 else r.slot l) ∧ (t.ring p).clm = (r.clm + 127) % 128 ∧
           s.sameOutside t fun a => p ≤ a ∧ a < p + 64) ∧
       (¬(r.valid = true ∧ k < r.n ∧ r.slot k = 1) → t.cores = s.cores ∧ s.recorded t 4 (port.val / 2) port.val))) ∧
  ∀ (s : State) (c : CoreId) (va : Nat),
    let fails := fun (code : BitVec 8) => walk s va = .error (.trap code va)
    let next := fun (e : Nat) => e / 2 ^ 12 % 2 ^ 44 * 4096
    let leaf := fun (e size : Nat) =>
      let pa := next e
      let kind := e / 4 % 4
      let ord := e / 16 % 4
      let bad := kind = 3 ∨ ord = 3 ∨ pa % size ≠ 0 ∨ kind = 1 ∧ 0x80000000000 ≤ pa ∨ kind = 2 ∧ 0x4010000000 ≤ pa
      (bad → fails 0x0b) ∧ (¬bad → kind = 0 → 0x4000000000 ≤ pa → walk s va = .error (.absent pa)) ∧
      (¬bad → kind ≠ 0 ∨ pa < 0x4000000000 → ∃ p : PageMap, walk s va = .ok p ∧ p.va = va / size * size ∧ p.size = size ∧ p.pa = pa ∧
        (p.kind = .dev ↔ kind = 0) ∧ (p.kind = .host ↔ kind = 1) ∧ (p.kind = .peer ↔ kind = 2) ∧ (p.ord = .so ↔ ord = 0) ∧ (p.ord = .rc ↔ ord = 1) ∧
        (p.ord = .un ↔ ord = 2) ∧ (p.readOnly = true ↔ e / 64 % 2 = 1) ∧ (p.relay = true ↔ e / 128 % 2 = 1) ∧ p.module.val = e / 2 ^ 56 % 64)
    let at_ := fun (table shift : Nat) => table + va / 2 ^ shift % 512 * 8
    let a1 := at_ (s.owner.ptbr.toNat / 2 ^ 12 % 2 ^ 40 * 4096) 43
    let e1 := s.load a1 8
    let a2 := at_ (next e1) 34
    let e2 := s.load a2 8
    let a3 := at_ (next e2) 25
    let e3 := s.load a3 8
    let a4 := at_ (next e3) 16
    let e4 := s.load a4 8
    let entry := fun (a e : Nat) (P : Prop) =>
      (0x4000000000 ≤ a → walk s va = .error (.absent a)) ∧ (a < 0x4000000000 → (e % 2 = 0 → fails 0x0a) ∧ (e % 2 = 1 → P))
    (entry a1 e1 ((e1 / 2 % 2 = 1 → fails 0x0b) ∧ (e1 / 2 % 2 = 0 →
      entry a2 e2 ((e2 / 2 % 2 = 1 → fails 0x0b) ∧ (e2 / 2 % 2 = 0 →
        entry a3 e3 ((e3 / 2 % 2 = 1 → leaf e3 0x2000000) ∧ (e3 / 2 % 2 = 0 →
          entry a4 e4 ((e4 / 2 % 2 = 0 → fails 0x0b) ∧ (e4 / 2 % 2 = 1 → leaf e4 0x10000))))))))) ∧
    (∀ p, tlbLookup (s.core c) va = some p → translate s c va = .ok p) ∧ (tlbLookup (s.core c) va = none → translate s c va = walk s va)

/-- R65, R302, R357, R358: the A engine stores the oldest landed push of q0 or q1 at its pointer once every earlier A word has retired,
and the pointer moves on by 8, which no counter counts; a fill that is due brings its line into the cache. Nothing else changes. -/
def Obligations.StoresAndFills : Prop :=
  (∀ (s : State) (c : CoreId) (q1 : Bool) (o : OutEntry) (rest : List OutEntry),
     let k : Fin 4 := if q1 then 1 else 0
     let ptr : Word := if q1 then (s.core c).qptr[(1 : Fin 2)] else (s.core c).qptr[(0 : Fin 2)]
     (s.core c).outQ[k] = o :: rest → o.landsAt ≤ s.clock → (∀ f ∈ (s.core c).unretired .a, o.afterA ≤ f.number) →
     ptr.toNat + 8 ≤ 0x400000 →
     ∃ t, exec (.outboundQueueStore c q1) s = .next t ∧ t.load (scratchBase c.val + ptr.toNat) 8 = o.value.toNat ∧
       (s.sameOutside t fun x => scratchBase c.val + ptr.toNat ≤ x ∧ x < scratchBase c.val + ptr.toNat + 8) ∧
       (∀ j : Fin 4, (t.core c).outQ[j] = if j = k then rest else (s.core c).outQ[j]) ∧ s.othersSame t c ∧ t.tags = s.tags ∧
       t.core c = { s.core c with outQ := (t.core c).outQ, qptr := (t.core c).qptr, dirtyQ := true } ∧
       (t.core c).qptr[(0 : Fin 2)] = (if q1 then (s.core c).qptr[(0 : Fin 2)] else ptr + 8) ∧
       (t.core c).qptr[(1 : Fin 2)] = if q1 then ptr + 8 else (s.core c).qptr[(1 : Fin 2)]) ∧
  (∀ (s : State) (c : CoreId) (f : LineFill), (s.core c).filling = [f] → f.endAt ≤ s.clock →
     ∃ t, exec (.icacheLineFill c) s = .next t ∧ icacheFind (t.core c) f.line.line = some f.line ∧ (t.core c).filling = [] ∧
       s.quiet t ∧ s.othersSame t c ∧
       (t.core c).queues = (s.core c).queues ∧ (t.core c).pc = (s.core c).pc)

/-! ## Tasks -/

/-- R141, R155, R194, R197 to R199, R360: a pre-emption strikes at the boundary: the core saves, a held word has not taken effect, the grid
makes no request after the next one, an ACTIVE lease goes to SAVING. Once what has started has ended the save begins, at 512 bytes a
wc; its end leaves the image in its slot, with GEN one more and VALID 1, and the core free without a lease. No byte outside the slot
changes. -/
def Obligations.Preemptions : Prop :=
  (∀ (s : State) (c : CoreId), (s.core c).preempt ≠ none →
     ((s.core c).mode = .running →
       ∃ t, exec (.preemption c) s = .next t ∧ s.othersSame t c ∧ (t.core c).mode = .saving ∧ (t.core c).held = none ∧
         s.leavesHeld t c (t.core c).pc ∧ (t.core c).regs = (s.core c).regs ∧ (t.core c).preds = (s.core c).preds ∧
         (t.core c).handles = (s.core c).handles ∧ (t.core c).queues = (s.core c).queues ∧ (t.core c).task = (s.core c).task ∧
         (t.grid c).freezeAt = some (s.clock + 1) ∧
         (t.core c).lease.state = if (s.core c).lease.state = .active then .saving else (s.core c).lease.state) ∧
     ∀ g k pages, (s.core c).mode = .saving → s.savesImage c = false → s.settled c = true → s.graphOf c = some g →
       (s.core c).task = some k → imagePages s c true (g.slotVa k.slot) slotSize = .ok pages →
       ∃ t, exec (.preemption c) s = .next t ∧ s.quiet t ∧ s.othersSame t c ∧
         (s.clock + (s.saveBytes c + 511) / 512, .imageSaveEnd c) ∈ t.timers) ∧
  (∀ (s : State) (c : CoreId) (g : Graph) (k : Task) (p : PageMap), (s.core c).mode = .saving → (s.core c).coldLeft = 0 →
     s.graphOf c = some g → (s.core c).task = some k → imagePages s c true (g.slotVa k.slot) slotSize = .ok [p] →
     (∀ i, i < slotSize → physAddrs c 0 [p] (g.slotVa k.slot + i) = [p.pa + (g.slotVa k.slot - p.va) + i]) →
     let at_ := p.pa + (g.slotVa k.slot - p.va)
     ∃ t, exec (.imageSaveEnd c) s = .next t ∧ (t.core c).mode = .free ∧ (t.core c).task = none ∧ (t.core c).lease = Lease.reset ∧
       s.othersSame t c ∧ t.load at_ 4 = (s.load at_ 4 + 1) % 2 ^ 32 ∧ t.load (at_ + 4) 4 = 1 ∧
       ((s.core c).dirtyS = true → ∀ r : Fin 64, t.load (at_ + 0x40 + 8 * r.val) 8 = ((s.core c).regs[r]).toNat) ∧
       t.load (at_ + 0x240) 8 = (s.core c).pc.toNat ∧ (s.sameOutside t fun a => at_ ≤ a ∧ a < at_ + slotSize) ∧
       ∀ (i : Nat) (x : Graph), s.sched.graphs[i]? = some x → ∃ y : Graph, t.sched.graphs[i]? = some y ∧ (x.id ≠ k.graph → y = x) ∧
         (x.id = k.graph → ∃ e : SavedTask, y.saved = x.saved ++ [e] ∧ e.slot = k.slot ∧ e.core = c ∧ e.task = k ∧
           e.snapshot.regs = (s.core c).regs ∧ y.used = x.used))

/-- R194, R199, R360: a resume that ends puts the task back on its core with the registers, predicates, handles, pc and trap registers
of its image, whose slot lies in DEV memory; what the scratchpad still held of this generation is not read again, and no byte outside
the scratchpad changes. -/
def Obligations.TaskResumed : Prop :=
  ∀ (s : State) (c : CoreId) (g : Graph) (k : SavedTask) (p : PageMap), (s.core c).mode = .resuming → (s.core c).coldLeft = 0 →
    s.graphOf c = some g → s.loading c = some k → imagePages s c false (g.slotVa k.slot) slotSize = .ok [p] →
    (∀ i, i < slotSize → physAddrs c 0 [p] (g.slotVa k.slot + i) = [p.pa + (g.slotVa k.slot - p.va) + i]) →
    (∀ e : Fin 5, k.snapshot.queues[e] = [] ∧ k.snapshot.stayed[e] = []) →
    let at_ := p.pa + (g.slotVa k.slot - p.va)
    at_ + slotSize ≤ devSize → s.load (at_ + 0x258) 8 / 2 ^ 44 % 4 ≠ 2 →
    ∃ t, exec (.taskResume c) s = .next t ∧ (t.core c).mode = .running ∧ (t.core c).task = some k.task ∧ s.othersSame t c ∧
      (∀ r : Fin 64, (t.core c).regs[r] = if r.val = 0 then 0 else BitVec.ofNat 64 (s.load (at_ + 0x40 + 8 * r.val) 8)) ∧
      (∀ h : Fin 16, (t.core c).handles[h] = BitVec.ofNat 256 (s.load (at_ + 0x300 + 32 * h.val) 32)) ∧
      (t.core c).pc = BitVec.ofNat 64 (s.load (at_ + 0x240) 8) ∧
      (t.core c).preds = BitVec.ofNat 8 (s.load (at_ + 0x258) 8 / 2 ^ 32) ||| 1 ∧
      (t.core c).xpc = BitVec.ofNat 64 (s.load (at_ + 0x290) 8) ∧ (t.core c).xcause = BitVec.ofNat 8 (s.load (at_ + 0x298) 8) ∧
      (t.core c).xinfo = BitVec.ofNat 64 (s.load (at_ + 0x2a0) 8) ∧
      (s.sameOutside t fun a => scratchBase c.val ≤ a ∧ a < scratchBase c.val + scratchSize) ∧
      ((s.core c).holds = some (g.slotVa k.slot, BitVec.ofNat 32 (s.load at_ 4)) → s.sameMemory t)

/-- R55, R56, R192 to R195: once the cold dies are ready, the next tuple of a ready node goes to the lowest free core that CMASK allows,
in a free slot, with its indices, serial and colophon in s1 to s6, every other register 0, at the node's entry, its first word no
earlier than the next wc; no byte changes. -/
def Obligations.TupleDispatched : Prop :=
  ∀ (s : State) (g : Graph) (n slot : Nat) (x : Node) (c : CoreId), s.owner.mstat.getLsbD 2 = true →
    (∀ d, (s.core d).mode ≠ .draining) →
    s.sched.graphs = [g] → s.items g = [.tuple g.id n] → g.nodes[n]? = some x → g.freeSlot = some slot →
    g.allows c = true → s.coreFree c = true → (∀ d, d < c → ¬ (g.allows d = true ∧ s.coreFree d = true)) →
    ∃ t, exec .taskDispatch s = .next t ∧ (t.core c).task = some { graph := g.id, node := n, serial := x.placed, slot := slot } ∧
      (t.core c).mode = .running ∧ (t.core c).pc = x.entry ∧ (t.core c).issueAt = s.clock + 1 ∧ (t.core c).preds = 1 ∧
      (t.core c).regs[(0 : Fin 64)] = 0 ∧
      (∀ k : Fin 4, (t.core c).regs[k.val + 1] =
        if x.nest then BitVec.ofNat 64 ((x.tuple x.placed).getD k.val 0) else 0) ∧
      (t.core c).regs[(5 : Fin 64)] = BitVec.ofNat 64 x.placed ∧ (t.core c).regs[(6 : Fin 64)] = g.colophon ∧
      (∀ r : Fin 64, 7 ≤ r.val → (t.core c).regs[r] = 0) ∧ s.sameMemory t ∧
      ∃ h : Graph, t.sched.graphs[0]? = some h ∧ slot ∈ h.used

/-! ## Launch -/

/-- R186 to R191, R204, R205: a host's store of a tail lands and the front end looks again within 64 wc; an entry whose checks end adds
its graph, or one that has ended with STATUS 3, and HEAD + 1; the record of an ended graph with nothing outstanding is written where
RECORD then translates, and the graph is gone; a new period debits the overdraft. Every other byte stays. That the record of a graph whose RECORD no
longer translates goes where it translated at admission is the model's choice (log 85). -/
def Obligations.LaunchEvents : Prop :=
  ∀ (s : State) (queue : Fin 32768) (e : QueueEntry) (tail : Word32) (gid : Nat), s.queueEntry queue.val = some e →
    (hostBase ≤ e.taila → dpaOk e.taila 4 = true →
      ∃ t n, exec (.workQueueTailLoss queue tail) s = .next t ∧ t.load e.taila 4 = tail.toNat ∧
        (s.sameOutside t fun a => e.taila ≤ a ∧ a < e.taila + 4) ∧ s.clock < n ∧ n ≤ s.clock + 64 ∧
        (n, .graphAdmission queue) ∈ t.timers ∧ t.cores = s.cores ∧ t.sched = s.sched) ∧
    (e.enabled = true → e.sound = true → (s.sched.watch queue.val).busy = false → s.owner.mstat.getLsbD 4 = true →
      e.head ≠ s.load e.taila 4 → s.sched.graphs.length + (s.sched.watched.filter WatchedQueue.busy).length < 4096 →
      ∃ t n, exec (.graphAdmission queue) s = .next t ∧ s.sameMemory t ∧ t.cores = s.cores ∧ s.clock < n ∧
        (n, .graphAdmission queue) ∈ t.timers ∧ (t.sched.watch queue.val).busy = true ∧ t.sched.graphs = s.sched.graphs) ∧
    (e.enabled = true → e.sound = true → (s.sched.watch queue.val).busy = true →
      (∀ g, parseColophon s (s.load (e.ring + e.head % 2 ^ e.lsz * 8) 8) queue.val e.pmax = .ok g →
        ∃ t, exec (.graphAdmission queue) s = .next t ∧ t.sched.graphs = s.sched.graphs ++ [g] ∧
          t.load (e.at_ + 24) 4 = (e.head + 1) % 2 ^ 32 ∧ (s.sameOutside t fun a => e.at_ + 24 ≤ a ∧ a < e.at_ + 28) ∧
          t.cores = s.cores) ∧
      ∀ record place offset, parseColophon s (s.load (e.ring + e.head % 2 ^ e.lsz * 8) 8) queue.val e.pmax =
          .error (.rejected record place offset) →
        ∃ t g, exec (.graphAdmission queue) s = .next t ∧ t.sched.graphs = s.sched.graphs ++ [g] ∧
          g.record = BitVec.ofNat 64 record ∧ g.recordAt = place ∧
          g.ending = some { status := 3, code := 0x20, addr := 0, info := BitVec.ofNat 64 offset, node := 0, core := 0, serial := 0 } ∧
          t.load (e.at_ + 24) 4 = (e.head + 1) % 2 ^ 32 ∧ (s.sameOutside t fun a => e.at_ + 24 ≤ a ∧ a < e.at_ + 28) ∧
          t.cores = s.cores) ∧
    (∀ g x, s.graphById gid = some g → g.ending = some x → g.pend = 0 → s.performed gid = true → g.saved = [] →
      let ws : List Nat := [x.status.toNat + x.code.toNat * 256, x.addr.toNat, x.info.toNat,
        x.node % 2 ^ 16 + x.core.val * 2 ^ 16 + x.serial % 2 ^ 32 * 2 ^ 32, g.quse / 5 % 2 ^ 64, g.overdraft / 5 % 2 ^ 64,
        s.clock % 2 ^ 64, g.failed % 2 ^ 32]
      ∀ place, s.recordPlace g = .ok place →
      ∃ t, exec (.completionRecordWrite gid) s = .next t ∧ (∀ (i w : Nat), ws[i]? = some w → t.load (place + 8 * i) 8 = w) ∧
        (s.sameOutside t fun a => place ≤ a ∧ a < place + 64) ∧
        t.sched.graphs = s.sched.graphs.filter (fun y => y.id != gid) ∧ t.cores = s.cores) ∧
    ∃ t, exec (.quotaPeriodStart gid) s = .next t ∧ s.sameMemory t ∧ t.cores = s.cores ∧
      ∀ (i : Nat) (g : Graph), s.sched.graphs[i]? = some g → ∃ h : Graph, t.sched.graphs[i]? = some h ∧ (g.id ≠ gid → h = g) ∧
        (g.id = gid → h.quse = g.quse - g.quota.toNat * 5 ∧ h.overdraft = h.quse ∧
          (h.exhausted = true ↔ g.quota ≠ 0 ∧ g.quota.toNat * 5 ≤ h.quse))

/-! ## The meter -/

/-- R110, R112 to R116, R259: a window starts at the static term, HLAST takes the ended window's total in fJ, a task that runs or is being saved, with
TE set and LEVEL reached, has its trap, and of the budgets written at least 1 wc before the last takes effect within its limits, while later ones wait;
in a wc the total never falls, never passes the budget, and without COLD does not move; each core's HTHR counts a wc at most once. No byte and no
register changes. -/
def Obligations.MeterCounts : Prop :=
  ∀ (s : State),
    (∃ t, exec .meterWindowStart s = .next t ∧ s.quiet t ∧ t.meter.total = 2304000000 ∧ t.meter.atStart = 2304000000 ∧
      t.meter.last = s.meter.total / 5 ∧
      (let due := s.meter.pending.filter fun w => decide (w.2 + 1 ≤ s.clock)
       (∀ ws v at_, due = ws ++ [(v, at_)] → t.meter.budget = min (max (v % 2 ^ 32) 461848576) 3072000000) ∧
       (due = [] → t.meter.budget = s.meter.budget)) ∧
      t.meter.pending = (s.meter.pending.filter fun w => decide (s.clock ≤ w.2)) ∧
      ∀ c : CoreId,
        let x := s.core c
        (x.task.isSome = true → (x.mode = .running ∨ x.mode = .saving) → x.heatEnable = true → x.heatLevel.toNat * 5 ≤ s.meter.total →
          ∃ p ∈ (t.core c).traps, p.code = 0x18) ∧
        (x.task = none ∨ x.mode = .resuming ∨ x.heatEnable = false ∨ s.meter.total < x.heatLevel.toNat * 5 → (t.core c).traps = x.traps)) ∧
    ∃ t, exec .meterCycle s = .next t ∧ s.quiet t ∧ t.meter.budget = s.meter.budget ∧ s.meter.total ≤ t.meter.total ∧
      (s.meter.total ≤ s.meter.budget * 5 → t.meter.total ≤ t.meter.budget * 5) ∧
      (s.owner.mstat.getLsbD 2 = false → t.meter.total = s.meter.total) ∧
      ∀ c : CoreId, (t.core c).hthr = (s.core c).hthr ∨ (t.core c).hthr = (s.core c).hthr + 1

/-! ## Streams and crossings -/

/-- R102 to R104, R107, R108, R128, R351: when the accesses of a wc perform, the one FEED of a core moves its next words, as many as the stream, its
buffer and the wc's 64 places allow; at its boundary an XIN writes its cold register, its vitrine word or its whole row, which goes from FILLING to
FULL, and an XOUT takes what the place holds, which is then to land element by element, and retires once its last word has crossed, within what its
bound leaves. No byte and no other place changes. -/
def Obligations.StreamsAndCrossings : Prop :=
  (∀ (s : State) (c : CoreId) (k : Fin 8) (ch : Channel) (q : QEntry), (s.core c).works = true →
     (s.core c).channels[k] = some ch → findEntry (s.core c) .a ch.number = some q → (∀ j : Fin 8, j ≠ k → (s.core c).channels[j] = none) →
     ch.take = false → ch.startAt ≤ s.clock → earlier ((s.core c).queue .a) q = [] →
     (∀ (d : CoreId) (e : Engine), ∀ f ∈ (s.core d).queue e, f.accepted = none) →
     let n := min 64 (min (ch.length - ch.moved) (256 - ((s.core c).inBuf[ch.queue]).words.length))
     let t := s.feedWords c
     s.quiet t ∧ s.othersSame t c ∧
       ((t.core c).inBuf[ch.queue]).words = ((s.core c).inBuf[ch.queue]).words ++
         (List.range n).map (fun i => s.packWord c q (q.handleAt 0) (ch.moved + i)) ∧
       (∃ d, (t.core c).channels[k] = some d ∧ d.moved = ch.moved + n ∧ d.number = ch.number) ∧
       ∀ j : Fin 8, j ≠ ch.queue → (t.core c).inBuf[j] = (s.core c).inBuf[j]) ∧
  (∀ (s : State) (c : CoreId) (p : Nat) (x : CrossState), (s.grid c).boundary s.clock = some p → (s.grid c).dueCross p = some x →
     (∀ f ∈ (s.grid c).front.flights, p < f.at_) → (∀ f ∈ (s.grid c).frees, p < f.1) →
     let e : Fin 128 := Fin.ofNat 128 (gridEl x.place)
     let i : Fin 4 := Fin.ofNat 4 (gridIx x.place)
     let v : Fin 2 := Fin.ofNat 2 (gridEl x.place)
     let j : Fin 64 := Fin.ofNat 64 (gridIx x.place)
     let g := s.grid c
     (x.inward = true →
       ∃ t, exec (.xinLanding c) s = .next t ∧ s.sameMemory t ∧ t.cores = s.cores ∧ (.retirement c .a x.number) ∈ t.closing ∧
         (∀ y ∈ (t.grid c).crossing, y.number ≠ x.number) ∧
         (∀ (f : Fin 128) (k : Fin 4), (t.grid c).cold[f][k] =
           if x.row = false ∧ gridKind x.place ≠ 1 ∧ f = e ∧ k = i then x.words.headD 0 else g.cold[f][k]) ∧
         (∀ (w : Fin 2) (k : Fin 64), (t.grid c).vitrine[w][k] =
           if x.row = true ∧ w = v then x.words[k.val]?.getD 0
           else if x.row = false ∧ gridKind x.place = 1 ∧ w = v ∧ k = j then x.words.headD 0 else g.vitrine[w][k]) ∧
         (∀ w : Fin 2, (t.grid c).rows[w] = if x.row = true ∧ w = v ∧ g.rows[w] = .filling then .full else g.rows[w]) ∧
         ∀ d : CoreId, d ≠ c → t.grid d = s.grid d) ∧
     (x.inward = false →
       ∃ t n, exec (.xoutRead c) s = .next t ∧ s.quiet t ∧ s.othersSame t c ∧ (n, .retirement c .a x.number) ∈ t.timers ∧
         x.lastAt < n ∧ s.clock < n ∧
         (∀ q, findEntry (s.core c) .a x.number = some q → x.spent < 16 + q.accessT →
           n ≤ max x.lastAt s.clock + (16 + q.accessT - x.spent) ∧
           findEntry (t.core c) .a x.number = some { q with performed := true, ops := xoutOps c q (g.readXout x) }) ∧
         (t.grid c).cold = g.cold ∧ (t.grid c).vitrine = g.vitrine ∧
         (∀ y ∈ (t.grid c).crossing, y.number = x.number → y.done = true ∧
           y.words = if x.row then g.vitrine[v].toList else if gridKind x.place = 1 then [g.vitrine[v][j]] else [g.cold[e][i]]) ∧
         ∀ d : CoreId, d ≠ c → t.grid d = s.grid d))

/-! ## Boards and spines -/

/-- R129 to R132, R141, R295: when an image has loaded, the back board is READY with its II, its VGATE and its words where the image meets R130's
conditions, else REJECTED; at the swap point, with no member pre-empted, the boards exchange, the new front board starts from cleared ports and the
old one drains; a drained board is READY; the words retire, and no byte, register or cold register changes. -/
def Obligations.BoardsChange : Prop :=
  ∀ (s : State) (c : CoreId),
    let g := s.grid c
    (∀ l, g.load = some l → l.left = 0 →
      ∃ t, exec (.gcfgLoadEnd c) s = .next t ∧ s.sameMemory t ∧ t.cores = s.cores ∧ (.retirement c .g l.number) ∈ t.closing ∧
        (t.grid c).front = g.front ∧ (t.grid c).cold = g.cold ∧ (t.grid c).load = none ∧
        let h := (l.words.headD 0).toNat
        let ii := h % 32
        let els := maskedElems l.words
        let image : Board := { g.back with ii := ii, program := Vector.ofFn (elemWords l.words ii els) }
        let dense := fun (limit : Nat) (slots : List Nat) =>
          ∃ k, k < ii ∧ limit < ((List.range 16).map fun j => (slots.filter fun x => x == (k + j) % ii).length).sum
        let b := (t.grid c).back
        (b.status = .ready ∨ b.status = .rejected) ∧
        (b.status = .ready ↔ 1 ≤ ii ∧ ii ≤ 16 ∧ l.words.length = 5 + ii * els.length ∧ ¬ dense 64 (image.reads.map Prod.fst) ∧
          ¬ dense 8 (image.emits.map Prod.fst)) ∧
        (b.status = .ready → b.ii = ii ∧ b.vgate = decide (h / 32 % 2 = 1) ∧ b.program = image.program ∧
          ∀ (k slot : Nat) (e : Fin 128), els[k]? = some e → slot < ii → l.words[5 + k * ii + slot]? = some (b.word e slot))) ∧
    (∀ w p, s.spine c = [c] → s.spineHead c = c → s.spineWaits [c] = false → g.swap = some w → g.plan = [] → g.running = none →
      g.boundary s.clock = some p → swapDue w p = true → inFlight (s.spineStages [c]) g.history = false → g.front.flights = [] →
      ∃ t, exec (.boardSwap c) s = .next t ∧ s.sameMemory t ∧ t.cores = s.cores ∧ (.retirement c .g w.1) ∈ t.closing ∧
        (t.grid c).front.program = g.back.program ∧ (t.grid c).front.ii = g.back.ii ∧
        (t.grid c).front.elems = Vector.replicate 128 ElemState.zero ∧ (t.grid c).back = { g.front with status := .draining } ∧
        (t.grid c).cold = g.cold ∧ (t.grid c).swap = none ∧ ∀ d : CoreId, d ≠ c → t.grid d = s.grid d) ∧
    (g.back.status = .draining → (∀ f ∈ g.back.flights, f.at_ ≤ 16 * s.clock) →
      ∃ t, exec (.boardDrained c) s = .next t ∧ s.sameMemory t ∧ t.cores = s.cores ∧ (t.grid c).back.status = .ready ∧
        (t.grid c).back.program = g.back.program ∧ (t.grid c).front = g.front ∧ (t.grid c).cold = g.cold)

/-- R118, R124, R126, R127, R134, R136, R138 to R141, R292: a grid alone in its spine begins its next planned pass: an iteration counts in
ICNT, and the next pass begins II pulses on; a pass whose last pulse lies in the wc ends in it, and one that runs over goes on in the next (log 30);
a filler counts in HFILL as its pass ends, the model's reading of R114 beside section 06's and section 07's tables (log 94). With both GLINKs of an
edge issued and both grids idle the edge joins; a join of a joined edge retires once the grids are idle, that of a pre-empted member being so; a GLINK
that parts waits for its spine, or for both grids where the edge is parted, to be idle, then the edge is parted on both sides, in a saved neighbour
too. No byte and no scalar register changes. -/
def Obligations.PassesAndEdges : Prop :=
  (∀ (s : State) (c : CoreId) (r : PassRecord) (rest : List PassRecord), s.spine c = [c] → s.spineHead c = c →
     s.joinedNorth c = false → s.joinedSouth c = false →
     let ii := (s.grid c).front.ii
     let left := 16 * (s.clock + 1) - r.pulse
     let ends := fun (t : State) => (t.grid c).running = none ∧ (t.grid c).history.head? = some r ∧
       (t.core c).hfill = (s.core c).hfill + (if r.kind = .filler then 1 else 0)
     let runsOver := fun (t : State) => (t.grid c).running = some r ∧ (t.grid c).ran = left ∧ (t.core c).hfill = (s.core c).hfill
     let goes := fun (t : State) => exec (.gridPass c) s = .next t ∧ s.quiet t ∧ s.othersSame t c ∧
       (∀ d : CoreId, d ≠ c → t.grid d = s.grid d) ∧ (ii ≤ left → ends t) ∧ (left < ii → runsOver t)
     ((s.grid c).running = none → (s.grid c).plan = r :: rest →
       ∃ t, goes t ∧ (t.grid c).plan = rest ∧ (t.grid c).nextPulse = r.pulse + ii ∧
         (t.grid c).icnt = (s.grid c).icnt + (if r.kind = .iteration then 1 else 0)) ∧
     ((s.grid c).running = some r →
       ∃ t, goes t ∧ (t.grid c).plan = (s.grid c).plan ∧ (t.grid c).nextPulse = (s.grid c).nextPulse ∧
         (t.grid c).icnt = (s.grid c).icnt)) ∧
  (∀ (s : State) (c d : CoreId) (m n : Nat), southOf c = some d →
     let g := s.grid c
     let h := s.grid d
     let joins := fun (t : State) => exec (.spineEdgeJoin c) s = .next t ∧ s.sameMemory t ∧ t.cores = s.cores ∧
       ∀ e : CoreId, e ≠ c → e ≠ d → t.grid e = s.grid e
     (g.edge = some (m, true, false) → h.edge = some (n, false, false) → g.joinSouth = h.joinNorth →
       s.gridIdle c = true → s.gridIdle d = true →
       ∃ t, joins t ∧ t.joinedSouth c = true ∧ (t.grid c).edge = none ∧ (t.grid d).edge = none ∧ (.retirement c .g m) ∈ t.closing ∧
         (.retirement d .g n) ∈ t.closing) ∧
     (g.edge = some (m, true, false) → (s.gridIdle c = false ∨ (s.gridIdle d = false ∧ g.joinSouth = h.joinNorth)) →
       g.joinSouth = true ∨ h.joinNorth = false → exec (.spineEdgeJoin c) s = .next s) ∧
     (g.edge = some (m, true, false) → h.edge = none → g.joinSouth = true → s.gridIdle c = true → (h.joinNorth = true → s.gridIdle d = true) →
       ∃ t, joins t ∧ t.grid c = { g with edge := none } ∧ t.grid d = h ∧ (.retirement c .g m) ∈ t.closing) ∧
     (h.edge = some (n, false, false) → g.edge = none → h.joinNorth = true → s.gridIdle d = true → (g.joinSouth = true → s.gridIdle c = true) →
       ∃ t, joins t ∧ t.grid c = g ∧ t.grid d = { h with edge := none } ∧ (.retirement d .g n) ∈ t.closing)) ∧
  ∀ (s : State) (c d : CoreId) (m : Nat) (south : Bool), (if south then southOf c else northOf c) = some d →
    (s.grid c).edge = some (m, south, true) →
    let idle := (∀ e ∈ s.spine c, s.gridIdle e = true) ∧ ((s.grid c).joins south = false → s.gridIdle d = true)
    (idle → ∃ t, exec (.spineEdgePart c) s = .next t ∧ s.sameMemory t ∧ t.cores = s.cores ∧ (t.grid c).joins south = false ∧
      (t.grid d).joins (!south) = false ∧ t.savedJoins d (!south) = false ∧ (t.grid c).edge = none ∧ (.retirement c .g m) ∈ t.closing ∧
      ∀ e : CoreId, e ≠ c → e ≠ d → t.grid e = s.grid e) ∧
    (¬ idle → exec (.spineEdgePart c) s = .next s)

/-! ## The grid's words -/

/-- R118 to R127, R130 to R133, R136 to R140, R288 to R295: the words of the G queue as they issue: GSET sets a mask; GRUN and GFILL join the
orders; GHALT stops unbounded runs; a swap waits, or faults and has no effect where a member's back board is REJECTED; GLINK waits, or retires
at an edge with no neighbour; GCFG loads; GSTAT samples the status word, whose ADM shows the grid's own orders (log 95), and clears DOV and IGN, and
writes its register as it retires. Words of the head on another member only set IGN. A move word of an element runs only where the pass of its stage
is an iteration; its moves read the pulse's start and go where R122 says, move 1 alone where both go to one place; what has landed stands in its
port, where VP takes a packed lane into what stands there as it lands, which is the model's reading (log 75). A W that is masked reads +0 (R127). -/
def Obligations.GridWordsIssue : Prop :=
  (∀ (s : State) (c : CoreId) (q : QEntry), headWaiting ((s.core c).queue .g) = some q → engineReady s c .g q = true → q.mismatch = none →
     checkTags s c q.mcMask (sourceHandles q) = none → (s.core c).mode ≠ .draining →
     let g := s.grid c
     let retires : Instr := .retirement c .g q.order
     let acts := fun (t : State) (f : QEntry → QEntry) (h : Grid) => exec (.engineIssue c .g) s = .next t ∧ s.quiet t ∧ s.othersSame t c ∧
       t.grid c = h ∧ (∀ d : CoreId, d ≠ c → t.grid d = s.grid d) ∧
       (t.core c).queue .g = ((s.core c).queue .g).map fun x => if x.order = q.order then f { x with status := .issued s.clock } else x
     let ends := fun (h : Grid) => ∃ t, acts t id h ∧ retires ∈ t.closing
     let n := q.sa.toNat % 2 ^ 32
     let headed := fun (P : Prop) => (g.joinNorth = true → ends { g with ign := true }) ∧ (g.joinNorth = false → P)
     let admits := fun (fill : Bool) => ∃ t a, acts t id { g with admits := g.admits ++ [a] } ∧ a.number = q.order ∧ a.fill = fill ∧
       a.left = (if n = 0 then none else some n) ∧ (n ≠ 0 ∨ (s.core c).held ≠ some .taskEnd → a.haltAt = none)
     let swaps := fun (at_ : Option Word) =>
       ((∀ d ∈ s.spine c, (s.grid d).back.status = .ready) → ∃ t, acts t id { g with swap := some (q.order, at_) }) ∧
       ((∃ d ∈ s.spine c, (s.grid d).back.status = .rejected) →
         ∃ t, acts t (fun x => { x with status := .waiting }) g ∧
           ({ code := 0x12, info := 0, slot := q.slot .g, addr := q.pc } : PendingTrap) ∈ (t.core c).traps)
     match q.instr with
     | .gset true _ _ => ends { g with outMask := q.sa.extractLsb' 0 8 }
     | .gset false _ _ => ends { g with inMask := q.sa.extractLsb' 0 8 }
     | .grun _ _ => headed (admits false)
     | .gfill _ _ => headed ((n = 0 → ends g) ∧ (n ≠ 0 → admits true))
     | .ghalt _ => headed (∃ t, acts t id { g with admits := g.admits.map fun a =>
         if a.left = none ∧ a.haltAt = none then { a with haltAt := some s.clock } else a })
     | .gswap _ => headed (swaps none)
     | .gswapat _ _ => headed (swaps (some q.sa))
     | .glink south part _ =>
       ((if south then southOf c else northOf c) = none → ends g) ∧
       ((if south then southOf c else northOf c) ≠ none → ∃ t, acts t id { g with edge := some (q.order, south, part) })
     | .gcfg _ _ =>
       let words := streamLength (q.handleAt 0)
       ∃ t l, acts t id { g with back := { g.back with status := .loading }, load := some l } ∧ l.number = q.order ∧ l.words = [] ∧
         l.left = words ∧ s.clock < l.startAt ∧ l.startAt ≤ s.clock + 24 + q.accessT ∧ (words = 0 → (s.clock + 1, .gcfgLoadEnd c) ∈ t.timers)
     | .gstat _ _ =>
       let now := g.settle (16 * s.clock)
       ∃ (t : State) (w : Word) (k : Nat), acts t (fun x => { x with result := w }) { g with dov := false, ign := false } ∧
         (k, retires) ∈ t.timers ∧ s.clock < k ∧ k ≤ s.clock + 2 ∧
         (g.front.ii ≤ 16 → w.extractLsb' 32 32 = g.icnt ∧ w.extractLsb' 27 5 = 0#5 ∧ w.getLsbD 26 = g.ign ∧ w.getLsbD 25 = g.dov ∧
           w.getLsbD 24 = s.mismatch (s.spine c) ∧ w.getLsbD 23 = g.joinSouth ∧ w.getLsbD 22 = g.joinNorth ∧
           w.extractLsb' 20 2 = BitVec.ofNat 2 (g.front.stages - 1) ∧ w.extractLsb' 15 5 = BitVec.ofNat 5 g.front.ii ∧
           w.extractLsb' 12 3 = (match g.back.status with | .ready => 0#3 | .loading => 1#3 | .rejected => 2#3 | .draining => 3#3) ∧
           w.getLsbD 11 = (g.rp == 1) ∧
           (∀ r : Fin 2, w.extractLsb' (7 + 2 * r.val) 2 =
             (match now.rows[r] with | .empty => 0#2 | .filling => 1#2 | .full => 2#2 | .held => 3#2)) ∧
           (w.getLsbD 6 = g.admits.any fun a => a.supplies s.clock) ∧ w.getLsbD 5 = s.flewNow c ∧ w.extractLsb' 0 5 = 0#5)
     | _ => True) ∧
  (∀ (s : State) (c : CoreId) (q : QEntry), s.Retires c .g q → q.notify = 0 →
     let ends := fun (t : State) => exec (.retirement c .g q.order) s = .next t ∧ s.sameMemory t ∧ s.othersSame t c ∧ s.counted t c .g q ∧
       (∀ d, t.grid d = s.grid d) ∧ (t.core c).preds = (s.core c).preds ∧ (t.core c).handles = (s.core c).handles
     match q.instr with
     | .gstat d _ => d.toNat < 60 → (∀ x ∈ (s.core c).shadows, s.clock < x.landsAt → x.handle = false → x.reg ≠ d.toNat) →
       ∃ t, ends t ∧ ∀ r : SReg, (t.core c).regs[r.toNat] = if r = d ∧ r ≠ 0 then q.result else (s.core c).regs[r.toNat]
     | .gcfg _ _ | .gswap _ | .gswapat _ _ | .grun _ _ | .ghalt _ | .gfill _ _ | .gset _ _ _ | .glink _ _ _ =>
       ∃ t, ends t ∧ (t.core c).regs = (s.core c).regs
     | _ => True) ∧
  (∀ (s : State) (c : CoreId) (now : PassRecord) (hist : List PassRecord) (p : Nat) (e : Fin 128) (w : Word32),
     let run := fun (v : Word32) (s : State) => runWord s c now hist p e v
     let row := e.val / 16
     let r : Fin 8 := Fin.ofNat 8 row
     let west := fun (src : Nat) => src = 7 ∧ e.val % 16 = 0
     let imm := (w.extractLsb' 0 6).toNat
     let s0 := (w.extractLsb' 8 6).toNat
     let d0 := (w.extractLsb' 14 6).toNat
     let s1 := (w.extractLsb' 20 6).toNat
     let d1 := (w.extractLsb' 26 6).toNat
     let live := fun (src dst : Nat) => src ≤ 0x12 ∧ dst ≤ 0x2e
     ((∀ rec, (now :: hist)[(w.extractLsb' 6 2).toNat]? = some rec → rec.kind ≠ .iteration) → run w s = s) ∧
     ∀ rec, (now :: hist)[(w.extractLsb' 6 2).toNat]? = some rec → rec.kind = .iteration →
       let x := (s.grid c).front.elems[e]
       let value : Nat → Word32 := fun src =>
         if src < 4 then (s.grid c).cold[e][(Fin.ofNat 4 src : Fin 4)]
         else if (src = 4 ∧ row = 0 ∧ s.joinedNorth c = false) ∨ (src = 5 ∧ e.val % 16 = 15) ∨ (src = 6 ∧ row = 7 ∧ s.joinedSouth c = false) then 0
         else if src < 8 then x.links[(Fin.ofNat 4 (src - 4) : Fin 4)]
         else if src = 8 then (w.extractLsb' 0 6).signExtend 32
         else if src = 9 then (s.grid c).vitrine[(0 : Fin 2)][(Fin.ofNat 64 imm : Fin 64)]
         else if src = 10 then (s.grid c).vitrine[(1 : Fin 2)][(Fin.ofNat 64 imm : Fin 64)]
         else if src = 11 then
           (match (s.grid c).front.vgate, rec.row with | true, some v => (s.grid c).vitrine[v][(Fin.ofNat 64 imm : Fin 64)] | _, _ => 0)
         else x.results[(Fin.ofNat 7 (src - 12) : Fin 7)]
       let alone := fun (src dst : Nat) =>
         (¬west src → s.moved (run w s) c now rec p e dst (value src)) ∧
         (west src → ∀ v rest, ((s.core c).inBuf[r]).words = v :: rest → (w.extractLsb' 6 2 = 0#2 ∧ now.inMask.getLsbD row = true →
           (s.onCore c fun y => { y with inBuf := y.inBuf.set r { y.inBuf[r] with words := rest, crossed := (y.inBuf[r]).crossed + 1 } }).moved
             (run w s) c now rec p e dst v)) ∧
         (west src → w.extractLsb' 6 2 ≠ 0#2 ∨ now.inMask.getLsbD row = false → s.moved (run w s) c now rec p e dst 0)
       (¬live s0 d0 → ¬live s1 d1 → run w s = s) ∧
       (live s0 d0 → ¬live s1 d1 → alone s0 d0) ∧ (¬live s0 d0 → live s1 d1 → alone s1 d1) ∧
       (live s0 d0 → live s1 d1 → ¬(d0 = d1 ∨ oneUnit d0 d1) → run w s = run (w ||| 0x000fff00) (run (w ||| 0xfff00000) s)) ∧
       (live s0 d0 → live s1 d1 → d0 = d1 ∨ oneUnit d0 d1 → ¬west s0 → run w s = run (w ||| 0x000fff00) s)) ∧
  ∀ (g : Grid) (p : Nat) (f : Flight), g.front.flights = [f] →
    let h := g.landFront p
    let x := g.front.elems[f.elem]
    let y := h.front.elems[f.elem]
    (p < f.at_ → h = g) ∧
    (f.at_ ≤ p → h.front.flights = [] ∧ h.back = g.back ∧ (∀ k, k ≠ f.elem → h.front.elems[k] = g.front.elems[k] ∧ h.cold[k] = g.cold[k]) ∧
      match f.port with
      | .cold r => y = x ∧ h.cold[f.elem] = g.cold[f.elem].set r f.value
      | .link k => y = { x with links := x.links.set k f.value } ∧ h.cold = g.cold
      | .latch k => y = { x with latches := x.latches.set k f.value } ∧ h.cold = g.cold
      | .result k => y = { x with results := x.results.set k f.value } ∧ h.cold = g.cold
      | .compare => y = { x with results := x.results.set (2 : Fin 7) f.value, flag := f.value.getLsbD 0 } ∧ h.cold = g.cold
      | .vpLane lane width => h.cold = g.cold ∧ (width ∈ [4, 8, 16] → lane * width < 32 →
          ∀ b, b < 32 → (y.results[(5 : Fin 7)]).getLsbD b =
            if lane * width ≤ b ∧ b < (lane + 1) * width then f.value.getLsbD (b - lane * width) else (x.results[(5 : Fin 7)]).getLsbD b))

/-! ## The accumulator -/

/-- R77 to R83, R144, R147 to R153, R270, R271, R280, R317, R320, R339: what the words of the M queue do. At its issue SHELF finds its tile on the
current shelf, on the other one, or is to load the other; NORM and ACCZ are charged as they issue; ACCSV takes its image then, and DRAIN its
converted elements in the wc of its issue. As they retire, ACCZ clears the accumulator; NORM raises each row's exponent by its excess, or sets
SP; an MMA applies its blocks in ascending order to every row, and G rises; SHELF fills its shelf; ACCLD loads an image; ACCSV and DRAIN
store every element at its place, DRAIN.add its sum with what stands there. No other array and no other byte changes. -/
def Obligations.MatrixWords : Prop :=
  (∀ (s : State) (c : CoreId) (q : QEntry), headWaiting ((s.core c).queue .m) = some q → engineReady s c .m q = true → q.mismatch = none →
     checkTags s c q.mcMask (sourceHandles q) = none → q.notify = 0 →
     let h := q.handleAt 0
     let l := (s.core c).lease
     let other : Fin 2 := if l.current = 0 then 1 else 0
     let retires : Instr := .retirement c .m q.order
     let starts := fun (t : State) (f : QEntry → QEntry) => exec (.engineIssue c .m) s = .next t ∧ s.quiet t ∧ s.othersSame t c ∧
       (t.core c).queue .m = ((s.core c).queue .m).map fun x => if x.order = q.order then f { x with status := .issued s.clock } else x
     let within := fun (t : State) (bound : Nat) => ∃ n, s.clock < n ∧ n ≤ s.clock + bound ∧ (n, retires) ∈ t.timers
     let crosses := fun (t : State) (inward : Bool) (bits pulses charge : Nat) => ∃ z : Stream,
       (t.array (dieOf c)).streams = (s.array (dieOf c)).streams ++ [z] ∧ z.core = c ∧ z.number = some q.order ∧ z.inward = inward ∧
         z.bits = bits ∧ z.pulses = pulses ∧ z.charge = charge ∧ z.moved = 0 ∧ z.ran = 0 ∧ s.clock ≤ z.startAt ∧
         z.startAt ≤ s.clock + q.accessT + 1 ∧ (charge ≠ 0 → z.startAt = s.clock)
     let finds := fun (t : State) (load : Bool) (k : Fin 2) =>
       starts t fun x => { x with guardTrue := load, performed := !load, z := BitVec.ofNat 64 k.val }
     match q.instr with
     | .norm _ => ∃ t, starts t id ∧ crosses t true 0 0 2097152
     | .accz _ => ∃ t, starts t id ∧ crosses t true 0 0 131072
     | .accld _ _ => ∃ t, starts t id ∧ crosses t true (8 * 532480) 0 0
     | .accsv _ _ => ∃ t, starts t (fun x => { x with performed := true, ops := accsvOps s c q }) ∧ crosses t false (8 * 532480) 0 0
     | .mmaStream _ _ _ _ => ∃ t, starts t id ∧ (mmaEmpty q = false → crosses t true (mmaBits q) (mmaPulses q) 0) ∧
         (mmaEmpty q = true → within t (32 + q.accessT))
     | .mmaShelf _ _ _ => ∃ t, starts t (fun x => { x with z := BitVec.ofNat 64 (if l.tags[l.current] = q.tag then l.current else other).val }) ∧
         (mmaEmpty q = false → crosses t true (mmaBits q) (mmaPulses q) 0) ∧ (mmaEmpty q = true → within t (32 + q.accessT))
     | .drain _ _ _ =>
       let bits := hCount h * codeBits (fmtO q.fmtWord)
       ∃ t, starts t id ∧ (bits ≠ 0 → crosses t false bits 0 0) ∧ (bits = 0 → retires ∈ t.closing)
     | .shelf _ _ =>
       let bits := hDim h 1 * hDim h 0 * efmtBits (hEfmt h)
       (l.tags[l.current] = q.tag → ∃ t, finds t false l.current ∧ within t 4 ∧ (t.core c).lease = l) ∧
       (l.tags[l.current] ≠ q.tag → l.tags[other] = q.tag → ∃ t, finds t false other ∧ within t 4 ∧
         (t.core c).lease = { l with current := other }) ∧
       (l.tags[l.current] ≠ q.tag → l.tags[other] ≠ q.tag → ∃ t, finds t true other ∧
         (t.core c).lease = { l with tags := l.tags.set other q.tag } ∧ (bits ≠ 0 → crosses t true bits 0 0) ∧
         (bits = 0 → retires ∈ t.closing))
     | .lease _ _ => ∃ t, starts t id ∧ (l.state = .active → retires ∈ t.closing) ∧ (t.core c).lease = l
     | _ => True) ∧
  (∀ (s : State) (c : CoreId) (q : QEntry) (add : Bool) (da : HReg) (nt : NtField), q.instr = .drain add da nt → q.status = .issued s.clock →
     q.ops = [] → q.performed = false →
     s.readEntry c .m q = s.onEntry c .m q.order fun x => { x with performed := true, ops := drainOps s c q add }) ∧
  ∀ (s s₀ : State) (c : CoreId) (q : QEntry), s.Retires c .m q → q.notify = 0 →
    let d := dieOf c
    let a := s.array d
    let h := q.handleAt 0
    let w := q.fmtWord
    let performs := fun (t : State) => exec (.retirement c .m q.order) s = .next t ∧ s.othersSame t c ∧ s.counted t c .m q ∧
      (t.core c).regs = (s.core c).regs ∧ (t.core c).preds = (s.core c).preds ∧ (t.core c).handles = (s.core c).handles ∧
      (∀ k, k ≠ d → t.array k = s.array k) ∧
      (t.array d).termWords = a.termWords + (if a.holder = some (localOf c) then 1 else 0)
    let inside := fun (t : State) => performs t ∧ s.sameMemory t ∧ t.tags = s.tags
    let keepsShelves := fun (t : State) => (t.array d).shelves = a.shelves ∧ (t.core c).lease = (s.core c).lease
    match q.instr with
    | .accz _ => ∃ t, inside t ∧ keepsShelves t ∧
        ∀ n : Fin 2048, (t.array d).rows[n] = { m := Vector.replicate 32 0, e := 0x800, g := 0, sp := false }
    | .norm _ => ∃ t, inside t ∧ keepsShelves t ∧ ∀ (n : Fin 2048) (x : Nat),
        let r := a.rows[n]
        let r' := (t.array d).rows[n]
        (∀ j : Fin 32, ((r.m[j]).toInt).natAbs ≤ 2 ^ (30 + x)) →
        (∀ y, y < x → ∃ j : Fin 32, 2 ^ (30 + y) < ((r.m[j]).toInt).natAbs) →
        (2047 < r.e.toInt + x → r' = { r with sp := true, g := 0 }) ∧
        (r.e.toInt + x ≤ 2047 → r'.e.toInt = r.e.toInt + x ∧ r'.g = 0 ∧ r'.sp = r.sp ∧
          ∀ j : Fin 32, nearestEven (r.m[j]).toInt x (r'.m[j]).toInt)
    | .mmaStream _ _ _ _ | .mmaShelf _ _ _ =>
      let nb := q.sa.toNat / 8
      (mmaEmpty q = true → ∃ t, inside t ∧ keepsShelves t ∧ (t.array d).rows = a.rows) ∧
      (mmaEmpty q = false → ∃ t, inside t ∧ keepsShelves t ∧ ∀ n : Fin 2048, ∃ rs : Nat → AccRow,
        rs 0 = a.rows[n] ∧ (t.array d).rows[n] = { rs nb with g := BitVec.ofNat 5 (min 31 ((rs nb).g.toNat + headroomOf nb)) } ∧
        ∀ kb, kb < nb →
          let i := n.val / 8
          let col := fun (j : Fin 32) => 32 * (n.val % 8) + j.val
          let as := (List.range 8).map fun k => mmaA s c q i (8 * kb + k)
          let bs := fun (j : Fin 32) => (List.range 8).map fun k => mmaB s c q (8 * kb + k) (col j)
          let special := i < hDim h 1 ∧ 32 * (n.val % 8) < mmaCols q ∧
            ((∃ x ∈ as, isSpecial x = true) ∨ ∃ j, ∃ x ∈ bs j, isSpecial x = true)
          (special → rs (kb + 1) = { rs kb with sp := true }) ∧
          (¬special → rowTakes (rs kb) (rs (kb + 1)) fun j => blockResult (as.map finiteOr0) ((bs j).map finiteOr0)
            (blockScale s c q (fmtAsc w && decide (i < hDim h 1)) (fmtATab w) i kb nb)
            (blockScale s c q (fmtBsc w && decide (col j < mmaCols q)) (fmtBTab w) (col j) kb nb)))
    | .shelf _ _ =>
      let k : Fin 2 := Fin.ofNat 2 q.z.toNat
      (q.guardTrue = false → ∃ t, inside t ∧ keepsShelves t ∧ (t.array d).rows = a.rows) ∧
      (q.guardTrue = true → ∃ t, inside t ∧ (t.array d).rows = a.rows ∧ (t.core c).lease = { (s.core c).lease with current := k } ∧
        (∀ x : Fin 2, x ≠ k → (t.array d).shelves[x] = a.shelves[x]) ∧
        ∀ (j : Fin 256) (b : Fin 32), ((t.array d).shelves[k])[j.val * 32 + b.val]'(by omega) =
          if j.val < hDim h 1 ∧ b.val < (hDim h 0 * efmtBits (hEfmt h) + 7) / 8
          then s.readQ c q ((rowAddr h j.val 0 0 + b.val) % 2 ^ 64) else 0)
    | .accld _ _ => ∃ t, inside t ∧ keepsShelves t ∧ ∀ n : Fin 2048,
        let r := (t.array d).rows[n]
        let word := BitVec.ofNat 32 (s.loadQ c q (hBase h + (0x80000 + 4 * n.val)) 4)
        (∀ j : Fin 32, r.m[j] = BitVec.ofNat 48 (s.loadQ c q (hBase h + (n.val / 8 * 256 + 32 * (n.val % 8) + j.val) * 8) 8)) ∧
        r.e = word.extractLsb' 0 12 ∧ r.g = word.extractLsb' 16 5 ∧ r.sp = word.getLsbD 31
    | .accsv _ _ => ∀ base, placed c q.mcMask q.pages (hBase h) 532480 [base] → q.ops = accsvOps s₀ c q →
        ∃ t, performs t ∧ t.tags = s.tags ∧ keepsShelves t ∧ (t.array d).rows = a.rows ∧
          (s.sameOutside t fun x => base ≤ x ∧ x < base + 532480) ∧ ∀ n : Fin 2048,
            let r := (s₀.array d).rows[n]
            (∀ j : Fin 32, t.load (base + (n.val / 8 * 256 + 32 * (n.val % 8) + j.val) * 8) 8 = ((r.m[j]).signExtend 64).toNat) ∧
            t.load (base + 0x80000 + 4 * n.val) 4 = r.sp.toNat * 2 ^ 31 + r.g.toNat * 2 ^ 16 + r.e.toNat
    | .drain add _ _ => ∀ at_ : Nat → Nat → Nat,
        let n := efmtBytes (hEfmt h)
        let elem := fun (i j : Nat) => hElem h j i 0 0
        (∀ i j, i < hDim h 1 → j < hDim h 0 → physAddrs c q.mcMask q.pages (elem i j).addr = [at_ i j]) →
        (∀ i j k l, i < hDim h 1 → j < hDim h 0 → k < hDim h 1 → l < hDim h 0 → (i, j) ≠ (k, l) →
          at_ i j + n ≤ at_ k l ∨ at_ k l + n ≤ at_ i j ∨ efmtBits (hEfmt h) = 4 ∧ (elem i j).high ≠ (elem k l).high) →
        (add = true → hEfmt h = fmtO w ∧ (fmtO w = 4 ∨ fmtO w = 5)) → q.ops = drainOps s₀ c q add →
        ∃ t, performs t ∧ keepsShelves t ∧ (t.array d).rows = a.rows ∧ (hAwr h = false → t.tags = s.tags) ∧
          (s.sameOutside t fun x => ∃ i j, i < hDim h 1 ∧ j < hDim h 0 ∧ at_ i j ≤ x ∧ x < at_ i j + n) ∧
          ∀ i j, i < hDim h 1 → j < hDim h 0 →
            let r := (s₀.array d).rows[accRow i j]
            let y := ((r.element (Fin.ofNat 32 j)).mul (bandScale s₀ c w (fmtATab w) i)).mul (bandScale s₀ c w (fmtBTab w) j)
            let z := if add then y.addCode (fmtO w) (fmtRnd w == 1) (s.load (at_ i j) n) else y.code (fmtO w) (fmtRnd w == 1)
            (efmtBits (hEfmt h) ≠ 4 → t.load (at_ i j) n = z % 2 ^ efmtBits (hEfmt h)) ∧
            (efmtBits (hEfmt h) = 4 → (t.loadByte (at_ i j)).toNat / (if (elem i j).high then 16 else 1) % 16 = z % 16)
    | _ => True

/-! ## The array -/

/-- R142 to R144, R284: an array without a holder goes to the competitor of highest priority, on a tie to the first after the last
holder; a term that is over saves where another of equal or higher priority competes, else a new one begins, to which a word beyond the
64 counts; a save stores the whole image
and leaves the lease SUSPENDED; a restore loads it and the lease is ACTIVE. No register and no other byte changes. -/
def Obligations.ArrayLeases : Prop :=
  ∀ (s : State) (d : DieId) (l : Fin 16),
    let c := coreOf d l
    let a := s.array d
    (a.holder = none → s.competes c = true →
      (∀ k, s.competes (coreOf d k) = true → s.priority (coreOf d k) ≤ s.priority c) →
      (∀ k, s.competes (coreOf d k) = true → s.priority (coreOf d k) = s.priority c → (l - a.last - 1).val ≤ (k - a.last - 1).val) →
      ∃ t, exec (.arrayArbitration d) s = .next t ∧ s.quiet t ∧ s.othersSame t c ∧ (t.array d).holder = some l ∧ (t.array d).last = l ∧
        (t.array d).termWords = 0 ∧ (t.array d).termStart = s.clock ∧ (t.array d).rows = a.rows ∧ (t.array d).shelves = a.shelves ∧
        (t.core c).lease.state = if (s.core c).lease.state = .waiting then .active else .restoring) ∧
    (a.holder = some l → termOver s d = true →
      ((∃ k, k ≠ l ∧ s.competes (coreOf d k) = true ∧ s.priority c ≤ s.priority (coreOf d k)) →
        ∃ t, exec (.leaseTermEnd d) s = .next t ∧ s.quiet t ∧ s.othersSame t c ∧ t.arrays = s.arrays ∧
          (t.core c).lease = { (s.core c).lease with state := .saving }) ∧
      ((∀ k, k ≠ l → s.competes (coreOf d k) = true → s.priority (coreOf d k) < s.priority c) →
        ∃ t, exec (.leaseTermEnd d) s = .next t ∧ s.quiet t ∧ t.cores = s.cores ∧
          t.array d = { a with termWords := a.termWords - 64, termStart := s.clock })) ∧
    ∀ base, a.holder = some l →
      (∀ i, i < spillBytes →
        physAddrs c 0 (s.core c).lease.spillPages ((s.core c).lease.spillBase.toNat + i) = [base + i]) →
      ((s.core c).lease.state = .saving →
        ∃ t, exec (.spillSaveEnd d) s = .next t ∧ s.othersSame t c ∧ (t.core c).regs = (s.core c).regs ∧
          (t.core c).lease = { (s.core c).lease with state := .suspended } ∧ t.array d = { a with holder := none } ∧
          (∀ (i : Nat) (b : Byte), (spillImage a)[i]? = some b → t.loadByte (base + i) = b) ∧
          s.sameOutside t fun x => base ≤ x ∧ x < base + spillBytes) ∧
      ((s.core c).lease.state = .restoring → a.wrong = [] →
        ∃ t, exec (.spillRestoreEnd d) s = .next t ∧ s.quiet t ∧ s.othersSame t c ∧ (t.array d).holder = some l ∧
          (t.array d).termWords = 0 ∧ (t.array d).termStart = s.clock ∧
          (t.array d).rows = imageRows (fun o n => s.load (base + o) n) ∧
          (∀ k : Fin 8192, (t.array d).shelves[(0 : Fin 2)][k] = s.loadByte (base + 0x82000 + k.val) ∧
            (t.array d).shelves[(1 : Fin 2)][k] = s.loadByte (base + 0x84000 + k.val)) ∧
          (t.core c).lease.state = if (s.core c).mode = .saving then .saving else .active)

/-! ## Ports -/

/-- R215, R229 to R232, R234, R235, R237, R249, R253: in a guard's first wc receive rings take their wavelengths; the relock to the next slot's
peer is judged 48 wc on; where the slot joined a peer that transmits its control flits land F + 1 wc on, and the announcement of a retraining goes to a
peer that receives. Flits that land clear relay segments, take acknowledged numbers off and bring a marker behind which nothing still waits; a port that
is off takes none; a share holds from the guard's last wc; where a rotation begins each port's monitor looks at the ended
one, and without a corrected flit it asks for nothing. At TSW the loaded bank is active and every port dark; 2,000 wc before the epoch the
ports relock, and at the epoch they run. That a port's counts of received and corrected flits are 0 after TSW is the model's reading (log 35). No byte
and no register changes. -/
def Obligations.GuardsAndCalendars : Prop :=
  (∀ (s : State) (p : PortId) (m : CtlMsg),
     (∀ x, m.stage = 0 → s.slot = some x →
       ∃ t, exec (.guardControlExchange p m) s = .next t ∧ s.quiet t ∧
         ((s.port p).off s.clock = false → x.nextPeer p = true →
           (s.clock + 48, .guardControlExchange p { m with stage := 1 }) ∈ t.timers) ∧
         (s.hears p x m.peer = true →
           (s.clock + x.bank.flight + 1, .guardControlExchange p { m with stage := 2 }) ∈ t.timers) ∧
         (s.tells p x m.peer = true → (s.port p).rtdue = true → (s.gapEnd p).isSome = true → (s.port p).trainUntil = none →
           (t.port p).train = true ∧ ∃ n, (m.peer, n) ∈ (t.port p).announced) ∧
         ∀ n : Fin 1152, t.rings[n] =
           if n.val / 144 = p.val ∧ n.val % 144 / 72 = 1 then { s.rings[n] with serves := (s.rings[n]).wl } else s.rings[n]) ∧
     (m.stage = 1 →
       ∃ t, exec (.guardControlExchange p m) s = .next t ∧ s.onlyPort t p ∧
         t.port p = { s.port p with rtdue := (s.port p).rtdue || m.relockFailed }) ∧
     (m.stage = 2 → (s.port p).off s.clock = true → exec (.guardControlExchange p m) s = .next s) ∧
     (m.stage = 2 → (s.port p).off s.clock = false →
       ∃ t, exec (.guardControlExchange p m) s = .next t ∧ s.quiet t ∧
         (t.port p).relayBusy[m.peer] = ((s.port p).relayBusy[m.peer] && !(m.relayFreed || m.relayFailed)) ∧
         (∀ v, v ∈ (t.port p).unacked[m.peer] ↔ v ∈ (s.port p).unacked[m.peer] ∧ v.toNat ∉ m.acks) ∧
         (∀ g, m.marker = some g → s.markerFree p m.peer g = true → (t.port p).markGot[m.peer] = some g) ∧
         (∀ g, m.marker = some g → s.markerFree p m.peer g = false → (t.port p).markGot = (s.port p).markGot) ∧
         (m.trainAck = true → (s.port p).train = true → m.peer ∈ (t.port p).trainAcks) ∧ (t.port p).queue = (s.port p).queue ∧
         ∀ q, q ≠ p → t.port q = s.port q) ∧
     (∀ v, s.power.nextShare = some v →
       ∃ t, exec .rackShareApply s = .next t ∧ t = { s with power := { s.power with rkshr := v, nextShare := none } }) ∧
     (∀ x, s.slot = some x →
       ∃ t, exec .slotBoundary s = .next t ∧ s.quiet t ∧
         (x.index = 0 → x.offset = 0 → 0 < x.rotation → ∀ q, ((s.port q).rtdue = true → (t.port q).rtdue = true) ∧
           ((s.port q).corrected = 0 → (t.port q).rtdue = (s.port q).rtdue) ∧
           t.port q = { s.port q with rtdue := (t.port q).rtdue, received := 0, corrected := 0 }) ∧
         (x.index ≠ 0 ∨ x.offset ≠ 0 ∨ x.rotation = 0 → t = s))) ∧
  (∀ (s : State),
     (∀ tsw epoch bank, s.fabric.change = some (tsw, epoch, bank) → tsw ≤ s.count → (∀ p, (s.port p).reseq = []) →
       ∃ t, exec .calendarSwitch s = .next t ∧ s.quiet t ∧ t.fabric.active = some { bank with epoch := epoch } ∧
         t.fabric.change = none ∧ t.fabric.switchedAt = s.clock ∧
         (∀ p, (t.port p).phase = .dark ∧ (t.port p).received = 0 ∧ (t.port p).corrected = 0) ∧
         (s.clock + (epoch - s.count) - 2000, .relockWindow) ∈ t.timers ∧ (s.clock + (epoch - s.count), .newEpoch) ∈ t.timers ∧
         ∀ p, ∀ m ∈ (t.port p).queue, m ∈ (s.port p).queue ∧ ∃ j, ({ bank with epoch := epoch } : Bank).peer p j = some m.dest) ∧
     (∀ b, s.fabric.active = some b → s.count + 2000 = b.epoch → (s.port 0).phase = .dark →
       ∃ t, exec .relockWindow s = .next t ∧ t = { s with ports := t.ports } ∧ ∀ p, t.port p = { s.port p with phase := .relock }) ∧
     ∀ b, s.fabric.active = some b → b.epoch ≤ s.count →
       ∃ t, exec .newEpoch s = .next t ∧ t = { s with ports := t.ports } ∧ ∀ p, t.port p = { s.port p with phase := .run })

/-- R236 to R240, R244, R249: a retraining that may start takes its port off for 80,000 wc, and its end clears RTDUE and counts; at a
message boundary the last shed mask, the gating order and the transmit wavelengths take effect and their words retire, but an order that
was dropped or meets a WAKING group gates nothing and counts in DROPS; a gap that has ended goes and its LIDLE retires, and with the last gap an
announcement lapses. -/
def Obligations.PortBoundaries : Prop :=
  ∀ (s : State) (p : PortId),
    let x := s.port p
    (∀ z e, s.slot = some z → s.gapEnd p = some e → z.offset = 0 → x.rtdue = true → (x.train = true ∨ s.portPeers p = []) → x.trainUntil = none →
      (∀ q ∈ s.portPeers p, q ∈ x.trainAcks) → s.clock + z.bank.flight + 1 + 80000 ≤ e →
      ∃ t, exec (.retrainStart p) s = .next t ∧ s.quiet t ∧
        t.port p = { x with train := true, trainUntil := some (s.clock + z.bank.flight + 1 + 80000) } ∧
        (s.clock + z.bank.flight + 1 + 80000, .retrainEnd p) ∈ t.timers ∧ ∀ q, q ≠ p → t.port q = s.port q) ∧
    (∀ e, x.trainUntil = some e → e ≤ s.clock →
      ∃ t, exec (.retrainEnd p) s = .next t ∧ s.onlyPort t p ∧ t.port p =
        { x with trainUntil := none, train := false, announced := [], trainAcks := [], rtdue := false, rtcnt := x.rtcnt + 1 }) ∧
    (∀ o, x.busyUntil ≤ s.clock → x.gates = [o] →
      ∃ t, exec (.messageBoundary p) s = .next t ∧ s.quiet t ∧ (t.port p).gates = [] ∧ (t.port p).sheds = [] ∧
        (∀ ms m, x.sheds = ms ++ [m] → (t.port p).shed = m.1) ∧ (x.sheds = [] → (t.port p).shed = x.shed) ∧
        (∀ m ∈ x.sheds, (.retirement m.2.1 .l m.2.2) ∈ t.closing) ∧ (∀ w, o.owner = some w → (.retirement w.1 .l w.2) ∈ t.closing) ∧
        (o.dropped = false → (∀ k : Fin 16, o.mask.getLsbD k.val = true → x.groups[k] ≠ .waking) →
          (t.port p).drops = x.drops ∧ ∀ k : Fin 16, (t.port p).groups[k] =
            if o.mask.getLsbD k.val = true ∧ x.groups[k] = .on then .gated else x.groups[k]) ∧
        (o.dropped = true ∨ (∃ k : Fin 16, o.mask.getLsbD k.val = true ∧ x.groups[k] = .waking) →
          (t.port p).groups = x.groups ∧ (t.port p).drops = x.drops + 1 ∧ (t.port p).lastDrop = o.mask) ∧
        (∀ n : Fin 1152, t.rings[n] =
          if n.val / 144 = p.val ∧ n.val % 144 / 72 ≠ 1 then { s.rings[n] with serves := (s.rings[n]).wl } else s.rings[n]) ∧
        ∀ q, q ≠ p → t.port q = s.port q) ∧
    ∃ t, exec (.idleGapEnd p) s = .next t ∧ s.quiet t ∧ (t.port p).gaps = x.gaps.filter (fun g => decide (s.clock < g.2.1)) ∧
      (∀ g ∈ x.gaps, g.2.1 ≤ s.clock → ∀ o, g.2.2 = some o → (.retirement o.1 .l o.2) ∈ t.closing) ∧
      (t.gapEnd p = none → x.trainUntil = none → (t.port p).train = false) ∧ ∀ q, q ≠ p → t.port q = s.port q

/-! ## Messages -/

/-- R98, R172, R209 to R213, R216 to R219, R223, R238: the head of a joined peer's queue that is not held and fits goes out; its L word retires with
its last flit, it lands F + 1 wc after that flit leaves, behind every lower-numbered message of its sequence, then its bytes come off PEND and its
number is acknowledged. A message that has
come whole and in its order lands: a SEND's bytes, with the tags of its lines, a SENDRED's elements combined with what stands there; a
PULL's request, behind the cores' words of its wc, queues its bytes back to its source. -/
def Obligations.Messages : Prop :=
  (∀ (s : State) (p : PortId),
     let x := s.port p
     (∀ q z m, s.dataSlot p = some (q, z) → x.busyUntil ≤ s.clock → x.trainUntil = none → x.peerIsOff q z = false → x.relays = [] →
       x.queue.find? (fun n => n.dest == q) = some m → m.held = false → x.inWindow m = true → s.ownerFree m = true →
       let w := s.portWidth p
       let X := ((1 + (m.bytes + 63) / 64) * 512 + w - 1) / w
       0 < w → s.clock + X ≤ z.guardAt →
       ∃ t, exec (.messageAdmission p) s = .next t ∧ s.quiet t ∧
         (t.port p).queue = x.queue.filter (fun n => n.number != m.number) ∧ (t.port p).busyUntil = s.clock + X ∧
         (s.clock + X + z.bank.flight, .messageLanding p (.outbound m.number)) ∈ t.timers ∧
         (∃ f, (t.port p).flying = x.flying ++ [f] ∧ f.number = m.number ∧ f.dest = m.dest ∧ f.bytes = m.bytes ∧
           f.landsAt = s.clock + X + z.bank.flight ∧ f.via = none) ∧
         (m.cls ≠ .f → (t.port p).unacked[m.dest] = x.unacked[m.dest] ++ [m.seq]) ∧
         (∀ o, m.owner = some o → m.body = .data → m.last = true →
           if X ≤ 1 then (.retirement o.1 .l o.2) ∈ t.closing else (s.clock + X - 1, .retirement o.1 .l o.2) ∈ t.timers) ∧
         ∀ r, r ≠ p → t.port r = s.port r) ∧
     ∀ m k, x.flying.find? (fun n => n.number == k) = some m → m.body = .data → m.via = none → m.cls ≠ .f →
       ((∃ n ∈ x.flying, n.precedes m = true) →
         exec (.messageLanding p (.outbound k)) s = .next (s.timer (s.clock + 1) (.messageLanding p (.outbound k)))) ∧
       ((∀ n ∈ x.flying, n.precedes m = false) → ∃ t, exec (.messageLanding p (.outbound k)) s = .next t ∧ s.quiet t ∧ (∀ n ∈ (t.port p).flying, n.number ≠ k) ∧
         (t.port p).unacked[m.dest] = (x.unacked[m.dest]).erase m.seq ∧ (t.port p).queue = x.queue ∧
         (∀ (i : Nat) (g : Graph), s.sched.graphs[i]? = some g → m.graph = some g.id →
           ∃ h : Graph, t.sched.graphs[i]? = some h ∧ h.pend = g.pend - m.bytes) ∧
         ∀ r, r ≠ p → t.port r = s.port r)) ∧
  (∀ (s : State) (p : PortId) (m : InboundMsg) (at_ : Nat → Nat), m.notify = 0 → (s.port p).reseq = [] → m.width = 0 → m.landed = 0 →
     (m.cls ≠ .f → m.seq = (s.port p).seqIn[m.source]) →
     let n := m.payload.length
     let ends := fun (t : State) => exec (.messageLanding p (.inbound m)) s = .next t ∧ s.sameTasks t ∧
       (t.port p).seqIn[m.source] = (s.port p).seqIn[m.source] + (if m.cls = .f then 0 else 1) ∧ ∀ r, r ≠ p → t.port r = s.port r
     (m.kind = .data → n ≠ 0 → (∀ k, k < n → msgPlace m k = some (at_ k)) →
       (∀ i j, i < n → j < n → at_ i = at_ j → i = j) →
       ∃ t, ends t ∧ (∀ (k : Nat) (b : Byte), m.payload[k]? = some b → t.loadByte (at_ k) = b) ∧
         (s.sameOutside t fun a => ∃ k, k < n ∧ at_ k = a) ∧
         (∀ l g, m.stamp = some g → m.last = true → m.addr = 0 → ((∃ k, k < n ∧ scratchLine (at_ k) = some l) → t.tagOf l = g) ∧
           ((∀ k, k < n → scratchLine (at_ k) ≠ some l) → t.tagOf l = s.tagOf l)) ∧
         (m.stamp = none → t.tags = s.tags)) ∧
     (∀ op efmt, m.kind = .reduce op efmt → n ≠ 0 → 4 ≤ efmt.toNat → efmt.toNat ≤ 9 →
       let w := efmtBytes efmt.toNat
       (∀ k, k < n / w → msgPlace m (k * w) = some (at_ k)) →
       (∀ i j, i < n / w → j < n / w → i ≠ j → at_ i + w ≤ at_ j ∨ at_ j + w ≤ at_ i) →
       ∃ t, ends t ∧
         (∀ k, k < n / w → t.load (at_ k) w =
           reduceElem op efmt.toNat (s.load (at_ k) w) (leNat ((m.payload.drop (k * w)).take w)) % 256 ^ w) ∧
         s.sameOutside t fun a => ∃ k, k < n / w ∧ at_ k ≤ a ∧ a < at_ k + w) ∧
     (∀ bytes cls ok, m.kind = .pullRequest bytes cls ok →
       (∃ t, ends t ∧ s.sameMemory t ∧ (t.port p).queue = (s.port p).queue ∧ (.messageLanding p (.landed m)) ∈ t.closing) ∧
       ∃ t, exec (.messageLanding p (.landed m)) s = .next t ∧ s.onlyPort t p ∧ ∃ ms : List Msg,
         (t.port p).queue = (s.port p).queue ++ ms ∧ (ms.map Msg.bytes).sum = bytes ∧
           ∀ r ∈ ms, r.dest = m.source ∧ r.cls = cls ∧ r.bytes ≤ 16384 ∧ r.places = m.places ∧ r.relayOk = ok))

/-! ## Optics and power -/

/-- R247, R248, R250 to R253, R259: a monitor interval gives every ring a reading within its range, 0 for a ring of WL 16; a write of a
ring register sets HTR and WL and nothing else; a droop of a low-rail cluster counts, injects for at most 128 wc, and forces the cluster
where its 64 wc are spent; an injection that ends while the droop lasts forces it, one that ends by recovery does not; a window's end
clears forces and counters, takes the owner's values, and moves at most the one cluster that R252 names. That a cluster steps under the
forces of the window that has ended, and that the step comes before forces and counters clear, is the model's reading (log 64); a reading
within its range is the part's own (log 5). -/
def Obligations.PowerEvents : Prop :=
  ∀ (s : State) (n : Fin 1152) (v : Word) (k : Fin 16),
    let p := s.power
    (∃ t, exec .monitorIntervalEnd s = .next t ∧ t = { s with rings := t.rings } ∧
      ∀ m : Fin 1152, t.rings[m] = { s.rings[m] with pd := (t.rings[m]).pd } ∧ -9011 ≤ ((t.rings[m]).pd).toInt ∧
        ((t.rings[m]).pd).toInt ≤ 9011 ∧ ((s.rings[m]).wl = 16 → (t.rings[m]).pd = 0)) ∧
    (∃ t, exec (.orngWrite n v) s = .next t ∧ t = { s with rings := t.rings } ∧ (∀ m : Fin 1152, m ≠ n → t.rings[m] = s.rings[m]) ∧
      t.rings[n] = { s.rings[n] with
        htr := v.extractLsb' 0 12, htrAt := s.clock - 1, wl := if (v.extractLsb' 16 5).toNat ≤ 16 then v.extractLsb' 16 5 else 16 }) ∧
    (p.railHigh k.val = false → p.injecting[k] = none →
      ∃ t, exec (.droop k) s = .next t ∧ s.quiet t ∧ t.power.drpev[k] = p.drpev[k] + 1 ∧
        (p.injected[k] < 64 → t.power.injecting[k] = some s.clock ∧ t.power.forced = p.forced ∧
          ∃ e, s.clock < e ∧ e ≤ s.clock + 128 ∧ (e, .droopInjectionStop k false) ∈ t.timers) ∧
        (64 ≤ p.injected[k] → t.power.forced.getLsbD k.val = true ∧ t.power.drpfrc[k] = p.drpfrc[k] + 1)) ∧
    (∀ b w, p.injecting[k] = some w → (b = true ∨ w + 128 ≤ s.clock) →
      ∃ t, exec (.droopInjectionStop k b) s = .next t ∧ s.quiet t ∧ t.power.injecting[k] = none ∧
        t.power.drpfrc[k] = p.drpfrc[k] + (if b then 0 else 1) ∧ (b = true → t.power.forced = p.forced) ∧
        (b = false → t.power.forced.getLsbD k.val = true)) ∧
    ∃ t, exec .warmBudgetWindowEnd s = .next t ∧ s.sameTasks t ∧ t.power.forced = 0 ∧ (∀ j : Fin 16, t.power.injected[j] = 0) ∧
      t.power.pwbud = p.nextPwbud.getD p.pwbud ∧ t.power.rklim = p.nextRklim.getD p.rklim ∧ t.power.nextPwbud = none ∧
      (let draw := t.power.pwarm.toNat
       let e := if p.rklim = 0 then p.pwbud.toNat else min p.pwbud.toNat p.rkshr.toNat
       let loose := fun (j : Nat) => p.railHigh j && !p.forced.getLsbD j
       (e < draw → ∀ j, j < 16 → loose j = true → (∀ i, j < i → i < 16 → loose i = false) →
         t.power.stepped = p.stepped ||| BitVec.ofNat 16 (2 ^ j)) ∧
       (e < draw → (∀ j, j < 16 → p.railHigh j = false) → t.power.stepped = p.stepped ∧ t.power.ovr = true ∧
         (p.ovr = false → s.recorded t 6 0xff 0xff) ∧ (p.ovr = true → s.sameMemory t)) ∧
       (draw ≤ e → t.power.ovr = false ∧ s.sameMemory t) ∧
       (draw + 128 ≤ e → ∀ j, j < 16 → p.stepped.getLsbD j = true → (∀ i, i < j → p.stepped.getLsbD i = false) →
         t.power.stepped = p.stepped &&& ~~~BitVec.ofNat 16 (2 ^ j)) ∧
       (draw ≤ e → e < draw + 128 → t.power.stepped = p.stepped))

/-! ## The owner window -/

/-- R257, R258: a claim with no owner makes its master the owner, and the controller wins a tie of one wc; a claim in time by the
target of a hand-over completes it; any other is discarded. The owner's OHAND releases, or names a target, which lapses. That the
host's claim stands only when its wc has ended, with the writes that wait for it, and every other at once, is the model's reading (log 91);
that every value but 0 names a target that lapses, 3 and the owner's own number too, is another (log 70). -/
def Obligations.OwnerElection : Prop :=
  ∀ (s : State) (m : Master) (v : Word),
    let o := s.owner
    let discarded : State := { s with owner := { o with orej := o.orej + 1 } }
    (o.own = 0 → o.claimAt = none →
      exec (.oclaim .host) s = .next { s with owner := { o with claimAt := some s.clock } } ∧
      exec (.oclaim .controller) s = .next { s with owner := { o with own := 2 } }) ∧
    (o.own = 0 → o.claimAt ≠ none →
      exec (.oclaim .controller) s = .next { s with owner :=
        { o with own := 2, claimAt := none, waits := [], orej := o.orej + 1 + BitVec.ofNat 64 o.waits.length } } ∧
      exec (.oclaim .host) s = .next discarded ∧
      exec (.ohand .host v) s = .next { s with owner := { o with waits := o.waits ++ [.ohand .host v] } }) ∧
    (∀ d, o.own ≠ 0 → o.handDeadline = some d → o.ohand = masterCode m → o.own ≠ masterCode m → s.clock ≤ d →
      exec (.oclaim m) s = .next { s with owner := { o with ohand := 0, handDeadline := none, own := masterCode m } }) ∧
    (o.own ≠ 0 → (∀ d, o.handDeadline = some d → o.ohand = masterCode m → o.own ≠ masterCode m → d < s.clock) →
      exec (.oclaim m) s = .next discarded) ∧
    (o.own ≠ masterCode m → (m = .host → o.own = 0 → o.claimAt = none) → exec (.ohand m v) s = .next discarded) ∧
    (o.own = masterCode m → v.extractLsb' 0 2 = (0 : BitVec 2) →
      exec (.ohand m v) s = .next { s with owner := { o with ohand := 0, handDeadline := none, own := 0 } }) ∧
    (o.own = masterCode m → v.extractLsb' 0 2 ≠ (0 : BitVec 2) →
      ∃ t, exec (.ohand m v) s = .next t ∧ s.quiet t ∧ t.owner.own = o.own ∧ t.owner.ohand = v.extractLsb' 0 2 ∧
        t.owner.handDeadline = some (s.clock + 2000000) ∧ (s.clock + 2000001, .handoverTimeout) ∈ t.timers) ∧
    (∀ d, o.handDeadline = some d → d < s.clock →
      exec .handoverTimeout s = .next { s with owner := { o with ohand := 0, handDeadline := none } }) ∧
    (o.claimAt ≠ none → s.settleOwner =
      { s with agenda := s.agenda ++ o.waits, owner := { o with own := 1, claimAt := none, waits := [] } })

/-- R94, R97, R113, R197, R204, R230, R235, R257, R259: each of these writes completes, in every state, when its master is the owner, and
changes no byte. PTBR_WRITE drops every unpinned translation and takes no RES bit; HBUDGET_WRITE waits for a window, and the register gives
all its bits back as written (log 42); the first BSWITCH makes the bank active, and a later one fixes TSW, the first slot boundary of the
active calendar at or after the count and after this wc, and the epoch; OSTOP ends the graphs of a colophon with STATUS 4; OPRE pre-empts
the masked cores that run or resume a task, and leaves an earlier order's cause, but for a heat pause's (log 92); RTSET sets RTDUE. Of a
master that is not the owner each is discarded and counts in OREJ; the host's waits while its claim does (log 91). -/
def Obligations.OwnerRegisters : Prop :=
  ∀ (s : State) (m : Master) (v : Word),
    let o := s.owner
    let claims := m = .host ∧ o.own = 0 ∧ o.claimAt ≠ none
    (o.own ≠ masterCode m →
      ∀ i ∈ ([.ptbrWrite m v, .hbudgetWrite m v, .bswitch m v, .ostop m v, .opre m v, .rtset m v, .fwgo m v] : List Instr),
        (¬claims → exec i s = .next { s with owner := { o with orej := o.orej + 1 } }) ∧
        (claims → exec i s = .next { s with owner := { o with waits := o.waits ++ [i] } })) ∧
    (o.own = masterCode m →
      (∃ t, exec (.ptbrWrite m v) s = .next t ∧ s.quiet t ∧ t.owner = { o with ptbr := v &&& 0x000ffffffffff000 } ∧
        ∀ c, (∀ e ∈ (t.core c).tlb, e.stale = true ∧ 0 < e.pins) ∧
          ∀ e ∈ (s.core c).tlb, 0 < e.pins → { e with stale := true } ∈ (t.core c).tlb) ∧
      exec (.hbudgetWrite m v) s =
        .next { s with meter := { s.meter with written := v, pending := s.meter.pending ++ [(v.toNat, s.clock)] } } ∧
      (s.fabric.active = none →
        ∃ t b, exec (.bswitch m v) s = .next t ∧ s.quiet t ∧ t.fabric.active = some b ∧
          b.slen = (s.fabric.bregs[0]).toNat % 2 ^ 32 ∧ b.guard = (s.fabric.bregs[1]).toNat % 2 ^ 16 ∧
          b.slots = (s.fabric.bregs[2]).toNat % 2 ^ 6 ∧ b.flight = (s.fabric.bregs[3]).toNat % 2 ^ 16 ∧
          b.epoch = (s.fabric.bregs[4]).toNat) ∧
      (∀ b, s.fabric.active = some b → 0 < b.slen →
        let boundary := fun (x : Nat) => v.toNat ≤ x ∧ s.count < x ∧ b.epoch ≤ x ∧ (x - b.epoch) % b.slen = 0
        ∃ t tsw bank, exec (.bswitch m v) s = .next t ∧ s.quiet t ∧ t.fabric.active = some b ∧ boundary tsw ∧
          (∀ x, boundary x → tsw ≤ x) ∧
          t.fabric.change = some (tsw, max (s.fabric.bregs[4]).toNat (tsw + 20000), bank) ∧
          bank.slen = (s.fabric.bregs[0]).toNat % 2 ^ 32 ∧ bank.slots = (s.fabric.bregs[2]).toNat % 2 ^ 6 ∧
          t.fabric.rsw = BitVec.ofNat 64 tsw ∧ (s.clock + (tsw - s.count), .calendarSwitch) ∈ t.timers) ∧
      (∃ t, exec (.ostop m v) s = .next t ∧ s.sameMemory t ∧ t.owner.ostop = v ∧
        ∀ (i : Nat) (g : Graph), s.sched.graphs[i]? = some g → g.colophon = v → g.ending = none →
          ∃ h : Graph, t.sched.graphs[i]? = some h ∧
            h.ending = some { status := 4, code := 0, addr := 0, info := 0, node := 0, core := 0, serial := 0 }) ∧
      (∃ t, exec (.opre m v) s = .next t ∧ s.quiet t ∧ t.owner.opre = v ∧
        ∀ c : CoreId, (t.core c).preempt =
          if v.getLsbD c.val = true ∧ ((s.core c).mode = .running ∨ (s.core c).mode = .resuming) ∧
            ((s.core c).preempt = none ∨ heatPauses (s.core c) = true) then some 3
          else (s.core c).preempt) ∧
      ∃ t, exec (.rtset m v) s = .next t ∧ t = { s with ports := t.ports } ∧
        ∀ p, t.port p = { s.port p with rtdue := (s.port p).rtdue || v.getLsbD p.val })

/-- R5, R6, R206, R252, R253, R257, R259, R261: OWNER_REGISTER_WRITE completes. The owner's write of a register reads back as written,
without its RES bits (log 42), and no byte and no core changes; PWBUD and RKLIM wait for the window; a CALBANK entry is a byte of its own.
Any master writes ANONCE, whose place in the window is the model's (log 88). A write at the offset of a register that has a row of its own
acts as that row, OCLAIM and AGO among them (log 66). Another master's write of any other register is discarded and counts in OREJ; the
host's waits while its claim does (log 91). -/
def Obligations.OwnerWrites : Prop :=
  ∀ (s : State) (m : Master) (off : BitVec 14) (v : Word),
    let o := s.owner
    let claims := m = .host ∧ o.own = 0 ∧ o.claimAt ≠ none
    let registers : List (Nat × Word) :=
      [(0x108, -1), (0x118, 0xffff), (0x120, 0xffff), (0x128, 0xffff), (0x130, 0x1f3f), (0x138, -1), (0x180, -1), (0x188, -1),
       (0x198, -1), (0x1200, 0xffffffff), (0x1208, 0xffff), (0x1210, 0x3f), (0x1218, 0xffff), (0x1220, -1), (0x1228, 0x7f),
       (0x2400, -1), (0x2408, -1), (0x2410, -1)]
    let rows : List (Nat × Instr) :=
      [(0x8, .oclaim m), (0x10, .ohand m v), (0x100, .ptbrWrite m v), (0x110, .hbudgetWrite m v), (0x140, .ostop m v), (0x148, .opre m v),
       (0x1230, .bswitch m v), (0x1238, .rtset m v), (0x2040, .ago m), (0x2418, .fwgo m v)]
    (∃ t, exec (.ownerRegisterWrite m off v) s = .next t) ∧
    (∀ i, (off.toNat, i) ∈ rows → exec (.ownerRegisterWrite m off v) s = exec i s) ∧
    (o.own ≠ masterCode m → (off.toNat < 0x2000 ∨ 0x2040 ≤ off.toNat) → (∀ i, (off.toNat, i) ∉ rows) →
      (¬claims → exec (.ownerRegisterWrite m off v) s = .next { s with owner := { o with orej := o.orej + 1 } }) ∧
      (claims → exec (.ownerRegisterWrite m off v) s =
        .next { s with owner := { o with waits := o.waits ++ [.ownerRegisterWrite m off v] } })) ∧
    (0x2000 ≤ off.toNat → off.toNat < 0x2040 →
      ∃ t, exec (.ownerRegisterWrite m off v) s = .next t ∧ t = { s with owner := t.owner } ∧ t.ownerValue off.toNat = some v.toNat) ∧
    (o.own = masterCode m →
      (∀ mask, (off.toNat, mask) ∈ registers → ∃ t, exec (.ownerRegisterWrite m off v) s = .next t ∧ s.quiet t ∧ t.cores = s.cores ∧
        t.ownerValue off.toNat = some (v &&& mask).toNat ∧ t.power.pwbud = s.power.pwbud ∧ t.power.rklim = s.power.rklim) ∧
      (0x1000 ≤ off.toNat → off.toNat < 0x1200 → ∃ t, exec (.ownerRegisterWrite m off v) s = .next t ∧
        t = { s with fabric := t.fabric } ∧ t.ownerValue off.toNat = some (v &&& 0xbf).toNat ∧
        ∀ j, 0x1000 ≤ j → j < 0x1200 → j ≠ off.toNat → t.ownerValue j = s.ownerValue j))

/-! ## Services -/

/-- R256, R260 to R264: AGO takes what is to be signed and is done within 40,000,000 wc; a firmware image that passes its checks runs from
the next reset, and one that does not writes a record; an alarm erases the key within 2,000 wc and ends the session as ALPOL says; a
corrected or retried error only counts, and one that is delivered writes a record of its type, at its site, and changes no other byte but
those it came wrong in; a host's access to DEV or HOST reads what stands there, or lands. Which bytes come wrong, 8 aligned bytes of memory
for an error of ECC and a flit of 64 for one of the package fabric, is the model's choice (log 89). -/
def Obligations.ServicesAndErrors : Prop :=
  (∀ (s : State) (m : Master) (v : Word) (cause : AlarmCause),
     let o := s.owner
     (o.busy = true → exec (.ago m) s = .next s) ∧
     (o.busy = false → ∃ t n, exec (.ago m) s = .next t ∧ s.quiet t ∧ s.clock < n ∧ n ≤ s.clock + 40000000 ∧
       (n, .attestationDone) ∈ t.timers ∧ t.owner.busy = true ∧ t.owner.done = false ∧
       t.owner.asked = o.anonce.toList ++ o.meas.toList ++ leBytes 8 o.loglen.toNat) ∧
     (o.busy = true → ∃ t, exec .attestationDone s = .next t ∧ s.quiet t ∧ t.owner.busy = false ∧
       (o.nokey = true → t.owner.aresp = o.aresp ∧ t.owner.done = o.done) ∧ (o.nokey = false → t.owner.done = true)) ∧
     (o.own = masterCode m → ∃ t, exec (.fwgo m v) s = .next t ∧ s.sameTasks t ∧
       (imageAccepted s.free o.fwaddr = true → t.owner.fwNext = some o.fwaddr ∧ s.sameMemory t) ∧
       (imageAccepted s.free o.fwaddr = false → t.owner.fwNext = o.fwNext ∧ s.recorded t 9 0xff 0xff)) ∧
     ((∀ d, cause = .coldDie d → o.sess.getLsbD 0 = true) → ∃ t, exec (.alarm cause) s = .next t ∧ s.sameTasks t ∧
       s.recorded t 7 (match cause with | .coldDie d => d.val | _ => 0xff) 0xff ∧
       t.owner.sess = (if o.alpol.getLsbD 1 then 0 else o.sess) ∧
       (o.alpol.getLsbD 0 = true → o.eraseAt = none → ∃ n, t.owner.eraseAt = some n ∧ s.clock < n ∧ n ≤ s.clock + 2000) ∧
       (o.alpol.getLsbD 0 = false → t.owner.eraseAt = o.eraseAt)) ∧
     ∀ d, cause = .coldDie d → o.sess.getLsbD 0 = false → exec (.alarm cause) s = .next s) ∧
  (∀ (s : State) (site : ErrorSite) (c : CoreId) (d : DieId) (a n : Nat) (bs : List Byte),
     let o := s.owner
     let die := match site.die with | some x => x.val | none => 0xff
     let unit := match site.unit with | some x => x.val | none => 0xff
     let at_ := site.addr.toNat
     let inside := fun (n : Nat) => a + n ≤ devSize ∨ hostBase ≤ a ∧ a + n ≤ hostBase + hostSize
     exec (.eccError true site) s = .next { s with owner := { o with ecccnt := o.ecccnt + 1 } } ∧
     (∃ t, exec (.flitError true site) s = .next t ∧ t = { s with owner := { o with feccnt := o.feccnt + 1 }, ports := t.ports } ∧
       ∀ p : PortId, t.port p =
         { s.port p with corrected := (s.port p).corrected + if site.unit.map (fun x => x.val) = some p.val then 1 else 0 }) ∧
     exec .cxlLinkError s = .next { s with owner := { o with rtycnt := o.rtycnt + 1 } } ∧
     (∃ t u, exec (.eccError false site) s = .next t ∧ s.sameTasks t ∧ s.recorded u 1 die unit ∧ t.owner = u.owner ∧
       u.sameOutside t fun x => at_ / 8 * 8 ≤ x ∧ x < at_ / 8 * 8 + 8) ∧
     (∀ x, site.unit = some x → ∃ t, exec (.flitError false site) s = .next t ∧ s.sameTasks t ∧
       s.recorded t 2 (if x.val < 8 then x.val / 2 else die) unit) ∧
     (site.unit = none → ∃ t u, exec (.flitError false site) s = .next t ∧ s.sameTasks t ∧ s.recorded u 2 die unit ∧ t.owner = u.owner ∧
       u.sameOutside t fun x => at_ / 64 * 64 ≤ x ∧ x < at_ / 64 * 64 + 64) ∧
     (∃ t, exec (.crossingParityError c) s = .next t ∧ s.sameTasks t ∧ t.owner.parcnt = o.parcnt + 1 ∧
       s.recorded t 3 (c.val / 16) (c.val % 16)) ∧
     (s.owner.mstat.getLsbD 2 = true → ∃ t, exec (.coldExcursion d) s = .next t ∧ s.sameTasks t ∧ s.recorded t 8 d.val 0xff) ∧
     (inside n → exec (.hostMemoryAccess (.read a n)) s =
       .next { s with hostData := (List.range n).map fun k => s.loadByte (a + k) }) ∧
     (inside bs.length → ∃ t, exec (.hostMemoryAccess (.write a bs)) s = .next t ∧ s.sameTasks t ∧ t.cores = s.cores ∧
       (∀ (i : Nat) (b : Byte), bs[i]? = some b → t.loadByte (a + i) = b) ∧ s.sameOutside t fun x => a ≤ x ∧ x < a + bs.length))

/-- R14, R77, R242, R245, R255, R260, R261, R265: power-on and reset leave the reset values and no memory but the host's, and a reset lets
the cycle counter run on; an image that passes its checks sets FW, and its DRAM step, which zeroes DEV, is to come; one that fails leaves
no step done. Once the cold dies are ready COLD is set; the optics step then sets OPT and turns every transmit group ON, and READY follows
once a bank is loaded. That the scratchpads keep their bytes over a reset, and that power-on sets the cycle counter to 0, are the model's
choices (log 39, log 4), and so are the 0 that unlisted bytes read, the clear tags and what registers hold for which the manual gives no reset value (log
2, log 3); which event sets which bit of MSTAT is its reading (log 68). -/
def Obligations.BringUp : Prop :=
  (∀ (s : State),
     let o := s.owner
     let accepted := imageAccepted (if o.fwNext.isSome then o.fwNextKey else o.fwKey) (o.fwNext.getD o.fwAddr)
     let fresh := fun (t : State) => t.cores = State.reset.cores ∧ t.grids = State.reset.grids ∧ t.arrays = State.reset.arrays ∧
       t.ports = State.reset.ports ∧ t.rings = State.reset.rings ∧ t.power = State.reset.power ∧ t.sched = State.reset.sched ∧
       t.meter = State.reset.meter ∧ t.owner.own = 0 ∧ t.owner.mstat = (if accepted then 1 else 0) ∧
       (accepted = true → ∃ n, t.owner.stepAt = some (n, 1) ∧ t.clock < n) ∧ (accepted = false → t.owner.stepAt = none)
     (∃ t, exec .powerOn s = .next t ∧ t.clock = 0 ∧ fresh t ∧ t.tags = [] ∧
       ∀ a, t.loadByte a = if hostBase ≤ a then s.loadByte a else 0) ∧
     ∃ t, exec .moduleReset s = .next t ∧ t.clock = s.clock ∧ fresh t ∧ t.tags = s.tags ∧
       ∀ a, t.loadByte a = if devSize ≤ a then s.loadByte a else 0) ∧
  (∀ (s : State), s.owner.mstat.getLsbD 1 = true → s.owner.mstat.getLsbD 2 = false →
     ∃ t n, exec .coldReady s = .next t ∧ s.quiet t ∧ t.cores = s.cores ∧ t.owner.mstat = s.owner.mstat ||| 4 ∧
       t.owner.stepAt = some (n, 3) ∧ s.clock < n) ∧
  ∀ (s : State) (at_ : Nat), at_ ≤ s.clock →
    let t := s.bringUp
    (s.owner.stepAt = some (at_, 1) → t.owner.mstat = s.owner.mstat ||| 2 ∧ t.owner.stepAt = none ∧ t.cores = s.cores ∧
      ∀ a, t.loadByte a = if devSize ≤ a then s.loadByte a else 0) ∧
    (s.owner.stepAt = some (at_, 3) → s.quiet t ∧ t.cores = s.cores ∧ t.owner.mstat.getLsbD 3 = true ∧ t.owner.stepAt = none ∧
      (s.fabric.active.isSome = true → t.owner.mstat.getLsbD 4 = true) ∧ ∀ (p : PortId) (k : Fin 16), (t.port p).groups[k] = .on)

/-! ## Decoding and the step -/

/-- R18, R40, R48 to R54, R224: no bit of an encoding is dropped: a well-formed word, or a step of a link program, decodes from its encoding
to itself, with every operand at every value. -/
def Obligations.DecodeEncode : Prop :=
  ∀ (i : Instr) (w : Word32), i.wf = true → encode i = some w →
    if isLinkStep i then decodeLink w = .ok i else decode w = .ok i

/-- R18, R28, R32 to R39: words of the manual's own encoding examples, one of each engine and one link step, decode to what they stand
for. -/
def Obligations.DecodeWords : Prop :=
  decode 0x01060848 = .ok (.add { natural := false, width := .b32 } 3 1 2) ∧
  decode 0x158a2fff = .ok (.addi 5 5 0xfff) ∧
  decode 0x23182200 = .ok (.feed 3 2 1 0) ∧
  decode 0x43802180 = .ok (.gset true 3 0) ∧
  decode 0x620900f8 = .ok (.mmaStream 1 2 31 0) ∧
  decode 0x80b24380 = .ok (.send 3 .v 2 7 0) ∧
  decode 0xa280847a = .ok (.acas { pred := 0, invert := false } .acqrel .die true 4 8) ∧
  decode 0xc3920000 = .ok (.tlbi .page 9) ∧
  decodeLink 0x14044000 = .ok (.linkSend .v 0 1 0 1)

/-- R20, R40, R98, R156, R172, R201, R224: a step executes the event that is due, or gives it its place in the second half of the wc; else, in a core's
turn, the instruction that its next word decodes to, or an illegal word, in the state that fetch leaves, where a word that reads memory as it issues is
put off to the end of the wc. In the second half, what is due in front of the engines comes first, then the landings of the wc and the step of the
sequencer whose turn it is; behind the engines the grids' words retire that are over; a descriptor acts in its place; in front of the meter the wc's
reads perform; and else the next event is executed. Then come the words that were put off, and a wc passes. The order of events, core turns, sequencers
and wcs is the model's arrangement (log 1). -/
def Obligations.StepRunsDecoded : Prop :=
  ∀ (s : State),
    (∀ e rest, s.agenda = e :: rest →
      (waitsInWc e = false → step s = exec e { s with agenda := rest }) ∧
      (waitsInWc e = true → step s = .next { s with agenda := rest, closing := insertClosing e s.closing })) ∧
    (∀ c rest w, s.agenda = [] → s.turn = c :: rest → s.Issues c → s.nextWord c w →
      (wordReads w = false → { s with turn := rest }.runsWord c w (step s)) ∧
      (wordReads w = true → step s = .next { s with turn := rest, cur := c, late := s.late ++ [c] })) ∧
    (s.agenda = [] → s.turn = [] →
      let due := s.stageDue
      (s.stage = 0 → due ≠ 0 → step s = .next s.landWc) ∧
      (∀ p rest g i, s.stage ≠ 0 → due ≠ 0 → s.portTurn = p :: rest → (s.port p).seqr.running = true →
        (s.port p).seqr.program = some g → g.steps[(s.port p).seqr.step]? = some i →
        step s = exec i { s with portTurn := rest, curPort := p }) ∧
      (s.stage ≠ 0 ∧ s.portTurn = [] ∨ due = 0 →
        (s.stage = 1 → 2 ≤ due → step s = .next s.sweepGrids) ∧
        (s.stage ≠ 1 ∨ due < 2 →
          (∀ n rest, s.noteDue = some (n, rest) → step s = .next ({ s with notes := rest }.applyNote n)) ∧
          (s.noteDue = none →
            (s.stage = 2 → due = 3 → step s = .next s.closeWc) ∧
            (s.stage ≠ 2 ∨ due ≠ 3 →
              (∀ e rest, s.closing = e :: rest → step s = exec e { s with closing := rest }) ∧
              (s.closing = [] →
                (∀ c rest w, s.late = c :: rest → s.Issues c → s.nextWord c w → { s with late := rest }.runsWord c w (step s)) ∧
                (s.late = [] → ∃ t, step s = .next t ∧ t.clock = s.clock + 1)))))))

/-! ## Reset and the invariant -/

/-- R14, R55, R77, R110, R115, R131, R141, R225, R241, R242, R255, R257: reset leaves the cycle counter at 0, no task, no lease, cleared
arrays, grids of null boards, the meter at its static term and 6.0 W, every port in RUN with its groups ASLEEP, PWBUD at 1,600 W, no
owner, and memory in its canonical form; on every core's grid null boards stand front and back, the accumulators and shelves are clear.
What it holds where the manual gives no value is the model's choice (log 2, 3, 4). -/
def Obligations.ResetState : Prop :=
  State.reset.Inv ∧ State.reset.clock = 0 ∧ State.reset.owner.own = 0 ∧ State.reset.owner.mstat = 0 ∧
    State.reset.power.pwbud = 3200 ∧ State.reset.power.crsel = 0xffff ∧ State.reset.meter.total = 2304000000 ∧
    State.reset.meter.budget = 3072000000 ∧ State.reset.sched.graphs = [] ∧ State.reset.fabric.active = none ∧
    (∀ c, (State.reset.core c).task = none ∧ (State.reset.core c).lease.state = .idle ∧ (State.reset.core c).inh = false) ∧
    (∀ d, (State.reset.array d).holder = none ∧ (State.reset.array d).last = 15 ∧
      (∀ r : Fin 2048, (State.reset.array d).rows[r] = { m := Vector.replicate 32 0, e := 0x800, g := 0, sp := false }) ∧
      (∀ h : Fin 2, (State.reset.array d).shelves[h] = Vector.replicate 8192 0)) ∧
    (∀ c, ∀ b ∈ [(State.reset.grid c).front, (State.reset.grid c).back],
      b.status = .ready ∧ b.ii = 16 ∧ b.vgate = false ∧ b.program = Vector.replicate 128 [] ∧ b.flights = []) ∧
    ∀ p, (State.reset.port p).phase = .run ∧ (State.reset.port p).held = false ∧
      ∀ k : Fin 16, (State.reset.port p).groups[k] = .asleep

/-- Every step keeps memory in its canonical form: addresses rise strictly, and no entry equals what an unlisted address reads as. That
form, and the 0 that an unlisted address reads as, are the model's choice (log 2). -/
def Obligations.StepKeepsMemory : Prop := ∀ (s t : State), s.Inv → step s = .next t → t.Inv
end

