-- ==== Sys2Proof/Laws/State.lean ====
section
/-! SUPPORT. What each named update of the module leaves alone, field by field, and what it does to the field it is for. -/

namespace Sys2Proof.Machine.State

open Sys2Proof

variable (s : State)

/-! ## putCore -/

@[simp] theorem putCore_clock (c : CoreId) (x : CoreState) : (s.putCore c x).clock = s.clock := rfl
@[simp] theorem putCore_free (c : CoreId) (x : CoreState) : (s.putCore c x).free = s.free := rfl
@[simp] theorem putCore_agenda (c : CoreId) (x : CoreState) : (s.putCore c x).agenda = s.agenda := rfl
@[simp] theorem putCore_timers (c : CoreId) (x : CoreState) : (s.putCore c x).timers = s.timers := rfl
@[simp] theorem putCore_turn (c : CoreId) (x : CoreState) : (s.putCore c x).turn = s.turn := rfl
@[simp] theorem putCore_portTurn (c : CoreId) (x : CoreState) : (s.putCore c x).portTurn = s.portTurn := rfl
@[simp] theorem putCore_closing (c : CoreId) (x : CoreState) : (s.putCore c x).closing = s.closing := rfl
@[simp] theorem putCore_stage (c : CoreId) (x : CoreState) : (s.putCore c x).stage = s.stage := rfl
@[simp] theorem putCore_notes (c : CoreId) (x : CoreState) : (s.putCore c x).notes = s.notes := rfl
@[simp] theorem putCore_late (c : CoreId) (x : CoreState) : (s.putCore c x).late = s.late := rfl
@[simp] theorem putCore_cur (c : CoreId) (x : CoreState) : (s.putCore c x).cur = s.cur := rfl
@[simp] theorem putCore_curPort (c : CoreId) (x : CoreState) : (s.putCore c x).curPort = s.curPort := rfl
@[simp] theorem putCore_mem (c : CoreId) (x : CoreState) : (s.putCore c x).mem = s.mem := rfl
@[simp] theorem putCore_stores (c : CoreId) (x : CoreState) : (s.putCore c x).stores = s.stores := rfl
@[simp] theorem putCore_cleanLines (c : CoreId) (x : CoreState) : (s.putCore c x).cleanLines = s.cleanLines := rfl
@[simp] theorem putCore_tags (c : CoreId) (x : CoreState) : (s.putCore c x).tags = s.tags := rfl
@[simp] theorem putCore_grids (c : CoreId) (x : CoreState) : (s.putCore c x).grids = s.grids := rfl
@[simp] theorem putCore_arrays (c : CoreId) (x : CoreState) : (s.putCore c x).arrays = s.arrays := rfl
@[simp] theorem putCore_meter (c : CoreId) (x : CoreState) : (s.putCore c x).meter = s.meter := rfl
@[simp] theorem putCore_fabric (c : CoreId) (x : CoreState) : (s.putCore c x).fabric = s.fabric := rfl
@[simp] theorem putCore_ports (c : CoreId) (x : CoreState) : (s.putCore c x).ports = s.ports := rfl
@[simp] theorem putCore_rings (c : CoreId) (x : CoreState) : (s.putCore c x).rings = s.rings := rfl
@[simp] theorem putCore_power (c : CoreId) (x : CoreState) : (s.putCore c x).power = s.power := rfl
@[simp] theorem putCore_sched (c : CoreId) (x : CoreState) : (s.putCore c x).sched = s.sched := rfl
@[simp] theorem putCore_owner (c : CoreId) (x : CoreState) : (s.putCore c x).owner = s.owner := rfl
@[simp] theorem putCore_tests (c : CoreId) (x : CoreState) : (s.putCore c x).tests = s.tests := rfl
@[simp] theorem putCore_hostData (c : CoreId) (x : CoreState) : (s.putCore c x).hostData = s.hostData := rfl

/-! ## onCore -/

@[simp] theorem onCore_clock (c : CoreId) (f : CoreState → CoreState) : (s.onCore c f).clock = s.clock := rfl
@[simp] theorem onCore_free (c : CoreId) (f : CoreState → CoreState) : (s.onCore c f).free = s.free := rfl
@[simp] theorem onCore_agenda (c : CoreId) (f : CoreState → CoreState) : (s.onCore c f).agenda = s.agenda := rfl
@[simp] theorem onCore_timers (c : CoreId) (f : CoreState → CoreState) : (s.onCore c f).timers = s.timers := rfl
@[simp] theorem onCore_turn (c : CoreId) (f : CoreState → CoreState) : (s.onCore c f).turn = s.turn := rfl
@[simp] theorem onCore_portTurn (c : CoreId) (f : CoreState → CoreState) : (s.onCore c f).portTurn = s.portTurn := rfl
@[simp] theorem onCore_closing (c : CoreId) (f : CoreState → CoreState) : (s.onCore c f).closing = s.closing := rfl
@[simp] theorem onCore_stage (c : CoreId) (f : CoreState → CoreState) : (s.onCore c f).stage = s.stage := rfl
@[simp] theorem onCore_notes (c : CoreId) (f : CoreState → CoreState) : (s.onCore c f).notes = s.notes := rfl
@[simp] theorem onCore_late (c : CoreId) (f : CoreState → CoreState) : (s.onCore c f).late = s.late := rfl
@[simp] theorem onCore_cur (c : CoreId) (f : CoreState → CoreState) : (s.onCore c f).cur = s.cur := rfl
@[simp] theorem onCore_curPort (c : CoreId) (f : CoreState → CoreState) : (s.onCore c f).curPort = s.curPort := rfl
@[simp] theorem onCore_mem (c : CoreId) (f : CoreState → CoreState) : (s.onCore c f).mem = s.mem := rfl
@[simp] theorem onCore_stores (c : CoreId) (f : CoreState → CoreState) : (s.onCore c f).stores = s.stores := rfl
@[simp] theorem onCore_cleanLines (c : CoreId) (f : CoreState → CoreState) : (s.onCore c f).cleanLines = s.cleanLines := rfl
@[simp] theorem onCore_tags (c : CoreId) (f : CoreState → CoreState) : (s.onCore c f).tags = s.tags := rfl
@[simp] theorem onCore_grids (c : CoreId) (f : CoreState → CoreState) : (s.onCore c f).grids = s.grids := rfl
@[simp] theorem onCore_arrays (c : CoreId) (f : CoreState → CoreState) : (s.onCore c f).arrays = s.arrays := rfl
@[simp] theorem onCore_meter (c : CoreId) (f : CoreState → CoreState) : (s.onCore c f).meter = s.meter := rfl
@[simp] theorem onCore_fabric (c : CoreId) (f : CoreState → CoreState) : (s.onCore c f).fabric = s.fabric := rfl
@[simp] theorem onCore_ports (c : CoreId) (f : CoreState → CoreState) : (s.onCore c f).ports = s.ports := rfl
@[simp] theorem onCore_rings (c : CoreId) (f : CoreState → CoreState) : (s.onCore c f).rings = s.rings := rfl
@[simp] theorem onCore_power (c : CoreId) (f : CoreState → CoreState) : (s.onCore c f).power = s.power := rfl
@[simp] theorem onCore_sched (c : CoreId) (f : CoreState → CoreState) : (s.onCore c f).sched = s.sched := rfl
@[simp] theorem onCore_owner (c : CoreId) (f : CoreState → CoreState) : (s.onCore c f).owner = s.owner := rfl
@[simp] theorem onCore_tests (c : CoreId) (f : CoreState → CoreState) : (s.onCore c f).tests = s.tests := rfl
@[simp] theorem onCore_hostData (c : CoreId) (f : CoreState → CoreState) : (s.onCore c f).hostData = s.hostData := rfl

/-! ## onMe -/

@[simp] theorem onMe_clock (f : CoreState → CoreState) : (s.onMe f).clock = s.clock := rfl
@[simp] theorem onMe_free (f : CoreState → CoreState) : (s.onMe f).free = s.free := rfl
@[simp] theorem onMe_agenda (f : CoreState → CoreState) : (s.onMe f).agenda = s.agenda := rfl
@[simp] theorem onMe_timers (f : CoreState → CoreState) : (s.onMe f).timers = s.timers := rfl
@[simp] theorem onMe_turn (f : CoreState → CoreState) : (s.onMe f).turn = s.turn := rfl
@[simp] theorem onMe_portTurn (f : CoreState → CoreState) : (s.onMe f).portTurn = s.portTurn := rfl
@[simp] theorem onMe_closing (f : CoreState → CoreState) : (s.onMe f).closing = s.closing := rfl
@[simp] theorem onMe_stage (f : CoreState → CoreState) : (s.onMe f).stage = s.stage := rfl
@[simp] theorem onMe_notes (f : CoreState → CoreState) : (s.onMe f).notes = s.notes := rfl
@[simp] theorem onMe_late (f : CoreState → CoreState) : (s.onMe f).late = s.late := rfl
@[simp] theorem onMe_cur (f : CoreState → CoreState) : (s.onMe f).cur = s.cur := rfl
@[simp] theorem onMe_curPort (f : CoreState → CoreState) : (s.onMe f).curPort = s.curPort := rfl
@[simp] theorem onMe_mem (f : CoreState → CoreState) : (s.onMe f).mem = s.mem := rfl
@[simp] theorem onMe_stores (f : CoreState → CoreState) : (s.onMe f).stores = s.stores := rfl
@[simp] theorem onMe_cleanLines (f : CoreState → CoreState) : (s.onMe f).cleanLines = s.cleanLines := rfl
@[simp] theorem onMe_tags (f : CoreState → CoreState) : (s.onMe f).tags = s.tags := rfl
@[simp] theorem onMe_grids (f : CoreState → CoreState) : (s.onMe f).grids = s.grids := rfl
@[simp] theorem onMe_arrays (f : CoreState → CoreState) : (s.onMe f).arrays = s.arrays := rfl
@[simp] theorem onMe_meter (f : CoreState → CoreState) : (s.onMe f).meter = s.meter := rfl
@[simp] theorem onMe_fabric (f : CoreState → CoreState) : (s.onMe f).fabric = s.fabric := rfl
@[simp] theorem onMe_ports (f : CoreState → CoreState) : (s.onMe f).ports = s.ports := rfl
@[simp] theorem onMe_rings (f : CoreState → CoreState) : (s.onMe f).rings = s.rings := rfl
@[simp] theorem onMe_power (f : CoreState → CoreState) : (s.onMe f).power = s.power := rfl
@[simp] theorem onMe_sched (f : CoreState → CoreState) : (s.onMe f).sched = s.sched := rfl
@[simp] theorem onMe_owner (f : CoreState → CoreState) : (s.onMe f).owner = s.owner := rfl
@[simp] theorem onMe_tests (f : CoreState → CoreState) : (s.onMe f).tests = s.tests := rfl
@[simp] theorem onMe_hostData (f : CoreState → CoreState) : (s.onMe f).hostData = s.hostData := rfl

/-! ## onGrid -/

@[simp] theorem onGrid_clock (c : CoreId) (f : Grid → Grid) : (s.onGrid c f).clock = s.clock := rfl
@[simp] theorem onGrid_free (c : CoreId) (f : Grid → Grid) : (s.onGrid c f).free = s.free := rfl
@[simp] theorem onGrid_agenda (c : CoreId) (f : Grid → Grid) : (s.onGrid c f).agenda = s.agenda := rfl
@[simp] theorem onGrid_timers (c : CoreId) (f : Grid → Grid) : (s.onGrid c f).timers = s.timers := rfl
@[simp] theorem onGrid_turn (c : CoreId) (f : Grid → Grid) : (s.onGrid c f).turn = s.turn := rfl
@[simp] theorem onGrid_portTurn (c : CoreId) (f : Grid → Grid) : (s.onGrid c f).portTurn = s.portTurn := rfl
@[simp] theorem onGrid_closing (c : CoreId) (f : Grid → Grid) : (s.onGrid c f).closing = s.closing := rfl
@[simp] theorem onGrid_stage (c : CoreId) (f : Grid → Grid) : (s.onGrid c f).stage = s.stage := rfl
@[simp] theorem onGrid_notes (c : CoreId) (f : Grid → Grid) : (s.onGrid c f).notes = s.notes := rfl
@[simp] theorem onGrid_late (c : CoreId) (f : Grid → Grid) : (s.onGrid c f).late = s.late := rfl
@[simp] theorem onGrid_cur (c : CoreId) (f : Grid → Grid) : (s.onGrid c f).cur = s.cur := rfl
@[simp] theorem onGrid_curPort (c : CoreId) (f : Grid → Grid) : (s.onGrid c f).curPort = s.curPort := rfl
@[simp] theorem onGrid_mem (c : CoreId) (f : Grid → Grid) : (s.onGrid c f).mem = s.mem := rfl
@[simp] theorem onGrid_stores (c : CoreId) (f : Grid → Grid) : (s.onGrid c f).stores = s.stores := rfl
@[simp] theorem onGrid_cleanLines (c : CoreId) (f : Grid → Grid) : (s.onGrid c f).cleanLines = s.cleanLines := rfl
@[simp] theorem onGrid_tags (c : CoreId) (f : Grid → Grid) : (s.onGrid c f).tags = s.tags := rfl
@[simp] theorem onGrid_cores (c : CoreId) (f : Grid → Grid) : (s.onGrid c f).cores = s.cores := rfl
@[simp] theorem onGrid_arrays (c : CoreId) (f : Grid → Grid) : (s.onGrid c f).arrays = s.arrays := rfl
@[simp] theorem onGrid_meter (c : CoreId) (f : Grid → Grid) : (s.onGrid c f).meter = s.meter := rfl
@[simp] theorem onGrid_fabric (c : CoreId) (f : Grid → Grid) : (s.onGrid c f).fabric = s.fabric := rfl
@[simp] theorem onGrid_ports (c : CoreId) (f : Grid → Grid) : (s.onGrid c f).ports = s.ports := rfl
@[simp] theorem onGrid_rings (c : CoreId) (f : Grid → Grid) : (s.onGrid c f).rings = s.rings := rfl
@[simp] theorem onGrid_power (c : CoreId) (f : Grid → Grid) : (s.onGrid c f).power = s.power := rfl
@[simp] theorem onGrid_sched (c : CoreId) (f : Grid → Grid) : (s.onGrid c f).sched = s.sched := rfl
@[simp] theorem onGrid_owner (c : CoreId) (f : Grid → Grid) : (s.onGrid c f).owner = s.owner := rfl
@[simp] theorem onGrid_tests (c : CoreId) (f : Grid → Grid) : (s.onGrid c f).tests = s.tests := rfl
@[simp] theorem onGrid_hostData (c : CoreId) (f : Grid → Grid) : (s.onGrid c f).hostData = s.hostData := rfl

/-! ## onArray -/

@[simp] theorem onArray_clock (d : DieId) (f : MxArray → MxArray) : (s.onArray d f).clock = s.clock := rfl
@[simp] theorem onArray_free (d : DieId) (f : MxArray → MxArray) : (s.onArray d f).free = s.free := rfl
@[simp] theorem onArray_agenda (d : DieId) (f : MxArray → MxArray) : (s.onArray d f).agenda = s.agenda := rfl
@[simp] theorem onArray_timers (d : DieId) (f : MxArray → MxArray) : (s.onArray d f).timers = s.timers := rfl
@[simp] theorem onArray_turn (d : DieId) (f : MxArray → MxArray) : (s.onArray d f).turn = s.turn := rfl
@[simp] theorem onArray_portTurn (d : DieId) (f : MxArray → MxArray) : (s.onArray d f).portTurn = s.portTurn := rfl
@[simp] theorem onArray_closing (d : DieId) (f : MxArray → MxArray) : (s.onArray d f).closing = s.closing := rfl
@[simp] theorem onArray_stage (d : DieId) (f : MxArray → MxArray) : (s.onArray d f).stage = s.stage := rfl
@[simp] theorem onArray_notes (d : DieId) (f : MxArray → MxArray) : (s.onArray d f).notes = s.notes := rfl
@[simp] theorem onArray_late (d : DieId) (f : MxArray → MxArray) : (s.onArray d f).late = s.late := rfl
@[simp] theorem onArray_cur (d : DieId) (f : MxArray → MxArray) : (s.onArray d f).cur = s.cur := rfl
@[simp] theorem onArray_curPort (d : DieId) (f : MxArray → MxArray) : (s.onArray d f).curPort = s.curPort := rfl
@[simp] theorem onArray_mem (d : DieId) (f : MxArray → MxArray) : (s.onArray d f).mem = s.mem := rfl
@[simp] theorem onArray_stores (d : DieId) (f : MxArray → MxArray) : (s.onArray d f).stores = s.stores := rfl
@[simp] theorem onArray_cleanLines (d : DieId) (f : MxArray → MxArray) : (s.onArray d f).cleanLines = s.cleanLines := rfl
@[simp] theorem onArray_tags (d : DieId) (f : MxArray → MxArray) : (s.onArray d f).tags = s.tags := rfl
@[simp] theorem onArray_cores (d : DieId) (f : MxArray → MxArray) : (s.onArray d f).cores = s.cores := rfl
@[simp] theorem onArray_grids (d : DieId) (f : MxArray → MxArray) : (s.onArray d f).grids = s.grids := rfl
@[simp] theorem onArray_meter (d : DieId) (f : MxArray → MxArray) : (s.onArray d f).meter = s.meter := rfl
@[simp] theorem onArray_fabric (d : DieId) (f : MxArray → MxArray) : (s.onArray d f).fabric = s.fabric := rfl
@[simp] theorem onArray_ports (d : DieId) (f : MxArray → MxArray) : (s.onArray d f).ports = s.ports := rfl
@[simp] theorem onArray_rings (d : DieId) (f : MxArray → MxArray) : (s.onArray d f).rings = s.rings := rfl
@[simp] theorem onArray_power (d : DieId) (f : MxArray → MxArray) : (s.onArray d f).power = s.power := rfl
@[simp] theorem onArray_sched (d : DieId) (f : MxArray → MxArray) : (s.onArray d f).sched = s.sched := rfl
@[simp] theorem onArray_owner (d : DieId) (f : MxArray → MxArray) : (s.onArray d f).owner = s.owner := rfl
@[simp] theorem onArray_tests (d : DieId) (f : MxArray → MxArray) : (s.onArray d f).tests = s.tests := rfl
@[simp] theorem onArray_hostData (d : DieId) (f : MxArray → MxArray) : (s.onArray d f).hostData = s.hostData := rfl

/-! ## onPort -/

@[simp] theorem onPort_clock (p : PortId) (f : Port → Port) : (s.onPort p f).clock = s.clock := rfl
@[simp] theorem onPort_free (p : PortId) (f : Port → Port) : (s.onPort p f).free = s.free := rfl
@[simp] theorem onPort_agenda (p : PortId) (f : Port → Port) : (s.onPort p f).agenda = s.agenda := rfl
@[simp] theorem onPort_timers (p : PortId) (f : Port → Port) : (s.onPort p f).timers = s.timers := rfl
@[simp] theorem onPort_turn (p : PortId) (f : Port → Port) : (s.onPort p f).turn = s.turn := rfl
@[simp] theorem onPort_portTurn (p : PortId) (f : Port → Port) : (s.onPort p f).portTurn = s.portTurn := rfl
@[simp] theorem onPort_closing (p : PortId) (f : Port → Port) : (s.onPort p f).closing = s.closing := rfl
@[simp] theorem onPort_stage (p : PortId) (f : Port → Port) : (s.onPort p f).stage = s.stage := rfl
@[simp] theorem onPort_notes (p : PortId) (f : Port → Port) : (s.onPort p f).notes = s.notes := rfl
@[simp] theorem onPort_late (p : PortId) (f : Port → Port) : (s.onPort p f).late = s.late := rfl
@[simp] theorem onPort_cur (p : PortId) (f : Port → Port) : (s.onPort p f).cur = s.cur := rfl
@[simp] theorem onPort_curPort (p : PortId) (f : Port → Port) : (s.onPort p f).curPort = s.curPort := rfl
@[simp] theorem onPort_mem (p : PortId) (f : Port → Port) : (s.onPort p f).mem = s.mem := rfl
@[simp] theorem onPort_stores (p : PortId) (f : Port → Port) : (s.onPort p f).stores = s.stores := rfl
@[simp] theorem onPort_cleanLines (p : PortId) (f : Port → Port) : (s.onPort p f).cleanLines = s.cleanLines := rfl
@[simp] theorem onPort_tags (p : PortId) (f : Port → Port) : (s.onPort p f).tags = s.tags := rfl
@[simp] theorem onPort_cores (p : PortId) (f : Port → Port) : (s.onPort p f).cores = s.cores := rfl
@[simp] theorem onPort_grids (p : PortId) (f : Port → Port) : (s.onPort p f).grids = s.grids := rfl
@[simp] theorem onPort_arrays (p : PortId) (f : Port → Port) : (s.onPort p f).arrays = s.arrays := rfl
@[simp] theorem onPort_meter (p : PortId) (f : Port → Port) : (s.onPort p f).meter = s.meter := rfl
@[simp] theorem onPort_fabric (p : PortId) (f : Port → Port) : (s.onPort p f).fabric = s.fabric := rfl
@[simp] theorem onPort_rings (p : PortId) (f : Port → Port) : (s.onPort p f).rings = s.rings := rfl
@[simp] theorem onPort_power (p : PortId) (f : Port → Port) : (s.onPort p f).power = s.power := rfl
@[simp] theorem onPort_sched (p : PortId) (f : Port → Port) : (s.onPort p f).sched = s.sched := rfl
@[simp] theorem onPort_owner (p : PortId) (f : Port → Port) : (s.onPort p f).owner = s.owner := rfl
@[simp] theorem onPort_tests (p : PortId) (f : Port → Port) : (s.onPort p f).tests = s.tests := rfl
@[simp] theorem onPort_hostData (p : PortId) (f : Port → Port) : (s.onPort p f).hostData = s.hostData := rfl

/-! ## onGraph -/

@[simp] theorem onGraph_clock (g : Nat) (f : Graph → Graph) : (s.onGraph g f).clock = s.clock := rfl
@[simp] theorem onGraph_free (g : Nat) (f : Graph → Graph) : (s.onGraph g f).free = s.free := rfl
@[simp] theorem onGraph_agenda (g : Nat) (f : Graph → Graph) : (s.onGraph g f).agenda = s.agenda := rfl
@[simp] theorem onGraph_timers (g : Nat) (f : Graph → Graph) : (s.onGraph g f).timers = s.timers := rfl
@[simp] theorem onGraph_turn (g : Nat) (f : Graph → Graph) : (s.onGraph g f).turn = s.turn := rfl
@[simp] theorem onGraph_portTurn (g : Nat) (f : Graph → Graph) : (s.onGraph g f).portTurn = s.portTurn := rfl
@[simp] theorem onGraph_closing (g : Nat) (f : Graph → Graph) : (s.onGraph g f).closing = s.closing := rfl
@[simp] theorem onGraph_stage (g : Nat) (f : Graph → Graph) : (s.onGraph g f).stage = s.stage := rfl
@[simp] theorem onGraph_notes (g : Nat) (f : Graph → Graph) : (s.onGraph g f).notes = s.notes := rfl
@[simp] theorem onGraph_late (g : Nat) (f : Graph → Graph) : (s.onGraph g f).late = s.late := rfl
@[simp] theorem onGraph_cur (g : Nat) (f : Graph → Graph) : (s.onGraph g f).cur = s.cur := rfl
@[simp] theorem onGraph_curPort (g : Nat) (f : Graph → Graph) : (s.onGraph g f).curPort = s.curPort := rfl
@[simp] theorem onGraph_mem (g : Nat) (f : Graph → Graph) : (s.onGraph g f).mem = s.mem := rfl
@[simp] theorem onGraph_stores (g : Nat) (f : Graph → Graph) : (s.onGraph g f).stores = s.stores := rfl
@[simp] theorem onGraph_cleanLines (g : Nat) (f : Graph → Graph) : (s.onGraph g f).cleanLines = s.cleanLines := rfl
@[simp] theorem onGraph_tags (g : Nat) (f : Graph → Graph) : (s.onGraph g f).tags = s.tags := rfl
@[simp] theorem onGraph_cores (g : Nat) (f : Graph → Graph) : (s.onGraph g f).cores = s.cores := rfl
@[simp] theorem onGraph_grids (g : Nat) (f : Graph → Graph) : (s.onGraph g f).grids = s.grids := rfl
@[simp] theorem onGraph_arrays (g : Nat) (f : Graph → Graph) : (s.onGraph g f).arrays = s.arrays := rfl
@[simp] theorem onGraph_meter (g : Nat) (f : Graph → Graph) : (s.onGraph g f).meter = s.meter := rfl
@[simp] theorem onGraph_fabric (g : Nat) (f : Graph → Graph) : (s.onGraph g f).fabric = s.fabric := rfl
@[simp] theorem onGraph_ports (g : Nat) (f : Graph → Graph) : (s.onGraph g f).ports = s.ports := rfl
@[simp] theorem onGraph_rings (g : Nat) (f : Graph → Graph) : (s.onGraph g f).rings = s.rings := rfl
@[simp] theorem onGraph_power (g : Nat) (f : Graph → Graph) : (s.onGraph g f).power = s.power := rfl
@[simp] theorem onGraph_owner (g : Nat) (f : Graph → Graph) : (s.onGraph g f).owner = s.owner := rfl
@[simp] theorem onGraph_tests (g : Nat) (f : Graph → Graph) : (s.onGraph g f).tests = s.tests := rfl
@[simp] theorem onGraph_hostData (g : Nat) (f : Graph → Graph) : (s.onGraph g f).hostData = s.hostData := rfl

/-! ## bump -/

@[simp] theorem bump_clock : (s.bump).clock = s.clock := rfl
@[simp] theorem bump_agenda : (s.bump).agenda = s.agenda := rfl
@[simp] theorem bump_timers : (s.bump).timers = s.timers := rfl
@[simp] theorem bump_turn : (s.bump).turn = s.turn := rfl
@[simp] theorem bump_portTurn : (s.bump).portTurn = s.portTurn := rfl
@[simp] theorem bump_closing : (s.bump).closing = s.closing := rfl
@[simp] theorem bump_stage : (s.bump).stage = s.stage := rfl
@[simp] theorem bump_notes : (s.bump).notes = s.notes := rfl
@[simp] theorem bump_late : (s.bump).late = s.late := rfl
@[simp] theorem bump_cur : (s.bump).cur = s.cur := rfl
@[simp] theorem bump_curPort : (s.bump).curPort = s.curPort := rfl
@[simp] theorem bump_mem : (s.bump).mem = s.mem := rfl
@[simp] theorem bump_stores : (s.bump).stores = s.stores := rfl
@[simp] theorem bump_cleanLines : (s.bump).cleanLines = s.cleanLines := rfl
@[simp] theorem bump_tags : (s.bump).tags = s.tags := rfl
@[simp] theorem bump_cores : (s.bump).cores = s.cores := rfl
@[simp] theorem bump_grids : (s.bump).grids = s.grids := rfl
@[simp] theorem bump_arrays : (s.bump).arrays = s.arrays := rfl
@[simp] theorem bump_meter : (s.bump).meter = s.meter := rfl
@[simp] theorem bump_fabric : (s.bump).fabric = s.fabric := rfl
@[simp] theorem bump_ports : (s.bump).ports = s.ports := rfl
@[simp] theorem bump_rings : (s.bump).rings = s.rings := rfl
@[simp] theorem bump_power : (s.bump).power = s.power := rfl
@[simp] theorem bump_sched : (s.bump).sched = s.sched := rfl
@[simp] theorem bump_owner : (s.bump).owner = s.owner := rfl
@[simp] theorem bump_tests : (s.bump).tests = s.tests := rfl
@[simp] theorem bump_hostData : (s.bump).hostData = s.hostData := rfl

/-! ## storeLater -/

@[simp] theorem storeLater_clock (a n v : Nat) : (s.storeLater a n v).clock = s.clock := rfl
@[simp] theorem storeLater_free (a n v : Nat) : (s.storeLater a n v).free = s.free := rfl
@[simp] theorem storeLater_agenda (a n v : Nat) : (s.storeLater a n v).agenda = s.agenda := rfl
@[simp] theorem storeLater_timers (a n v : Nat) : (s.storeLater a n v).timers = s.timers := rfl
@[simp] theorem storeLater_turn (a n v : Nat) : (s.storeLater a n v).turn = s.turn := rfl
@[simp] theorem storeLater_portTurn (a n v : Nat) : (s.storeLater a n v).portTurn = s.portTurn := rfl
@[simp] theorem storeLater_closing (a n v : Nat) : (s.storeLater a n v).closing = s.closing := rfl
@[simp] theorem storeLater_stage (a n v : Nat) : (s.storeLater a n v).stage = s.stage := rfl
@[simp] theorem storeLater_notes (a n v : Nat) : (s.storeLater a n v).notes = s.notes := rfl
@[simp] theorem storeLater_late (a n v : Nat) : (s.storeLater a n v).late = s.late := rfl
@[simp] theorem storeLater_cur (a n v : Nat) : (s.storeLater a n v).cur = s.cur := rfl
@[simp] theorem storeLater_curPort (a n v : Nat) : (s.storeLater a n v).curPort = s.curPort := rfl
@[simp] theorem storeLater_mem (a n v : Nat) : (s.storeLater a n v).mem = s.mem := rfl
@[simp] theorem storeLater_cleanLines (a n v : Nat) : (s.storeLater a n v).cleanLines = s.cleanLines := rfl
@[simp] theorem storeLater_tags (a n v : Nat) : (s.storeLater a n v).tags = s.tags := rfl
@[simp] theorem storeLater_cores (a n v : Nat) : (s.storeLater a n v).cores = s.cores := rfl
@[simp] theorem storeLater_grids (a n v : Nat) : (s.storeLater a n v).grids = s.grids := rfl
@[simp] theorem storeLater_arrays (a n v : Nat) : (s.storeLater a n v).arrays = s.arrays := rfl
@[simp] theorem storeLater_meter (a n v : Nat) : (s.storeLater a n v).meter = s.meter := rfl
@[simp] theorem storeLater_fabric (a n v : Nat) : (s.storeLater a n v).fabric = s.fabric := rfl
@[simp] theorem storeLater_ports (a n v : Nat) : (s.storeLater a n v).ports = s.ports := rfl
@[simp] theorem storeLater_rings (a n v : Nat) : (s.storeLater a n v).rings = s.rings := rfl
@[simp] theorem storeLater_power (a n v : Nat) : (s.storeLater a n v).power = s.power := rfl
@[simp] theorem storeLater_sched (a n v : Nat) : (s.storeLater a n v).sched = s.sched := rfl
@[simp] theorem storeLater_owner (a n v : Nat) : (s.storeLater a n v).owner = s.owner := rfl
@[simp] theorem storeLater_tests (a n v : Nat) : (s.storeLater a n v).tests = s.tests := rfl
@[simp] theorem storeLater_hostData (a n v : Nat) : (s.storeLater a n v).hostData = s.hostData := rfl

/-! ## timer -/

@[simp] theorem timer_clock (w : Nat) (e : Instr) : (s.timer w e).clock = s.clock := rfl
@[simp] theorem timer_free (w : Nat) (e : Instr) : (s.timer w e).free = s.free := rfl
@[simp] theorem timer_agenda (w : Nat) (e : Instr) : (s.timer w e).agenda = s.agenda := rfl
@[simp] theorem timer_turn (w : Nat) (e : Instr) : (s.timer w e).turn = s.turn := rfl
@[simp] theorem timer_portTurn (w : Nat) (e : Instr) : (s.timer w e).portTurn = s.portTurn := rfl
@[simp] theorem timer_closing (w : Nat) (e : Instr) : (s.timer w e).closing = s.closing := rfl
@[simp] theorem timer_stage (w : Nat) (e : Instr) : (s.timer w e).stage = s.stage := rfl
@[simp] theorem timer_notes (w : Nat) (e : Instr) : (s.timer w e).notes = s.notes := rfl
@[simp] theorem timer_late (w : Nat) (e : Instr) : (s.timer w e).late = s.late := rfl
@[simp] theorem timer_cur (w : Nat) (e : Instr) : (s.timer w e).cur = s.cur := rfl
@[simp] theorem timer_curPort (w : Nat) (e : Instr) : (s.timer w e).curPort = s.curPort := rfl
@[simp] theorem timer_mem (w : Nat) (e : Instr) : (s.timer w e).mem = s.mem := rfl
@[simp] theorem timer_stores (w : Nat) (e : Instr) : (s.timer w e).stores = s.stores := rfl
@[simp] theorem timer_cleanLines (w : Nat) (e : Instr) : (s.timer w e).cleanLines = s.cleanLines := rfl
@[simp] theorem timer_tags (w : Nat) (e : Instr) : (s.timer w e).tags = s.tags := rfl
@[simp] theorem timer_cores (w : Nat) (e : Instr) : (s.timer w e).cores = s.cores := rfl
@[simp] theorem timer_grids (w : Nat) (e : Instr) : (s.timer w e).grids = s.grids := rfl
@[simp] theorem timer_arrays (w : Nat) (e : Instr) : (s.timer w e).arrays = s.arrays := rfl
@[simp] theorem timer_meter (w : Nat) (e : Instr) : (s.timer w e).meter = s.meter := rfl
@[simp] theorem timer_fabric (w : Nat) (e : Instr) : (s.timer w e).fabric = s.fabric := rfl
@[simp] theorem timer_ports (w : Nat) (e : Instr) : (s.timer w e).ports = s.ports := rfl
@[simp] theorem timer_rings (w : Nat) (e : Instr) : (s.timer w e).rings = s.rings := rfl
@[simp] theorem timer_power (w : Nat) (e : Instr) : (s.timer w e).power = s.power := rfl
@[simp] theorem timer_sched (w : Nat) (e : Instr) : (s.timer w e).sched = s.sched := rfl
@[simp] theorem timer_owner (w : Nat) (e : Instr) : (s.timer w e).owner = s.owner := rfl
@[simp] theorem timer_tests (w : Nat) (e : Instr) : (s.timer w e).tests = s.tests := rfl
@[simp] theorem timer_hostData (w : Nat) (e : Instr) : (s.timer w e).hostData = s.hostData := rfl

/-! ## soon -/

@[simp] theorem soon_clock (e : Instr) : (s.soon e).clock = s.clock := by unfold soon; split <;> rfl
@[simp] theorem soon_free (e : Instr) : (s.soon e).free = s.free := by unfold soon; split <;> rfl
@[simp] theorem soon_timers (e : Instr) : (s.soon e).timers = s.timers := by unfold soon; split <;> rfl
@[simp] theorem soon_turn (e : Instr) : (s.soon e).turn = s.turn := by unfold soon; split <;> rfl
@[simp] theorem soon_portTurn (e : Instr) : (s.soon e).portTurn = s.portTurn := by unfold soon; split <;> rfl
@[simp] theorem soon_stage (e : Instr) : (s.soon e).stage = s.stage := by unfold soon; split <;> rfl
@[simp] theorem soon_notes (e : Instr) : (s.soon e).notes = s.notes := by unfold soon; split <;> rfl
@[simp] theorem soon_late (e : Instr) : (s.soon e).late = s.late := by unfold soon; split <;> rfl
@[simp] theorem soon_cur (e : Instr) : (s.soon e).cur = s.cur := by unfold soon; split <;> rfl
@[simp] theorem soon_curPort (e : Instr) : (s.soon e).curPort = s.curPort := by unfold soon; split <;> rfl
@[simp] theorem soon_mem (e : Instr) : (s.soon e).mem = s.mem := by unfold soon; split <;> rfl
@[simp] theorem soon_stores (e : Instr) : (s.soon e).stores = s.stores := by unfold soon; split <;> rfl
@[simp] theorem soon_cleanLines (e : Instr) : (s.soon e).cleanLines = s.cleanLines := by unfold soon; split <;> rfl
@[simp] theorem soon_tags (e : Instr) : (s.soon e).tags = s.tags := by unfold soon; split <;> rfl
@[simp] theorem soon_cores (e : Instr) : (s.soon e).cores = s.cores := by unfold soon; split <;> rfl
@[simp] theorem soon_grids (e : Instr) : (s.soon e).grids = s.grids := by unfold soon; split <;> rfl
@[simp] theorem soon_arrays (e : Instr) : (s.soon e).arrays = s.arrays := by unfold soon; split <;> rfl
@[simp] theorem soon_meter (e : Instr) : (s.soon e).meter = s.meter := by unfold soon; split <;> rfl
@[simp] theorem soon_fabric (e : Instr) : (s.soon e).fabric = s.fabric := by unfold soon; split <;> rfl
@[simp] theorem soon_ports (e : Instr) : (s.soon e).ports = s.ports := by unfold soon; split <;> rfl
@[simp] theorem soon_rings (e : Instr) : (s.soon e).rings = s.rings := by unfold soon; split <;> rfl
@[simp] theorem soon_power (e : Instr) : (s.soon e).power = s.power := by unfold soon; split <;> rfl
@[simp] theorem soon_sched (e : Instr) : (s.soon e).sched = s.sched := by unfold soon; split <;> rfl
@[simp] theorem soon_owner (e : Instr) : (s.soon e).owner = s.owner := by unfold soon; split <;> rfl
@[simp] theorem soon_tests (e : Instr) : (s.soon e).tests = s.tests := by unfold soon; split <;> rfl
@[simp] theorem soon_hostData (e : Instr) : (s.soon e).hostData = s.hostData := by unfold soon; split <;> rfl

/-! ## storeBytes -/

@[simp] theorem storeBytes_clock (a : Nat) (bs : List Byte) : (s.storeBytes a bs).clock = s.clock := rfl
@[simp] theorem storeBytes_free (a : Nat) (bs : List Byte) : (s.storeBytes a bs).free = s.free := rfl
@[simp] theorem storeBytes_agenda (a : Nat) (bs : List Byte) : (s.storeBytes a bs).agenda = s.agenda := rfl
@[simp] theorem storeBytes_timers (a : Nat) (bs : List Byte) : (s.storeBytes a bs).timers = s.timers := rfl
@[simp] theorem storeBytes_turn (a : Nat) (bs : List Byte) : (s.storeBytes a bs).turn = s.turn := rfl
@[simp] theorem storeBytes_portTurn (a : Nat) (bs : List Byte) : (s.storeBytes a bs).portTurn = s.portTurn := rfl
@[simp] theorem storeBytes_closing (a : Nat) (bs : List Byte) : (s.storeBytes a bs).closing = s.closing := rfl
@[simp] theorem storeBytes_stage (a : Nat) (bs : List Byte) : (s.storeBytes a bs).stage = s.stage := rfl
@[simp] theorem storeBytes_notes (a : Nat) (bs : List Byte) : (s.storeBytes a bs).notes = s.notes := rfl
@[simp] theorem storeBytes_late (a : Nat) (bs : List Byte) : (s.storeBytes a bs).late = s.late := rfl
@[simp] theorem storeBytes_cur (a : Nat) (bs : List Byte) : (s.storeBytes a bs).cur = s.cur := rfl
@[simp] theorem storeBytes_curPort (a : Nat) (bs : List Byte) : (s.storeBytes a bs).curPort = s.curPort := rfl
@[simp] theorem storeBytes_stores (a : Nat) (bs : List Byte) : (s.storeBytes a bs).stores = s.stores := rfl
@[simp] theorem storeBytes_tags (a : Nat) (bs : List Byte) : (s.storeBytes a bs).tags = s.tags := rfl
@[simp] theorem storeBytes_cores (a : Nat) (bs : List Byte) : (s.storeBytes a bs).cores = s.cores := rfl
@[simp] theorem storeBytes_grids (a : Nat) (bs : List Byte) : (s.storeBytes a bs).grids = s.grids := rfl
@[simp] theorem storeBytes_arrays (a : Nat) (bs : List Byte) : (s.storeBytes a bs).arrays = s.arrays := rfl
@[simp] theorem storeBytes_meter (a : Nat) (bs : List Byte) : (s.storeBytes a bs).meter = s.meter := rfl
@[simp] theorem storeBytes_fabric (a : Nat) (bs : List Byte) : (s.storeBytes a bs).fabric = s.fabric := rfl
@[simp] theorem storeBytes_ports (a : Nat) (bs : List Byte) : (s.storeBytes a bs).ports = s.ports := rfl
@[simp] theorem storeBytes_rings (a : Nat) (bs : List Byte) : (s.storeBytes a bs).rings = s.rings := rfl
@[simp] theorem storeBytes_power (a : Nat) (bs : List Byte) : (s.storeBytes a bs).power = s.power := rfl
@[simp] theorem storeBytes_sched (a : Nat) (bs : List Byte) : (s.storeBytes a bs).sched = s.sched := rfl
@[simp] theorem storeBytes_owner (a : Nat) (bs : List Byte) : (s.storeBytes a bs).owner = s.owner := rfl
@[simp] theorem storeBytes_tests (a : Nat) (bs : List Byte) : (s.storeBytes a bs).tests = s.tests := rfl
@[simp] theorem storeBytes_hostData (a : Nat) (bs : List Byte) : (s.storeBytes a bs).hostData = s.hostData := rfl

/-! ## onOwner -/

@[simp] theorem onOwner_clock (f : Owner → Owner) : (s.onOwner f).clock = s.clock := rfl
@[simp] theorem onOwner_free (f : Owner → Owner) : (s.onOwner f).free = s.free := rfl
@[simp] theorem onOwner_agenda (f : Owner → Owner) : (s.onOwner f).agenda = s.agenda := rfl
@[simp] theorem onOwner_timers (f : Owner → Owner) : (s.onOwner f).timers = s.timers := rfl
@[simp] theorem onOwner_turn (f : Owner → Owner) : (s.onOwner f).turn = s.turn := rfl
@[simp] theorem onOwner_portTurn (f : Owner → Owner) : (s.onOwner f).portTurn = s.portTurn := rfl
@[simp] theorem onOwner_closing (f : Owner → Owner) : (s.onOwner f).closing = s.closing := rfl
@[simp] theorem onOwner_stage (f : Owner → Owner) : (s.onOwner f).stage = s.stage := rfl
@[simp] theorem onOwner_notes (f : Owner → Owner) : (s.onOwner f).notes = s.notes := rfl
@[simp] theorem onOwner_late (f : Owner → Owner) : (s.onOwner f).late = s.late := rfl
@[simp] theorem onOwner_cur (f : Owner → Owner) : (s.onOwner f).cur = s.cur := rfl
@[simp] theorem onOwner_curPort (f : Owner → Owner) : (s.onOwner f).curPort = s.curPort := rfl
@[simp] theorem onOwner_mem (f : Owner → Owner) : (s.onOwner f).mem = s.mem := rfl
@[simp] theorem onOwner_stores (f : Owner → Owner) : (s.onOwner f).stores = s.stores := rfl
@[simp] theorem onOwner_cleanLines (f : Owner → Owner) : (s.onOwner f).cleanLines = s.cleanLines := rfl
@[simp] theorem onOwner_tags (f : Owner → Owner) : (s.onOwner f).tags = s.tags := rfl
@[simp] theorem onOwner_cores (f : Owner → Owner) : (s.onOwner f).cores = s.cores := rfl
@[simp] theorem onOwner_grids (f : Owner → Owner) : (s.onOwner f).grids = s.grids := rfl
@[simp] theorem onOwner_arrays (f : Owner → Owner) : (s.onOwner f).arrays = s.arrays := rfl
@[simp] theorem onOwner_meter (f : Owner → Owner) : (s.onOwner f).meter = s.meter := rfl
@[simp] theorem onOwner_fabric (f : Owner → Owner) : (s.onOwner f).fabric = s.fabric := rfl
@[simp] theorem onOwner_ports (f : Owner → Owner) : (s.onOwner f).ports = s.ports := rfl
@[simp] theorem onOwner_rings (f : Owner → Owner) : (s.onOwner f).rings = s.rings := rfl
@[simp] theorem onOwner_power (f : Owner → Owner) : (s.onOwner f).power = s.power := rfl
@[simp] theorem onOwner_sched (f : Owner → Owner) : (s.onOwner f).sched = s.sched := rfl
@[simp] theorem onOwner_tests (f : Owner → Owner) : (s.onOwner f).tests = s.tests := rfl
@[simp] theorem onOwner_hostData (f : Owner → Owner) : (s.onOwner f).hostData = s.hostData := rfl

/-! ## Reading back -/

@[simp] theorem bump_free : s.bump.free = s.free + 1 := rfl
@[simp] theorem bump_core (c : CoreId) : s.bump.core c = s.core c := rfl
@[simp] theorem bump_me : s.bump.me = s.me := rfl
@[simp] theorem timer_core (w : Nat) (e : Instr) (c : CoreId) : (s.timer w e).core c = s.core c := rfl
@[simp] theorem timer_me (w : Nat) (e : Instr) : (s.timer w e).me = s.me := rfl
@[simp] theorem soon_core (e : Instr) (c : CoreId) : (s.soon e).core c = s.core c := by simp [State.core]
@[simp] theorem soon_me (e : Instr) : (s.soon e).me = s.me := by simp [State.me]
@[simp] theorem onGrid_core (c d : CoreId) (f : Grid → Grid) : (s.onGrid c f).core d = s.core d := rfl
@[simp] theorem onGrid_me (c : CoreId) (f : Grid → Grid) : (s.onGrid c f).me = s.me := rfl
@[simp] theorem onGraph_core (g : Nat) (f : Graph → Graph) (c : CoreId) : (s.onGraph g f).core c = s.core c := rfl
@[simp] theorem onGraph_me (g : Nat) (f : Graph → Graph) : (s.onGraph g f).me = s.me := rfl
@[simp] theorem onPort_core (p : PortId) (f : Port → Port) (c : CoreId) : (s.onPort p f).core c = s.core c := rfl
@[simp] theorem storeBytes_core (a : Nat) (bs : List Byte) (c : CoreId) : (s.storeBytes a bs).core c = s.core c := rfl
@[simp] theorem storeBytes_me (a : Nat) (bs : List Byte) : (s.storeBytes a bs).me = s.me := rfl

@[simp] theorem putCore_core_self (c : CoreId) (x : CoreState) : (s.putCore c x).core c = x := by
  simp [State.core, State.putCore]

theorem putCore_core_ne {c d : CoreId} (x : CoreState) (h : c ≠ d) : (s.putCore c x).core d = s.core d := by
  have h' : c.val ≠ d.val := fun e => h (Fin.ext e)
  simp [State.core, State.putCore, Vector.getElem_set_ne, h']

@[simp] theorem onCore_core_self (c : CoreId) (f : CoreState → CoreState) : (s.onCore c f).core c = f (s.core c) :=
  s.putCore_core_self c _

theorem onCore_core_ne {c d : CoreId} (f : CoreState → CoreState) (h : c ≠ d) : (s.onCore c f).core d = s.core d :=
  s.putCore_core_ne _ h

@[simp] theorem onMe_me (f : CoreState → CoreState) : (s.onMe f).me = f s.me := s.onCore_core_self s.cur f

theorem onMe_core_ne {c : CoreId} (f : CoreState → CoreState) (h : c ≠ s.cur) : (s.onMe f).core c = s.core c :=
  s.onCore_core_ne f (Ne.symm h)

theorem me_eq_core : s.me = s.core s.cur := rfl

@[simp] theorem onPort_port_self (p : PortId) (f : Port → Port) : (s.onPort p f).port p = f (s.port p) := by
  simp [State.port, State.onPort]

theorem onPort_port_ne {p q : PortId} (f : Port → Port) (h : p ≠ q) : (s.onPort p f).port q = s.port q := by
  have h' : p.val ≠ q.val := fun e => h (Fin.ext e)
  simp [State.port, State.onPort, Vector.getElem_set_ne, h']

@[simp] theorem onGrid_grid_self (c : CoreId) (f : Grid → Grid) : (s.onGrid c f).grid c = f (s.grid c) := by
  simp [State.grid, State.onGrid, State.putGrid]

theorem onGrid_grid_ne {c d : CoreId} (f : Grid → Grid) (h : c ≠ d) : (s.onGrid c f).grid d = s.grid d := by
  have h' : c.val ≠ d.val := fun e => h (Fin.ext e)
  simp [State.grid, State.onGrid, State.putGrid, Vector.getElem_set_ne, h']

@[simp] theorem onArray_array_self (d : DieId) (f : MxArray → MxArray) : (s.onArray d f).array d = f (s.array d) := by
  simp [State.array, State.onArray]

/-- A change of the executing core alone leaves every byte as it was. -/
theorem onMe_sameMemory (f : CoreState → CoreState) : s.sameMemory (s.onMe f) := fun _ => rfl

/-- A change of the executing core alone is one of `onlyMe`. -/
theorem onMe_onlyMe (f : CoreState → CoreState) : s.onlyMe (s.onMe f) := ⟨rfl, fun _ h => s.onMe_core_ne f h⟩

theorem onlyMe_refl : s.onlyMe s := ⟨rfl, fun _ _ => rfl⟩

variable {s}

theorem onlyMe_cur {t : State} (h : s.onlyMe t) : t.cur = s.cur := by rw [h.1]

theorem onlyMe_trans {t u : State} (h : s.onlyMe t) (k : t.onlyMe u) : s.onlyMe u := by
  refine ⟨?_, fun c hc => ?_⟩
  · rw [k.1, h.1]
  · rw [k.2 c (by rw [onlyMe_cur h]; exact hc), h.2 c hc]

theorem onlyMe_bump {t : State} (h : s.onlyMe t) : s.onlyMe t.bump := by
  refine onlyMe_trans h ⟨rfl, fun _ _ => rfl⟩

end Sys2Proof.Machine.State
end

