-- ==== Sys2Proof/Laws/Memory.lean ====
section
/-! SUPPORT. Memory: every operation keeps the canonical form, a read after a write gives the value written, and a write
leaves every other byte alone. -/

namespace Sys2Proof.Machine

open Sys2Proof

namespace Memory

/-! ## The canonical form -/

/-- Every entry lies above `a`. -/
def above (a : Nat) (m : Memory) : Prop := ∀ x ∈ m, a < x.1

theorem wf_cons {x : Host.Cell} {m : Memory} : wf (x :: m) = true ↔ x.2 ≠ unlisted ∧ above x.1 m ∧ wf m = true := by
  induction m generalizing x with
  | nil => simp [wf, above]
  | cons y rest ih =>
    rw [wf]
    simp only [Bool.and_eq_true, bne_iff_ne, ne_eq, decide_eq_true_eq]
    constructor
    · rintro ⟨⟨h1, h2⟩, h3⟩
      refine ⟨h1, ?_, h3⟩
      have h4 := (ih.1 h3).2.1
      intro z hz
      rcases List.mem_cons.1 hz with rfl | hz
      · exact h2
      · exact Nat.lt_trans h2 (h4 z hz)
    · rintro ⟨h1, h2, h3⟩
      exact ⟨⟨h1, h2 y (by simp)⟩, h3⟩

theorem wf_filter (p : Host.Cell → Bool) {m : Memory} (h : wf m = true) : wf (m.filter p) = true := by
  induction m with
  | nil => rfl
  | cons x rest ih =>
    have h' := wf_cons.1 h
    rw [List.filter_cons]
    split
    · exact wf_cons.2 ⟨h'.1, fun z hz => h'.2.1 z (List.mem_filter.1 hz).1, ih h'.2.2⟩
    · exact ih h'.2.2

theorem mem_insert {c x : Host.Cell} {m : Memory} : x ∈ insert c m ↔ x = c ∨ x ∈ m := by
  induction m with
  | nil => simp [insert]
  | cons y rest ih =>
    rw [insert]
    split
    · simp
    · simp only [List.mem_cons, ih]; constructor <;> (intro h; rcases h with h | h | h <;> simp [h])

theorem wf_insert {c : Host.Cell} {m : Memory} (hc : c.2 ≠ unlisted) (hm : wf m = true) (hn : ∀ x ∈ m, x.1 ≠ c.1) :
    wf (insert c m) = true := by
  induction m with
  | nil => simp [insert, wf, hc]
  | cons y rest ih =>
    have h := wf_cons.1 hm
    rw [insert]
    split
    next hlt =>
      refine wf_cons.2 ⟨hc, fun z hz => ?_, hm⟩
      rcases List.mem_cons.1 hz with rfl | hz
      · exact hlt
      · exact Nat.lt_trans hlt (h.2.1 z hz)
    next hge =>
      refine wf_cons.2 ⟨h.1, fun z hz => ?_, ih h.2.2 fun x hx => hn x (by simp [hx])⟩
      rcases mem_insert.1 hz with rfl | hz
      · have := hn y (by simp); omega
      · exact h.2.1 z hz

/-- A write keeps the canonical form. -/
theorem wf_write {m : Memory} (a : Nat) (b : Byte) (h : wf m = true) : wf (m.write a b) = true := by
  unfold write
  simp only []
  split
  · exact wf_filter _ h
  next hb =>
    refine wf_insert hb (wf_filter _ h) fun x hx => ?_
    have := (List.mem_filter.1 hx).2
    simpa using this

theorem wf_writeBytes {m : Memory} (a : Nat) (bs : List Byte) (h : wf m = true) : wf (m.writeBytes a bs) = true := by
  induction bs generalizing m a with
  | nil => exact h
  | cons b rest ih => exact ih _ (wf_write a b h)

theorem wf_reset : wf State.reset.mem = true := rfl

/-! ## Reading after writing -/

theorem read_insert_self {a : Nat} {b : Byte} {m : Memory} (hn : ∀ x ∈ m, x.1 ≠ a) : read (insert (a, b) m) a = b := by
  induction m with
  | nil => simp [insert, read]
  | cons y rest ih =>
    have hy : y.1 ≠ a := hn y (by simp)
    rw [insert]
    split
    · simp [read]
    · have := ih fun x hx => hn x (by simp [hx])
      simpa [read, hy] using this

theorem read_insert_ne {a c : Nat} {b : Byte} {m : Memory} (h : c ≠ a) : read (insert (a, b) m) c = read m c := by
  induction m with
  | nil => simp [insert, read, Ne.symm h]
  | cons y rest ih =>
    rw [insert]
    split
    · simp [read, Ne.symm h]
    · by_cases hy : y.1 = c
      · simp [read, hy]
      · simpa [read, hy] using ih

theorem read_filter_self {a : Nat} {m : Memory} : read (m.filter fun cell => cell.1 != a) a = unlisted := by
  have : (m.filter fun cell => cell.1 != a).find? (fun cell => cell.1 == a) = none := by
    rw [List.find?_eq_none]
    intro x hx
    have := (List.mem_filter.1 hx).2
    simpa using this
  simp [read, this]

theorem read_filter_ne {a c : Nat} {m : Memory} (h : c ≠ a) : read (m.filter fun cell => cell.1 != a) c = read m c := by
  induction m with
  | nil => rfl
  | cons y rest ih =>
    by_cases hy : y.1 = a
    · have hc : (y.1 == c) = false := by simp [hy, Ne.symm h]
      simpa [List.filter_cons, hy, read, hc, Ne.symm h] using ih
    · by_cases hc : y.1 = c
      · simp [read, hc, h]
      · simpa [List.filter_cons, hy, read, hc] using ih

/-- A read after a write to the same address gives the byte written. -/
theorem read_write_self (m : Memory) (a : Nat) (b : Byte) : (m.write a b).read a = b := by
  unfold write
  simp only []
  split
  next hb => rw [read_filter_self, hb]
  · refine read_insert_self fun x hx => ?_
    have := (List.mem_filter.1 hx).2
    simpa using this

/-- A write leaves every other address alone. -/
theorem read_write_ne {m : Memory} {a c : Nat} (b : Byte) (h : c ≠ a) : (m.write a b).read c = m.read c := by
  unfold write
  simp only []
  split
  · exact read_filter_ne h
  · rw [read_insert_ne h, read_filter_ne h]

/-- Consecutive bytes: outside them nothing changes. -/
theorem read_writeBytes_out {m : Memory} {a c : Nat} (bs : List Byte) (h : c < a ∨ a + bs.length ≤ c) :
    (m.writeBytes a bs).read c = m.read c := by
  induction bs generalizing m a with
  | nil => rfl
  | cons b rest ih =>
    simp only [List.length_cons] at h
    rw [writeBytes, ih (by omega), read_write_ne b (by omega)]

/-- Consecutive bytes: inside them each address reads its byte. -/
theorem read_writeBytes_in {m : Memory} {a k : Nat} {bs : List Byte} (h : k < bs.length) :
    (m.writeBytes a bs).read (a + k) = bs[k] := by
  induction bs generalizing m a k with
  | nil => simp at h
  | cons b rest ih =>
    rw [writeBytes]
    cases k with
    | zero => rw [read_writeBytes_out rest (by omega)]; simpa using read_write_self m a b
    | succ n =>
      have := ih (m := m.write a b) (a := a + 1) (k := n) (by simpa using h)
      rw [show a + (n + 1) = a + 1 + n by omega]
      simpa using this

end Memory

/-! ## Numbers as bytes (R4) -/

@[simp] theorem leBytes_length (n v : Nat) : (leBytes n v).length = n := by
  induction n generalizing v with
  | zero => rfl
  | succ n ih => simp [leBytes, ih]

/-- The bytes of a number stand for its residue. -/
theorem leNat_leBytes (n v : Nat) : leNat (leBytes n v) = v % 256 ^ n := by
  induction n generalizing v with
  | zero => simp [leBytes, leNat, Nat.mod_one]
  | succ n ih =>
    have h : v % (256 * 256 ^ n) = v % 256 + 256 * (v / 256 % 256 ^ n) := Nat.mod_mul
    simp only [leBytes, leNat, ih, BitVec.toNat_ofNat]
    rw [show 256 ^ (n + 1) = 256 * 256 ^ n from Nat.pow_succ'.trans rfl, h]

namespace State

theorem loadByte_storeBytes_out {s : State} {a c : Nat} (bs : List Byte) (h : c < a ∨ a + bs.length ≤ c) :
    (s.storeBytes a bs).loadByte c = s.loadByte c := Memory.read_writeBytes_out bs h

theorem loadByte_storeBytes_in {s : State} {a k : Nat} {bs : List Byte} (h : k < bs.length) :
    (s.storeBytes a bs).loadByte (a + k) = bs[k] := Memory.read_writeBytes_in h

/-- A store of n bytes changes no other byte. -/
theorem loadByte_store_out {s : State} {a n v c : Nat} (h : c < a ∨ a + n ≤ c) : (s.store a n v).loadByte c = s.loadByte c :=
  loadByte_storeBytes_out _ (by simpa using h)

/-- A load of what a store of the same width has just written gives it back. -/
theorem load_store_self (s : State) (a n v : Nat) : (s.store a n v).load a n = v % 256 ^ n := by
  rw [← leNat_leBytes]
  unfold load Memory.readBytes
  congr 1
  apply List.ext_getElem
  · simp
  · intro k h1 h2
    simp only [List.getElem_map, List.getElem_range]
    exact Memory.read_writeBytes_in (bs := leBytes n v) (by simpa using h2)

/-- Every store keeps the invariant. -/
theorem storeBytes_inv {s : State} (a : Nat) (bs : List Byte) (h : s.Inv) : (s.storeBytes a bs).Inv :=
  Memory.wf_writeBytes a bs h

end State

end Sys2Proof.Machine
end

