-- ==== Sys2Proof/Laws/Gates.lean ====
section
/-! SUPPORT. The issue stage: a word that nothing holds passes its gates; its pops, its result and its next word, each said
once. -/

namespace Sys2Proof.Machine

open Sys2Proof

/-! ## Queue-mapped registers -/

theorem queueOf_eq_some {r : SReg} {q : Fin 4} : queueOf r = some q ↔ r = queueReg q := by
  revert r q; decide

theorem queueOf_queueReg (q : Fin 4) : queueOf (queueReg q) = some q := queueOf_eq_some.2 rfl

theorem queueOf_none {r : SReg} (h : r.toNat < 60) : queueOf r = none := by
  revert r; decide

theorem queueReg_toNat (q : Fin 4) : (queueReg q).toNat = 60 + q.val := by revert q; decide

theorem queueReg_inj {p q : Fin 4} : queueReg p = queueReg q ↔ p = q := by revert p q; decide

theorem queueReg_ne_zero (q : Fin 4) : queueReg q ≠ 0 := by revert q; decide

theorem sreg_cases (d : SReg) : d = 0 ∨ (d ≠ 0 ∧ d.toNat < 60) ∨ ∃ q, d = queueReg q := by revert d; decide

theorem mem_popsOf {srcs : List SReg} {q : Fin 4} : q ∈ popsOf srcs ↔ reads srcs q := by
  simp [popsOf, reads, queueOf_eq_some]

theorem popsOf_nodup (srcs : List SReg) : (popsOf srcs).Nodup := (List.nodup_finRange 4).filter _

/-! ## Gates -/

namespace State

variable {s t : State} {srcs : List SReg} {hs : List HReg} {d : SReg} {k : Out}

theorem emptyPop_of_hasValues (h : s.hasValues srcs) : s.emptyPop srcs = none := by
  rw [emptyPop, List.find?_eq_none]
  intro q hq
  have := h q (mem_popsOf.1 hq)
  simpa using this

theorem starvedPop_of_hasValues (h : s.hasValues srcs) : s.starvedPop srcs = none := by
  rw [starvedPop, List.find?_eq_none]
  intro q hq
  have := h q (mem_popsOf.1 hq)
  have he : (s.me.inQ[q]).isEmpty = false := by simpa using this
  rw [starves, he]
  simp

theorem popGate_of_hasValues (h : s.hasValues srcs) : s.popGate srcs k = k := by
  rw [popGate, starvedPop_of_hasValues h, emptyPop_of_hasValues h]

theorem pushGate_of_hasRoom (h : s.hasRoom d) : s.pushGate d k = k := by
  rw [pushGate]
  cases hq : queueOf d with
  | none => rfl
  | some q =>
    have hr := h q (queueOf_eq_some.1 hq)
    obtain ⟨h1, h2, h3⟩ := hr
    have hin : ¬ (q.val < 2 ∧ inLocal ((s.pushPtr q).toNat + 8 * (s.me.outQ[q]).length) 8 = false) := by
      rintro ⟨hlt, hf⟩
      simp only [inLocal, decide_eq_false_iff_not] at hf
      rcases (show q = 0 ∨ q = 1 by omega) with rfl | rfl
      · have := h2 rfl; simp [pushPtr] at hf; simp at this; omega
      · have := h3 rfl; simp [pushPtr] at hf; simp at this; omega
    simp only []
    rw [if_neg hin, if_neg (by omega)]

theorem scoreboardUntil_le (h : s.scoreboardFree srcs hs) (hc : s.me.checked = true) :
    ¬ s.clock < s.scoreboardUntil srcs hs := by
  have : ((s.me.liveShadows s.clock).filter fun h =>
      if h.handle then hs.any fun r => r.toNat == h.reg else srcs.any fun r => r.toNat == h.reg) = [] := by
    rw [List.filter_eq_nil_iff]
    intro x hx
    have hx' := List.mem_filter.1 hx
    have := h hc x hx'.1 (by simpa using hx'.2)
    cases hh : x.handle with
    | false => simp only [Bool.false_eq_true, if_false, List.any_eq_true, not_exists, not_and]
               intro r hr; simpa using this.1 hh r hr
    | true => simp only [if_true, List.any_eq_true, not_exists, not_and]
              intro r hr; simpa using this.2 hh r hr
  rw [scoreboardUntil, this]
  simp

/-- A word that nothing holds acts. -/
theorem issueGate_of_free (h : s.Free srcs hs d) : s.issueGate srcs hs d k = k := by
  rw [issueGate, if_neg (fun hh => scoreboardUntil_le h.scoreboard hh.1 hh.2), popGate_of_hasValues h.values,
    pushGate_of_hasRoom h.room]

theorem hasRoom_zero : s.hasRoom 0 := fun q h => absurd h.symm (queueReg_ne_zero q)

/-! ## Pops -/

/-- What popping does to the executing core. -/
theorem popAll_eq (s : State) (srcs : List SReg) :
    s.popAll srcs = s ∧ popsOf srcs = [] ∨ s.popAll srcs = s.onMe fun x =>
      { x with inQ := (popsOf srcs).foldl (fun (v : Vector (List Word) 4) (q : Fin 4) => v.set q (v[q].drop 1)) x.inQ, dirtyQ := true } := by
  unfold popAll
  cases h : popsOf srcs with
  | nil => exact .inl ⟨rfl, rfl⟩
  | cons a l => exact .inr rfl

theorem foldl_drop (qs : List (Fin 4)) (hn : qs.Nodup) (v : Vector (List Word) 4) (q : Fin 4) :
    (qs.foldl (fun (v : Vector (List Word) 4) (q : Fin 4) => v.set q (v[q].drop 1)) v)[q] =
      if q ∈ qs then v[q].drop 1 else v[q] := by
  induction qs generalizing v with
  | nil => simp
  | cons a l ih =>
    have hn' := List.nodup_cons.1 hn
    rw [List.foldl_cons, ih hn'.2]
    by_cases h : q = a
    · subst h
      simp [hn'.1]
    · have hv : a.val ≠ q.val := fun e => h (Fin.ext e).symm
      simp [h, Vector.getElem_set_ne, hv]

theorem popAll_popped (s : State) (srcs : List SReg) : s.popped (s.popAll srcs) srcs := by
  intro q
  rcases popAll_eq s srcs with ⟨h, he⟩ | h
  · rw [h]
    have : ¬ reads srcs q := fun hr => by have := mem_popsOf.2 hr; simp [he] at this
    exact ⟨fun hr => absurd hr this, fun _ => rfl⟩
  · rw [h, onMe_me]
    simp only [foldl_drop _ (popsOf_nodup srcs)]
    exact ⟨fun hr => if_pos (mem_popsOf.2 hr), fun hr => if_neg (fun hm => hr (mem_popsOf.1 hm))⟩

theorem popAll_onlyMe (s : State) (srcs : List SReg) : s.onlyMe (s.popAll srcs) := by
  rcases popAll_eq s srcs with ⟨h, _⟩ | h
  · rw [h]; exact s.onlyMe_refl
  · rw [h]; exact s.onMe_onlyMe _

@[simp] theorem popAll_cur (s : State) (srcs : List SReg) : (s.popAll srcs).cur = s.cur := (popAll_onlyMe s srcs).1 ▸ rfl

@[simp] theorem popAll_clock (s : State) (srcs : List SReg) : (s.popAll srcs).clock = s.clock := (popAll_onlyMe s srcs).1 ▸ rfl

@[simp] theorem popAll_mem (s : State) (srcs : List SReg) : (s.popAll srcs).mem = s.mem := (popAll_onlyMe s srcs).1 ▸ rfl

/-- Popping touches only the inbound queues. -/
theorem popAll_me (s : State) (srcs : List SReg) :
    ∃ v b, (s.popAll srcs).me = { s.me with inQ := v, dirtyQ := b } := by
  rcases popAll_eq s srcs with ⟨h, _⟩ | h
  · exact ⟨s.me.inQ, s.me.dirtyQ, by rw [h]⟩
  · exact ⟨_, true, by rw [h, onMe_me]⟩

/-! ## Results -/

/-- The end of every word: a free value has been used, and issue goes on. -/
theorem bump_advance_me (s : State) : s.bump.advance.me = s.me.advance s.clock := by
  simp [advance]

theorem writeReg_onlyMe (s : State) (d : SReg) (v : Word) (bound : Nat) : s.onlyMe (s.writeReg d v bound) := by
  unfold writeReg
  split
  · exact s.onlyMe_refl
  · split
    · exact s.onMe_onlyMe _
    · exact s.onMe_onlyMe _

@[simp] theorem writeReg_clock (s : State) (d : SReg) (v : Word) (bound : Nat) : (s.writeReg d v bound).clock = s.clock :=
  (writeReg_onlyMe s d v bound).1 ▸ rfl

@[simp] theorem writeReg_cur (s : State) (d : SReg) (v : Word) (bound : Nat) : (s.writeReg d v bound).cur = s.cur :=
  (writeReg_onlyMe s d v bound).1 ▸ rfl

@[simp] theorem writeReg_mem (s : State) (d : SReg) (v : Word) (bound : Nat) : (s.writeReg d v bound).mem = s.mem :=
  (writeReg_onlyMe s d v bound).1 ▸ rfl

/-- A register write touches only registers, outbound entries and shadows of its core. -/
theorem writeReg_me (s : State) (d : SReg) (v : Word) (bound : Nat) :
    ∃ r o p h b c, (s.writeReg d v bound).me =
      { s.me with regs := r, outQ := o, pushes := p, shadows := h, dirtyS := b, dirtyQ := c } := by
  unfold writeReg
  split
  · exact ⟨_, _, _, _, _, _, rfl⟩
  · split
    · exact ⟨_, _, _, _, _, _, by rw [pushOut, onMe_me]⟩
    · exact ⟨_, _, _, _, _, _, by simp only []; rw [onMe_me]⟩

/-- What a result leaves readable in its shadow. -/
theorem writeReg_shaded (s : State) (d : SReg) (v : Word) (bound : Nat) : s.shaded (s.writeReg d v bound) d bound := by
  rcases sreg_cases d with rfl | ⟨h0, h60⟩ | ⟨q, rfl⟩
  · have hw : s.writeReg 0 v bound = s := by simp [writeReg]
    rw [hw]
    exact ⟨fun h => absurd rfl h, fun _ _ _ => Iff.rfl⟩
  · have hw : (s.writeReg d v bound).me.shadows =
        if bound ≤ 1 then (s.me.liveShadows s.clock).filter fun h => !(!h.handle && h.reg == d.toNat)
        else { handle := false, reg := d.toNat, old := (s.me.regs[d.toNat] : Word).setWidth 256, landsAt := s.clock + bound } ::
          (((s.me.liveShadows s.clock).filter fun h => !h.handle && h.reg == d.toNat).map fun h =>
            { h with landsAt := min h.landsAt (s.clock + bound) }) ++
          (s.me.liveShadows s.clock).filter fun h => !(!h.handle && h.reg == d.toNat) := by
      unfold writeReg
      rw [if_neg h0, queueOf_none h60]
      simp only []
      rw [onMe_me]
    have notMine : ∀ h : Shadow, h ∈ (s.me.liveShadows s.clock).filter (fun h => !(!h.handle && h.reg == d.toNat)) ↔
        (h ∈ s.me.shadows ∧ s.clock < h.landsAt) ∧ (h.handle = true ∨ h.reg ≠ d.toNat) := by
      intro h
      rw [List.mem_filter, CoreState.liveShadows, List.mem_filter]
      cases hh : h.handle <;> simp
    refine ⟨fun _ _ => ⟨fun hb => ?_, fun h hm hf hr => ?_⟩, fun h hl ho => ?_⟩
    · rw [hw, if_neg (by omega)]
      exact ⟨_, List.mem_cons_self, rfl, rfl, rfl, rfl⟩
    · rw [hw] at hm
      split at hm
      · have := ((notMine h).1 hm).2
        simp [hf, hr] at this
      · rcases List.mem_cons.1 hm with rfl | hm
        · exact Nat.le_refl _
        · rcases List.mem_append.1 hm with hm | hm
          · obtain ⟨g, _, rfl⟩ := List.mem_map.1 hm
            exact Nat.min_le_right _ _
          · have := ((notMine h).1 hm).2
            simp [hf, hr] at this
    · have ho' : h.handle = true ∨ h.reg ≠ d.toNat := by
        rcases ho with h | h | h
        · exact .inl h
        · exact .inr h
        · exact absurd h h0
      have other : h ∈ (s.me.liveShadows s.clock).filter (fun h => !(!h.handle && h.reg == d.toNat)) ↔ h ∈ s.me.shadows :=
        (notMine h).trans ⟨fun x => x.1.1, fun x => ⟨⟨x, hl⟩, ho'⟩⟩
      rw [hw]
      split
      · exact other
      · rw [List.cons_append, List.mem_cons, List.mem_append, other]
        refine ⟨fun x => ?_, fun x => .inr (.inr x)⟩
        rcases x with rfl | x | x
        · simp at ho'
        · obtain ⟨g, hg, rfl⟩ := List.mem_map.1 x
          have := (List.mem_filter.1 hg).2
          simp only [Bool.and_eq_true, Bool.not_eq_true', beq_iff_eq] at this
          simp [this.1, this.2] at ho'
        · exact x
  · have hw : (s.writeReg (queueReg q) v bound).me.shadows = s.me.shadows := by
      unfold writeReg
      rw [if_neg (queueReg_ne_zero q), queueOf_queueReg]
      simp only []
      rw [pushOut, onMe_me]
    refine ⟨fun _ h => ?_, fun h _ _ => by rw [hw]⟩
    rw [queueReg_toNat] at h; omega

theorem writeReg_wrote (s : State) (d : SReg) (v : Word) (bound : Nat) : s.wrote (s.writeReg d v bound) d v bound := by
  rcases sreg_cases d with rfl | ⟨h0, h60⟩ | ⟨q, rfl⟩
  · have hw : s.writeReg 0 v bound = s := by simp [writeReg]
    rw [hw]
    refine ⟨hw ▸ writeReg_shaded s 0 v bound, fun r => ?_, fun q => ⟨fun _ => rfl, fun h => absurd h.symm (queueReg_ne_zero q)⟩⟩
    rw [if_neg]
    rintro ⟨h1, h2, _⟩
    exact h2 h1
  · have hw : (s.writeReg d v bound).me.regs = s.me.regs.set d.toNat v ∧ (s.writeReg d v bound).me.outQ = s.me.outQ := by
      unfold writeReg
      rw [if_neg h0, queueOf_none h60]
      simp only []
      rw [onMe_me]
      exact ⟨rfl, rfl⟩
    refine ⟨writeReg_shaded s d v bound, fun r => ?_, fun q => ⟨fun _ => by rw [hw.2], fun h => ?_⟩⟩
    · have h60' : r = d → r.toNat < 60 := fun e => e ▸ h60
      simp only [hw.1]
      by_cases h : r = d
      · subst h
        rw [if_pos ⟨rfl, h0, h60⟩]
        exact Vector.getElem_set_self _
      · have hv : d.toNat ≠ r.toNat := fun e => h (BitVec.eq_of_toNat_eq e).symm
        rw [Vector.getElem_set_ne _ _ hv, if_neg (by simp [h])]
    · rw [h, queueReg_toNat] at h60; omega
  · have hw : (s.writeReg (queueReg q) v bound).me.regs = s.me.regs ∧
        (s.writeReg (queueReg q) v bound).me.outQ = s.me.outQ.set q (s.me.outQ[q] ++
          [{ value := v, landsAt := s.clock + 1 + s.freeNat 11 % max bound 1, afterA := s.me.enqueued[(0 : Fin 5)],
             serial := s.me.pushes }]) := by
      unfold writeReg
      rw [if_neg (queueReg_ne_zero q), queueOf_queueReg]
      simp only []
      rw [pushOut, onMe_me]
      exact ⟨rfl, rfl⟩
    refine ⟨writeReg_shaded s _ v bound, fun r => ?_, fun p => ⟨fun h => ?_, fun h => ?_⟩⟩
    · rw [hw.1, if_neg]
      rintro ⟨rfl, _, h⟩
      rw [queueReg_toNat] at h; omega
    · have hv : q.val ≠ p.val := fun e => h (by rw [Fin.ext e])
      simp only [hw.2, Fin.getElem_fin]
      rw [Vector.getElem_set_ne _ _ hv]
    · have := queueReg_inj.1 h
      subst this
      have hb : s.freeNat 11 % max bound 1 < max bound 1 := Nat.mod_lt _ (by omega)
      refine ⟨{ value := v, landsAt := s.clock + 1 + s.freeNat 11 % max bound 1, afterA := s.me.enqueued[(0 : Fin 5)],
                serial := s.me.pushes }, ?_, rfl, ?_, ?_, rfl⟩
      · simp only [hw.2, Fin.getElem_fin, Vector.getElem_set_self]
      · show s.clock < s.clock + 1 + s.freeNat 11 % max bound 1
        omega
      · show s.clock + 1 + s.freeNat 11 % max bound 1 ≤ s.clock + max bound 1
        omega

/-- Everything a scalar word with a result does, once nothing holds it. -/
theorem scalarEnd_scalar (s : State) (srcs : List SReg) (d : SReg) (v : Word) (bound : Nat) :
    s.Scalar (((s.popAll srcs).writeReg d v bound).bump.advance) srcs d v bound := by
  have hp := popAll_popped s srcs
  have hw := writeReg_wrote (s.popAll srcs) d v bound
  obtain ⟨iq, dq, hpm⟩ := popAll_me s srcs
  obtain ⟨r, o, p, h, b, c, hwm⟩ := writeReg_me (s.popAll srcs) d v bound
  have hme := bump_advance_me ((s.popAll srcs).writeReg d v bound)
  have hon : s.onlyMe (((s.popAll srcs).writeReg d v bound).bump.advance) :=
    onlyMe_trans (onlyMe_bump (onlyMe_trans (popAll_onlyMe s srcs) (writeReg_onlyMe _ d v bound))) (onMe_onlyMe _ _)
  refine ⟨fun q => ?_, ⟨?_, fun x => ?_, fun q => ?_⟩, ?_, fun a => ?_, ?_, hon⟩
  · rw [hme, hwm]; exact hp q
  · have hx := hw.1
    have hc : (s.popAll srcs).clock = s.clock := popAll_clock s srcs
    rw [shaded, hpm, hc] at hx
    rw [shaded, hme]
    exact hx
  · rw [hme]
    have := hw.2.1 x
    rw [hpm] at this
    simpa [CoreState.advance] using this
  · rw [hme]
    have := hw.2.2 q
    rw [hpm] at this
    simpa [CoreState.advance] using this
  · rw [goesOn, goesTo, hme, hwm, hpm]
    simp [CoreState.advance]
  · rw [loadByte, hon.1]; rfl
  · rw [CoreState.scalarFrame, hme, hwm, hpm]
    rfl

/-- A scalar word with a result completes. -/
theorem scalarResult_of_free {bound : Nat} {v : Word} (h : s.Free srcs hs d) :
    s.scalarResult srcs hs d bound v = .next (((s.popAll srcs).writeReg d v bound).bump.advance) := by
  rw [scalarResult, issueGate_of_free h]

end State

end Sys2Proof.Machine
end

