-- ==== Sys2Proof/Laws/PerInstr.lean ====
section
/-! SUPPORT. For every instruction: it has an encoding exactly when it is a word or a step of a link program; an event has
none. -/

namespace Sys2Proof.Laws.Encoded

open Sys2Proof

/-- The rows of the opcode table that are words (R48 to R54) or steps (R224); the rest are events of the module. -/
def isWord : Instr → Bool
  | .illegalWord _ | .icacheLineFill _ | .engineIssue _ _ | .retirement _ _ _
  | .heldWordPasses _ | .outboundQueueStore _ _ | .asyncTrapTaken _ | .preemption _
  | .imageSaveEnd _ | .taskResume _ | .taskDispatch | .workQueueTailLoss _ _
  | .graphAdmission _ | .completionRecordWrite _ | .quotaPeriodStart _ | .meterWindowStart
  | .meterCycle | .channelWordMove _ | .gridPass _ | .xinLanding _
  | .xoutRead _ | .gcfgLoadEnd _ | .boardSwap _ | .boardDrained _
  | .spineEdgeJoin _ | .spineEdgePart _ | .arrayArbitration _ | .leaseTermEnd _
  | .spillSaveEnd _ | .spillRestoreEnd _ | .slotBoundary | .guardControlExchange _ _
  | .rackShareApply | .messageAdmission _ | .messageLanding _ _ | .linkProgramStart _
  | .calendarSwitch | .relockWindow | .newEpoch | .retrainStart _
  | .retrainEnd _ | .messageBoundary _ | .groupWakeEnd _ _ | .monitorIntervalEnd
  | .orngWrite _ _ | .droop _ | .droopInjectionStop _ _ | .warmBudgetWindowEnd
  | .oclaim _ | .ohand _ _ | .handoverTimeout | .ptbrWrite _ _
  | .hbudgetWrite _ _ | .bswitch _ _ | .ostop _ _ | .opre _ _
  | .rtset _ _ | .ownerRegisterWrite _ _ _ | .ago _ | .attestationDone
  | .fwgo _ _ | .alarm _ | .eccError _ _ | .flitError _ _
  | .cxlLinkError | .crossingParityError _ | .hostMemoryAccess _ | .powerOn
  | .moduleReset | .coldReady | .coldExcursion _ | .idleGapEnd _ => false
  | _ => true

/-- The encoder answers a word for a word, and none for an event. -/
def Statement (i : Instr) : Prop := (encode i).isSome = isWord i

theorem nop : Statement (.nop) := rfl
theorem add : ∀ x0 x1 x2 x3, Statement (.add x0 x1 x2 x3) := fun _ _ _ _ => rfl
theorem sub : ∀ x0 x1 x2 x3, Statement (.sub x0 x1 x2 x3) := fun _ _ _ _ => rfl
theorem mul : ∀ x0 x1 x2 x3, Statement (.mul x0 x1 x2 x3) := fun _ _ _ _ => rfl
theorem mulh : ∀ x0 x1 x2 x3, Statement (.mulh x0 x1 x2 x3) := fun _ _ _ _ => rfl
theorem mulhn : ∀ x0 x1 x2 x3, Statement (.mulhn x0 x1 x2 x3) := fun _ _ _ _ => rfl
theorem div : ∀ x0 x1 x2 x3, Statement (.div x0 x1 x2 x3) := fun _ _ _ _ => rfl
theorem divn : ∀ x0 x1 x2 x3, Statement (.divn x0 x1 x2 x3) := fun _ _ _ _ => rfl
theorem rem : ∀ x0 x1 x2 x3, Statement (.rem x0 x1 x2 x3) := fun _ _ _ _ => rfl
theorem remn : ∀ x0 x1 x2 x3, Statement (.remn x0 x1 x2 x3) := fun _ _ _ _ => rfl
theorem and : ∀ x0 x1 x2 x3, Statement (.and x0 x1 x2 x3) := fun _ _ _ _ => rfl
theorem or : ∀ x0 x1 x2 x3, Statement (.or x0 x1 x2 x3) := fun _ _ _ _ => rfl
theorem xor : ∀ x0 x1 x2 x3, Statement (.xor x0 x1 x2 x3) := fun _ _ _ _ => rfl
theorem shl : ∀ x0 x1 x2 x3, Statement (.shl x0 x1 x2 x3) := fun _ _ _ _ => rfl
theorem shr : ∀ x0 x1 x2 x3, Statement (.shr x0 x1 x2 x3) := fun _ _ _ _ => rfl
theorem sha : ∀ x0 x1 x2 x3, Statement (.sha x0 x1 x2 x3) := fun _ _ _ _ => rfl
theorem clz : ∀ x0 x1 x2, Statement (.clz x0 x1 x2) := fun _ _ _ => rfl
theorem popc : ∀ x0 x1 x2, Statement (.popc x0 x1 x2) := fun _ _ _ => rfl
theorem min : ∀ x0 x1 x2 x3, Statement (.min x0 x1 x2 x3) := fun _ _ _ _ => rfl
theorem minn : ∀ x0 x1 x2 x3, Statement (.minn x0 x1 x2 x3) := fun _ _ _ _ => rfl
theorem max : ∀ x0 x1 x2 x3, Statement (.max x0 x1 x2 x3) := fun _ _ _ _ => rfl
theorem maxn : ∀ x0 x1 x2 x3, Statement (.maxn x0 x1 x2 x3) := fun _ _ _ _ => rfl
theorem cmp : ∀ x0 x1 x2 x3 x4, Statement (.cmp x0 x1 x2 x3 x4) := fun _ _ _ _ _ => rfl
theorem plog : ∀ x0 x1 x2 x3, Statement (.plog x0 x1 x2 x3) := fun _ _ _ _ => rfl
theorem sel : ∀ x0 x1 x2 x3, Statement (.sel x0 x1 x2 x3) := fun _ _ _ _ => rfl
theorem mov : ∀ x0 x1, Statement (.mov x0 x1) := fun _ _ => rfl
theorem lit : ∀ x0 x1 x2, Statement (.lit x0 x1 x2) := fun _ _ _ => rfl
theorem sts : ∀ x0 x1 x2 x3 x4, Statement (.sts x0 x1 x2 x3 x4) := fun _ _ _ _ _ => rfl
theorem b : ∀ x0 x1, Statement (.b x0 x1) := fun _ _ => rfl
theorem call : ∀ x0 x1, Statement (.call x0 x1) := fun _ _ => rfl
theorem ret : ∀ x0, Statement (.ret x0) := fun _ => rfl
theorem jr : ∀ x0 x1, Statement (.jr x0 x1) := fun _ _ => rfl
theorem loop : ∀ x0 x1, Statement (.loop x0 x1) := fun _ _ => rfl
theorem waitc : ∀ x0 x1, Statement (.waitc x0 x1) := fun _ _ => rfl
theorem rdv : ∀ x0, Statement (.rdv x0) := fun _ => rfl
theorem fmt : ∀ x0, Statement (.fmt x0) := fun _ => rfl
theorem hset : ∀ x0 x1 x2, Statement (.hset x0 x1 x2) := fun _ _ _ => rfl
theorem hget : ∀ x0 x1 x2, Statement (.hget x0 x1 x2) := fun _ _ _ => rfl
theorem hmov : ∀ x0 x1, Statement (.hmov x0 x1) := fun _ _ => rfl
theorem hoff : ∀ x0 x1 x2, Statement (.hoff x0 x1 x2) := fun _ _ _ => rfl
theorem hslice : ∀ x0 x1 x2 x3 x4, Statement (.hslice x0 x1 x2 x3 x4) := fun _ _ _ _ _ => rfl
theorem addi : ∀ x0 x1 x2, Statement (.addi x0 x1 x2) := fun _ _ _ => rfl
theorem andi : ∀ x0 x1 x2, Statement (.andi x0 x1 x2) := fun _ _ _ => rfl
theorem ori : ∀ x0 x1 x2, Statement (.ori x0 x1 x2) := fun _ _ _ => rfl
theorem xori : ∀ x0 x1 x2, Statement (.xori x0 x1 x2) := fun _ _ _ => rfl
theorem shli : ∀ x0 x1 x2, Statement (.shli x0 x1 x2) := fun _ _ _ => rfl
theorem shri : ∀ x0 x1 x2, Statement (.shri x0 x1 x2) := fun _ _ _ => rfl
theorem shai : ∀ x0 x1 x2, Statement (.shai x0 x1 x2) := fun _ _ _ => rfl
theorem cmpi : ∀ x0 x1 x2 x3, Statement (.cmpi x0 x1 x2 x3) := fun _ _ _ _ => rfl
theorem movi : ∀ x0 x1, Statement (.movi x0 x1) := fun _ _ => rfl
theorem movhi : ∀ x0 x1 x2, Statement (.movhi x0 x1 x2) := fun _ _ _ => rfl
theorem lds : ∀ x0 x1 x2 x3, Statement (.lds x0 x1 x2 x3) := fun _ _ _ _ => rfl
theorem ld : ∀ x0 x1 x2 x3 x4, Statement (.ld x0 x1 x2 x3 x4) := fun _ _ _ _ _ => rfl
theorem st : ∀ x0 x1 x2 x3 x4 x5, Statement (.st x0 x1 x2 x3 x4 x5) := fun _ _ _ _ _ _ => rfl
theorem copy : ∀ x0 x1 x2 x3, Statement (.copy x0 x1 x2 x3) := fun _ _ _ _ => rfl
theorem gath : ∀ x0 x1 x2, Statement (.gath x0 x1 x2) := fun _ _ _ => rfl
theorem scat : ∀ x0 x1 x2, Statement (.scat x0 x1 x2) := fun _ _ _ => rfl
theorem feed : ∀ x0 x1 x2 x3, Statement (.feed x0 x1 x2 x3) := fun _ _ _ _ => rfl
theorem take : ∀ x0 x1 x2 x3, Statement (.take x0 x1 x2 x3) := fun _ _ _ _ => rfl
theorem xin : ∀ x0 x1 x2 x3, Statement (.xin x0 x1 x2 x3) := fun _ _ _ _ => rfl
theorem xout : ∀ x0 x1 x2 x3, Statement (.xout x0 x1 x2 x3) := fun _ _ _ _ => rfl
theorem seqt : ∀ x0 x1 x2, Statement (.seqt x0 x1 x2) := fun _ _ _ => rfl
theorem gcfg : ∀ x0 x1, Statement (.gcfg x0 x1) := fun _ _ => rfl
theorem gswap : ∀ x0, Statement (.gswap x0) := fun _ => rfl
theorem gswapat : ∀ x0 x1, Statement (.gswapat x0 x1) := fun _ _ => rfl
theorem grun : ∀ x0 x1, Statement (.grun x0 x1) := fun _ _ => rfl
theorem ghalt : ∀ x0, Statement (.ghalt x0) := fun _ => rfl
theorem gfill : ∀ x0 x1, Statement (.gfill x0 x1) := fun _ _ => rfl
theorem gset : ∀ x0 x1 x2, Statement (.gset x0 x1 x2) := fun _ _ _ => rfl
theorem glink : ∀ x0 x1 x2, Statement (.glink x0 x1 x2) := fun _ _ _ => rfl
theorem gstat : ∀ x0 x1, Statement (.gstat x0 x1) := fun _ _ => rfl
theorem lease : ∀ x0 x1, Statement (.lease x0 x1) := fun _ _ => rfl
theorem free : ∀ x0, Statement (.free x0) := fun _ => rfl
theorem shelf : ∀ x0 x1, Statement (.shelf x0 x1) := fun _ _ => rfl
theorem mmaStream : ∀ x0 x1 x2 x3, Statement (.mmaStream x0 x1 x2 x3) := fun _ _ _ _ => rfl
theorem mmaShelf : ∀ x0 x1 x2, Statement (.mmaShelf x0 x1 x2) := fun _ _ _ => rfl
theorem norm : ∀ x0, Statement (.norm x0) := fun _ => rfl
theorem accz : ∀ x0, Statement (.accz x0) := fun _ => rfl
theorem accsv : ∀ x0 x1, Statement (.accsv x0 x1) := fun _ _ => rfl
theorem accld : ∀ x0 x1, Statement (.accld x0 x1) := fun _ _ => rfl
theorem drain : ∀ x0 x1 x2, Statement (.drain x0 x1 x2) := fun _ _ _ => rfl
theorem send : ∀ x0 x1 x2 x3 x4, Statement (.send x0 x1 x2 x3 x4) := fun _ _ _ _ _ => rfl
theorem sendred : ∀ x0 x1 x2 x3 x4 x5, Statement (.sendred x0 x1 x2 x3 x4 x5) := fun _ _ _ _ _ _ => rfl
theorem pull : ∀ x0 x1 x2 x3 x4, Statement (.pull x0 x1 x2 x3 x4) := fun _ _ _ _ _ => rfl
theorem cal : ∀ x0 x1, Statement (.cal x0 x1) := fun _ _ => rfl
theorem lprog : ∀ x0 x1 x2, Statement (.lprog x0 x1 x2) := fun _ _ _ => rfl
theorem lstart : ∀ x0 x1 x2, Statement (.lstart x0 x1 x2) := fun _ _ _ => rfl
theorem lphase : ∀ x0 x1, Statement (.lphase x0 x1) := fun _ _ => rfl
theorem lmark : ∀ x0, Statement (.lmark x0) := fun _ => rfl
theorem lhold : ∀ x0 x1, Statement (.lhold x0 x1) := fun _ _ => rfl
theorem lshed : ∀ x0 x1, Statement (.lshed x0 x1) := fun _ _ => rfl
theorem lgate : ∀ x0 x1, Statement (.lgate x0 x1) := fun _ _ => rfl
theorem lwake : ∀ x0 x1, Statement (.lwake x0 x1) := fun _ _ => rfl
theorem lidle : ∀ x0 x1, Statement (.lidle x0 x1) := fun _ _ => rfl
theorem aadd : ∀ x0 x1 x2 x3 x4 x5, Statement (.aadd x0 x1 x2 x3 x4 x5) := fun _ _ _ _ _ _ => rfl
theorem amin : ∀ x0 x1 x2 x3 x4 x5 x6, Statement (.amin x0 x1 x2 x3 x4 x5 x6) := fun _ _ _ _ _ _ _ => rfl
theorem amax : ∀ x0 x1 x2 x3 x4 x5 x6, Statement (.amax x0 x1 x2 x3 x4 x5 x6) := fun _ _ _ _ _ _ _ => rfl
theorem axchg : ∀ x0 x1 x2 x3 x4 x5, Statement (.axchg x0 x1 x2 x3 x4 x5) := fun _ _ _ _ _ _ => rfl
theorem acas : ∀ x0 x1 x2 x3 x4 x5, Statement (.acas x0 x1 x2 x3 x4 x5) := fun _ _ _ _ _ _ => rfl
theorem fence : ∀ x0 x1, Statement (.fence x0 x1) := fun _ _ => rfl
theorem phreg : ∀ x0 x1, Statement (.phreg x0 x1) := fun _ _ => rfl
theorem phdrop : ∀ x0, Statement (.phdrop x0) := fun _ => rfl
theorem phsig : ∀ x0, Statement (.phsig x0) := fun _ => rfl
theorem phwait : ∀ x0 x1, Statement (.phwait x0 x1) := fun _ _ => rfl
theorem pharr : ∀ x0, Statement (.pharr x0) := fun _ => rfl
theorem phbyt : ∀ x0 x1, Statement (.phbyt x0 x1) := fun _ _ => rfl
theorem rninit : ∀ x0 x1, Statement (.rninit x0 x1) := fun _ _ => rfl
theorem rnclm : ∀ x0 x1, Statement (.rnclm x0 x1) := fun _ _ => rfl
theorem rnpub : ∀ x0 x1, Statement (.rnpub x0 x1) := fun _ _ => rfl
theorem rntake : ∀ x0 x1, Statement (.rntake x0 x1) := fun _ _ => rfl
theorem rnret : ∀ x0 x1, Statement (.rnret x0 x1) := fun _ _ => rfl
theorem rnwaitf : ∀ x0, Statement (.rnwaitf x0) := fun _ => rfl
theorem rnwaite : ∀ x0, Statement (.rnwaite x0) := fun _ => rfl
theorem trap : ∀ x0, Statement (.trap x0) := fun _ => rfl
theorem eret : Statement (.eret) := rfl
theorem halt : Statement (.halt) := rfl
theorem yield : Statement (.yield) := rfl
theorem sprd : ∀ x0 x1 x2, Statement (.sprd x0 x1 x2) := fun _ _ _ => rfl
theorem spwr : ∀ x0 x1 x2, Statement (.spwr x0 x1 x2) := fun _ _ _ => rfl
theorem tlbi : ∀ x0 x1, Statement (.tlbi x0 x1) := fun _ _ => rfl
theorem icinv : ∀ x0 x1, Statement (.icinv x0 x1) := fun _ _ => rfl
theorem heatr : ∀ x0 x1, Statement (.heatr x0 x1) := fun _ _ => rfl
theorem bkpt : ∀ x0, Statement (.bkpt x0) := fun _ => rfl
theorem linkEnd : Statement (.linkEnd) := rfl
theorem linkSend : ∀ x0 x1 x2 x3 x4, Statement (.linkSend x0 x1 x2 x3 x4) := fun _ _ _ _ _ => rfl
theorem linkWait : ∀ x0 x1, Statement (.linkWait x0 x1) := fun _ _ => rfl
theorem linkWake : ∀ x0, Statement (.linkWake x0) := fun _ => rfl
theorem linkGate : ∀ x0, Statement (.linkGate x0) := fun _ => rfl
theorem setk : ∀ x0 x1, Statement (.setk x0 x1) := fun _ _ => rfl
theorem linkLoop : ∀ x0 x1, Statement (.linkLoop x0 x1) := fun _ _ => rfl
theorem seta : ∀ x0 x1, Statement (.seta x0 x1) := fun _ _ => rfl
theorem adda : ∀ x0 x1, Statement (.adda x0 x1) := fun _ _ => rfl
theorem parm : ∀ x0, Statement (.parm x0) := fun _ => rfl
theorem illegalWord : ∀ x0, Statement (.illegalWord x0) := fun _ => rfl
theorem icacheLineFill : ∀ x0, Statement (.icacheLineFill x0) := fun _ => rfl
theorem engineIssue : ∀ x0 x1, Statement (.engineIssue x0 x1) := fun _ _ => rfl
theorem retirement : ∀ x0 x1 x2, Statement (.retirement x0 x1 x2) := fun _ _ _ => rfl
theorem heldWordPasses : ∀ x0, Statement (.heldWordPasses x0) := fun _ => rfl
theorem outboundQueueStore : ∀ x0 x1, Statement (.outboundQueueStore x0 x1) := fun _ _ => rfl
theorem asyncTrapTaken : ∀ x0, Statement (.asyncTrapTaken x0) := fun _ => rfl
theorem preemption : ∀ x0, Statement (.preemption x0) := fun _ => rfl
theorem imageSaveEnd : ∀ x0, Statement (.imageSaveEnd x0) := fun _ => rfl
theorem taskResume : ∀ x0, Statement (.taskResume x0) := fun _ => rfl
theorem taskDispatch : Statement (.taskDispatch) := rfl
theorem workQueueTailLoss : ∀ x0 x1, Statement (.workQueueTailLoss x0 x1) := fun _ _ => rfl
theorem graphAdmission : ∀ x0, Statement (.graphAdmission x0) := fun _ => rfl
theorem completionRecordWrite : ∀ x0, Statement (.completionRecordWrite x0) := fun _ => rfl
theorem quotaPeriodStart : ∀ x0, Statement (.quotaPeriodStart x0) := fun _ => rfl
theorem meterWindowStart : Statement (.meterWindowStart) := rfl
theorem meterCycle : Statement (.meterCycle) := rfl
theorem channelWordMove : ∀ x0, Statement (.channelWordMove x0) := fun _ => rfl
theorem gridPass : ∀ x0, Statement (.gridPass x0) := fun _ => rfl
theorem xinLanding : ∀ x0, Statement (.xinLanding x0) := fun _ => rfl
theorem xoutRead : ∀ x0, Statement (.xoutRead x0) := fun _ => rfl
theorem gcfgLoadEnd : ∀ x0, Statement (.gcfgLoadEnd x0) := fun _ => rfl
theorem boardSwap : ∀ x0, Statement (.boardSwap x0) := fun _ => rfl
theorem boardDrained : ∀ x0, Statement (.boardDrained x0) := fun _ => rfl
theorem spineEdgeJoin : ∀ x0, Statement (.spineEdgeJoin x0) := fun _ => rfl
theorem spineEdgePart : ∀ x0, Statement (.spineEdgePart x0) := fun _ => rfl
theorem arrayArbitration : ∀ x0, Statement (.arrayArbitration x0) := fun _ => rfl
theorem leaseTermEnd : ∀ x0, Statement (.leaseTermEnd x0) := fun _ => rfl
theorem spillSaveEnd : ∀ x0, Statement (.spillSaveEnd x0) := fun _ => rfl
theorem spillRestoreEnd : ∀ x0, Statement (.spillRestoreEnd x0) := fun _ => rfl
theorem slotBoundary : Statement (.slotBoundary) := rfl
theorem guardControlExchange : ∀ x0 x1, Statement (.guardControlExchange x0 x1) := fun _ _ => rfl
theorem rackShareApply : Statement (.rackShareApply) := rfl
theorem messageAdmission : ∀ x0, Statement (.messageAdmission x0) := fun _ => rfl
theorem messageLanding : ∀ x0 x1, Statement (.messageLanding x0 x1) := fun _ _ => rfl
theorem linkProgramStart : ∀ x0, Statement (.linkProgramStart x0) := fun _ => rfl
theorem calendarSwitch : Statement (.calendarSwitch) := rfl
theorem relockWindow : Statement (.relockWindow) := rfl
theorem newEpoch : Statement (.newEpoch) := rfl
theorem retrainStart : ∀ x0, Statement (.retrainStart x0) := fun _ => rfl
theorem retrainEnd : ∀ x0, Statement (.retrainEnd x0) := fun _ => rfl
theorem messageBoundary : ∀ x0, Statement (.messageBoundary x0) := fun _ => rfl
theorem groupWakeEnd : ∀ x0 x1, Statement (.groupWakeEnd x0 x1) := fun _ _ => rfl
theorem monitorIntervalEnd : Statement (.monitorIntervalEnd) := rfl
theorem orngWrite : ∀ x0 x1, Statement (.orngWrite x0 x1) := fun _ _ => rfl
theorem droop : ∀ x0, Statement (.droop x0) := fun _ => rfl
theorem droopInjectionStop : ∀ x0 x1, Statement (.droopInjectionStop x0 x1) := fun _ _ => rfl
theorem warmBudgetWindowEnd : Statement (.warmBudgetWindowEnd) := rfl
theorem oclaim : ∀ x0, Statement (.oclaim x0) := fun _ => rfl
theorem ohand : ∀ x0 x1, Statement (.ohand x0 x1) := fun _ _ => rfl
theorem handoverTimeout : Statement (.handoverTimeout) := rfl
theorem ptbrWrite : ∀ x0 x1, Statement (.ptbrWrite x0 x1) := fun _ _ => rfl
theorem hbudgetWrite : ∀ x0 x1, Statement (.hbudgetWrite x0 x1) := fun _ _ => rfl
theorem bswitch : ∀ x0 x1, Statement (.bswitch x0 x1) := fun _ _ => rfl
theorem ostop : ∀ x0 x1, Statement (.ostop x0 x1) := fun _ _ => rfl
theorem opre : ∀ x0 x1, Statement (.opre x0 x1) := fun _ _ => rfl
theorem rtset : ∀ x0 x1, Statement (.rtset x0 x1) := fun _ _ => rfl
theorem ownerRegisterWrite : ∀ x0 x1 x2, Statement (.ownerRegisterWrite x0 x1 x2) := fun _ _ _ => rfl
theorem ago : ∀ x0, Statement (.ago x0) := fun _ => rfl
theorem attestationDone : Statement (.attestationDone) := rfl
theorem fwgo : ∀ x0 x1, Statement (.fwgo x0 x1) := fun _ _ => rfl
theorem alarm : ∀ x0, Statement (.alarm x0) := fun _ => rfl
theorem eccError : ∀ x0 x1, Statement (.eccError x0 x1) := fun _ _ => rfl
theorem flitError : ∀ x0 x1, Statement (.flitError x0 x1) := fun _ _ => rfl
theorem cxlLinkError : Statement (.cxlLinkError) := rfl
theorem crossingParityError : ∀ x0, Statement (.crossingParityError x0) := fun _ => rfl
theorem hostMemoryAccess : ∀ x0, Statement (.hostMemoryAccess x0) := fun _ => rfl
theorem powerOn : Statement (.powerOn) := rfl
theorem moduleReset : Statement (.moduleReset) := rfl
theorem coldReady : Statement (.coldReady) := rfl
theorem coldExcursion : ∀ x0, Statement (.coldExcursion x0) := fun _ => rfl
theorem idleGapEnd : ∀ x0, Statement (.idleGapEnd x0) := fun _ => rfl

end Sys2Proof.Laws.Encoded
end

