-- ==== Sys2Proof/Laws/Step.lean ====
section
/-! SUPPORT. Everything that one step can do, said once (log 1), and what the notes of descriptors that have still to act hold. -/

namespace Sys2Proof.Machine

open Sys2Proof

/-- A note joins those that stand there, and no other goes. -/
theorem mem_insertNote {n v : Note} {ns : List Note} : v ∈ insertNote n ns ↔ v = n ∨ v ∈ ns := by
  induction ns with
  | nil => simp [insertNote]
  | cons m rest ih =>
    unfold insertNote
    split
    · simp
    · simp only [List.mem_cons, ih]
      exact or_left_comm

/-- A descriptor that does not act leaves no note. -/
theorem notifyLater_of_idle {s : State} {c : CoreId} {e : Engine} {q : QEntry} (h : notifyActs q.notify = false) :
    s.notifyLater c e q = s := by simp [State.notifyLater, h]

/-- A word without a descriptor ends with its retirement alone. -/
theorem finish_plain {s : State} {c : CoreId} {e : Engine} {q : QEntry} {bytes : Nat} (h : q.notify = 0) :
    s.finish c e q bytes = s.retire c e q := by
  have hk : notifyKind q.notify = 0 := by rw [h]; rfl
  have ha : notifyActs q.notify = false := by rw [h]; rfl
  rw [State.finish, State.notifyLanded, if_neg (fun k => by rw [hk] at k; exact absurd k.1 (by decide)), notifyLater_of_idle ha]

/-- What a step of the second half of a wc can do. -/
theorem closingStep_cases {s t : State} (h : closingStep s = .next t) :
    t = s.landWc ∨
    (∃ p rest, s.portTurn = p :: rest ∧ act (portTurn p { s with portTurn := rest, curPort := p }) = .next t) ∨
    t = s.sweepGrids ∨
    (∃ n rest, s.noteDue = some (n, rest) ∧ t = { s with notes := rest }.applyNote n) ∨
    t = s.closeWc ∨
    (∃ e rest, s.closing = e :: rest ∧ exec e { s with closing := rest } = .next t) ∨
    (∃ c rest, s.closing = [] ∧ s.late = c :: rest ∧ act (lateTurn c { s with late := rest, cur := c }) = .next t) ∨
    (s.closing = [] ∧ s.late = [] ∧ t = s.tick) := by
  unfold closingStep at h
  split at h
  · exact .inl (by simpa using h.symm)
  · split at h
    · rename_i p rest hp
      refine .inr (.inl ⟨p, rest, ?_, h⟩)
      split at hp
      · exact absurd hp (by simp)
      · exact hp
    · split at h
      · exact .inr (.inr (.inl (by simpa using h.symm)))
      · split at h
        · rename_i n hn
          exact .inr (.inr (.inr (.inl ⟨n.1, n.2, hn, by simpa using h.symm⟩)))
        · split at h
          · exact .inr (.inr (.inr (.inr (.inl (by simpa using h.symm)))))
          · split at h
            · rename_i e rest he
              exact .inr (.inr (.inr (.inr (.inr (.inl ⟨e, rest, he, h⟩)))))
            · rename_i he
              unfold endStep at h
              split at h
              · rename_i c rest hc
                exact .inr (.inr (.inr (.inr (.inr (.inr (.inl ⟨c, rest, he, hc, h⟩))))))
              · rename_i hc
                exact .inr (.inr (.inr (.inr (.inr (.inr (.inr ⟨he, hc, by simpa using h.symm⟩))))))

/-- What a step can do. -/
theorem step_cases {s t : State} (h : step s = .next t) :
    (∃ e rest, s.agenda = e :: rest ∧
      ((waitsInWc e = true ∧ t = { s with agenda := rest, closing := insertClosing e s.closing }) ∨
        (waitsInWc e = false ∧ exec e { s with agenda := rest } = .next t))) ∨
    (∃ c rest, s.agenda = [] ∧ s.turn = c :: rest ∧ act (earlyTurn c { s with turn := rest, cur := c }) = .next t) ∨
    (s.agenda = [] ∧ s.turn = [] ∧ closingStep s = .next t) := by
  unfold step at h
  split at h
  · rename_i e rest he
    refine .inl ⟨e, rest, he, ?_⟩
    split at h
    · rename_i hw
      exact .inl ⟨hw, by simpa using h.symm⟩
    · rename_i hw
      exact .inr ⟨by simpa using hw, h⟩
  · rename_i he
    split at h
    · rename_i c rest hc
      exact .inr (.inl ⟨c, rest, he, hc, h⟩)
    · rename_i hc
      exact .inr (.inr ⟨he, hc, h⟩)

end Sys2Proof.Machine
end

