-- ==== Sys2Proof/Laws/Words.lean ====
section
/-! SUPPORT. The shared shapes of S words beside a scalar result: a predicate, a handle, a pass, a branch; and enqueue. Each
lemma says everything the shared operation does once nothing holds the word. -/

namespace Sys2Proof.Machine

open Sys2Proof

namespace State

variable {s t u : State} {srcs : List SReg} {hs : List HReg} {d : SReg}

/-- A state that differs from s by a change of the executing core and a fresh free value. -/
theorem sameMemory_of_onlyMe (h : s.onlyMe t) : s.sameMemory t := fun a => by rw [loadByte, h.1]; rfl

theorem advance_onlyMe (s : State) : s.onlyMe s.advance := s.onMe_onlyMe _

@[simp] theorem advance_me (s : State) : s.advance.me = s.me.advance s.clock := s.onMe_me _

/-! ## Passing -/

/-- A word without a result completes: its pops and the next word. -/
theorem passEnd_passed (s : State) (srcs : List SReg) : s.Passed ((s.popAll srcs).bump.advance) srcs := by
  have hp := popAll_popped s srcs
  obtain ⟨iq, dq, hpm⟩ := popAll_me s srcs
  have hme := bump_advance_me (s.popAll srcs)
  have hon : s.onlyMe ((s.popAll srcs).bump.advance) :=
    onlyMe_trans (onlyMe_bump (popAll_onlyMe s srcs)) (advance_onlyMe _)
  refine ⟨fun q => ?_, ?_, sameMemory_of_onlyMe hon, ?_, hon⟩
  · rw [hme]; exact hp q
  · rw [goesOn, goesTo, hme, hpm]; simp [CoreState.advance]
  · rw [hme, hpm]; rfl

/-- A word that does nothing at all. -/
theorem advance_passed (s : State) : s.Passed s.advance [] := by
  refine ⟨fun q => ⟨fun h => by simp [reads] at h, fun _ => by rw [advance_me]; rfl⟩, ?_, fun _ => rfl, ?_, advance_onlyMe s⟩
  · rw [goesOn, goesTo, advance_me]; simp [CoreState.advance]
  · rw [advance_me]; rfl

/-! ## Predicates -/

theorem writePred_onlyMe (s : State) (p : PReg) (b : Bool) : s.onlyMe (s.writePred p b) := by
  unfold writePred
  split
  · exact s.onlyMe_refl
  · exact s.onMe_onlyMe _

theorem writePred_me (s : State) (p : PReg) (b : Bool) : ∃ v, (s.writePred p b).me = { s.me with preds := v } := by
  unfold writePred
  split
  · exact ⟨_, rfl⟩
  · exact ⟨_, by rw [onMe_me]⟩

theorem predBit_set : ∀ p r : PReg, (BitVec.ofNat 8 (2 ^ p.toNat)).getLsbD r.toNat = decide (r = p) := by decide

theorem writePred_bit (s : State) (p r : PReg) (b : Bool) :
    (s.writePred p b).me.preds.getLsbD r.toNat = if r = p ∧ r ≠ 0 then b else s.me.preds.getLsbD r.toNat := by
  have hr : r.toNat < 8 := r.isLt
  unfold writePred
  split
  next h =>
    rw [if_neg]
    rintro ⟨h1, h2⟩
    exact h2 (h1.trans h)
  next h =>
    rw [onMe_me]
    cases b <;> by_cases hpr : r = p <;>
      simp only [Bool.false_eq_true, if_false, if_true, BitVec.getLsbD_or, BitVec.getLsbD_and, BitVec.getLsbD_not, predBit_set,
        hr, hpr, decide_true, decide_false, Bool.and_false, Bool.not_true, Bool.or_true, Bool.or_false, Bool.and_true,
        Bool.not_false, false_and, true_and, ne_eq, h, not_false_eq_true]

/-- A word that writes a predicate completes. -/
theorem predicateWord_of_free {p : PReg} {b : Bool} (h : s.Free srcs [] 0) :
    ∃ t, s.predicateWord srcs p b = .next t ∧ s.Predicate t srcs p b := by
  have hp := popAll_popped s srcs
  obtain ⟨iq, dq, hpm⟩ := popAll_me s srcs
  obtain ⟨v, hwm⟩ := writePred_me (s.popAll srcs) p b
  have hme := bump_advance_me ((s.popAll srcs).writePred p b)
  have hon : s.onlyMe (((s.popAll srcs).writePred p b).bump.advance) :=
    onlyMe_trans (onlyMe_bump (onlyMe_trans (popAll_onlyMe s srcs) (writePred_onlyMe _ p b))) (advance_onlyMe _)
  have hclk : ((s.popAll srcs).writePred p b).clock = s.clock := by
    rw [(writePred_onlyMe (s.popAll srcs) p b).1]; simp
  refine ⟨_, by rw [predicateWord, issueGate_of_free h], fun q => ?_, fun r => ?_, ?_, sameMemory_of_onlyMe hon, ?_, hon⟩
  · rw [hme, hwm]; exact hp q
  · have := writePred_bit (s.popAll srcs) p r b
    rw [hme]
    simp only [CoreState.advance]
    rw [this, hpm]
  · rw [goesOn, goesTo, hme, hclk, hwm, hpm]; simp [CoreState.advance]
  · rw [hme, hwm, hpm]; rfl

/-! ## Handles -/

theorem writeHandle_onlyMe (s : State) (h : HReg) (v : HandleBits) (bound : Nat) : s.onlyMe (s.writeHandle h v bound) :=
  s.onMe_onlyMe _

theorem writeHandle_me (s : State) (h : HReg) (v : HandleBits) (bound : Nat) :
    ∃ sh, (s.writeHandle h v bound).me = { s.me with handles := s.me.handles.set h.toNat v, shadows := sh, dirtyH := true } := by
  unfold writeHandle
  exact ⟨_, by simp only []; rw [onMe_me]⟩

theorem handles_set (v : Vector HandleBits 16) (h r : HReg) (x : HandleBits) :
    (v.set h.toNat x)[r.toNat] = if r = h then x else v[r.toNat] := by
  by_cases e : r = h
  · subst e; simp
  · have hv : h.toNat ≠ r.toNat := fun e' => e (BitVec.eq_of_toNat_eq e').symm
    rw [Vector.getElem_set_ne _ _ hv, if_neg e]

/-- What a handle word does. -/
theorem handleEnd_written (s : State) (srcs : List SReg) (hd : HReg) (v : HandleBits) (bound : Nat) :
    s.HandleWritten (((s.popAll srcs).writeHandle hd v bound).bump.advance) srcs hd v := by
  have hp := popAll_popped s srcs
  obtain ⟨iq, dq, hpm⟩ := popAll_me s srcs
  obtain ⟨sh, hwm⟩ := writeHandle_me (s.popAll srcs) hd v bound
  have hme := bump_advance_me ((s.popAll srcs).writeHandle hd v bound)
  have hon : s.onlyMe (((s.popAll srcs).writeHandle hd v bound).bump.advance) :=
    onlyMe_trans (onlyMe_bump (onlyMe_trans (popAll_onlyMe s srcs) (writeHandle_onlyMe _ hd v bound))) (advance_onlyMe _)
  have hclk : ((s.popAll srcs).writeHandle hd v bound).clock = s.clock := by
    rw [(writeHandle_onlyMe (s.popAll srcs) hd v bound).1]; simp
  refine ⟨fun q => ?_, fun r => ?_, ?_, sameMemory_of_onlyMe hon, ?_, hon⟩
  · rw [hme, hwm]; exact hp q
  · rw [hme, hwm, hpm]; exact handles_set _ _ _ _
  · rw [goesOn, goesTo, hme, hclk, hwm, hpm]; simp [CoreState.advance]
  · rw [hme, hwm, hpm]; rfl

theorem handleResult_of_free {hd : HReg} {v : HandleBits} {bound : Nat} (h : s.Free srcs hs 0) :
    ∃ t, s.handleResult srcs hs hd bound v = .next t ∧ s.HandleWritten t srcs hd v :=
  ⟨_, by rw [handleResult, issueGate_of_free h], handleEnd_written s srcs hd v bound⟩

/-! ## Branches -/

@[simp] theorem branch_me (s : State) (x : Word) : (s.branch x).me = s.me.branchTo x s.clock := s.onMe_me _

theorem branch_onlyMe (s : State) (x : Word) : s.onlyMe (s.branch x) := s.onMe_onlyMe _

/-- A taken branch to a register value. -/
theorem branchEnd_branched (s : State) (srcs : List SReg) (x : Word) : s.Branched ((s.popAll srcs).bump.branch x) srcs x := by
  have hp := popAll_popped s srcs
  obtain ⟨iq, dq, hpm⟩ := popAll_me s srcs
  have hon : s.onlyMe ((s.popAll srcs).bump.branch x) :=
    onlyMe_trans (onlyMe_bump (popAll_onlyMe s srcs)) (branch_onlyMe _ x)
  refine ⟨fun q => ?_, ?_, sameMemory_of_onlyMe hon, ?_, hon⟩
  · rw [branch_me]; exact hp q
  · rw [goesTo, branch_me]; simp [CoreState.branchTo]
  · rw [branch_me, bump_me, hpm]; rfl

/-! ## Enqueue -/

theorem pinPage_onlyMe {p : PageMap} (h : pinPage s s.cur p = .ok t) : ∃ l, t = s.onMe fun x => { x with tlb := l } := by
  unfold pinPage at h
  simp only [] at h
  have key : ∀ f : CoreState → CoreState, (∃ g : List TlbEntry → List TlbEntry, ∀ x, f x = { x with tlb := g x.tlb }) →
      ∃ l, s.onCore s.cur f = s.onMe fun x => { x with tlb := l } := by
    rintro f ⟨g, hg⟩
    refine ⟨g s.me.tlb, ?_⟩
    simp only [onMe, onCore, hg]
    rfl
  split at h
  · cases h; exact key _ ⟨fun l => l.map fun e => if e.page == p then { e with pins := e.pins + 1 } else e, fun _ => rfl⟩
  · split at h
    · cases h; exact key _ ⟨fun l => l ++ [{ page := p, pins := 1, stale := false }], fun _ => rfl⟩
    · split at h
      · cases h
      · next v _ => cases h; exact key _ ⟨fun l => (l.filter fun e => e != v) ++ [{ page := p, pins := 1, stale := false }], fun _ => rfl⟩

theorem onMe_tlb_tlb (s : State) (l m : List TlbEntry) :
    (s.onMe fun x => { x with tlb := l }).onMe (fun x => { x with tlb := m }) = s.onMe fun x => { x with tlb := m } := by
  simp only [onMe, onCore, putCore, core, Fin.getElem_fin, Vector.getElem_set_self, Vector.set_set]

theorem onMe_tlb_self (s : State) : (s.onMe fun x => { x with tlb := x.tlb }) = s := by
  simp only [onMe, onCore, putCore, core, Fin.getElem_fin, Vector.set_getElem_self]

theorem pinEach_onMe {ps : List PageMap} (h : pinEach s s.cur ps = .ok t) : t = s.onMe fun x => { x with tlb := t.me.tlb } := by
  induction ps generalizing s with
  | nil => cases h; exact (onMe_tlb_self _).symm
  | cons p rest ih =>
    rw [pinEach] at h
    cases hp : pinPage s s.cur p with
    | error e => rw [hp] at h; cases h
    | ok v =>
      rw [hp] at h
      obtain ⟨l, rfl⟩ := pinPage_onlyMe hp
      have := ih (s := s.onMe fun x => { x with tlb := l }) h
      rw [onMe_tlb_tlb] at this
      exact this

/-- Pinning pages changes the translation buffer of the core and nothing else. -/
theorem pinPages_onMe {ps : List PageMap} (h : pinPages s s.cur ps = .ok t) : t = s.onMe fun x => { x with tlb := t.me.tlb } := pinEach_onMe h

theorem walkTime_nil (s : State) : s.walkTime [] = 0 := by rfl

theorem missed_of_held {ps : List PageMap} (h : ∀ p ∈ ps, (tlbLookup s.me p.va).isSome) : s.missed ps = [] := by
  have hf : ps.filter (fun p => (tlbLookup s.me p.va).isNone) = [] := by
    rw [List.filter_eq_nil_iff]
    intro p hp
    cases hh : tlbLookup s.me p.va with
    | none => have := h p hp; rw [hh] at this; cases this
    | some _ => simp
  rw [missed, hf]
  rfl

/-- An engine word whose operands pass its checks enters its queue. -/
theorem enqueueWith_of_enters {e : Engine} {q : QEntry} {f : State → State} (h : s.Enters e srcs q.pages u) :
    s.enqueueWith e srcs (.ok (q, f)) = .next ((((f (u.popAll srcs)).append e q).bump.advance).holdOn (readHold s q)) := by
  rw [enqueueWith, popGate_of_hasValues h.values, if_neg (by have := h.place; omega)]
  simp only [missed_of_held h.held, walkTime_nil, ne_eq, not_true_eq_false, if_false, h.pins]

/-- The same for a word whose capture changes its core alone. -/
theorem enqueue_of_enters {e : Engine} {q : QEntry} {f : CoreState → CoreState} (h : s.Enters e srcs q.pages u) :
    s.enqueue e srcs (.ok (q, f)) = .next (((((u.popAll srcs).onMe f).append e q).bump.advance).holdOn (readHold s q)) :=
  enqueueWith_of_enters (f := fun t => t.onMe f) h

theorem engIdx_inj {i j : Engine} : engIdx i = engIdx j ↔ i = j := by cases i <;> cases j <;> decide

@[simp] theorem append_me (s : State) (e : Engine) (q : QEntry) : (s.append e q).me =
    { (s.me.putQueue e (s.me.queue e ++ [q])) with
      enqueued := s.me.enqueued.set (engIdx e) (q.number + 1), order := s.me.order + 1 } := s.onMe_me _

theorem append_onlyMe (s : State) (e : Engine) (q : QEntry) : s.onlyMe (s.append e q) := s.onMe_onlyMe _

/-- What an enqueue does: the entry joins, pins are taken, sources are popped, and issue goes on. `f` is what the word's capture
changes besides. -/
theorem enqueueEnd_joined {e : Engine} {q : QEntry} {f : CoreState → CoreState} (h : s.Enters e srcs q.pages u)
    (hn : q.number = s.me.enqueued[engIdx e]) (hq : ∀ x, (f x).queues = x.queues) (he : ∀ x, (f x).enqueued = x.enqueued)
    (ht : ∀ x, (f x).tlb = x.tlb) (hi : ∀ x, (f x).inQ = x.inQ) (hp : ∀ x, (f x).pc = x.pc) :
    s.Joined (((((u.popAll srcs).onMe f).append e q).bump.advance).holdOn (readHold s q)) e srcs q u ∧
      s.onlyMe (((((u.popAll srcs).onMe f).append e q).bump.advance).holdOn (readHold s q)) := by
  have hu := pinPages_onMe h.pins
  have hon : s.onlyMe u := by rw [hu]; exact s.onMe_onlyMe _
  have hon' : s.onlyMe (((((u.popAll srcs).onMe f).append e q).bump.advance).holdOn (readHold s q)) :=
    onlyMe_trans hon (onlyMe_trans (popAll_onlyMe u srcs) (onlyMe_trans (onMe_onlyMe _ f)
      (onlyMe_trans (onlyMe_bump (append_onlyMe _ e q)) (onlyMe_trans (advance_onlyMe _) (onMe_onlyMe _ _)))))
  have hum : u.me = { s.me with tlb := u.me.tlb } := by
    conv => lhs; rw [hu]
    rw [onMe_me]
  have hpp := popAll_popped u srcs
  obtain ⟨iq, dq, hpm⟩ := popAll_me u srcs
  have hme : (((((u.popAll srcs).onMe f).append e q).bump.advance).holdOn (readHold s q)).me =
      { (((u.popAll srcs).onMe f).append e q).me.advance (((u.popAll srcs).onMe f).append e q).clock with
        issueAt := (((u.popAll srcs).onMe f).append e q).clock + 1 + readHold s q } := by
    rw [holdOn, onMe_me, bump_advance_me]; rfl
  have hclk : (((u.popAll srcs).onMe f).append e q).clock = s.clock := by
    have := (onlyMe_trans hon (onlyMe_trans (popAll_onlyMe u srcs) (onlyMe_trans (onMe_onlyMe _ f) (append_onlyMe _ e q)))).1
    rw [this]
  rw [hclk, append_me, onMe_me] at hme
  have hfq : ∀ k, (f (u.popAll srcs).me).queue k = s.me.queue k := fun k => by
    have := congrArg CoreState.queues hum
    simp only [CoreState.queue, hq, hpm, this]
  refine ⟨⟨?_, fun k hk => ?_, ?_, ?_, fun k => ?_, ?_, sameMemory_of_onlyMe hon', hon'.2⟩, hon'⟩
  · rw [hme]
    simp only [CoreState.advance, CoreState.queue, CoreState.putQueue, Fin.getElem_fin, Vector.getElem_set_self]
    exact congrArg (· ++ [q]) (hfq e)
  · rw [hme]
    have hv : (engIdx e).val ≠ (engIdx k).val := fun e' => hk (engIdx_inj.1 (Fin.ext e')).symm
    simp only [CoreState.advance, CoreState.queue, CoreState.putQueue, Fin.getElem_fin]
    rw [Vector.getElem_set_ne _ _ hv]
    exact hfq k
  · rw [hme]
    have := congrArg CoreState.enqueued hum
    simp only [CoreState.advance, he, hpm, hn, this]
  · rw [hme]
    simp only [CoreState.advance, CoreState.putQueue, ht, hpm]
  · rw [hme]
    have h1 := hpp k
    have h2 := congrArg CoreState.inQ hum
    simp only [h2] at h1
    simpa only [CoreState.advance, CoreState.putQueue, hi] using h1
  · have hpc : (((((u.popAll srcs).onMe f).append e q).bump.advance).holdOn (readHold s q)).me.pc = s.me.pc + 4 := by
      rw [hme]
      have := congrArg CoreState.pc hum
      simp only [CoreState.advance, CoreState.putQueue, hp, hpm, this]
    split
    · next hi =>
      refine ⟨hpc, ?_, ?_, by rw [hme]; rfl⟩ <;> rw [hme]
      · show s.clock < s.clock + 1 + readHold s q
        omega
      · show s.clock + 1 + readHold s q ≤ s.clock + (17 + q.accessT)
        have : readHold s q < 17 + q.accessT := by rw [readHold, hi]; exact Nat.mod_lt _ (by omega)
        omega
    · next hi =>
      refine ⟨hpc, ?_, by rw [hme]; rfl⟩
      rw [hme]
      show s.clock + 1 + readHold s q = s.clock + 1
      have : readHold s q = 0 := by
        unfold readHold; split
        · next h => exact (hi _ _ h).elim
        · rfl
      omega

/-- An engine word whose meaning is one enqueue joins: exec is that enqueue, the entry is as captured, and `f` keeps what an
enqueue keeps; `n` is where issue goes on. -/
theorem joins_of {i : Instr} {e : Engine} {q : QEntry} {f : CoreState → CoreState} {P : QEntry → CoreState → Prop}
    (hx : exec i s = s.enqueue e srcs (.ok (q, f))) (hq : s.EntryOf e i q)
    (h1 : ∀ x, (f x).queues = x.queues) (h2 : ∀ x, (f x).enqueued = x.enqueued)
    (h3 : ∀ x, (f x).tlb = x.tlb) (h4 : ∀ x, (f x).inQ = x.inQ) (h5 : ∀ x, (f x).pc = x.pc)
    (hP : ∀ (u : State) (iq : Vector (List Word) 4) (dq : Bool) (n : Nat),
      let x := f { s.me with inQ := iq, dirtyQ := dq, tlb := u.me.tlb }
      P q { ({ x.putQueue e (x.queue e ++ [q]) with
        enqueued := x.enqueued.set (engIdx e) (q.number + 1), order := x.order + 1 } : CoreState).advance s.clock with issueAt := n }) :
    s.joins i e srcs q.pages P := by
  intro u hu
  have hj := enqueueEnd_joined (f := f) hu hq.number h1 h2 h3 h4 h5
  refine ⟨_, q, hx.trans (enqueue_of_enters hu), hq, rfl, hj.1, hj.2, ?_⟩
  have hpin := pinPages_onMe hu.pins
  have hon : s.onlyMe u := by rw [hpin]; exact s.onMe_onlyMe _
  have hum : u.me = { s.me with tlb := u.me.tlb } := by
    conv => lhs; rw [hpin]
    rw [onMe_me]
  obtain ⟨iq, dq, hpm⟩ := popAll_me u srcs
  have hme : (((((u.popAll srcs).onMe f).append e q).bump.advance).holdOn (readHold s q)).me =
      { (((u.popAll srcs).onMe f).append e q).me.advance (((u.popAll srcs).onMe f).append e q).clock with
        issueAt := (((u.popAll srcs).onMe f).append e q).clock + 1 + readHold s q } := by
    rw [holdOn, onMe_me, bump_advance_me]; rfl
  have hclk : (((u.popAll srcs).onMe f).append e q).clock = s.clock := by
    have := (onlyMe_trans hon (onlyMe_trans (popAll_onlyMe u srcs) (onlyMe_trans (onMe_onlyMe _ f) (append_onlyMe _ e q)))).1
    rw [this]
  rw [hclk, append_me, onMe_me] at hme
  rw [hme]
  have : (u.popAll srcs).me = { s.me with inQ := iq, dirtyQ := dq, tlb := u.me.tlb } := by
    rw [hpm]
    exact congrArg (fun x : CoreState => ({ x with inQ := iq, dirtyQ := dq } : CoreState)) hum
  rw [this]
  exact hP u iq dq _

/-- The entry of a word as it is enqueued. -/
theorem newEntry_entryOf (s : State) (e : Engine) (i : Instr) : s.EntryOf e i (s.newEntry e i) := ⟨rfl, rfl, rfl, rfl, rfl, rfl⟩

end State

end Sys2Proof.Machine
end

