-- ==== Sys2Proof/Tests/Slice0.lean ====
section
/-! SUPPORT. Tests: ill-formed terms, a word of every encoding, and for each statement with hypotheses a state and operands
that meet them. -/

open Sys2Proof Sys2Proof.Machine

/-! ## Well-formedness: one ill-formed term for each check -/

theorem test_wf_signed_only : (Instr.mulh { natural := true, width := .b32 } 1 2 3).wf = false ∧
    (Instr.min { natural := true, width := .b32 } 1 2 3).wf = false := by decide

theorem test_wf_natural_only : (Instr.shr { natural := false, width := .b32 } 1 2 3).wf = false ∧
    (Instr.clz { natural := false, width := .b8 } 1 2).wf = false := by decide

theorem test_wf_plain_destination : (Instr.loop 60 1).wf = false ∧ (Instr.gstat 63 0).wf = false ∧ (Instr.cal 0 60).wf = false ∧
    (Instr.rnclm 61 1).wf = false ∧ (Instr.aadd { pred := 0, invert := false } .relaxed .core true 62 1).wf = false := by decide

theorem test_wf_even_handle : (Instr.copy .s24 1 3 0).wf = false ∧ (Instr.gath 1 3 0).wf = false ∧ (Instr.copy .plain 1 3 0).wf = true := by
  decide

theorem test_wf_cas_pair : (Instr.acas { pred := 0, invert := false } .relaxed .core true 3 1).wf = false ∧
    (Instr.acas { pred := 0, invert := false } .relaxed .core true 60 1).wf = false := by decide

/-! ## Decoding -/

/-- A word decodes to an instruction, which encodes to it. -/
def decodesAs (w : Word32) (i : Instr) : Bool := (decode w).toOption == some i && encode i == some w

/-- A step word reads as a step of a link program, which encodes to it. -/
def decodesLinkAs (w : Word32) (i : Instr) : Bool := (decodeLink w).toOption == some i && encode i == some w

/-- The manual's own encoding examples (R28, R29, R31, R34, R36, R38). -/
theorem test_decode_manual : decodesAs 0x01060848 (.add { natural := false, width := .b32 } 3 1 2) ∧ decodesAs 0x158a2fff (.addi 5 5 0xfff) ∧
    decodesAs 0x0e87fffd (.b { pred := 0, invert := false } 0x7fffd) ∧
    decodesAs 0x0e286240 (.sts { pred := 2, invert := true } .b32 3 4 0) ∧ decodesAs 0x23182200 (.feed 3 2 1 0) ∧
    decodesAs 0x80b24380 (.send 3 .v 2 7 0) := by decide

/-- R30, R32, R40: reserved codes and unused opcodes are no instructions. -/
theorem test_decode_reserved : (decode 0x0b8c0000).toOption = none ∧ (decode 0x0d818000).toOption = none ∧ (decode 0).toOption = none ∧
    (decode 0xe0000000).toOption = none ∧ (decodeLink 0xa0000000).toOption = none := by decide

/-- R27, R28: every word of the group, its fields written out. -/
theorem test_decode_arithmetic :
    decodesAs (0b000#3 ++ 0x01#6 ++ 0#23) (.nop) ∧
    decodesAs (0b000#3 ++ 0x02#6 ++ 3#6 ++ 1#6 ++ 2#6 ++ 0b010#3 ++ 0#2) (.add ({ natural := false, width := .b32 }) 3 1 2) ∧
    decodesAs (0b000#3 ++ 0x03#6 ++ 3#6 ++ 1#6 ++ 2#6 ++ 0b010#3 ++ 0#2) (.sub ({ natural := false, width := .b32 }) 3 1 2) ∧
    decodesAs (0b000#3 ++ 0x04#6 ++ 3#6 ++ 1#6 ++ 2#6 ++ 0b010#3 ++ 0#2) (.mul ({ natural := false, width := .b32 }) 3 1 2) ∧
    decodesAs (0b000#3 ++ 0x05#6 ++ 3#6 ++ 1#6 ++ 2#6 ++ 0b010#3 ++ 0#2) (.mulh ({ natural := false, width := .b32 }) 3 1 2) ∧
    decodesAs (0b000#3 ++ 0x07#6 ++ 3#6 ++ 1#6 ++ 2#6 ++ 0b010#3 ++ 0#2) (.div ({ natural := false, width := .b32 }) 3 1 2) ∧
    decodesAs (0b000#3 ++ 0x09#6 ++ 3#6 ++ 1#6 ++ 2#6 ++ 0b010#3 ++ 0#2) (.rem ({ natural := false, width := .b32 }) 3 1 2) ∧
    decodesAs (0b000#3 ++ 0x0b#6 ++ 3#6 ++ 1#6 ++ 2#6 ++ 0b010#3 ++ 0#2) (.and ({ natural := false, width := .b32 }) 3 1 2) ∧
    decodesAs (0b000#3 ++ 0x0c#6 ++ 3#6 ++ 1#6 ++ 2#6 ++ 0b010#3 ++ 0#2) (.or ({ natural := false, width := .b32 }) 3 1 2) ∧
    decodesAs (0b000#3 ++ 0x0d#6 ++ 3#6 ++ 1#6 ++ 2#6 ++ 0b010#3 ++ 0#2) (.xor ({ natural := false, width := .b32 }) 3 1 2) ∧
    decodesAs (0b000#3 ++ 0x0e#6 ++ 3#6 ++ 1#6 ++ 2#6 ++ 0b010#3 ++ 0#2) (.shl ({ natural := false, width := .b32 }) 3 1 2) ∧
    decodesAs (0b000#3 ++ 0x10#6 ++ 3#6 ++ 1#6 ++ 2#6 ++ 0b010#3 ++ 0#2) (.sha ({ natural := false, width := .b32 }) 3 1 2) ∧
    decodesAs (0b000#3 ++ 0x13#6 ++ 3#6 ++ 1#6 ++ 2#6 ++ 0b010#3 ++ 0#2) (.min ({ natural := false, width := .b32 }) 3 1 2) ∧
    decodesAs (0b000#3 ++ 0x15#6 ++ 3#6 ++ 1#6 ++ 2#6 ++ 0b010#3 ++ 0#2) (.max ({ natural := false, width := .b32 }) 3 1 2) ∧
    decodesAs (0b000#3 ++ 0x06#6 ++ 60#6 ++ 0#6 ++ 59#6 ++ 0b111#3 ++ 0#2) (.mulhn ({ natural := true, width := .b64 }) 60 0 59) ∧
    decodesAs (0b000#3 ++ 0x08#6 ++ 60#6 ++ 0#6 ++ 59#6 ++ 0b111#3 ++ 0#2) (.divn ({ natural := true, width := .b64 }) 60 0 59) ∧
    decodesAs (0b000#3 ++ 0x0a#6 ++ 60#6 ++ 0#6 ++ 59#6 ++ 0b111#3 ++ 0#2) (.remn ({ natural := true, width := .b64 }) 60 0 59) ∧
    decodesAs (0b000#3 ++ 0x0f#6 ++ 60#6 ++ 0#6 ++ 59#6 ++ 0b111#3 ++ 0#2) (.shr ({ natural := true, width := .b64 }) 60 0 59) ∧
    decodesAs (0b000#3 ++ 0x14#6 ++ 60#6 ++ 0#6 ++ 59#6 ++ 0b111#3 ++ 0#2) (.minn ({ natural := true, width := .b64 }) 60 0 59) ∧
    decodesAs (0b000#3 ++ 0x16#6 ++ 60#6 ++ 0#6 ++ 59#6 ++ 0b111#3 ++ 0#2) (.maxn ({ natural := true, width := .b64 }) 60 0 59) ∧
    decodesAs (0b000#3 ++ 0x11#6 ++ 5#6 ++ 6#6 ++ 0#6 ++ 0b100#3 ++ 0#2) (.clz ({ natural := true, width := .b8 }) 5 6) ∧
    decodesAs (0b000#3 ++ 0x12#6 ++ 5#6 ++ 6#6 ++ 0#6 ++ 0b101#3 ++ 0#2) (.popc ({ natural := true, width := .b16 }) 5 6) := by decide

/-- R28, R30 to R35, R39: every word of the group, its fields written out. -/
theorem test_decode_scalar :
    decodesAs (0b000#3 ++ 0x17#6 ++ 1#3 ++ 2#3 ++ 3#6 ++ 4#6 ++ 0b010#3 ++ 0#2) (.cmp .lt ({ natural := false, width := .b32 }) 1 3 4) ∧
    decodesAs (0b000#3 ++ 0x18#6 ++ 3#3 ++ 0#3 ++ 1#3 ++ 0#3 ++ 2#3 ++ 8#4 ++ 0#4) (.plog 3 1 2 8) ∧
    decodesAs (0b000#3 ++ 0x19#6 ++ 5#6 ++ 6#6 ++ 7#6 ++ 1#3 ++ 1#1 ++ 0#1) (.sel { pred := 1, invert := true } 5 6 7) ∧
    decodesAs (0b000#3 ++ 0x1a#6 ++ 5#6 ++ 6#6 ++ 0#11) (.mov 5 6) ∧
    decodesAs (0b000#3 ++ 0x1b#6 ++ 7#6 ++ 2#2 ++ 24#15) (.lit .w64 7 24) ∧
    decodesAs (0b000#3 ++ 0x1c#6 ++ 0b0101#4 ++ 3#6 ++ 4#6 ++ 2#2 ++ 31#5) (.sts { pred := 2, invert := true } .b32 3 4 31) ∧
    decodesAs (0b000#3 ++ 0x1d#6 ++ 0b0000#4 ++ 0x7fffd#19) (.b { pred := 0, invert := false } 0x7fffd) ∧
    decodesAs (0b000#3 ++ 0x1e#6 ++ 0b0010#4 ++ 5#19) (.call { pred := 1, invert := false } 5) ∧
    decodesAs (0b000#3 ++ 0x1f#6 ++ 0b1111#4 ++ 0#19) (.ret { pred := 7, invert := true }) ∧
    decodesAs (0b000#3 ++ 0x20#6 ++ 0b0000#4 ++ 9#6 ++ 0#13) (.jr { pred := 0, invert := false } 9) ∧
    decodesAs (0b000#3 ++ 0x21#6 ++ 8#6 ++ 0x1fffe#17) (.loop 8 0x1fffe) ∧
    decodesAs (0b000#3 ++ 0x22#6 ++ 0#6 ++ 4#6 ++ 0#6 ++ 4#3 ++ 0#2) (.waitc .y 4) ∧
    decodesAs (0b000#3 ++ 0x23#6 ++ 0#17 ++ 0b00101#5 ++ 0#1) (.rdv { a := true, g := false, m := true, l := false, y := false }) ∧
    decodesAs (0b000#3 ++ 0x24#6 ++ 0#6 ++ 5#6 ++ 0#11) (.fmt 5) ∧
    decodesAs (0b000#3 ++ 0x25#6 ++ 1#4 ++ 0#4 ++ 11#6 ++ 0#6 ++ 4#3) (.hset .st1 1 11) ∧
    decodesAs (0b000#3 ++ 0x26#6 ++ 0#4 ++ 2#4 ++ 11#6 ++ 0#6 ++ 3#3) (.hget .dims 11 2) ∧
    decodesAs (0b000#3 ++ 0x27#6 ++ 1#4 ++ 2#4 ++ 0#15) (.hmov 1 2) ∧
    decodesAs (0b000#3 ++ 0x28#6 ++ 1#4 ++ 2#4 ++ 3#6 ++ 0#9) (.hoff 1 2 3) ∧
    decodesAs (0b000#3 ++ 0x29#6 ++ 1#4 ++ 2#4 ++ 3#6 ++ 4#6 ++ 0b010#3) (.hslice 2 1 2 3 4) := by decide

/-- R29: every word of the group, its fields written out. -/
theorem test_decode_immediate :
    decodesAs (0b000#3 ++ 0b10101#5 ++ 1#1 ++ 5#6 ++ 4#6 ++ 0x7fe#11) (.addi 5 4 0xffe) ∧
    decodesAs (0b000#3 ++ 0b10110#5 ++ 1#1 ++ 5#6 ++ 4#6 ++ 0x7fe#11) (.andi 5 4 0xffe) ∧
    decodesAs (0b000#3 ++ 0b10111#5 ++ 1#1 ++ 5#6 ++ 4#6 ++ 0x7fe#11) (.ori 5 4 0xffe) ∧
    decodesAs (0b000#3 ++ 0b11000#5 ++ 1#1 ++ 5#6 ++ 4#6 ++ 0x7fe#11) (.xori 5 4 0xffe) ∧
    decodesAs (0b000#3 ++ 0b11110#5 ++ 1#1 ++ 5#6 ++ 4#6 ++ 0x7fe#11) (.movhi 5 4 0xffe) ∧
    decodesAs (0b000#3 ++ 0b11001#5 ++ 0#1 ++ 5#6 ++ 4#6 ++ 63#11) (.shli 5 4 63) ∧
    decodesAs (0b000#3 ++ 0b11010#5 ++ 0#1 ++ 5#6 ++ 4#6 ++ 63#11) (.shri 5 4 63) ∧
    decodesAs (0b000#3 ++ 0b11011#5 ++ 0#1 ++ 5#6 ++ 4#6 ++ 63#11) (.shai 5 4 63) ∧
    decodesAs (0b000#3 ++ 0b11100#5 ++ 0#1 ++ 7#3 ++ 5#3 ++ 9#6 ++ 3#11) (.cmpi .gt 7 9 3) ∧
    decodesAs (0b000#3 ++ 0b11101#5 ++ 0#1 ++ 5#6 ++ 0#6 ++ 0x7ff#11) (.movi 5 0x7ff) ∧
    decodesAs (0b000#3 ++ 0b11111#5 ++ 1#1 ++ 5#6 ++ 4#6 ++ 0b10#2 ++ 511#9) (.lds ({ natural := true, width := .b32 }) 5 4 511) := by decide

/-- R34, R36, R49: every word of the group, its fields written out. -/
theorem test_decode_a_words :
    decodesAs (0b001#3 ++ 0x01#6 ++ 0#6 ++ 2#2 ++ 0b111#3 ++ 1#1 ++ 1#2 ++ 7#6 ++ 0#3) (.ld true .module ({ natural := true, width := .b64 }) true 7) ∧
    decodesAs (0b001#3 ++ 0x02#6 ++ 0b0110#4 ++ 3#6 ++ 8#6 ++ 3#2 ++ 2#2 ++ 3#2 ++ 0#1) (.st { pred := 3, invert := false } true .pod .b64 3 8) ∧
    decodesAs (0b001#3 ++ 0x03#6 ++ 2#4 ++ 1#4 ++ 0#3 ++ 2#3 ++ 0#6 ++ 3#3) (.copy .redMin 2 1 3) ∧
    decodesAs (0b001#3 ++ 0x03#6 ++ 2#4 ++ 4#4 ++ 0#3 ++ 4#3 ++ 0#6 ++ 1#3) (.copy .s24 2 4 1) ∧
    decodesAs (0b001#3 ++ 0x04#6 ++ 2#4 ++ 4#4 ++ 0#3 ++ 0#3 ++ 0#6 ++ 1#3) (.gath 2 4 1) ∧
    decodesAs (0b001#3 ++ 0x05#6 ++ 2#4 ++ 4#4 ++ 0#3 ++ 0#3 ++ 0#6 ++ 7#3) (.scat 2 4 7) ∧
    decodesAs (0b001#3 ++ 0x06#6 ++ 3#4 ++ 0#4 ++ 2#3 ++ 1#3 ++ 0#6 ++ 0#3) (.feed 3 2 1 0) ∧
    decodesAs (0b001#3 ++ 0x07#6 ++ 3#4 ++ 0#4 ++ 1#3 ++ 6#3 ++ 0#6 ++ 2#3) (.take 3 1 6 2) ∧
    decodesAs (0b001#3 ++ 0x08#6 ++ 3#4 ++ 0#4 ++ 0#3 ++ 1#3 ++ 9#6 ++ 0#3) (.xin true 3 9 0) ∧
    decodesAs (0b001#3 ++ 0x09#6 ++ 3#4 ++ 0#4 ++ 0#3 ++ 0#3 ++ 9#6 ++ 0#3) (.xout false 3 9 0) ∧
    decodesAs (0b001#3 ++ 0x0a#6 ++ 5#4 ++ 0#4 ++ 0#3 ++ 0#3 ++ 9#6 ++ 0#3) (.seqt 5 9 0) := by decide

/-- R37, R50: every word of the group, its fields written out. -/
theorem test_decode_g_words :
    decodesAs (0b010#3 ++ 0x01#6 ++ 7#4 ++ 0#3 ++ 0#3 ++ 0#6 ++ 1#3 ++ 0#4) (.gcfg 7 1) ∧
    decodesAs (0b010#3 ++ 0x02#6 ++ 0#4 ++ 0#3 ++ 0#3 ++ 0#6 ++ 2#3 ++ 0#4) (.gswap 2) ∧
    decodesAs (0b010#3 ++ 0x03#6 ++ 0#4 ++ 0#3 ++ 0#3 ++ 4#6 ++ 3#3 ++ 0#4) (.gswapat 4 3) ∧
    decodesAs (0b010#3 ++ 0x04#6 ++ 0#4 ++ 0#3 ++ 0#3 ++ 5#6 ++ 4#3 ++ 0#4) (.grun 5 4) ∧
    decodesAs (0b010#3 ++ 0x05#6 ++ 0#4 ++ 0#3 ++ 0#3 ++ 0#6 ++ 5#3 ++ 0#4) (.ghalt 5) ∧
    decodesAs (0b010#3 ++ 0x06#6 ++ 0#4 ++ 0#3 ++ 0#3 ++ 6#6 ++ 6#3 ++ 0#4) (.gfill 6 6) ∧
    decodesAs (0b010#3 ++ 0x07#6 ++ 0#4 ++ 0#3 ++ 1#3 ++ 3#6 ++ 0#3 ++ 0#4) (.gset true 3 0) ∧
    decodesAs (0b010#3 ++ 0x08#6 ++ 0#4 ++ 1#3 ++ 0#3 ++ 0#6 ++ 0#3 ++ 0#4) (.glink true false 0) ∧
    decodesAs (0b010#3 ++ 0x09#6 ++ 0#4 ++ 0#3 ++ 0#3 ++ 8#6 ++ 7#3 ++ 0#4) (.gstat 8 7) := by decide

/-- R36, R51: every word of the group, its fields written out. -/
theorem test_decode_m_words :
    decodesAs (0b011#3 ++ 0x01#6 ++ 6#4 ++ 0#4 ++ 0#3 ++ 0#3 ++ 0#6 ++ 0#3) (.lease 6 0) ∧
    decodesAs (0b011#3 ++ 0x02#6 ++ 0#4 ++ 0#4 ++ 0#3 ++ 0#3 ++ 0#6 ++ 1#3) (.free 1) ∧
    decodesAs (0b011#3 ++ 0x03#6 ++ 6#4 ++ 0#4 ++ 0#3 ++ 0#3 ++ 0#6 ++ 2#3) (.shelf 6 2) ∧
    decodesAs (0b011#3 ++ 0x04#6 ++ 1#4 ++ 2#4 ++ 0#3 ++ 0#3 ++ 31#6 ++ 0#3) (.mmaStream 1 2 31 0) ∧
    decodesAs (0b011#3 ++ 0x04#6 ++ 1#4 ++ 0#4 ++ 0#3 ++ 1#3 ++ 31#6 ++ 0#3) (.mmaShelf 1 31 0) ∧
    decodesAs (0b011#3 ++ 0x05#6 ++ 0#4 ++ 0#4 ++ 0#3 ++ 0#3 ++ 0#6 ++ 3#3) (.norm 3) ∧
    decodesAs (0b011#3 ++ 0x06#6 ++ 0#4 ++ 0#4 ++ 0#3 ++ 0#3 ++ 0#6 ++ 4#3) (.accz 4) ∧
    decodesAs (0b011#3 ++ 0x07#6 ++ 6#4 ++ 0#4 ++ 0#3 ++ 0#3 ++ 0#6 ++ 5#3) (.accsv 6 5) ∧
    decodesAs (0b011#3 ++ 0x08#6 ++ 6#4 ++ 0#4 ++ 0#3 ++ 0#3 ++ 0#6 ++ 6#3) (.accld 6 6) ∧
    decodesAs (0b011#3 ++ 0x09#6 ++ 3#4 ++ 0#4 ++ 0#3 ++ 1#3 ++ 0#6 ++ 0#3) (.drain true 3 0) := by decide

/-- R38, R52: every word of the group, its fields written out. -/
theorem test_decode_l_words :
    decodesAs (0b100#3 ++ 0x01#6 ++ 3#3 ++ 1#3 ++ 2#4 ++ 7#6 ++ 0#3 ++ 0#4) (.send 3 .v 2 7 0) ∧
    decodesAs (0b100#3 ++ 0x02#6 ++ 1#3 ++ 5#3 ++ 5#4 ++ 12#6 ++ 0#3 ++ 0#4) (.sendred 1 .min true 5 12 0) ∧
    decodesAs (0b100#3 ++ 0x03#6 ++ 7#3 ++ 2#3 ++ 4#4 ++ 9#6 ++ 6#3 ++ 0#4) (.pull 7 .f 4 9 6) ∧
    decodesAs (0b100#3 ++ 0x04#6 ++ 6#3 ++ 0#3 ++ 0#4 ++ 9#6 ++ 0#3 ++ 0#4) (.cal 6 9) ∧
    decodesAs (0b100#3 ++ 0x05#6 ++ 2#3 ++ 0#3 ++ 8#4 ++ 0#6 ++ 1#3 ++ 0#4) (.lprog 2 8 1) ∧
    decodesAs (0b100#3 ++ 0x06#6 ++ 2#3 ++ 0#3 ++ 0#4 ++ 9#6 ++ 1#3 ++ 0#4) (.lstart 2 9 1) ∧
    decodesAs (0b100#3 ++ 0x07#6 ++ 0#3 ++ 1#3 ++ 0#4 ++ 9#6 ++ 0#3 ++ 0#4) (.lphase true 9) ∧
    decodesAs (0b100#3 ++ 0x08#6 ++ 5#3 ++ 0#3 ++ 0#4 ++ 0#6 ++ 0#3 ++ 0#4) (.lmark 5) ∧
    decodesAs (0b100#3 ++ 0x09#6 ++ 5#3 ++ 1#3 ++ 0#4 ++ 0#6 ++ 0#3 ++ 0#4) (.lhold 5 true) ∧
    decodesAs (0b100#3 ++ 0x0a#6 ++ 1#3 ++ 0#3 ++ 0#4 ++ 9#6 ++ 0#3 ++ 0#4) (.lshed 1 9) ∧
    decodesAs (0b100#3 ++ 0x0b#6 ++ 2#3 ++ 0#3 ++ 0#4 ++ 9#6 ++ 0#3 ++ 0#4) (.lgate 2 9) ∧
    decodesAs (0b100#3 ++ 0x0c#6 ++ 2#3 ++ 0#3 ++ 0#4 ++ 9#6 ++ 0#3 ++ 0#4) (.lwake 2 9) ∧
    decodesAs (0b100#3 ++ 0x0d#6 ++ 3#3 ++ 0#3 ++ 0#4 ++ 9#6 ++ 0#3 ++ 0#4) (.lidle 3 9) := by decide

/-- R28, R34, R39, R53: every word of the group, its fields written out. -/
theorem test_decode_y_words :
    decodesAs (0b101#3 ++ 0x01#6 ++ 0b0011#4 ++ 3#6 ++ 8#6 ++ 3#2 ++ 1#2 ++ 1#2 ++ 0#1) (.aadd { pred := 1, invert := true } .acquire .die true 3 8) ∧
    decodesAs (0b101#3 ++ 0x02#6 ++ 0b0011#4 ++ 3#6 ++ 8#6 ++ 2#2 ++ 0#2 ++ 0#2 ++ 1#1) (.amin { pred := 1, invert := true } .relaxed .core false true 3 8) ∧
    decodesAs (0b101#3 ++ 0x03#6 ++ 0b0011#4 ++ 3#6 ++ 8#6 ++ 3#2 ++ 2#2 ++ 2#2 ++ 0#1) (.amax { pred := 1, invert := true } .release .module true false 3 8) ∧
    decodesAs (0b101#3 ++ 0x04#6 ++ 0b0011#4 ++ 3#6 ++ 8#6 ++ 3#2 ++ 3#2 ++ 3#2 ++ 0#1) (.axchg { pred := 1, invert := true } .acqrel .pod true 3 8) ∧
    decodesAs (0b101#3 ++ 0x05#6 ++ 0b0011#4 ++ 58#6 ++ 8#6 ++ 3#2 ++ 3#2 ++ 1#2 ++ 0#1) (.acas { pred := 1, invert := true } .acqrel .die true 58 8) ∧
    decodesAs (0b101#3 ++ 0x06#6 ++ 0#18 ++ 3#2 ++ 3#3) (.fence .sc .pod) ∧
    decodesAs (0b101#3 ++ 0x07#6 ++ 0#6 ++ 8#6 ++ 0#6 ++ 0b010#3 ++ 0#2) (.phreg .both 8) ∧
    decodesAs (0b101#3 ++ 0x08#6 ++ 0#6 ++ 8#6 ++ 0#6 ++ 0b000#3 ++ 0#2) (.phdrop 8) ∧
    decodesAs (0b101#3 ++ 0x09#6 ++ 0#6 ++ 8#6 ++ 0#6 ++ 0b000#3 ++ 0#2) (.phsig 8) ∧
    decodesAs (0b101#3 ++ 0x0a#6 ++ 0#6 ++ 8#6 ++ 9#6 ++ 0b000#3 ++ 0#2) (.phwait 8 9) ∧
    decodesAs (0b101#3 ++ 0x0b#6 ++ 0#6 ++ 8#6 ++ 0#6 ++ 0b000#3 ++ 0#2) (.pharr 8) ∧
    decodesAs (0b101#3 ++ 0x0c#6 ++ 0#6 ++ 8#6 ++ 9#6 ++ 0b000#3 ++ 0#2) (.phbyt 8 9) ∧
    decodesAs (0b101#3 ++ 0x0d#6 ++ 0#6 ++ 8#6 ++ 9#6 ++ 0b000#3 ++ 0#2) (.rninit 8 9) ∧
    decodesAs (0b101#3 ++ 0x0e#6 ++ 10#6 ++ 8#6 ++ 0#6 ++ 0b000#3 ++ 0#2) (.rnclm 10 8) ∧
    decodesAs (0b101#3 ++ 0x0f#6 ++ 0#6 ++ 8#6 ++ 9#6 ++ 0b000#3 ++ 0#2) (.rnpub 8 9) ∧
    decodesAs (0b101#3 ++ 0x10#6 ++ 10#6 ++ 8#6 ++ 0#6 ++ 0b000#3 ++ 0#2) (.rntake 10 8) ∧
    decodesAs (0b101#3 ++ 0x11#6 ++ 0#6 ++ 8#6 ++ 9#6 ++ 0b000#3 ++ 0#2) (.rnret 8 9) ∧
    decodesAs (0b101#3 ++ 0x12#6 ++ 0#6 ++ 8#6 ++ 0#6 ++ 0b000#3 ++ 0#2) (.rnwaitf 8) ∧
    decodesAs (0b101#3 ++ 0x13#6 ++ 0#6 ++ 8#6 ++ 0#6 ++ 0b000#3 ++ 0#2) (.rnwaite 8) := by decide

/-- R39, R54: every word of the group, its fields written out. -/
theorem test_decode_x_words :
    decodesAs (0b110#3 ++ 0x01#6 ++ 0#6 ++ 0#6 ++ 17#11) (.trap 17) ∧
    decodesAs (0b110#3 ++ 0x02#6 ++ 0#6 ++ 0#6 ++ 0#11) (.eret) ∧
    decodesAs (0b110#3 ++ 0x03#6 ++ 0#6 ++ 0#6 ++ 0#11) (.halt) ∧
    decodesAs (0b110#3 ++ 0x04#6 ++ 0#6 ++ 0#6 ++ 0#11) (.yield) ∧
    decodesAs (0b110#3 ++ 0x05#6 ++ 1#6 ++ 2#6 ++ 2047#11) (.sprd 1 2 2047) ∧
    decodesAs (0b110#3 ++ 0x06#6 ++ 1#6 ++ 2#6 ++ 3#11) (.spwr 1 2 3) ∧
    decodesAs (0b110#3 ++ 0x07#6 ++ 9#6 ++ 0#6 ++ 1#11) (.tlbi .kind 9) ∧
    decodesAs (0b110#3 ++ 0x08#6 ++ 9#6 ++ 0#6 ++ 1#11) (.icinv true 9) ∧
    decodesAs (0b110#3 ++ 0x09#6 ++ 20#6 ++ 0#6 ++ 3#11) (.heatr .budget 20) ∧
    decodesAs (0b110#3 ++ 0x0a#6 ++ 0#6 ++ 0#6 ++ 5#11) (.bkpt 5) := by decide

/-- R224: every word of the group, its fields written out. -/
theorem test_decode_link_steps :
    decodesLinkAs (0#4 ++ 0#28) (.linkEnd) ∧
    decodesLinkAs (1#4 ++ 1#2 ++ 0#4 ++ 1#4 ++ 0#2 ++ 1#2 ++ 0#14) (.linkSend .v 0 1 0 1) ∧
    decodesLinkAs (2#4 ++ 2#8 ++ 7#20) (.linkWait 2 7) ∧
    decodesLinkAs (3#4 ++ 0#12 ++ 0xffff#16) (.linkWake 0xffff) ∧
    decodesLinkAs (4#4 ++ 0#12 ++ 1#16) (.linkGate 1) ∧
    decodesLinkAs (5#4 ++ 3#2 ++ 0#10 ++ 9#16) (.setk 3 9) ∧
    decodesLinkAs (6#4 ++ 0#2 ++ 0#18 ++ 3#8) (.linkLoop 0 3) ∧
    decodesLinkAs (7#4 ++ 2#2 ++ 0#2 ++ 5#24) (.seta 2 5) ∧
    decodesLinkAs (8#4 ++ 1#2 ++ 0#2 ++ 8192#24) (.adda 1 8192) ∧
    decodesLinkAs (9#4 ++ 1#2 ++ 0#26) (.parm 1) := by decide


/-! ## Witnesses

For each statement with hypotheses, a state and operands that meet them, clause by clause. -/

/-- A state whose core 0, which executes, is as `f` makes it from reset with a value in every inbound queue and p1 true. -/
def demo (f : CoreState → CoreState) : State :=
  State.reset.onMe fun x => f { x with inQ := Vector.replicate 4 [7], preds := 3 }

/-- A handle over contiguous elements of one row: BASE, EFMT, SPACE, D0 and D1. -/
def row (base efmt space d0 d1 : Nat) : HandleBits :=
  BitVec.ofNat 256 (base + efmt * 2 ^ 64 + space * 2 ^ 80 + d0 * 2 ^ 96 + d1 * 2 ^ 112 + 2 ^ 128 + 2 ^ 144)

theorem ok_of {ε α : Type} {x : Except ε α} {a : α} (h : x.toOption = some a) : x = .ok a := by
  cases x with
  | error _ => cases h
  | ok b => cases h; rfl

theorem free_of {s : State} {srcs : List SReg} {hs : List HReg} {d : SReg} (h : s.me.shadows = [])
    (hi : ∀ q : Fin 4, queueReg q ∈ srcs → s.me.inQ[q] ≠ []) (ho : ∀ q : Fin 4, (s.me.outQ[q]).length < 8)
    (hp : (s.me.qptr[(0 : Fin 2)]).toNat + 8 * (s.me.outQ[(0 : Fin 4)]).length + 8 ≤ 0x400000)
    (hq : (s.me.qptr[(1 : Fin 2)]).toNat + 8 * (s.me.outQ[(1 : Fin 4)]).length + 8 ≤ 0x400000) : s.Free srcs hs d :=
  ⟨fun _ => by rw [h]; exact fun x hx => absurd hx (List.not_mem_nil), hi,
    fun q _ => ⟨ho q, fun e => by subst e; exact hp, fun e => by subst e; exact hq⟩⟩

theorem demo_free (srcs : List SReg) (hs : List HReg) (d : SReg) : (demo id).Free srcs hs d :=
  free_of (by decide) (fun q _ => (by decide : ∀ q : Fin 4, (demo id).me.inQ[q] ≠ []) q) (by decide) (by decide) (by decide)

/-- A queue one short of full, whose last store still fits in LOCAL. -/
theorem witness_room_boundary : (demo fun x => { x with
    outQ := x.outQ.set 0 (List.replicate 7 { value := 1, landsAt := 0, afterA := 0, serial := 0 }), qptr := Vector.replicate 2 0x3fffc0 }).Free
    [60, 63] [15] 60 := free_of (by decide) (by decide) (by decide) (by decide) (by decide)

theorem witness_SourcesRead : (59 : SReg) ≠ 0 ∧ (59 : SReg).toNat < 60 ∧
    (∀ h ∈ (demo fun x => { x with shadows := [{ handle := false, reg := 59, old := 0, landsAt := 0 }] }).me.shadows,
      h.handle = false → h.reg = (59 : SReg).toNat → h.landsAt ≤ 0) := by decide

theorem witness_TypedArithmetic : (demo id).Free [60, 63] [] 59 := demo_free _ _ _

theorem witness_HighAndDivisionWords : (ScalarType.mk false .b64).natural = false ∧ (ScalarType.mk true .b8).natural = true ∧
    (demo id).Free [60, 1] [] 3 := ⟨rfl, rfl, demo_free _ _ _⟩

theorem witness_TypedArithmetic_shifts : (ScalarType.mk true .b64).natural = true ∧ (ScalarType.mk false .b8).natural = false ∧
    (demo id).Free [60, 60] [] 0 := ⟨rfl, rfl, demo_free _ _ _⟩

theorem witness_MinMaxAndCountWords : (ScalarType.mk true .b8).natural = true ∧ (ScalarType.mk false .b32).natural = false ∧
    (demo id).Free [0, 60] [] 61 ∧ (demo id).Free [0] [] 61 := ⟨rfl, rfl, demo_free _ _ _, demo_free _ _ _⟩

theorem witness_PredicateWords :
    ((demo id).Free [60, 61] [] 0 ∧ (demo id).Free [61] [] 0 ∧ (demo id).Free [] [] 0) ∧
      ((0x0b8c0000 : Word32).extractLsb' 29 3 = 0 ∧ (0x0b8c0000 : Word32).extractLsb' 23 6 = 0x17 ∧
        ((0x0b8c0000 : Word32).extractLsb' 17 3).toNat = 6) ∧
      ((0x1c0e0000 : Word32).extractLsb' 29 3 = 0 ∧ (0x1c0e0000 : Word32).extractLsb' 24 5 = 0x1c ∧
        ((0x1c0e0000 : Word32).extractLsb' 17 3).toNat = 7) :=
  ⟨⟨demo_free _ _ _, demo_free _ _ _, demo_free _ _ _⟩, by decide, by decide⟩

theorem witness_ImmediateWords_moves : (demo id).Free [1] [] 63 ∧ (demo id).Free [60, 61] [] 1 := ⟨demo_free _ _ _, demo_free _ _ _⟩

theorem witness_ImmediateWords : (demo id).Free [59] [] 60 ∧ (demo id).Free [] [] 60 := ⟨demo_free _ _ _, demo_free _ _ _⟩

/-- A table whose one page is a 64 KiB DEV page at 2^32, with its code and handler: four entries from PTBR 0x1000. -/
def paged (s : State) : State :=
  ((((({ s with owner := { s.owner with ptbr := 0x1000 } } : State).store 0x1000 8 0x2001).store 0x2000 8 0x3001).store 0x3400 8
    0x4001).store 0x4000 8 0x100013)

/-- The page of that table. -/
def devPage : PageMap :=
  { fill := 0, va := 0x100000000, size := 0x10000, pa := 0x100000, kind := .dev, ord := .rc, readOnly := false, relay := false, module := 0 }

/-- The last word of a cached line, a word of a line that fills, and a word in memory. -/
theorem witness_LiteralWords :
    let f : LineFill := { line := { line := 0x4000001, bytes := Vector.replicate 64 2 }, endAt := 9, byFetch := true }
    let s := (paged State.reset).onMe fun x => { x with
      pc := 0x100000000, icache := [{ line := 0x4000000, bytes := Vector.replicate 64 1 }], filling := [f] }
    s.Free [] [] 60 ∧ (0x10000003c : Word).toNat % 4 = 0 ∧ s.codeWord 0x10000003c 0x01010101 true ∧
      s.codeWord 0x100000040 0x02020202 false ∧ s.codeWord 0x100000080 0 false := by
  intro f s
  exact ⟨free_of (by decide) (by decide) (by decide) (by decide) (by decide), by decide, ⟨by decide, rfl⟩, ⟨by decide, rfl⟩,
    ⟨devPage, ok_of (by decide), by decide⟩, rfl⟩

theorem values_of {s : State} {srcs : List SReg} (hi : ∀ q : Fin 4, queueReg q ∈ srcs → s.me.inQ[q] ≠ []) : s.hasValues srcs := hi

theorem unfenced_of {s : State} {ks : List FenceKind} (h : s.me.queue .y = []) : s.unfenced ks := by
  intro q hq; rw [h] at hq; exact absurd hq (List.not_mem_nil)

/-- The last aligned place of LOCAL, the first byte past it, an address that is not aligned, and a store that waits for its wc's end. -/
theorem witness_LocalAccesses :
    let s := demo fun x => { x with regs := (x.regs.set 1 0x3fffc0).set 2 0x3fffff }
    let g : Guard := { pred := 1, invert := false }
    s.Free [1] [] 60 ∧ s.unfenced [.r, .rw, .sc] ∧ s.unfenced [.w, .rw, .sc] ∧
      ((s.src 0 1 + BitVec.ofNat 64 (7 * 8)).toNat % 8 = 0 ∧ (s.src 0 1 + BitVec.ofNat 64 (7 * 8)).toNat + 8 ≤ 0x400000) ∧
      s.guardTrue { g with invert := true } = false ∧ s.guardTrue g = true ∧ s.Free [60, 1] [] 0 ∧
      ((s.src 1 1 + BitVec.ofNat 64 (31 * 1)).toNat % 1 = 0 ∧ (s.src 1 1 + BitVec.ofNat 64 (31 * 1)).toNat + 1 ≤ 0x400000) ∧
      (s.src 0 2 + BitVec.ofNat 64 0).toNat % 8 ≠ 0 ∧ (s.src 1 2 + BitVec.ofNat 64 (31 * 2)).toNat % 2 ≠ 0 ∧
      ((s.src 1 1 + BitVec.ofNat 64 (8 * 8)).toNat % 8 = 0 ∧ 0x400000 < (s.src 1 1 + BitVec.ofNat 64 (8 * 8)).toNat + 8) ∧ s.Free [60, 2] [] 0 ∧
      ((s.src 0 1 + BitVec.ofNat 64 (8 * 8)).toNat % 8 = 0 ∧ 0x400000 < (s.src 0 1 + BitVec.ofNat 64 (8 * 8)).toNat + 8) ∧
      ({ s with stores := [(0x40003ffff8, leBytes 8 0x1122334455667788)] } : State).stores =
        [(0x40003ffff8, leBytes 8 0x1122334455667788)] := by
  and_intros <;>
    (first | decide +kernel | exact free_of (by decide) (by decide) (by decide) (by decide) (by decide)
           | exact unfenced_of (by decide))

theorem witness_BranchWords :
    let s := demo fun x => { x with regs := (x.regs.set 1 0xfffffffffffffffc).set 2 1 }
    s.guardTrue { pred := 0, invert := true } = false ∧ (∀ q, (59 : SReg) ≠ queueReg q) ∧ s.guardTrue { pred := 1, invert := false } = true ∧
      s.Free [59] [] 0 ∧ (s.src 0 59).toNat % 4 = 0 ∧ s.Free [1] [] 0 ∧ (s.src 0 1).toNat % 4 = 0 ∧ s.Free [2] [] 0 ∧
      (s.src 0 2).toNat % 4 ≠ 0 ∧ (59 : SReg).toNat < 60 ∧ s.Free [59] [] 0 ∧
      ((demo fun x => { x with regs := x.regs.set 59 2 }).src 0 59).toNat % 4 ≠ 0 := by
  and_intros <;>
    (first | decide +kernel | exact free_of (by decide) (by decide) (by decide) (by decide) (by decide))

/-- A counter that has wrapped past its target; queues without unretired words; a format queue with one place left. -/
theorem witness_WaitWords :
    let s := demo fun x => { x with regs := x.regs.set 1 0xffffffff, counters := x.counters.set 4 0x7ffffffe,
                                    fmtQ := List.replicate 15 1 }
    s.Free [1] [] 0 ∧ ((s.me.counters[engIdx .y] : BitVec 32) - (s.src 0 1).setWidth 32).toNat < 2 ^ 31 ∧
      (∀ e : Engine, s.me.unretired e = []) ∧ s.me.outQ[(0 : Fin 4)] = [] ∧ s.me.outQ[(1 : Fin 4)] = [] ∧ s.me.fmtQ.length < 16 := by
  refine ⟨free_of ?_ ?_ ?_ ?_ ?_, ?_, fun e => ?_, ?_, ?_, ?_⟩ <;> first | decide | (cases e <;> decide)

/-- A slice that ends at its dimension, and one that goes one past it. -/
theorem witness_HandleWords :
    let s := demo fun x => { x with handles := x.handles.set 2 (row 0 4 0 16 4), regs := (x.regs.set 1 15).set 2 1 }
    s.Free [1] [] 0 ∧ s.Free [] [2] 1 ∧ s.Free [] [2] 0 ∧ s.Free [1] [2] 0 ∧ s.Free [1, 2] [2] 0 ∧
      sliceOk 0 (s.handle 0 2) (s.src 0 1) (s.src 1 2) = true ∧ sliceOk 0 (s.handle 0 2) (s.src 0 1) (s.src 1 60) = false := by
  and_intros <;>
    (first | decide +kernel | exact free_of (by decide) (by decide) (by decide) (by decide) (by decide))

/-! ### Enqueue -/

/-- A word without pages enters its queue: its state is its own. -/
theorem enters_of {s : State} {e : Engine} {srcs : List SReg} (hi : ∀ q : Fin 4, queueReg q ∈ srcs → s.me.inQ[q] ≠ [])
    (hp : s.me.occupancy e < 32) : s.Enters e srcs [] s :=
  ⟨hi, hp, fun _ h => absurd h (List.not_mem_nil), rfl⟩

/-- A translated word enters with the page that stands in its buffer, whose pins grow. -/
theorem witness_Enters_page :
    let s := demo fun x => { x with tlb := [{ page := devPage, pins := 0, stale := false }] }
    s.Enters .a [60] [devPage] (s.onCore 0 fun x => { x with tlb := [{ page := devPage, pins := 1, stale := false }] }) :=
  ⟨values_of (by decide), by decide, by decide, rfl⟩

/-- A translated load, a store to the last word of LOCAL, a load in the gap above LOCAL, and one that is not aligned. -/
theorem witness_ScalarAccesses :
    let s := demo fun x => { x with
      tlb := [{ page := devPage, pins := 0, stale := false }]
      regs := ((((x.regs.set 1 0x10000fff8).set 2 0x3ffff8).set 3 0x400000).set 4 0x43ffffff).set 5 0xfffffffffffff }
    let inSpace := fun x : Nat => x < 0x400000 ∨ (0x40000000 ≤ x ∧ x < 0x44000000) ∨ (0x100000000 ≤ x ∧ x < 0x10000000000000)
    checkScalar s 0 warmSpaces false (s.src 0 1).toNat 8 = .ok [devPage] ∧
      s.guardTrue { pred := 1, invert := false } = true ∧ checkScalar s 0 warmOrWindow true (s.src 1 2).toNat 8 = .ok [] ∧
      s.guardTrue { pred := 1, invert := true } = false ∧ s.hasValues [3] ∧ s.me.occupancy .a < 32 ∧ ¬ inSpace (s.src 0 3).toNat ∧
      (inSpace (s.src 0 4).toNat ∧ (s.src 0 4).toNat % 2 ≠ 0) ∧ inSpace (s.src 0 5).toNat ∧ (s.src 0 5).toNat % 8 ≠ 0 := by
  and_intros <;>
    (first | decide +kernel | exact ok_of (by decide +kernel) | exact values_of (by decide))

/-- A COPY of each form, a GATH and a SCAT between tensors of LOCAL. -/
theorem witness_TensorWordsJoin :
    let s := demo fun x => { x with handles := ((((x.handles.set 1 (row 0 5 0 8 2)).set 2 (row 0x1000 5 0 8 2)).set 3
      (row 0x2000 8 0 8 2)).set 4 (row 0x3000 5 0 4 2)).set 5 (row 0x4000 6 0 2 2) }
    checkNotify 0 (s.descriptor 0) = .ok () ∧
      checkHandle s 0 (s.handle 0 1) 1 (copyDest .redMin) true = .ok [] ∧ checkHandle s 0 (s.handle 1 2) 2 warmSpaces false = .ok [] ∧
      copyForm .redMin 1 2 (s.handle 0 1) (s.handle 1 2) (s.handle 2 3) = .ok () ∧
      checkHandle s 0 (s.handle 0 1) 1 (copyDest .s24) true = .ok [] ∧ checkHandle s 0 (s.handle 1 4) 4 warmSpaces false = .ok [] ∧
      checkHandle s 0 (s.handle 2 5) 5 warmSpaces false = .ok [] ∧
      copyForm .s24 1 4 (s.handle 0 1) (s.handle 1 4) (s.handle 2 5) = .ok () ∧
      checkHandle s 0 (s.handle 0 1) 1 warmOrWindow true = .ok [] ∧ checkHandle s 0 (s.handle 2 3) 3 warmSpaces false = .ok [] ∧
      hEfmt (s.handle 0 1) = hEfmt (s.handle 1 2) ∧ 6 ≤ hEfmt (s.handle 2 3) ∧ hEfmt (s.handle 2 3) ≤ 9 ∧
      (∀ k, k < 4 → hDim (s.handle 2 3) k = hDim (s.handle 0 1) k) ∧ (∀ k, k < 4 → hDim (s.handle 2 3) k = hDim (s.handle 1 2) k) := by
  and_intros <;>
    (first | decide +kernel | exact ok_of (by decide +kernel))

/-- A stream that fills a vitrine row, one that is a single word, and the GRID addresses of both. -/
theorem witness_TensorWordsJoin_crossings :
    let s := demo fun x => { x with handles := (x.handles.set 1 (row 0 8 0 64 1)).set 2 (row 0x3ffffc 8 0 1 1),
                                    regs := (x.regs.set 1 0x4080).set 2 0x3f83 }
    checkNotify 0 (s.descriptor 0) = .ok () ∧ checkHandle s 0 (s.handle 0 1) 1 warmSpaces false = .ok [] ∧
      checkHandle s 0 (s.handle 0 1) 1 warmOrWindow true = .ok [] ∧ streamLength (s.handle 0 1) ≤ 64 ∧
      checkGridAddr true (s.src 0 1) = .ok () ∧ checkHandle s 0 (s.handle 0 2) 2 warmSpaces false = .ok [] ∧
      streamLength (s.handle 0 2) ≤ 1 ∧ checkGridAddr false (s.src 0 2) = .ok () ∧
      checkHandle s 0 (s.handle 0 2) 2 { warmOrWindow with dev := false, host := false } false = .ok [] := by
  and_intros <;>
    (first | decide +kernel | exact ok_of (by decide +kernel))

theorem witness_GridWordsJoin :
    let s := demo fun x => { x with handles := x.handles.set 1 (row 0 8 0 21 1), regs := x.regs.set 49 0x1000000000000040 }
    checkNotify 0 (s.descriptor 0) = .ok () ∧ checkHandle s 0 (s.handle 0 1) 1 warmSpaces false = .ok [] ∧ hEfmt (s.handle 0 1) = 8 ∧
      s.Enters .g [1] [] s := by
  and_intros <;>
    (first | decide +kernel | exact ok_of (by decide +kernel) | exact enters_of (by decide) (by decide))

/-- A leasing core: its shelf tile is as deep and wide as a shelf, its spill area lies at the end of LOCAL. -/
def leased : State := demo fun x => { x with
  lease := { x.lease with state := .active, reckoned := true, spillBase := 0x370000, headroom := 13 }
  handles := (((x.handles.set 1 (row 0x1000 0 0 64 256)).set 2 (row 0x8000 0 0 8 2)).set 3 (row 0x100000000 5 2 1 4)).set 4
    (row 0x100000 0 0 0 0)
  regs := x.regs.set 1 8, fmtQ := [0x500] }

theorem witness_LeaseWordsJoin :
    let s := demo fun x => { x with handles := x.handles.set 4 (row 0x37a000 0 0 0 0) }
    checkNotify 0 (s.descriptor 0) = .ok () ∧ s.me.lease.reckoned = false ∧ checkImage s 0 (s.handle 0 4) 4 spillBytes true = .ok [] ∧
      s.me.lease.state = .idle ∧ leased.me.lease.reckoned = true ∧
      (let h := leased.handle 0 1
       checkHandle leased 0 h 1 warmSpaces false = .ok [] ∧ hEfmt h ≤ 4 ∧ hDim h 0 % 8 = 0 ∧ hDim h 0 ≤ shelfDepth (hEfmt h) ∧
        hDim h 1 ≤ 256 ∧ hDim h 2 = 1 ∧ hDim h 3 = 1 ∧
        checkAlias leased (touches 0 0 [] false [(0x1000, 64)]) (destTouches leased.me) = .ok ()) ∧
      (let h := leased.handle 0 4
       checkImage leased 0 h 4 accBytes true true = .ok [] ∧
        checkAlias leased (touches 0 0 [] true [(hBase h, accBytes)]) (operandTouches leased.me) = .ok () ∧
        checkImage leased 0 h 4 accBytes false true = .ok [] ∧
        checkAlias leased (touches 0 0 [] false [(hBase h, accBytes)]) [] = .ok ()) := by
  and_intros <;>
    (first | decide +kernel | exact ok_of (by decide +kernel))

theorem ok_some {α : Type} {x : Check α} (h : x.isOk = true) : ∃ a, x = .ok a := by
  cases x with
  | error _ => cases h
  | ok a => exact ⟨a, rfl⟩

/-- An MMA whose headroom brings H to 14, and a DRAIN to one column of a DEV tensor. -/
theorem witness_FormattedWordsJoin :
    let s := leased
    let t := paged leased
    let h := t.handle 0 3
    let pages := [{ devPage with fill := t.free }]
    (∃ a, mmaCheck s (.mmaStream 2 2 1 0) 2 (some 2) (s.src 0 1) 0 = .ok a) ∧
      (∃ a, mmaCheck (s.onMe fun x => { x with lease := { x.lease with enqueued := some (tileTag s.me (s.handle 0 2)) } })
        (.mmaShelf 2 1 0) 2 none (s.src 0 1) 0 = .ok a) ∧
      t.me.lease.reckoned = true ∧ t.me.fmtQ = 0x500 :: [] ∧ drainFormatOk 0x500 true = true ∧
      checkHandle t 0 h 3 drainSpaces false = .ok pages ∧ checkSlot h 0x500 = .ok () ∧ hDim h 0 ≤ 256 ∧ hDim h 1 ≤ 256 ∧
      hDim h 2 = 1 ∧ hDim h 3 = 1 ∧ hEfmt h = fmtO 0x500 ∧ checkNotRO t h 3 drainSpaces = .ok () ∧
      checkAlias t (touches 0 0 pages true (hExtent h)) (operandTouches t.me) = .ok () ∧ checkNotify 0 (t.descriptor 0) = .ok () := by
  and_intros <;>
    (first | decide +kernel | exact ok_of (by decide +kernel) | exact ok_some (by decide +kernel))

/-- A bank of one slot in which every port joins module 1. -/
def oneSlot : Bank :=
  { slen := 10000, guard := 240, slots := 1, flight := 300, epoch := 0, pod := 2
    calendar := Vector.replicate 8 (Vector.replicate 63 (some 1)) }

/-- A PEER page of module 1. -/
def peerPage : PageMap := { devPage with va := 0x200000000, kind := .peer, module := 1 }

/-- A state whose ports join module 1 and whose core 0 has a PEER page in its buffer. -/
def joined : State :=
  { (demo fun x => { x with
      handles := (x.handles.set 1 (row 0 5 0 16 1)).set 2 (row 0x200000100 5 4 16 1)
      regs := x.regs.set 1 0x200000000
      tlb := [{ page := peerPage, pins := 0, stale := false }] }) with
    fabric := { Fabric.reset with active := some oneSlot } }

theorem witness_SendsJoin :
    let s := joined
    let h := s.handle 0 1
    let va := (s.src 0 1).toNat
    (∃ u, pinPages s 0 [peerPage] = .ok u) ∧ s.hasValues [1] ∧ s.me.occupancy .l < 32 ∧
      (∀ p ∈ [peerPage], (tlbLookup s.me p.va).isSome) ∧ checkHandle s 0 h 1 { peer := true } false = .ok [] ∧ hSpace h < 3 ∧
      peerPages s 0 true va (hPacked h) 1 = .ok [peerPage] ∧ checkReach s (portOf 3) [peerPage] = .ok () ∧
      checkSendNotify 0 (s.descriptor 0) = .ok () ∧ 4 ≤ hEfmt h ∧ hEfmt h ≤ 9 ∧ va % efmtBytes (hEfmt h) = 0 ∧
      checkHandle s 0 h 1 { multicast := true, peer := true } false = .ok [] ∧ (∀ w, regionOf (hBase h) ≠ .multicast w) ∧
      checkHandle s 0 h 1 noHost true = .ok [] ∧ peerPages s 0 false va (hPacked h) 1 = .ok [peerPage] ∧
      checkNotify 0 (s.descriptor 0) = .ok () := by
  and_intros <;>
    (first | decide +kernel | exact ok_of (by decide +kernel) | exact ok_some (by decide +kernel)
           | exact values_of (by decide))

theorem witness_GridWordsJoin_links :
    let s := demo fun x => { x with handles := x.handles.set 1 (row 0 8 0 3 1) }
    checkNotify 0 (s.descriptor 0) = .ok () ∧ checkHandle s 0 (s.handle 0 1) 1 warmSpaces false = .ok [] ∧ hEfmt (s.handle 0 1) = 8 ∧
      s.Enters .l [60] [] s ∧ s.Enters .l [] [] s := by
  and_intros <;>
    (first | decide +kernel | exact ok_of (by decide +kernel) | exact enters_of (by decide) (by decide))

/-- An atomic on the last 8 bytes of LOCAL under a true guard, and one under a false guard. -/
theorem witness_AtomicWordsJoin :
    let s := demo fun x => { x with regs := x.regs.set 1 0x3ffff8 }
    s.guardTrue { pred := 1, invert := false } = true ∧ checkScalar s 0 warmSpaces true (s.src 0 1).toNat 8 = .ok [] ∧
      s.guardTrue { pred := 1, invert := true } = false ∧ s.Enters .y [2, 1] [] s ∧ s.Enters .y [2, 1, 3] [] s := by
  and_intros <;>
    (first | decide +kernel | exact ok_of (by decide +kernel) | exact enters_of (by decide) (by decide))

/-- The last block of LOCAL and the last of DIE. -/
theorem witness_AtomicWordsJoin_blocks :
    let s := demo fun x => { x with regs := (x.regs.set 1 0x3fffc0).set 2 0x43ffffc0 }
    (s.src 0 1).toNat % 64 = 0 ∧ (s.src 0 1).toNat < 0x400000 ∧ (s.src 0 2).toNat % 64 = 0 ∧
      (0x40000000 ≤ (s.src 0 2).toNat ∧ (s.src 0 2).toNat < 0x44000000) ∧ s.Enters .y [] [] s ∧ s.Enters .y [1, 60] [] s := by
  and_intros <;>
    (first | decide +kernel | exact enters_of (by decide) (by decide))

/-! ### Held words, X words and boundaries -/

/-- A graph of one node with one image slot free. -/
def oneGraph : Graph :=
  { id := 1, queue := 0, colophon := 0x100004000, pri := 8, chk := false, hpt := false, handler := 0x100000100, record := 0x100008000
    recordAt := 0x108000, quota := 0, period := 0, cmask := 0xffffffffffffffff, images := 0x100000000, slots := 2
    hints := Vector.replicate 8 (0, 0)
    nodes := [{ entry := 0x100000000, nest := true, order := .row, bounds := Vector.replicate 4 2, succ := [], count := 0, placed := 3, ended := 0 }]
    readyAt := 0, used := [0], saved := [], pend := 0, failed := 0, quse := 5, overdraft := 0, exhausted := false, ending := none }

def oneTask : Task := { graph := 1, node := 0, serial := 2, slot := 0 }

/-- A state whose core 0 runs a task of that graph. -/
def tasked (f : CoreState → CoreState) : State :=
  let s := demo fun x => f { x with task := some oneTask, mode := .running, epoch := 1, epochs := 1 }
  { s with sched := { s.sched with graphs := [oneGraph] } }

/-- An entry of an engine queue of the running task. -/
def entry (i : Instr) (order : Nat) : QEntry := { (tasked id).newEntry .a i with order := order, number := order }

/-- The last block of LOCAL. -/
theorem isBlock_last : isBlock 0x3fffc0 := ⟨by decide, .inl (by decide)⟩

/-- A word of each engine with its queue full, a later blocking word, and blocks in each state that a blocking word can find. -/
theorem witness_HeldAtIssue :
    let full := demo fun x => { x with queues := Vector.replicate 5 (List.replicate 32 { entry (.fence .w .core) 0 with epoch := 0 }) }
    let r := ((demo fun x => { x with regs := x.regs.set 1 0x3fffc0 }).store 0x40003fffc8 8 0x3001).store 0x40003fffd0 1 2
    let e := (demo fun x => { x with regs := x.regs.set 1 0x3fffc0 }).store 0x40003fffc8 8 0x3001
    let p := ((demo fun x => { x with regs := ((x.regs.set 1 0x3fffc0).set 2 0x80000001).set 3 0 }).store 0x40003fffc8 4 0x00010001).store
      0x40003fffc0 4 0
    let z := demo fun x => { x with regs := x.regs.set 1 0x3fffc0 }
    (∀ i ∈ [Instr.ld false .core { natural := true, width := .b8 } false 60, .gset true 60 0, .mmaShelf 1 60 0, .lstart 0 60 0,
        .acas { pred := 1, invert := true } .relaxed .core true 2 60],
      ((wordQueue i).map fun w => decide (32 ≤ full.me.occupancy w.1)) = some true) ∧
      full.hasValues [2, 60, 3] ∧ full.me.unretired .y ≠ [] ∧
      isBlock (r.src 0 1).toNat ∧ blockAt r.cur (r.src 0 1).toNat = 0x40003fffc0 ∧ r.me.unretired .y = [] ∧ r.hasValues [1] ∧
      ringHasFilled r 0x40003fffc0 = some true ∧ ringHasFree e 0x40003fffc0 = some true ∧ ringHasFilled e 0x40003fffc0 = some false ∧
      ringHasFree r 0x40003fffc0 = some false ∧ (z.ring 0x40003fffc0).valid = false ∧
      (p.phaser 0x40003fffc0).smask.getLsbD 0 = true ∧ (p.phaser 0x40003fffc0).wmask.getLsbD 0 = true ∧
      (z.phaser 0x40003fffc0).smask.getLsbD 0 = false ∧ (z.phaser 0x40003fffc0).wmask.getLsbD 0 = false ∧ p.hasValues [1, 2] ∧
      (let moved := (BitVec.ofNat 32 (p.phaser 0x40003fffc0).phase - (p.src 1 2).setWidth 32).toNat
       1 ≤ moved ∧ moved < 2 ^ 31) ∧
      (BitVec.ofNat 32 (p.phaser 0x40003fffc0).phase - (p.src 1 3).setWidth 32).toNat = 0 := by
  and_intros <;>
    (first | decide +kernel | exact values_of (by decide) | exact isBlock_last.1 | exact isBlock_last.2)

theorem witness_TrapsAndReturns :
    let s := tasked id
    let n := { s with sched := { s.sched with graphs := [{ oneGraph with handler := 0 }] } }
    let h := tasked fun x => { x with inh := true, xpc := 0xfffffffffffffffc }
    let b := tasked fun x => { x with inh := true, xpc := 0xfffffffffffffffe }
    s.me.task = some oneTask ∧ s.handlerOf s.cur ≠ 0 ∧ s.me.inh = false ∧ s.Stands oneTask.graph ∧ n.me.task = some oneTask ∧
      n.Stands oneTask.graph ∧ n.me.inh = false ∧ n.handlerOf n.cur = 0 ∧ h.Stands oneTask.graph ∧ h.me.task = some oneTask ∧
      h.me.inh = true ∧ h.me.xpc.toNat % 4 = 0 ∧ b.Stands oneTask.graph ∧ b.me.task = some oneTask ∧ b.me.inh = true ∧
      b.me.xpc.toNat % 4 ≠ 0 := by
  and_intros <;> (try unfold State.Stands) <;> decide +kernel

theorem witness_HaltEndsTask :
    let s := tasked id
    let w := tasked fun x => { x with queues := x.queues.set 0 [{ entry (.fence .w .core) 0 with epoch := 1 }] }
    s.me.task = some oneTask ∧ (∀ e : Engine, e ≠ .l → s.me.unretired e = []) ∧ s.me.outQ[(0 : Fin 4)] = [] ∧
      s.me.outQ[(1 : Fin 4)] = [] ∧ w.me.task = some oneTask ∧ w.me.unretired .a ≠ [] := by
  refine ⟨by decide, fun e _ => ?_, by decide, by decide, by decide⟩
  cases e <;> decide

theorem witness_ManagementWords : (demo id).Free [60] [] 0 ∧ (demo id).Free [] [] 0 ∧ (demo id).Free [] [] 63 :=
  ⟨demo_free _ _ _, demo_free _ _ _, demo_free _ _ _⟩

/-- The last ring register, an unassigned number, and every register that SPWR's statement names. -/
theorem witness_SpecialRegisters :
    let s := demo id
    s.Free [0] [] 60 ∧ s.Free [60, 0] [] 0 ∧ (s.special 0 0x7ff).isSome = true ∧ s.special 0 0x800 = none ∧ s.special 0 0x000 = none ∧
      (∀ n ∈ [0x001, 0x008, 0x009, 0x024, 0x025, 0x026, 0x027, 0x045, 0x060, 0x087, 0x380], (s.special 0 n).isSome = true) ∧
      (tasked id).graphOf 0 = some oneGraph ∧ joined.fabric.active = some oneSlot :=
  ⟨demo_free _ _ _, demo_free _ _ _, by decide, by decide, by decide, by decide, by decide, by decide⟩

/-- An entry without a pin, one with a pin, and a held TLBI whose pin has gone. -/
theorem witness_TlbiInvalidates :
    let s := demo fun x => { x with regs := x.regs.set 1 0x10000ffff, tlb := [{ page := devPage, pins := 0, stale := false }] }
    let p := demo fun x => { x with regs := x.regs.set 1 0x10000ffff, tlb := [{ page := devPage, pins := 1, stale := false }] }
    let h := demo fun x => { x with regs := x.regs.set 1 0x10000ffff, held := some (.unpinned [(0, devPage)]), squeue := [(0, 0xc3820000)] }
    s.Free [1] [] 0 ∧ s.Free [] [] 0 ∧ (regionOf (s.src 0 1).toNat == .translated && devPage.covers (s.src 0 1).toNat) = true ∧
      kindNow s (s.src 0 1).toNat = some .dev ∧ (∀ c, ∀ e ∈ (s.core c).tlb, e.pins = 0) ∧
      (∃ c, ∃ e ∈ (p.core c).tlb, p.me.tlb = [e] ∧ 0 < e.pins) ∧ h.Free [1] [] 0 ∧
      (h.core 0).held = some (.unpinned [(0, devPage)]) ∧ (h.core 0).squeue = ((h.core 0).pc, 0xc3820000) :: [] ∧
      decode 0xc3820000 = .ok (.tlbi .page 1) ∧ (∀ w ∈ [((0 : CoreId), devPage)], ∀ e ∈ (h.core w.1).tlb, e.page = w.2 → e.pins = 0) := by
  and_intros <;>
    (first | decide +kernel | exact ok_of (by decide) | exact free_of (by decide) (by decide) (by decide) (by decide) (by decide))

theorem witness_BoundaryEvents :
    let t : PendingTrap := { code := 0x16, info := 0, slot := 0, addr := 0 }
    let s := tasked fun x => { x with traps := [t] }
    let m := (tasked fun x => { x with traps := [t], held := some (.phaseMoved 0x4000000040 0 true) }).store 0x4000000040 4 1
    let h := tasked fun x => { x with held := some (.push 3) }
    let w := tasked fun x => { x with traps := [t], held := some (.phaseMoved 0x4000000040 0 true) }
    let v := (tasked fun x => { x with held := some (.phasePast 0x4000000040 0xffffffff) }).store 0x4000000040 4 0x7ffffffe
    let u : PendingTrap := { code := 0x18, info := 0, slot := 0, addr := 0 }
    (s.core 0).traps = t :: [] ∧ ({ (s.core 0) with traps := [t, u] } : CoreState).traps.Pairwise (fun a b => a.code.toNat ≤ b.code.toNat) ∧
      (∀ ps, Hold.push 3 ≠ .unpinned ps) ∧ (∀ p v f, Hold.push 3 ≠ .phaseMoved p v f ∧ Hold.push 3 ≠ .phasePast p v) ∧ (s.core 0).task = some oneTask ∧ (s.core 0).inh = false ∧ s.handlerOf 0 ≠ 0 ∧ fatalCode t.code = false ∧
      (w.core 0).traps = t :: [] ∧ (m.core 0).traps = t :: [] ∧ holdMet w 0 (.phaseMoved 0x4000000040 0 true) = false ∧ holdMet h 0 (.push 3) = true ∧ (h.core 0).held = some (.push 3) ∧
      (m.core 0).held = some (.phaseMoved 0x4000000040 0 true) ∧ (m.phaser 0x4000000040).phase ≠ (0 : BitVec 32).toNat ∧
      (v.core 0).held = some (.phasePast 0x4000000040 0xffffffff) ∧
      (let moved := (BitVec.ofNat 32 (v.phaser 0x4000000040).phase - 0xffffffff).toNat
       1 ≤ moved ∧ moved < 2 ^ 31) := by
  and_intros <;> first | decide +kernel | (intros; first | exact Hold.noConfusion | exact ⟨Hold.noConfusion, Hold.noConfusion⟩)

/-! ### Link programs -/

/-- A port whose sequencer runs a program of one SEND from LOCAL to a page of module 1. -/
def program : LinkProgram :=
  { core := 0, entries := [{ handle := row 0 5 0 16 1, pages := [] }, { handle := row 0x200000000 5 4 16 1, pages := [peerPage] }]
    steps := [.linkSend .d 0 1 0 0, .linkEnd], pinned := true }

def stepping : State :=
  let s := joined.onPort 0 fun x => { x with
    params := [5], groups := x.groups.set 3 .gated
    seqr := { x.seqr with program := some program, owner := some (0, 4, 0), running := true } }
  { s with clock := 9759 }

theorem witness_LinkSteps :
    let x : Slot := { bank := oneSlot, number := 0, start := 0, offset := 9759 }
    (stepping.port stepping.curPort).params = [5] ∧ (State.reset.port 0).params = [] ∧ stepping.slot = some x ∧
      x.index = (0 : BitVec 8).toNat ∧ (9759 : BitVec 20).toNat ≤ x.offset ∧ x.index ≠ (1 : BitVec 8).toNat ∧
      x.offset < (9760 : BitVec 20).toNat ∧ (stepping.port 0).groups[(3 : Fin 16)] = .gated := by decide

theorem witness_LinkPrograms :
    let s := stepping
    let w := s.onPort 0 fun x => { x with seqr := { x.seqr with running := false } }
    let g := program
    let h := offsetBase (row 0 5 0 16 1) 0
    let va := hBase (offsetBase (row 0x200000000 5 4 16 1) 0)
    (w.port 0).seqr.owner = some (0, 4, 0) ∧ (w.port 0).seqr.running = false ∧ w.phaseAt 0 = true ∧
      (s.port 0).seqr.program = some g ∧ (g.entries[(0 : BitVec 4).toNat]?).map LinkEntry.handle = some (row 0 5 0 16 1) ∧
      (g.entries[(1 : BitVec 4).toNat]?).map LinkEntry.pages = some [peerPage] ∧
      sourceInside { handle := row 0 5 0 16 1, pages := [] } h = true ∧ covered [peerPage] va (hPacked h) = true ∧
      tagMismatch s g.core 0 h = none ∧ [peerPage].find? (fun q => q.covers va) = some peerPage := by decide +kernel

/-! ### Engines -/

theorem retires_of {s : State} {c : CoreId} {e : Engine} {q : QEntry} (h1 : findEntry (s.core c) e q.order = some q)
    (h2 : q.status = .issued 0) (h3 : retireWaits s c e q = false) (h4 : q.epoch = (s.core c).epoch)
    (h5 : (readsFirst q.instr = true → q.performed = true ∨ q.touch = []) ∧ q.readsLeft = false) : s.Retires c e q :=
  ⟨h1, ⟨0, h2⟩, h3, h5, h4⟩

/-- An issued entry of core 0. -/
def issued (i : Instr) (f : QEntry → QEntry) : QEntry := f { entry i 0 with status := .issued 0 }

/-- A state whose queue of engine `e` holds one entry. -/
def holding (e : Engine) (q : QEntry) : State := tasked fun x => x.putQueue e [q]

/-- A queue in which no word waits, a word that a save keeps back, and a word of each kind that issues: streams and extents with words and
with none. -/
theorem witness_EnginesIssue :
    let l := entry (.ld true .die { natural := false, width := .b64 } true 1) 0
    let full := row 0x1000 8 0 300 2
    let g : Guard := { pred := 0, invert := false }
    let saving := (holding .a l).onCore 0 fun x => { x with mode := .saving }
    headWaiting ((State.reset.core 0).queue .a) = none ∧
    (headWaiting ((saving.core 0).queue .a) = some l ∧ engineReady saving 0 .a l = false) ∧
    (∀ w ∈ [l, entry (.st g false .core .b8 1 2) 0, entry (.copy .s24 1 2 0) 0, entry (.scat 1 2 0) 0,
        { entry (.seqt 1 2 0) 0 with handles := [full] }, entry (.seqt 1 2 0) 0, { entry (.feed 1 7 3 0) 0 with handles := [full] },
        entry (.feed 1 0 3 0) 0, { entry (.take 1 7 3 0) 0 with handles := [full] }, entry (.take 1 0 3 0) 0,
        { entry (.xin true 1 2 0) 0 with handles := [full] }, entry (.xin false 1 2 0) 0,
        { entry (.xout true 1 2 0) 0 with handles := [full] }, entry (.xout false 1 2 0) 0],
      headWaiting (((holding .a w).core 0).queue .a) = some w ∧ engineReady (holding .a w) 0 .a w = true ∧ w.mismatch = none ∧
        checkTags (holding .a w) 0 w.mcMask (sourceHandles w) = none ∧ w.notify = 0) ∧
    streamLength full ≠ 0 ∧ streamLength 0 = 0 ∧ seqtLines full ≠ [] ∧ seqtLines 0 = [] ∧
    (∀ y ∈ [entry (.phbyt 1 2) 0, entry (.fence .sc .module) 0],
      headWaiting (((holding .y y).core 0).queue .y) = some y ∧ engineReady (holding .y y) 0 .y y = true ∧ y.mismatch = none ∧
        checkTags (holding .y y) 0 y.mcMask (sourceHandles y) = none ∧ y.notify = 0) := by decide +kernel

/-- A store to the last word of LOCAL, one through a window to two cores, a load whose read has performed, and a SEQT that sets the
first of its two lines, or the last. -/
theorem witness_AWordsRetire :
    let st := issued (.st { pred := 0, invert := false } false .core .b64 1 2) fun q => { q with sa := 0x3ffff8, v := 0x1122334455667788 }
    let mc := issued (.st { pred := 0, invert := false } false .core .b32 1 2) fun q => { q with sa := 0x44000000, mcMask := 3 }
    let ld := issued (.ld false .core { natural := false, width := .b8 } false 1) fun q => { q with sa := 0x40000000, performed := true }
    let sq := fun z : Nat => issued (.seqt 1 2 0) fun q => { q with sa := 63, z := BitVec.ofNat 64 z, handles := [row 0xf0 5 0 8 1] }
    ((holding .a st).Retires 0 .a st ∧ placed 0 st.mcMask st.pages st.sa.toNat 8 [0x40003ffff8]) ∧
    ((holding .a mc).Retires 0 .a mc ∧ placed 0 mc.mcMask mc.pages mc.sa.toNat 4 [0x4000000000, 0x4000400000]) ∧
    ((holding .a ld).Retires 0 .a ld ∧ placed 0 0 ld.pages ld.sa.toNat 1 [0x4000000000]) ∧ ld.performed = true ∧
    (∀ z ∈ [0, 1], findEntry ((holding .a (sq z)).core 0) .a (sq z).order = some (sq z) ∧
      retireWaits (holding .a (sq z)) 0 .a (sq z) = false ∧ (sq z).epoch = ((holding .a (sq z)).core 0).epoch ∧
      ((seqtLines ((sq z).handleAt 0))[(sq z).z.toNat]?).isSome = true) ∧
    (seqtLines ((sq 0).handleAt 0)).length = 2 := by
  and_intros <;>
    (first | decide +kernel | exact retires_of (by decide +kernel) rfl (by decide +kernel) rfl (by decide +kernel))

theorem witness_AtomicsRetire :
    let g : Guard := { pred := 0, invert := false }
    let q := issued (.amin g .acqrel .module false false 59 2) fun q => { q with sa := 0x3ffffc, v := 0xffffffff }
    q.instr ∈ [Instr.aadd g .acqrel .module false 59 2, .amin g .acqrel .module false false 59 2, .amax g .acqrel .module false false 59 2,
      .axchg g .acqrel .module false 59 2, .acas g .acqrel .module false 59 2] ∧ (holding .y q).Retires 0 .y q ∧
      placed 0 0 q.pages q.sa.toNat (atomicBytes false) [0x40003ffffc] ∧ q.guardTrue = true ∧ (59 : SReg).toNat < 60 ∧
      ((holding .y q).core 0).shadows = [] := by
  and_intros <;>
    (first | decide +kernel | exact retires_of (by decide +kernel) rfl (by decide +kernel) rfl (by decide +kernel))

/-- A ring of 64 slots of 8 bytes whose slot 0 is in each state in turn, a ring that is too large, and a phaser. -/
theorem witness_BlockWordsRetire :
    let q := fun i => issued i fun q => { q with sa := 0x3ffdc0, v := 0x3040 }
    let b := fun w => (((holding .y (q (.rnclm 10 1))).store 0x40003ffdc8 8 0x13040).store 0x40003ffdd0 8 w).ring 0x40003ffdc0
    let p := (holding .y (q (.phsig 1))).store 0x40003ffdc8 4 0x00010001
    (∀ i ∈ [Instr.rninit 1 2, .rnclm 10 1, .rnpub 1 2, .rntake 10 1, .rnret 1 2, .phreg .both 1, .phdrop 1, .phsig 1, .phbyt 1 2],
      (q i).instr = i ∧ findEntry ((holding .y (q i)).core 0) .y (q i).order = some (q i) ∧ retireWaits (holding .y (q i)) 0 .y (q i) = false ∧
        (q i).epoch = ((holding .y (q i)).core 0).epoch) ∧
      checkBlock (0x3ffdc0 : Word).toNat = .ok () ∧ blockAddr 0 0x3ffdc0 = 0x40003ffdc0 ∧
      (1 ≤ 64 ∧ 64 ≤ 64 ∧ 3 ≤ 3 ∧ 64 + 64 * 2 ^ 3 ≤ 0x400000 - 0x40003ffdc0 % 0x400000) ∧
      ((b 0).valid = true ∧ (b 0).slot 0 = 0) ∧ ((b 1).valid = true ∧ (b 1).slot 0 = 1) ∧ (b 2).slot 0 = 2 ∧ (b 3).slot 0 = 3 ∧
      ((holding .y (q (.rnclm 10 1))).ring 0x40003ffdc0).valid = false ∧ (p.phaser 0x40003ffdc0).smask.getLsbD (localOf 0).val = true ∧
      (p.phaser 0x40003ffdc0).smask.getLsbD 1 = false := by
  and_intros <;>
    (first | decide +kernel | exact ok_of (by decide +kernel))

/-- A push of q1 that goes to the last word of LOCAL, and a fill that is due. -/
theorem witness_StoresAndFills :
    let o : OutEntry := { value := 9, landsAt := 0, afterA := 0, serial := 0 }
    let s := demo fun x => { x with outQ := x.outQ.set 1 [o], qptr := Vector.replicate 2 0x3ffff8 }
    let l : LineFill := { line := { line := 0x4000000, bytes := Vector.replicate 64 1 }, endAt := 0, byFetch := false }
    let f := (paged State.reset).onCore 3 fun x => { x with filling := [l] }
    (s.core 0).outQ[(1 : Fin 4)] = [o] ∧ o.landsAt ≤ s.clock ∧ (∀ q ∈ (s.core 0).unretired .a, o.afterA ≤ q.number) ∧
      ((s.core 0).qptr[(1 : Fin 2)]).toNat + 8 ≤ 0x400000 ∧ (f.core 3).filling = [l] ∧
      l.endAt ≤ f.clock := by
  and_intros <;>
    (first | decide +kernel | exact ok_of (by decide +kernel))

/-! ### Tasks and launch -/

/-- A translated byte of a DEV page lies at its place in the page. -/
theorem phys_page (c : CoreId) {p : PageMap} (hk : p.kind = .dev) (va : Nat) (h1 : 0x100000000 ≤ va) (h2 : va < 0x10000000000000)
    (h3 : p.va ≤ va) (h4 : va < p.va + p.size) : physAddrs c 0 [p] va = [p.pa + (va - p.va)] := by
  have hr : regionOf va = .translated := by
    unfold regionOf
    rw [if_neg (by omega), if_neg (by omega), if_neg (by omega), if_pos (by omega)]
  have hc : p.covers va = true := by simp only [PageMap.covers]; exact decide_eq_true ⟨h3, h4⟩
  simp only [physAddrs, hr, List.find?_cons, hc, hk]

/-- A 32 MiB DEV page that holds the image slots. -/
def imagePage : PageMap := { devPage with size := 0x2000000, pa := 0x2000000 }

/-- A task that is being saved, with its last word retired. -/
def savingState : State := tasked fun x => { x with
  mode := .saving, preempt := some 3, tlb := [{ page := imagePage, pins := 0, stale := false }] }

/-- The bytes of an image slot lie in a row in its page. -/
theorem savingPlaces (i : Nat) (hi : i < slotSize) : physAddrs 0 0 [imagePage] (oneGraph.slotVa oneTask.slot + i) =
    [imagePage.pa + (oneGraph.slotVa oneTask.slot - imagePage.va) + i] := by
  have hv : oneGraph.slotVa oneTask.slot = 0x100000000 := by decide
  have hs : slotSize = 0x800000 := rfl
  rw [hv, phys_page 0 rfl _ (by omega) (by omega) (by show 0x100000000 ≤ _; omega) (by show _ < 0x100000000 + 0x2000000; omega)]
  show [0x2000000 + (0x100000000 + i - 0x100000000)] = [0x2000000 + (0x100000000 - 0x100000000) + i]
  exact congrArg (fun x => [x]) (by omega)

theorem witness_Preemptions :
    let r := tasked fun x => { x with preempt := some 3 }
    let s := savingState
    (r.core 0).preempt ≠ none ∧ (r.core 0).mode = .running ∧ (s.core 0).preempt ≠ none ∧ (s.core 0).mode = .saving ∧
      s.savesImage 0 = false ∧ s.settled 0 = true ∧ s.graphOf 0 = some oneGraph ∧ (s.core 0).task = some oneTask ∧
      imagePages s 0 true (oneGraph.slotVa oneTask.slot) slotSize = .ok [imagePage] ∧ (s.core 0).coldLeft = 0 ∧
      (∀ i, i < slotSize → physAddrs 0 0 [imagePage] (oneGraph.slotVa oneTask.slot + i) =
        [imagePage.pa + (oneGraph.slotVa oneTask.slot - imagePage.va) + i]) := by
  intro r s
  have h : ∀ i, i < slotSize → physAddrs 0 0 [imagePage] (oneGraph.slotVa oneTask.slot + i) =
      [imagePage.pa + (oneGraph.slotVa oneTask.slot - imagePage.va) + i] := fun i hi => savingPlaces i hi
  and_intros <;>
    (first | exact h | decide +kernel | exact ok_of (by decide +kernel))

theorem witness_TaskResumed :
    let k : SavedTask := { slot := 0, core := 0, task := oneTask, cause := 3, readyAt := 0, resuming := true, snapshot := CoreState.reset, grid := Grid.reset }
    let g := { oneGraph with saved := [k] }
    let b := tasked fun x => { x with mode := .resuming, tlb := [{ page := imagePage, pins := 0, stale := false }] }
    let s := { b with sched := { b.sched with graphs := [g] } }
    (s.core 0).mode = .resuming ∧ (s.core 0).coldLeft = 0 ∧ s.graphOf 0 = some g ∧ s.loading 0 = some k ∧
      imagePages s 0 false (g.slotVa k.slot) slotSize = .ok [imagePage] ∧
      (∀ e : Fin 5, k.snapshot.queues[e] = [] ∧ k.snapshot.stayed[e] = []) ∧
      (∀ i, i < slotSize → physAddrs 0 0 [imagePage] (g.slotVa k.slot + i) = [imagePage.pa + (g.slotVa k.slot - imagePage.va) + i]) ∧
      imagePage.pa + (g.slotVa k.slot - imagePage.va) + slotSize ≤ devSize ∧
      s.load (imagePage.pa + (g.slotVa k.slot - imagePage.va) + 0x258) 8 / 2 ^ 44 % 4 ≠ 2 := by
  exact ⟨rfl, rfl, rfl, rfl, ok_of (by decide +kernel), by decide +kernel, savingPlaces,
    by decide, by decide +kernel⟩

theorem witness_TupleDispatched :
    let s := { State.reset with sched := { Sched.reset with graphs := [oneGraph] }, owner := { Owner.reset with mstat := 31 } }
    let x := (oneGraph.nodes.headD { entry := 0, nest := false, order := .row, bounds := Vector.replicate 4 0, succ := [], count := 0, placed := 0, ended := 0 })
    s.owner.mstat.getLsbD 2 = true ∧ (∀ d, (s.core d).mode ≠ .draining) ∧
      s.sched.graphs = [oneGraph] ∧
      s.items oneGraph = [.tuple oneGraph.id 0] ∧ oneGraph.nodes[0]? = some x ∧ oneGraph.freeSlot = some 1 ∧
      oneGraph.allows 0 = true ∧ s.coreFree 0 = true ∧ (∀ d : CoreId, d < 0 → ¬ (oneGraph.allows d = true ∧ s.coreFree d = true)) := by
  decide +kernel

/-- A table whose one page is a 32 MiB DEV page at 2^32. -/
def bigPaged (s : State) : State :=
  ((({ s with owner := { s.owner with ptbr := 0x1000 } } : State).store 0x1000 8 0x2001).store 0x2000 8 0x3001).store 0x3400 8 0x2000013

/-- Queue 0 of a table at 0x10000, its ring and tail in HOST, with one entry that names a colophon. -/
def launching (tail : Nat) : State :=
  let s := { bigPaged State.reset with owner := { (bigPaged State.reset).owner with wqtab := 0x10000, mstat := 31 } }
  ((((s.store 0x10000 8 (hostBase + 0x1000)).store 0x10008 8 (hostBase + 0x100)).store 0x10010 2 0x711).store (hostBase + 0x100) 4 tail).store
    (hostBase + 0x1000) 8 0x100004000

/-- A colophon of one node without a nest, at 0x100004000, whose record is at 0x100008000; `bad` is its reserved field. -/
def withColophon (s : State) (bad : Nat) : State :=
  ((((s.store 0x2004000 8 (0x10007 + bad)).store 0x2004010 8 0x100008000).store 0x2004030 8 0x100000000).store 0x2004038 8 1).store
    0x2004080 8 0x100000000

/-- An admission that rejects an entry at an offset, with RECORD and its place. -/
def rejects (r : Except AdmitStop Graph) (record place offset : Nat) : Bool :=
  match r with
  | .error e => e == .rejected record place offset
  | .ok _ => false

theorem witness_LaunchEvents :
    let s := launching 1
    let busy := { s with sched := { s.sched with watched := [{ queue := 0, reported := false, busy := true }] } }
    let b := withColophon busy 0x20
    let d := { bigPaged (tasked fun x => { x with task := none, mode := .free }) with
      sched := { Sched.reset with graphs := [{ oneGraph with ending := some { status := 0, code := 0, addr := 0, info := 0, node := 0, core := 0, serial := 0 } }] } }
    ∃ e, s.queueEntry 0 = some e ∧ hostBase ≤ e.taila ∧ dpaOk e.taila 4 = true ∧ e.enabled = true ∧ e.sound = true ∧
      (s.sched.watch 0).busy = false ∧ s.owner.mstat.getLsbD 4 = true ∧ e.head ≠ s.load e.taila 4 ∧
      s.sched.graphs.length + (s.sched.watched.filter WatchedQueue.busy).length < 4096 ∧
      b.queueEntry 0 = some e ∧ (b.sched.watch 0).busy = true ∧ b.load (e.ring + e.head % 2 ^ e.lsz * 8) 8 = 0x100004000 ∧
      (parseColophon (withColophon busy 0) 0x100004000 0 e.pmax).isOk = true ∧
      rejects (parseColophon b 0x100004000 0 e.pmax) 0x100008000 0x2008000 0 = true ∧
      (d.graphById 1).isSome = true ∧ d.performed 1 = true ∧ (∀ g ∈ d.sched.graphs, g.pend = 0 ∧ g.saved = [] ∧ g.ending.isSome = true ∧
        (d.recordPlace g).toOption = some 0x2008000) := by
  refine ⟨{ at_ := 0x10000, ring := hostBase + 0x1000, taila := hostBase + 0x100, lsz := 1, weight := 1, pmax := 7, head := 0 }, ?_⟩
  decide +kernel

/-- Two budgets that are due and one that waits, a LEVEL that is just reached, and a core without a task. -/
theorem witness_MeterCounts :
    let s := { (tasked fun x => { x with heatEnable := true, heatLevel := 1 }) with
      meter := { Meter.reset with pending := [(5, 0), (1, 0), (7, 1)] }, clock := 1 }
    (s.meter.pending.filter fun w => decide (w.2 + 1 ≤ s.clock)) = [(5, 0)] ++ [(1, 0)] ∧
      (State.reset.meter.pending.filter fun w => decide (w.2 + 1 ≤ State.reset.clock)) = [] ∧ (s.core 0).task.isSome = true ∧
      (s.core 0).mode = .running ∧ (s.core 0).heatEnable = true ∧ (s.core 0).heatLevel.toNat * 5 ≤ s.meter.total ∧
      (s.core 1).task = none ∧ s.meter.total ≤ s.meter.budget * 5 ∧ s.owner.mstat.getLsbD 2 = false := by decide
/-! ### Streams, boards and the array -/

theorem witness_StreamsAndCrossings :
    let q := issued (.feed 1 2 3 0) fun q => { q with handles := [row 0 8 0 300 1] }
    let ch : Channel := { number := 0, take := false, queue := 3, moved := 200, length := 300, startAt := 0, half := 0, endAt := 0 }
    let s := tasked fun x => { x.putQueue .a [q] with channels := x.channels.set 2 (some ch) }
    let x : CrossState := { number := 7, inward := true, row := true, place := 0x4080, words := List.replicate 64 1, startAt := 0, spent := 15,
                            granted := true, lastAt := 0, readyAt := 0, done := false }
    let i := State.reset.onGrid 5 fun g => { g with crossing := [x], rows := g.rows.set 1 .filling }
    let w := issued (.xout false 1 2 0) fun q => { q with order := 7, epoch := 0 }
    let o := (State.reset.onCore 5 fun y => y.putQueue .a [w]).onGrid 5 fun g =>
      { g with crossing := [{ x with inward := false, row := false, place := 0x3f83 }] }
    ((s.core 0).works = true ∧ (s.core 0).channels[(2 : Fin 8)] = some ch ∧ findEntry (s.core 0) .a ch.number = some q ∧
      (∀ j : Fin 8, j ≠ 2 → (s.core 0).channels[j] = none) ∧ ch.take = false ∧ ch.startAt ≤ s.clock ∧
      earlier ((s.core 0).queue .a) q = []) ∧
    (∀ (d : CoreId) (k : Fin 5), ∀ f ∈ (s.core d).queues[k], f.accepted = none) ∧
    ((i.grid 5).boundary i.clock = some 0 ∧ (i.grid 5).dueCross 0 = some x ∧ (i.grid 5).front.flights = [] ∧ (i.grid 5).frees = []) ∧
    (((o.grid 5).dueCross 0).map CrossState.spent = some 15 ∧ (o.grid 5).boundary o.clock = some 0 ∧
      findEntry (o.core 5) .a 7 = some w ∧ 15 < 16 + w.accessT) := by
  and_intros <;> decide +kernel

/-- An image of one element that meets R130's conditions and one whose II is 0; a swap point that has come; a board that has drained. -/
theorem witness_BoardsChange :
    let l := fun (h : Word32) =>
      State.reset.onGrid 5 fun g => { g with load := some { number := 3, words := [h, 1, 0, 0, 0, 0], left := 0, startAt := 0 } }
    let w := { (State.reset.onGrid 5 fun g => { g with swap := some (4, some 2) }) with clock := 2 }
    let d := State.reset.onGrid 5 fun g => { g with back := { g.back with status := .draining } }
    ((l 0x21).grid 5).load.map LoadState.left = some 0 ∧ ((l 0).grid 5).load.map LoadState.left = some 0 ∧
      maskedElems [0x21, 1, 0, 0, 0, 0] = [0] ∧
      w.spine 5 = [5] ∧ w.spineHead 5 = 5 ∧ w.spineWaits [5] = false ∧ (w.grid 5).swap = some (4, some 2) ∧ (w.grid 5).plan = [] ∧
      (w.grid 5).running = none ∧ (w.grid 5).boundary w.clock = some 32 ∧ swapDue (4, some 2) 32 = true ∧
      inFlight (w.spineStages [5]) (w.grid 5).history = false ∧ (w.grid 5).front.flights = [] ∧ (d.grid 5).back.status = .draining ∧
      (d.grid 5).back.flights = [] := by and_intros <;> decide +kernel

/-- A pass to begin and one that runs over; an edge to join, one that waits, joins of a joined edge on either side, and parts of an edge that is
joined and of one that is not. -/
theorem witness_PassesAndEdges :
    let r : PassRecord := { kind := .iteration, row := none, number := 1, inMask := 0xff, outMask := 0xff, pulse := 16, swaps := false }
    let p := State.reset.onGrid 5 fun g => { g with plan := [r] }
    let o := State.reset.onGrid 5 fun g => { g with running := some { r with pulse := 6 }, ran := 10 }
    let left := fun (s : State) (r : PassRecord) => 16 * (s.clock + 1) - r.pulse
    let two := fun (f h : Grid → Grid) => (State.reset.onGrid 5 f).onGrid 6 h
    let j := two (fun g => { g with edge := some (3, true, false) }) fun g => { g with edge := some (4, false, false) }
    let b := two (fun g => { g with edge := some (3, true, false), running := some r }) fun g => { g with edge := some (4, false, false) }
    let k := two (fun g => { g with edge := some (3, true, false), joinSouth := true }) fun g => { g with joinNorth := true }
    let n := two (fun g => { g with joinSouth := true }) fun g => { g with edge := some (4, false, false), joinNorth := true }
    let t := two (fun g => { g with edge := some (3, true, true), joinSouth := true }) fun g => { g with joinNorth := true }
    let u := two (fun g => { g with edge := some (3, true, true) }) id
    let v := two (fun g => { g with edge := some (3, true, true) }) fun g => { g with running := some r }
    (p.spine 5 = [5] ∧ p.spineHead 5 = 5 ∧ p.joinedNorth 5 = false ∧ p.joinedSouth 5 = false ∧ (p.grid 5).plan = [r] ∧
      (p.grid 5).running = none ∧ left p r < (p.grid 5).front.ii) ∧
    ((o.grid 5).running = some { r with pulse := 6 } ∧ (o.grid 5).front.ii ≤ left { o with clock := 1 } { r with pulse := 6 }) ∧
    (southOf 5 = some 6 ∧ northOf 5 = some 4) ∧
    ((j.grid 5).edge = some (3, true, false) ∧ (j.grid 6).edge = some (4, false, false) ∧ (j.grid 5).joinSouth = (j.grid 6).joinNorth ∧
      j.gridIdle 5 = true ∧ j.gridIdle 6 = true) ∧
    ((b.grid 5).edge = some (3, true, false) ∧ b.gridIdle 5 = false ∧ (b.grid 6).joinNorth = false) ∧
    ((k.grid 5).edge = some (3, true, false) ∧ (k.grid 6).edge = none ∧ (k.grid 5).joinSouth = true ∧ k.gridIdle 5 = true ∧
      k.gridIdle 6 = true) ∧
    ((n.grid 6).edge = some (4, false, false) ∧ (n.grid 5).edge = none ∧ (n.grid 6).joinNorth = true ∧ n.gridIdle 5 = true ∧
      n.gridIdle 6 = true) ∧
    ((t.grid 5).edge = some (3, true, true) ∧ (∀ e ∈ t.spine 5, t.gridIdle e = true) ∧ (t.grid 5).joins true = true) ∧
    ((u.grid 5).edge = some (3, true, true) ∧ (∀ e ∈ u.spine 5, u.gridIdle e = true) ∧ (u.grid 5).joins true = false ∧
      u.gridIdle 6 = true) ∧
    ((v.grid 5).edge = some (3, true, true) ∧ (v.grid 5).joins true = false ∧ v.gridIdle 6 = false) := by
  and_intros <;> decide +kernel

/-- A byte of LOCAL lies at its place in the core's scratchpad. -/
theorem phys_local (c : CoreId) (pages : List PageMap) (va : Nat) (h : va < 0x400000) :
    physAddrs c 0 pages va = [scratchBase c.val + va] := by
  have hr : regionOf va = .localPad := by unfold regionOf; rw [if_pos h]
  simp only [physAddrs, padAddrs, hr]

/-- The bytes of a spill area at the end of LOCAL lie in a row. -/
theorem spillPlaces (i : Nat) (hi : i < spillBytes) : physAddrs 16 0 [] (0x37a000 + i) = [0x400437a000 + i] := by
  have hs : spillBytes = 548864 := rfl
  refine (phys_local 16 _ _ (by show 0x37a000 + i < _; omega)).trans ?_
  show [0x4000000000 + 16 * 0x400000 + (0x37a000 + i)] = _
  exact congrArg (fun x => [x]) (by omega)

/-- Two cores of die 1 of one priority, one that waits and one that is suspended; a holder whose term is over, with a competitor and
with none; a lease that saves, and one that restores. -/
theorem witness_ArrayLeases :
    let core := fun (st : LeaseState) (x : CoreState) => { x with mode := .running, lease := { x.lease with state := st, spillBase := 0x37a000 } }
    let busy := { State.reset with cores := Vector.replicate 64 { CoreState.reset with mode := .running } }
    let n := (busy.onCore 17 (core .waiting)).onCore 20 (core .suspended)
    let h := { (n.onCore 16 (core .active)).onArray 1 fun a => { a with holder := some 0, termWords := 64 } with clock := 9 }
    let m := { (busy.onCore 16 (core .active)).onArray 1 fun a => { a with holder := some 0, termWords := 64 } with clock := 9 }
    let v := (State.reset.onCore 16 (core .saving)).onArray 1 fun a => { a with holder := some 0 }
    let r := (State.reset.onCore 16 (core .restoring)).onArray 1 fun a => { a with holder := some 0 }
    (n.array 1).holder = none ∧ n.competes (coreOf 1 1) = true ∧
      (∀ k, n.competes (coreOf 1 k) = true → n.priority (coreOf 1 k) ≤ n.priority (coreOf 1 1)) ∧
      (∀ k, n.competes (coreOf 1 k) = true → n.priority (coreOf 1 k) = n.priority (coreOf 1 1) →
        ((1 : Fin 16) - (n.array 1).last - 1).val ≤ (k - (n.array 1).last - 1).val) ∧
      (h.array 1).holder = some 0 ∧ termOver h 1 = true ∧ (∃ k, k ≠ 0 ∧ h.competes (coreOf 1 k) = true ∧ h.priority 16 ≤ h.priority (coreOf 1 k)) ∧
      (m.array 1).holder = some 0 ∧ termOver m 1 = true ∧ (∀ k, k ≠ 0 → m.competes (coreOf 1 k) = false) ∧
      (v.array 1).holder = some 0 ∧ (v.core 16).lease.state = .saving ∧ (r.core 16).lease.state = .restoring ∧
      (∀ i, i < spillBytes → physAddrs 16 0 (v.core 16).lease.spillPages ((v.core 16).lease.spillBase.toNat + i) = [0x400437a000 + i]) := by
  have h : ∀ i, i < spillBytes → physAddrs 16 0 [] (0x37a000 + i) = [0x400437a000 + i] := fun i hi => spillPlaces i hi
  and_intros <;> first | exact h | decide +kernel

/-! ### The fabric -/

def slotZero : Slot := { bank := oneSlot, number := 0, start := 0, offset := 0 }

/-- A message of 64 bytes to module 1. -/
def message : Msg :=
  { number := 0, dest := 1, cls := .v, seq := 0, body := .data, owner := some (0, 2), stepOf := none, epoch := 1, graph := some 1, handle := row 0 5 0 16 1, pages := []
    offset := 0, bytes := 64, dst := 0, places := [], relayOk := false, last := true, held := false, core := 0, admittedAt := 0, width := 0
    payload := [], via := none, forwarded := false, landsAt := 0 }

/-- A message of eight bytes that comes in for two pieces of core 0's scratchpad. -/
def arrived (kind : InboundKind) : InboundMsg :=
  { source := 1, cls := .d, seq := 0, kind := kind, addr := 0, places := [(0x4000000000, 4), (0x4000001000, 4)], payload := leBytes 8 0x3f8000003f800000
    width := 0, wcs := 0, landed := 0, relayed := false, last := true, lastAt := 0x4000001003, stamp := some 3, notify := 0, ahead := 0 }

/-- The wcs of a guard's message, a port that is off, a marker that waits and one that does not, a rotation that begins, a switch that is due,
a relock and an epoch. -/
theorem witness_GuardsAndCalendars :
    let m : CtlMsg := { stage := 2, peer := 1, relayFreed := true, relayFailed := false, acks := [3], marker := some 5, peerTrains := false,
                        peerOff := none, trainAck := true, budget := none, relockFailed := false }
    let late := { joined with clock := 10000 }
    let v := { joined with power := { joined.power with nextShare := some 7 } }
    let c := { joined with fabric := { joined.fabric with change := some (0, 30000, oneSlot) } }
    let k := { (joined.onPort 0 fun x => { x with phase := .dark }) with
      fabric := { joined.fabric with active := some { oneSlot with epoch := 2000 } } }
    let r := joined.onPort 0 fun x => { x with rtdue := true, train := true, gaps := [(0, 100000, none)] }
    let off := joined.onPort 0 fun x => { x with trainUntil := some 80000 }
    let w := joined.onPort 0 fun x => { x with reseq := [{ arrived .data with width := 0 }] }
    (({ m with stage := 0 } : CtlMsg).stage = 0 ∧ joined.slot = some slotZero ∧ (joined.port 0).off joined.clock = false ∧
      slotZero.nextPeer 0 = true ∧ joined.hears 0 slotZero 1 = true) ∧
    (joined.tells 0 slotZero 1 = true ∧ r.tells 0 slotZero 1 = true ∧ (r.port 0).rtdue = true ∧ (r.gapEnd 0).isSome = true ∧
      (r.port 0).trainUntil = none) ∧
    (({ m with stage := 1 } : CtlMsg).stage = 1 ∧ m.stage = 2 ∧ (off.port 0).off off.clock = true ∧ m.marker = some 5 ∧
      joined.markerFree 0 m.peer 5 = true ∧ w.markerFree 0 m.peer 5 = false ∧ (r.port 0).train = true) ∧
    (v.power.nextShare = some 7 ∧ slotZero.rotation = 0 ∧
      (late.slot.map fun x => (x.index, x.offset, decide (0 < x.rotation))) = some (0, 0, true) ∧ (late.port 0).corrected = 0 ∧
      ((late.onPort 1 fun x => { x with rtdue := true, corrected := 3 }).port 1).rtdue = true) ∧
    (c.fabric.change = some (0, 30000, oneSlot) ∧ 0 ≤ c.count ∧ (∀ p, (c.port p).reseq = []) ∧
      k.fabric.active = some { oneSlot with epoch := 2000 } ∧ k.count + 2000 = 2000 ∧ (k.port 0).phase = .dark ∧
      joined.fabric.active = some oneSlot ∧ oneSlot.epoch ≤ joined.count) := by and_intros <;> decide +kernel

theorem witness_PortBoundaries :
    let s := joined.onPort 0 fun x => { x with rtdue := true, train := true, trainAcks := [1], gaps := [(0, 80301, none)] }
    let e := joined.onPort 0 fun x => { x with trainUntil := some 0 }
    let n := { State.reset with fabric := { Fabric.reset with active := some { oneSlot with
      calendar := Vector.replicate 8 (Vector.replicate 63 none) } } }
    let o : GateOrder := { mask := 9, owner := some (0, 2), dropped := false }
    let g := joined.onPort 0 fun x => { x with gates := [o], sheds := [(1, 0, 4)], groups := x.groups.set 3 .on }
    n.portPeers 0 = [] ∧ s.slot = some slotZero ∧ s.gapEnd 0 = some 80301 ∧ slotZero.offset = 0 ∧ (s.port 0).rtdue = true ∧ (s.port 0).train = true ∧
      (s.port 0).trainUntil = none ∧ (∀ q ∈ s.portPeers 0, q ∈ (s.port 0).trainAcks) ∧ s.clock + oneSlot.flight + 1 + 80000 ≤ 80301 ∧
      (e.port 0).trainUntil = some 0 ∧ 0 ≤ e.clock ∧ (g.port 0).busyUntil ≤ g.clock ∧ (g.port 0).gates = [o] ∧
      (g.port 0).sheds = [] ++ [(1, 0, 4)] ∧ (∀ k : Fin 16, o.mask.getLsbD k.val = true → (g.port 0).groups[k] ≠ .waking) ∧
      (∃ k : Fin 16, o.mask.getLsbD k.val = true ∧ ((g.onPort 0 fun x => { x with groups := x.groups.set 3 .waking }).port 0).groups[k] = .waking) := by decide +kernel

theorem witness_Messages :
    let s := joined.onPort 0 fun x => { x with queue := [message], groups := Vector.replicate 16 .on }
    let w := s.portWidth 0
    let f := joined.onPort 0 fun x => { x with flying := [message] }
    let m := arrived .data
    let r := arrived (.reduce .add 5)
    let at_ := fun k => if k < 4 then 0x4000000000 + k else 0x4000001000 + (k - 4)
    let put := fun i => if i = 0 then 0x4000000000 else 0x4000001000
    (s.dataSlot 0 = some (1, slotZero) ∧ (s.port 0).busyUntil ≤ s.clock ∧ (s.port 0).trainUntil = none ∧
      (s.port 0).peerIsOff 1 slotZero = false ∧ (s.port 0).relays = [] ∧ (s.port 0).queue.find? (fun n => n.dest == 1) = some message ∧
      message.held = false ∧ (s.port 0).inWindow message = true ∧ s.ownerFree message = true ∧ 0 < w ∧
      s.clock + ((1 + (message.bytes + 63) / 64) * 512 + w - 1) / w ≤ slotZero.guardAt) ∧
    ((f.port 0).flying.all (fun n => !n.precedes message) = true ∧
      Msg.precedes message { message with number := 5 } = true) ∧
    ((f.port 0).flying.find? (fun n => n.number == 0) = some message ∧ message.body = .data ∧ message.via = none ∧ message.cls ≠ .f) ∧
    (m.notify = 0 ∧ (joined.port 0).reseq = [] ∧ m.width = 0 ∧ m.landed = 0 ∧ m.seq = (joined.port 0).seqIn[m.source] ∧
      m.payload.length = 8 ∧ (∀ k, k < 8 → msgPlace m k = some (at_ k)) ∧ (∀ i j, i < 8 → j < 8 → at_ i = at_ j → i = j)) ∧
    (r.payload.length = 8 ∧ 4 ≤ (5 : BitVec 4).toNat ∧ (5 : BitVec 4).toNat ≤ 9 ∧ efmtBytes 5 = 4 ∧
      (∀ k, k < 2 → msgPlace r (k * 4) = some (put k)) ∧
      ∀ i j, i < 2 → j < 2 → i ≠ j → put i + 4 ≤ put j ∨ put j + 4 ≤ put i) ∧
    (arrived (.pullRequest 64 .v true)).kind = .pullRequest 64 .v true := by
  and_intros <;> first | decide +kernel | (intro i j; dsimp only; intros; split at * <;> split at * <;> omega)

/-! ### Power and the owner window -/

theorem witness_PowerEvents :
    let s := fun (f : Power → Power) => { State.reset with power := f { Power.reset with crsel := 0xfffe } }
    ((s id).power.railHigh 0 = false ∧ (s id).power.injecting[(0 : Fin 16)] = none ∧ (s id).power.injected[(0 : Fin 16)] < 64) ∧
      64 ≤ (s fun p => { p with injected := p.injected.set 0 64 }).power.injected[(0 : Fin 16)] ∧
      (let d := s fun p => { p with injecting := p.injecting.set 0 (some 0) }
       d.power.injecting[(0 : Fin 16)] = some 0 ∧ 0 + 128 ≤ ({ d with clock := 128 } : State).clock) ∧
      (((s id).power.railHigh 15 && !(s id).power.forced.getLsbD 15) = true) ∧
      (∀ j, j < 16 → (s fun p => { p with crsel := 0 }).power.railHigh j = false) ∧
      (s fun p => { p with stepped := 4 }).power.stepped.getLsbD 2 = true ∧
      (∀ i, i < 2 → (s fun p => { p with stepped := 4 }).power.stepped.getLsbD i = false) := by decide

theorem witness_OwnerElection :
    let s := fun (o : Owner) => { State.reset with owner := o }
    let tie := s { Owner.reset with claimAt := some 0, waits := [.ohand .host 0] }
    let hand := s { Owner.reset with own := 1, handDeadline := some 0, ohand := 2 }
    let held := s { Owner.reset with own := 1 }
    ((s Owner.reset).owner.own = 0 ∧ (s Owner.reset).owner.claimAt = none) ∧
      (tie.owner.own = 0 ∧ tie.owner.claimAt ≠ none) ∧
      (hand.owner.own ≠ 0 ∧ hand.owner.handDeadline = some 0 ∧ hand.owner.ohand = masterCode .controller ∧
        hand.owner.own ≠ masterCode .controller ∧ hand.clock ≤ 0 ∧ 0 < ({ hand with clock := 1 } : State).clock) ∧
      (held.owner.own ≠ 0 ∧ held.owner.handDeadline = none ∧ held.owner.own ≠ masterCode .controller ∧
        held.owner.own = masterCode .host ∧ (4 : Word).extractLsb' 0 2 = (0 : BitVec 2) ∧ (2 : Word).extractLsb' 0 2 ≠ (0 : BitVec 2)) := by
  decide

/-- A controller that owns the module, with a bank and with none, a running task and a graph that OSTOP names. -/
theorem witness_OwnerRegisters :
    let s := { joined with owner := { joined.owner with own := 2 } }
    let t := { tasked id with owner := { (tasked id).owner with own := 2 } }
    s.owner.own ≠ masterCode .host ∧ s.owner.own = masterCode .controller ∧ s.fabric.active = some oneSlot ∧ 0 < oneSlot.slen ∧
      State.reset.owner.own ≠ masterCode .host ∧
      ({ State.reset with owner := { Owner.reset with claimAt := some 0 } } : State).owner.claimAt ≠ none ∧
      t.owner.own = masterCode .controller ∧ t.fabric.active = none ∧ t.sched.graphs[0]? = some oneGraph ∧ oneGraph.ending = none ∧
      (t.core 0).mode = .running ∧ (t.core 0).preempt = none := by
  and_intros <;> first | rfl | decide +kernel

/-- The first and last offsets of each window that OWNER_REGISTER_WRITE has. -/
theorem witness_OwnerWrites :
    let s := { joined with owner := { joined.owner with own := 2 } }
    s.owner.own ≠ masterCode .host ∧ s.owner.own = masterCode .controller ∧ State.reset.owner.own = 0 ∧
      ({ State.reset with owner := { Owner.reset with claimAt := some 0 } } : State).owner.claimAt ≠ none ∧
      (∀ x ∈ [0x8, 0x10, 0x100, 0x110, 0x140, 0x148, 0x1230, 0x1238, 0x2040, 0x2418], x ≠ (0x1fff : BitVec 14).toNat ∧ x ≠ 0x108) ∧
      (0x2418 : BitVec 14).toNat = 0x2418 ∧
      ((0x1fff : BitVec 14).toNat < 0x2000 ∧ 0x2040 ≤ (0x2040 : BitVec 14).toNat) ∧
      (0x2000 ≤ (0x203f : BitVec 14).toNat ∧ (0x203f : BitVec 14).toNat < 0x2040) ∧
      (0x108 : BitVec 14).toNat = 0x108 ∧ (0x2410 : BitVec 14).toNat = 0x2410 ∧
      (0x1000 ≤ (0x11ff : BitVec 14).toNat ∧ (0x11ff : BitVec 14).toNat < 0x1200) := by
  decide +kernel

theorem witness_ServicesAndErrors :
    let s := fun (o : Owner) => { State.reset with owner := o }
    (s Owner.reset).owner.busy = false ∧ (s { Owner.reset with busy := true }).owner.busy = true ∧
      (s { Owner.reset with own := 1 }).owner.own = masterCode .host ∧ (s { Owner.reset with sess := 1 }).owner.sess.getLsbD 0 = true ∧
      (s Owner.reset).owner.sess.getLsbD 0 = false ∧ (s { Owner.reset with alpol := 1 }).owner.alpol.getLsbD 0 = true ∧
      (s Owner.reset).owner.alpol.getLsbD 0 = false ∧ (s Owner.reset).owner.eraseAt = none ∧ (s Owner.reset).owner.nokey = false ∧
      (s { Owner.reset with mstat := 7 }).owner.mstat.getLsbD 2 = true ∧ devSize - 2 + [(1 : Byte), 2].length ≤ devSize ∧
      hostBase + hostSize - 2 + [(1 : Byte), 2].length ≤ hostBase + hostSize ∧
      (({ die := none, unit := some 7, addr := 0 } : ErrorSite).unit = some 7 ∧ ({ die := some 2, unit := none, addr := 64 } : ErrorSite).unit = none) := by
  decide

theorem witness_BringUp :
    let s := { joined with owner := { joined.owner with mstat := 3 } }
    let d := { joined with owner := { joined.owner with mstat := 1, stepAt := some (0, 1) } }
    let o := { joined with owner := { joined.owner with mstat := 7, stepAt := some (0, 3) } }
    s.owner.mstat.getLsbD 1 = true ∧ s.owner.mstat.getLsbD 2 = false ∧ o.fabric.active.isSome = true ∧
      d.owner.stepAt = some (0, 1) ∧ 0 ≤ d.clock ∧ o.owner.stepAt = some (0, 3) := by decide

/-! ### Decoding and the step -/

theorem witness_DecodeEncode :
    let i : Instr := .acas { pred := 7, invert := true } .acqrel .pod true 58 63
    let k : Instr := .linkWait 255 0xfffff
    i.wf = true ∧ (encode i).isSome = true ∧ isLinkStep i = false ∧ k.wf = true ∧ encode k = some 0x2fffffff ∧ isLinkStep k = true := by decide

theorem issues_of {s : State} {c : CoreId} (h1 : (s.core c).mode = .running) (h2 : (s.core c).issueAt ≤ s.clock) (h3 : (s.core c).held = none)
    (h4 : (s.core c).traps = []) (h5 : (s.core c).preempt = none) (h6 : (s.core c).hasStayed = false) : s.Issues c := ⟨h1, h2, h3, h4, h5, h6⟩

theorem witness_StepRunsDecoded :
    let a := { State.reset with agenda := [.cxlLinkError] }
    let q := { (tasked fun x => { x with squeue := [(0, 0x00800000)] }) with turn := [0] }
    let r := { (tasked fun x => { x with squeue := [(0, 0x1f8a25ff)] }) with turn := [0] }
    let d := { (tasked fun x => { x with squeue := [(0, 0x1f8a25ff)] }) with late := [0], stage := 3 }
    let i := { (tasked fun x => { x with pc := 0x10000003c, icache := [{ line := 0x4000000, bytes := Vector.replicate 64 1 }] }) with turn := [0] }
    let p := { stepping with portTurn := [0], stage := 1 }
    let z := fun (stage : Nat) (e : Instr) => { State.reset with closing := [e], stage := stage }
    let n : Note := { core := 0, order := 1, epoch := 1, graph := 1, node := 0, serial := 0, notify := 0, slot := 0, pc := 0 }
    let m := { z 2 .meterCycle with notes := [n] }
    let read : Instr := .hostMemoryAccess (.read 0 8)
    (a.agenda = [.cxlLinkError] ∧ waitsInWc .cxlLinkError = false ∧ ({ a with agenda := [read] } : State).agenda = [read] ∧ waitsInWc read = true) ∧
    (q.agenda = [] ∧ q.turn = [0] ∧ q.Issues 0 ∧ q.nextWord 0 0x00800000 ∧ wordReads 0x00800000 = false ∧
      r.turn = [0] ∧ r.Issues 0 ∧ r.nextWord 0 0x1f8a25ff ∧ wordReads 0x1f8a25ff = true ∧ i.Issues 0 ∧ i.nextWord 0 0x01010101) ∧
    (p.agenda = [] ∧ p.turn = [] ∧ p.stage ≠ 0 ∧ p.stageDue ≠ 0 ∧ p.portTurn = [0] ∧ (p.port 0).seqr.running = true ∧
      (p.port 0).seqr.program = some program ∧ program.steps[(p.port 0).seqr.step]? = some (.linkSend .d 0 1 0 0)) ∧
    ((z 0 (.engineIssue 0 .a)).agenda = [] ∧ (z 0 (.engineIssue 0 .a)).turn = [] ∧ (z 0 (.engineIssue 0 .a)).portTurn = [] ∧
      (z 0 (.engineIssue 0 .a)).stageDue = 1 ∧ (z 0 (.arrayArbitration 0)).stageDue = 0 ∧ (z 1 (.retirement 0 .y 0)).stageDue = 2 ∧
      (z 2 .meterCycle).stageDue = 3) ∧
    ((z 0 (.arrayArbitration 0)).noteDue = none ∧ (z 2 .meterCycle).noteDue = none ∧ m.noteDue = some (n, [])) ∧
    (d.agenda = [] ∧ d.turn = [] ∧ d.portTurn = [] ∧ d.closing = [] ∧ d.stage = 3 ∧ d.noteDue = none ∧ d.late = [0] ∧ d.Issues 0 ∧
      d.nextWord 0 0x1f8a25ff) ∧
    (State.reset.agenda = [] ∧ State.reset.turn = [] ∧ State.reset.portTurn = [] ∧ State.reset.closing = [] ∧ State.reset.stage = 0 ∧
      State.reset.stageDue = 3 ∧ ({ State.reset with stage := 3 } : State).noteDue = none ∧ State.reset.late = []) := by
  intro a q r d i p z n m read
  have cached : i.nextWord 0 0x01010101 :=
    .inr ⟨by decide, { line := 0x4000000, bytes := Vector.replicate 64 1 }, by decide +kernel, by decide +kernel⟩
  and_intros <;>
    (first | rfl | exact .inl ⟨[], by decide⟩ | exact cached | decide +kernel
           | exact issues_of (by decide) (by decide) (by decide) (by decide) (by decide) (by decide))

theorem witness_StepKeepsMemory : State.reset.Inv ∧ ({ State.reset with agenda := [.cxlLinkError] } : State).Inv ∧
    ∃ t, step { State.reset with agenda := [.cxlLinkError] } = .next t := ⟨rfl, rfl, _, rfl⟩

/-! ## Worked examples of the manual -/

/-- The register a word writes, when exec answers a next state. -/
def result (i : Instr) (s : State) (r : SReg) : Option Word :=
  match exec i s with
  | .next t => some t.me.regs[r.toNat]
  | _ => none

/-- Core 0 with two values in s1 and s2. -/
def with12 (a b : Word) : State := demo fun x => { x with regs := (x.regs.set 1 a).set 2 b }

/-- R27: DIV.i32 and DIVN.n32 of 7 by 0; the most negative number by −1. -/
theorem test_division_corners :
    result (.div { natural := false, width := .b32 } 3 1 2) (with12 7 0) 3 = some 0xffffffffffffffff ∧
      result (.divn { natural := true, width := .b32 } 3 1 2) (with12 7 0) 3 = some 0xffffffff ∧
      result (.div { natural := false, width := .b8 } 3 1 2) (with12 0x80 0xff) 3 = some 0xffffffffffffff80 ∧
      result (.rem { natural := false, width := .b8 } 3 1 2) (with12 0x80 0xff) 3 = some 0 := by decide

/-- R27, R57: a sum wraps at its width and is extended by its type; a shift moves by its amount modulo the width. -/
theorem test_wrap_and_extend :
    result (.add { natural := false, width := .b32 } 3 1 2) (with12 0x7fffffff 1) 3 = some 0xffffffff80000000 ∧
      result (.add { natural := true, width := .b8 } 3 1 2) (with12 0xff 1) 3 = some 0 ∧
      result (.mulh { natural := false, width := .b8 } 3 1 2) (with12 0x80 0x80) 3 = some 0x40 ∧
      result (.sha { natural := false, width := .b16 } 3 1 2) (with12 0x8000 0x11) 3 = some 0xffffffffffffc000 := by decide

/-- R29: MOVHI over a register that holds 0x234 builds 0x1234; LOOP counts down (R31). -/
theorem test_movhi_loop :
    result (.movhi 3 1 1) (with12 0x7ff234 0) 3 = some 0x1234 ∧ result (.loop 1 0) (with12 0 0) 1 = some 0xffffffffffffffff := by decide

/-- R76's table under rm 0, for FP4 and H4. -/
theorem test_conversions :
    let v := fun (neg : Bool) (m : Nat) (e : Int) (f : Nat) => convert f false (.fin { neg := neg, m := m, e := e }) 0
    (v false 5 (-1) 0, v false 5 (-1) 2) = (4, 2) ∧ (v false 5 0 0, v false 5 0 2) = (6, 4) ∧ (v false 3 (-2) 0, v false 3 (-2) 2) = (2, 0) ∧
      (v true 1 0 0, v true 1 0 2) = (10, 15) ∧ (v false 9 0 0, v false 9 0 2) = (7, 7) := by decide

/-- The worked sum of R79: three blocks of FP4 with block scales on one element, and its drain to BF16. -/
def workedSum (blocks : List (List Nat × List Nat × Nat × Nat)) : AccRow :=
  blocks.foldl (fun r b =>
    let x := blockResult (b.1.map fun c => finiteOr0 (operandValue 0 c)) (b.2.1.map fun c => finiteOr0 (operandValue 0 c))
      (scaleExact b.2.2.1) (scaleExact b.2.2.2)
    r.applyBlock (Vector.ofFn fun j => if j = 0 then x else exactZero)) AccRow.zero

def workedBlocks : List (List Nat × List Nat × Nat × Nat) :=
  [(List.replicate 8 7, List.replicate 8 7, 0xff, 0xff), ([1, 1, 0, 0, 0, 0, 0, 0], [2, 3, 0, 0, 0, 0, 0, 0], 4, 4),
    (List.replicate 8 12, List.replicate 8 4, 0xa0, 0xc0)]

theorem test_worked_sum :
    ((workedSum (workedBlocks.take 1)).m[(0 : Fin 32)]).toInt = 585252864 ∧ ((workedSum (workedBlocks.take 2)).m[(0 : Fin 32)]).toInt = 585252866 ∧
      ((workedSum workedBlocks).m[(0 : Fin 32)]).toInt = 583155714 ∧ (workedSum workedBlocks).e.toInt = 19 ∧ headroomOf 3 = 2 ∧
      ((workedSum workedBlocks).element 0).code 4 false = 0x488b := by decide +kernel

/-- R86: the atomic add of blocks 1 and 2 to the drained block 0 rounds once, to 0x488c. -/
theorem test_worked_pieces :
    ((workedSum (workedBlocks.take 1)).element 0).code 4 false = 0x488c ∧
      ((workedSum (workedBlocks.drop 1)).m[(0 : Fin 32)]).toInt = -536870272 ∧
      ((workedSum (workedBlocks.drop 1)).element 0).addCode 4 false 0x488c = 0x488c := by decide +kernel

/-- R287's GATH: the index 7 lies past the table. -/
theorem test_gath :
    let s := ((((((State.reset.store 0x4000000000 8 0x41a0000041200000).store 0x4000000008 8 0x4220000041f00000).store 0x4000001000 8
      0x0003000700000003).store 0x4000002000 8 0x3f8000003f800000).store 0x4000002008 8 0x3f8000003f800000))
    let q := { entry (.gath 1 2 0) 0 with handles := [row 0x2000 5 0 4 1, row 0 5 0 4 1, row 0x1000 7 0 4 1] }
    (s.landRest 0 { q with ops := tensorOps 0 q }).load 0x4000002000 16 = 0x422000003f8000004120000042200000 := by decide +kernel

/-- R332's SCAT: the second write to element 2 stands, and index 5 lies past the table. -/
theorem test_scat :
    let s := (((State.reset.store 0x4000000000 8 0x400000003f800000).store 0x4000000008 8 0x4080000040400000).store 0x4000001000 8
      0x0000000500020002)
    let q := { entry (.scat 1 2 0) 0 with handles := [row 0x2000 5 0 4 1, row 0 5 0 4 1, row 0x1000 7 0 4 1] }
    (s.landRest 0 { q with ops := tensorOps 0 q }).load 0x4000002000 16 = 0x00000000400000000000000040800000 := by decide +kernel

/-- R279's COPY.s24. -/
theorem test_copy_s24 :
    let s := (State.reset.store 0x4000000000 8 0x4080404040003f80).store 0x4000001000 2 0x0c09
    let q := { entry (.copy .s24 1 2 0) 0 with handles := [row 0x2000 4 0 8 1, row 0 4 0 4 1, row 0x1000 6 0 2 1] }
    (s.landRest 0 { q with ops := tensorOps 0 q }).load 0x4000002000 16 = 0x4080000000004040000040003f800000 := by decide +kernel

/-! ## The words of the other engines -/

/-- Core 0 runs a task whose queue of engine `e` holds one word, in a module whose ports join module 1. -/
def queued (e : Engine) (q : QEntry) : State :=
  { holding e q with fabric := { Fabric.reset with active := some oneSlot } }

/-- The word q is the one that issues next. -/
def issuesNext (s : State) (e : Engine) (q : QEntry) : Bool :=
  headWaiting ((s.core 0).queue e) == some q && engineReady s 0 e q && q.mismatch == none && (checkTags s 0 q.mcMask (sourceHandles q)).isNone

/-- A word of each kind, one that moves bytes and one that moves none, ports with a program and without, and words that retire. -/
theorem witness_LinkWordsIssue :
    let z := fun i => entry i 0
    let w := fun i => { entry i 0 with sa := 0x200000000, handles := [row 0 5 0 16 1], pages := [peerPage] }
    let r := fun i => issued i id
    let s := (queued .l (z (.lwake 7 1))).onPort 7 fun x => { x with seqr := { x.seqr with program := some program }, groups := x.groups.set 0 .gated }
    (∀ q ∈ [w (.send 7 .v 1 1 0), w (.sendred 7 .add true 1 1 0), w (.pull 7 .d 1 1 0), z (.cal 7 59), z (.lphase true 1), z (.lprog 7 1 0),
        z (.lstart 7 1 0), z (.lmark 7), z (.lhold 7 true), z (.lshed 7 1), z (.lgate 7 1), z (.lwake 7 1), z (.lidle 7 1)],
      issuesNext (queued .l q) .l q = true ∧ q.notify = 0 ∧ q.epoch = ((queued .l q).core 0).epoch ∧ ((queued .l q).core 0).task ≠ none ∧
        ((queued .l q).core 0).mode = .running) ∧
    ((w (.lmark 0)).pages.find? (fun g => g.covers (w (.lmark 0)).sa.toNat) = some peerPage ∧ hPacked ((w (.lmark 0)).handleAt 0) ≠ 0 ∧
      hPacked ((z (.lmark 0)).handleAt 0) = 0) ∧
    ((s.port 7).seqr.program = some program ∧ ((queued .l (z (.lmark 0))).port 7).seqr.program = none ∧ State.reset.portPeers 7 = [] ∧
      (s.port 7).groups[(0 : Fin 16)] = .gated) ∧
    ((0 : Word).toNat % 2 ^ 32 = 0 ∧ (0xffffffff : Word).toNat % 2 ^ 32 ≠ 0) ∧
    (∀ q ∈ [r (.cal 7 59), r (.lphase false 59), r (.lphase true 59), r (.lmark 7), r (.send 7 .v 1 1 0)],
      findEntry ((queued .l q).core 0) .l q.order = some q ∧ q.status = .issued 0 ∧ retireWaits (queued .l q) 0 .l q = false ∧
        readsFirst q.instr = false ∧ q.ops = [] ∧ q.epoch = ((queued .l q).core 0).epoch ∧ ((queued .l q).core 0).shadows = []) ∧
    State.reset.phaseAt 0 = false ∧ joined.phaseAt 0 = true := by
  and_intros <;> decide +kernel

/-- What a tensor word lands in LOCAL does not meet itself. -/
theorem apart_local {c : CoreId} {q : QEntry} {x : ElemRef} {n : Nat} (h : x.addr < 0x400000) : apart (destOf c q x) n := by
  have hr : regionOf x.addr = .localPad := by unfold regionOf; rw [if_pos h]
  simp [apart, destOf, physAddrs, padAddrs, hr]

/-- Words that retire with accesses left and with none, one command of each kind in LOCAL, and a TAKE of two elements. -/
theorem witness_TensorWordsRetire :
    let hs := [row 0x2000 5 0 4 1, row 0 5 0 4 1, row 0x1000 7 0 4 1]
    let q := fun i => issued i fun q => { q with handles := hs, ops := tensorOps 0 { q with handles := hs } }
    let x := issued (.xout true 1 2 0) fun q => { q with handles := hs, ops := xoutOps 0 { q with handles := hs } [1, 2, 3, 4] }
    let z := issued (.copy .s24 1 2 0) fun q =>
      let k := { q with handles := [row 0x2000 4 0 8 1, row 0 4 0 4 1, row 0x1000 6 0 2 1] }
      { k with ops := tensorOps 0 k }
    let left := fun (w : QEntry) => { w with ops := w.ops.filter MemOp.writes }
    let words := [left (q (.copy .redMin 1 2 0)), left (q (.gath 1 2 0)), left (q (.scat 1 2 0)), x, left z, left (q (.feed 1 2 3 0)),
      left (q (.xin true 1 2 0))]
    (∀ w ∈ words, findEntry ((holding .a w).core 0) .a w.order = some w ∧ w.status = .issued 0 ∧
      retireWaits (holding .a w) 0 .a w = false ∧ readsFirst w.instr = false ∧ w.epoch = ((holding .a w).core 0).epoch ∧ w.notify = 0) ∧
    (∀ w ∈ words, w.readsLeft = false) ∧ ((q (.gath 1 2 0)).readsLeft = true ∧
      findEntry ((holding .a (q (.gath 1 2 0))).core 0) .a 0 = some (q (.gath 1 2 0))) ∧
    ((∀ y ∈ hElems ((q (.gath 1 2 0)).handleAt 0), apart (destOf 0 (q (.gath 1 2 0)) y) 5) ∧
      (4 ≤ hEfmt ((q (.copy .redMin 1 2 0)).handleAt 0) ∧ hEfmt ((q (.copy .redMin 1 2 0)).handleAt 0) ≤ 9)) ∧
    (∀ r ra i : Nat, (hRows (z.handleAt 0))[r]? = some ra → i < hDim (z.handleAt 0) 0 → apart (destOf 0 z (rowElem (z.handleAt 0) ra i)) 4) := by
  intro hs q x z left words
  refine ⟨by decide +kernel, by decide +kernel, by decide +kernel, ⟨fun y hy => apart_local ?_, by decide +kernel⟩, fun r ra i hr hi => apart_local ?_⟩
  · exact (by decide +kernel : ∀ y ∈ hElems ((q (.gath 1 2 0)).handleAt 0), y.addr < 0x400000) y hy
  · exact (by decide +kernel : ∀ ra ∈ hRows (z.handleAt 0), ∀ i ∈ List.range (hDim (z.handleAt 0) 0),
      (rowElem (z.handleAt 0) ra i).addr < 0x400000) ra (List.mem_of_getElem? hr) i (List.mem_range.mpr hi)

/-- A TAKE that is alone in its core, with two elements to land. -/
theorem witness_TensorWordsRetire_take :
    let q := issued (.take 1 2 3 0) fun q => { q with handles := [row 0x2000 5 0 2 1] }
    let ch : Channel := { number := 0, take := true, queue := 3, moved := 0, length := 2, startAt := 0, half := 0, endAt := 0 }
    let s := tasked fun x => { x.putQueue .a [q] with
      channels := x.channels.set 2 (some ch), outBuf := x.outBuf.set 3 { (x.outBuf[(3 : Fin 8)]) with words := [5, 6] } }
    let h := q.handleAt 0
    let last := fun (m : Nat) => m / hDim h 0 * rowWords h + m % hDim h 0 * 32 / 32
    let mine := fun (m : Nat) (x : ElemRef) => (hElems h)[m]? = some x ∧ 0 ≤ last m ∧ last m < 0 + 2
    ((s.core 0).works = true ∧ (s.core 0).channels[(2 : Fin 8)] = some ch ∧ findEntry (s.core 0) .a ch.number = some q ∧
      (∀ j : Fin 8, j ≠ 2 → (s.core 0).channels[j] = none) ∧ ch.take = true ∧ ch.startAt ≤ s.clock ∧ q.notify = 0 ∧
      earlier ((s.core 0).queue .a) q = [] ∧ ch.length ≤ streamLength h ∧ efmtBits (hEfmt h) = 32 ∧
      ((s.core 0).outBuf[(3 : Fin 8)]).words = [5, 6]) ∧
    (∀ (d : CoreId) (k : Fin 5), ∀ f ∈ (s.core d).queues[k], f.accepted = none) ∧
    (∀ m x, mine m x → ∀ i, i < 4 → physAddrs 0 q.mcMask q.pages (x.addr + i) = (destOf 0 q x).map (· + i)) ∧
    (∀ m x l y, mine m x → mine l y → ∀ a ∈ destOf 0 q x, ∀ b ∈ destOf 0 q y, (m, a) ≠ (l, b) → a + 4 ≤ b ∨ b + 4 ≤ a) := by
  intro q ch s h last mine
  have at_ : ∀ m x, mine m x → m < 2 ∧ x.addr = 0x2000 + 4 * m := by
    intro m x hm
    have hl : (hElems h)[m]? = some x := hm.1
    have hh : hElems h = [{ addr := 0x2000, high := false }, { addr := 0x2004, high := false }] := by decide +kernel
    rw [hh] at hl
    match m with
    | 0 => simp at hl; subst hl; exact ⟨by omega, rfl⟩
    | 1 => simp at hl; subst hl; exact ⟨by omega, rfl⟩
    | n + 2 => simp at hl
  have place : ∀ va, va < 0x400000 → physAddrs 0 q.mcMask q.pages va = [0x4000000000 + va] := by
    intro va hv
    rw [show q.mcMask = 0 from rfl, phys_local 0 q.pages va hv]; rfl
  refine ⟨by decide +kernel, by decide +kernel, fun m x hm i hi => ?_, fun m x l y hm hl a ha b hb hne => ?_⟩
  · obtain ⟨h1, h2⟩ := at_ m x hm
    rw [destOf, place _ (by omega), place _ (by omega)]
    simp only [List.map_cons, List.map_nil, List.cons.injEq, and_true]; omega
  · obtain ⟨h1, h2⟩ := at_ m x hm
    obtain ⟨h3, h4⟩ := at_ l y hl
    rw [destOf, place _ (by omega), List.mem_singleton] at ha hb
    by_cases he : m = l
    · subst he; exact absurd (by rw [ha, hb, h2, h4]) hne
    · omega

/-- A descriptor: KIND, SIG, BYT, the slot and the block. -/
def descriptor (kind sig byt slot block : Nat) : Word := BitVec.ofNat 64 (kind * 2 ^ 62 + sig * 2 ^ 61 + byt * 2 ^ 60 + slot * 2 ^ 32 + block)

/-- Descriptors that pass and that do not, a ring slot that may be published, a phaser that may be signalled, words that retire and that
issue, a transfer's descriptor, and walks that end at a leaf, at an entry that is not valid and past the stacks. -/
theorem witness_DescriptorsAndTranslation :
    let ok := descriptor 2 1 1 0 0x3fffc0
    let hs := [row 0x2000 5 0 4 1, row 0 5 0 4 1, row 0x1000 7 0 4 1]
    let q := fun i => { entry i 0 with handles := hs, notify := ok }
    let r := { issued (.copy .plain 1 2 0) id with notify := ok }
    let m := { arrived .data with notify := descriptor 1 0 0 0 0x40000040 }
    let s := ((tasked id).store 0x40003fffc8 8 0x13001).store 0x40003fffd0 1 1
    let y := (tasked id).store 0x40003fffc8 4 0x00010001
    let e := fun (a v : Nat) => (paged State.reset).store a 8 v
    ((1 : NtField) ≠ 0 ∧ (descriptor 3 0 0 0 0).extractLsb' 62 2 ≠ 1#2 ∧ (descriptor 3 0 0 0 0).extractLsb' 62 2 ≠ 2#2 ∧
      ok.extractLsb' 62 2 = 2#2 ∧ ok.getLsbD 61 = true ∧ ok.getLsbD 60 = true ∧ ok.toNat % 2 ^ 32 = 0x3fffc0 ∧
      (descriptor 1 0 0 0 0x400000).toNat % 2 ^ 32 = 0x400000 ∧ (descriptor 1 0 0 0 0x3fffc1).toNat % 2 ^ 32 % 64 ≠ 0) ∧
    ((s.ring 0x40003fffc0).valid = true ∧ 0 < (s.ring 0x40003fffc0).n ∧ (s.ring 0x40003fffc0).slot 0 = 1 ∧
      ((tasked id).ring 0x40003fffc0).valid = false ∧ (y.phaser 0x40003fffc0).smask.getLsbD (localOf 0).val = true ∧
      ((tasked id).phaser 0x40003fffc0).smask.getLsbD (localOf 0).val = false) ∧
    (blockAddr 0 0x3fffc0 = 0x40003fffc0 ∧ findEntry ((holding .a r).core 0) .a r.order = some r ∧
      retireWaits (holding .a r) 0 .a r = false ∧ r.ops = [] ∧ readsFirst r.instr = false ∧ r.epoch = ((holding .a r).core 0).epoch) ∧
    (∀ w ∈ [q (.copy .redAdd 1 2 1), q (.gath 1 2 1), q (.scat 1 2 1)], issuesNext (holding .a w) .a w = true) ∧
    (sameDims hs[0] hs[1] = true ∧ sameDims hs[0] hs[2] = true ∧ sameDims hs[1] hs[2] = true) ∧
    (msgBlock m = some 0x4000000040 ∧ m.notify.extractLsb' 62 2 = 1#2) ∧
    ((walk (paged State.reset) 0x100000000).toOption.isSome = true ∧ (walk (e 0x3400 0) 0x100000000).toOption = none ∧
      0x4000000000 ≤ ((e 0x2000 0x0ffffffffffff001).load 0x2000 8) / 2 ^ 12 % 2 ^ 44 * 4096 ∧
      tlbLookup ((tasked fun x => { x with tlb := [{ page := devPage, pins := 0, stale := false }] }).core 0) 0x10000ffff = some devPage ∧
      tlbLookup (State.reset.core 0) 0x100000000 = none) := by
  and_intros <;> decide +kernel

/-- A word of each kind on a grid that leads its spine, and on one that does not; a swap whose back board is rejected; words that retire; an
iteration at a stage; a value that is to land. -/
theorem witness_GridWordsIssue :
    let z := fun i => entry i 0
    let w := fun i => { entry i 0 with sa := 5 }
    let it : PassRecord := { kind := .iteration, row := none, number := 1, inMask := 0xff, outMask := 0xff, pulse := 0, swaps := false }
    let f : Flight := { at_ := 3, elem := 7, port := .link 2, value := 9 }
    let g := State.reset.onGrid 0 fun x => { x with front := { x.front with flights := [f] } }
    let r := fun i => issued i id
    let led := fun q => (queued .g q).onGrid 0 fun x => { x with joinNorth := true }
    let bad := (queued .g (z (.gswap 0))).onGrid 0 fun x => { x with back := { x.back with status := .rejected } }
    (∀ q ∈ [w (.gset true 1 0), w (.gset false 1 0), w (.grun 1 0), z (.grun 1 0), w (.gfill 1 0), z (.gfill 1 0), z (.ghalt 0), z (.gswap 0),
        w (.gswapat 1 0), z (.glink true false 0), z (.glink false true 0), z (.gcfg 1 0), z (.gstat 59 0)],
      issuesNext (queued .g q) .g q = true ∧ ((queued .g q).core 0).mode ≠ .draining ∧ ((queued .g q).grid 0).joinNorth = false) ∧
    (issuesNext (led (w (.grun 1 0))) .g (w (.grun 1 0)) = true ∧ ((led (w (.grun 1 0))).grid 0).joinNorth = true) ∧
    (issuesNext bad .g (z (.gswap 0)) = true ∧ (bad.grid 0).back.status = .rejected ∧ bad.spine 0 = [0] ∧
      ((queued .g (z (.gswap 0))).grid 0).back.status = .ready) ∧
    (northOf 0 = none ∧ southOf 0 = some 1 ∧ State.reset.grid 0 = Grid.reset ∧ Grid.reset.front.ii ≤ 16) ∧
    (∀ q ∈ [r (.gstat 59 0), r (.ghalt 0)], findEntry ((queued .g q).core 0) .g q.order = some q ∧
      retireWaits (queued .g q) 0 .g q = false ∧ readsFirst q.instr = false ∧ q.ops = [] ∧ q.epoch = ((queued .g q).core 0).epoch ∧
      q.notify = 0 ∧ ((queued .g q).core 0).shadows = []) ∧
    ([it][((0 : Word32).extractLsb' 6 2).toNat]? = some it ∧ [it][((0xc0 : Word32).extractLsb' 6 2).toNat]? = none) ∧
    ((g.grid 0).front.flights = [f] ∧ 2 < f.at_ ∧ f.at_ ≤ 3) := by
  and_intros <;> decide +kernel

/-- Writes leave no read. -/
theorem readsLeft_writes (q : QEntry) (h : ∀ u ∈ q.ops, u.writes = true) : q.readsLeft = false := by
  simp only [QEntry.readsLeft, List.any_eq_false]
  exact fun u hu => by simp [h u hu]

/-- Core 0 runs a task with an ACTIVE lease, whose M queue holds one word. -/
def leasing (q : QEntry) : State := tasked fun x => { x.putQueue .m [q] with
  lease := { x.lease with state := .active, reckoned := true, spillBase := 0x370000 } }

/-- An ACCSV retires with whatever writes it has left. -/
theorem accsv_retires (ops : List MemOp) (h : ∀ u ∈ ops, u.writes = true) :
    let q := issued (.accsv 4 0) fun q => { q with handles := [row 0x100000 0 0 0 0], performed := true, ops := ops }
    (leasing q).Retires 0 .m q :=
  ⟨rfl, ⟨0, rfl⟩, rfl, ⟨fun _ => .inl rfl, readsLeft_writes _ h⟩, rfl⟩

theorem accsvOps_ops (s : State) (c : CoreId) (q : QEntry) (ops : List MemOp) : accsvOps s c { q with ops := ops } = accsvOps s c q := rfl

theorem accsvOps_write (s : State) (c : CoreId) (q : QEntry) : ∀ u ∈ accsvOps s c q, u.writes = true := by
  intro u hu
  simp only [accsvOps, List.mem_append, List.mem_map] at hu
  obtain ⟨_, _, rfl⟩ | ⟨_, _, rfl⟩ := hu <;> rfl

/-- The image of an ACCSV lies in LOCAL. -/
theorem accsv_placed (ops : List MemOp) :
    let q := issued (.accsv 4 0) fun q => { q with handles := [row 0x100000 0 0 0 0], performed := true, ops := ops }
    placed 0 q.mcMask q.pages (hBase (q.handleAt 0)) 532480 [0x4000100000] := by
  intro q
  have hb : hBase (q.handleAt 0) = 0x100000 := by show hBase (row 0x100000 0 0 0 0) = _; decide +kernel
  refine ⟨fun i hi => ?_, List.pairwise_singleton ..⟩
  rw [hb, show q.mcMask = 0 from rfl, phys_local 0 q.pages _ (by omega)]
  show [0x4000000000 + 0 * 0x400000 + (0x100000 + i)] = [0x4000100000 + i]
  exact congrArg (fun x => [x]) (by omega)

/-- An image that an ACCSV took in any state stands in LOCAL, and the word retires. -/
theorem witness_MatrixWords_accsv (s₀ : State) :
    ∃ q : QEntry, q.instr = .accsv 4 0 ∧ q.notify = 0 ∧ q.ops = accsvOps s₀ 0 q ∧ (leasing q).Retires 0 .m q ∧
      placed 0 q.mcMask q.pages (hBase (q.handleAt 0)) 532480 [0x4000100000] := by
  let k := issued (.accsv 4 0) fun q => { q with handles := [row 0x100000 0 0 0 0], performed := true }
  have h : ∀ ops, ops = accsvOps s₀ 0 k → ∃ q : QEntry, q.instr = .accsv 4 0 ∧ q.notify = 0 ∧ q.ops = accsvOps s₀ 0 q ∧
      (leasing q).Retires 0 .m q ∧ placed 0 q.mcMask q.pages (hBase (q.handleAt 0)) 532480 [0x4000100000] := fun ops ho =>
    ⟨{ k with ops := ops }, rfl, rfl, ho.trans (accsvOps_ops s₀ 0 k ops).symm, accsv_retires ops (ho ▸ accsvOps_write s₀ 0 k), accsv_placed ops⟩
  exact h _ rfl

/-- A word of each kind that issues, a SHELF whose tile is on the current shelf, on the other and on neither, and words that retire. -/
theorem witness_MatrixWords :
    let z := fun i => entry i 0
    let t := row 0x8000 0 0 8 2
    let w := fun i => { entry i 0 with handles := [t, t], sa := 8, fmtWord := 0 }
    let tag := some (tileTag CoreState.reset t)
    let sh := { entry (.shelf 1 0) 0 with handles := [t], tag := tag }
    let on := fun (x y : Option ShelfTag) => (leasing sh).onCore 0 fun c => { c with lease := { c.lease with tags := #v[x, y], current := 0 } }
    let r := fun i => issued i fun q => { q with handles := [t, t], sa := 8, performed := true }
    let dq := issued (.drain true 1 0) fun q => { q with handles := [row 0x2000 5 0 1 2 + BitVec.ofNat 256 (4 * 2 ^ 160)], fmtWord := 0x500, performed := true }
    let d := { dq with ops := drainOps State.reset 0 dq true }
    let start := { dq with performed := false }
    (∀ q ∈ [z (.norm 0), z (.accz 0), z (.accld 4 0), z (.accsv 4 0), w (.mmaStream 1 2 3 0), z (.mmaStream 1 2 3 0), w (.mmaShelf 1 3 0),
        z (.mmaShelf 1 3 0), w (.drain false 1 0), z (.drain true 1 0), z (.lease 1 0)],
      headWaiting (((leasing q).core 0).queue .m) = some q ∧ engineReady (leasing q) 0 .m q = true ∧ q.mismatch = none ∧
        checkTags (leasing q) 0 q.mcMask (sourceHandles q) = none ∧ q.notify = 0) ∧
    (mmaEmpty (w (.mmaStream 1 2 3 0)) = false ∧ mmaEmpty (z (.mmaStream 1 2 3 0)) = true) ∧
    (∀ s ∈ [on tag none, on none tag, on none none], headWaiting ((s.core 0).queue .m) = some sh ∧ engineReady s 0 .m sh = true ∧
      checkTags s 0 sh.mcMask (sourceHandles sh) = none) ∧
    (start.instr = .drain true 1 0 ∧ start.status = .issued (leasing start).clock ∧ start.ops = [] ∧ start.performed = false) ∧
    (∀ q ∈ [r (.norm 0), r (.accz 0), r (.accld 4 0), r (.mmaStream 1 2 3 0), r (.mmaShelf 1 3 0), r (.shelf 1 0), d],
      findEntry ((leasing q).core 0) .m q.order = some q ∧ q.status = .issued 0 ∧ retireWaits (leasing q) 0 .m q = false ∧
        q.readsLeft = false ∧ q.performed = true ∧ q.epoch = ((leasing q).core 0).epoch ∧ q.notify = 0) ∧
    (mmaEmpty (r (.mmaStream 1 2 3 0)) = false ∧ 
      (∀ j : Fin 32, ((AccRow.zero.m[j]).toInt).natAbs ≤ 2 ^ (30 + 0)) ∧ (AccRow.zero.e.toInt + 0 ≤ 2047)) ∧
    (let h := d.handleAt 0
     (∀ i ∈ List.range (hDim h 1), ∀ j ∈ List.range (hDim h 0),
       physAddrs 0 d.mcMask d.pages (hElem h j i 0 0).addr = [0x4000002000 + 4 * (i + j)]) ∧
     hDim h 0 = 1 ∧ hDim h 1 = 2 ∧ efmtBytes (hEfmt h) = 4 ∧ hEfmt h = fmtO d.fmtWord ∧ fmtO d.fmtWord = 5 ∧
     d.ops = drainOps State.reset 0 d true) := by
  and_intros <;> decide +kernel
end

section
/-! SUPPORT. OWNER_REGISTER_WRITE (R257): its rows, who may write, what a write leaves alone, and what the register then reads. -/

namespace Sys2Proof.Machine

open Sys2Proof

/-! ### Bytes of a register that is a byte array -/

theorem leBytes_getElem {n v k : Nat} (h : k < (leBytes n v).length) : (leBytes n v)[k] = BitVec.ofNat 8 (v / 256 ^ k) := by
  induction n generalizing v k with
  | zero => simp [leBytes] at h
  | succ n ih =>
    cases k with
    | zero => simp [leBytes]
    | succ k => simp [leBytes, ih, Nat.div_div_eq_div_mul, Nat.pow_succ']

/-- Eight bytes read back as they were written. -/
theorem bytes8_setBytes8 {n a : Nat} (b : Vector Byte n) (w : Word) (h : a + 8 ≤ n) : bytes8 (setBytes8 b a w) a = w.toNat := by
  have hb : ((setBytes8 b a w).toList.drop a).take 8 = leBytes 8 w.toNat := by
    apply List.ext_getElem
    · simp; omega
    · intro k hk _
      have hk8 : k < 8 := by simp at hk; omega
      rw [leBytes_getElem]
      simp [setBytes8, hk8]
  rw [bytes8, hb, leNat_leBytes]
  exact Nat.mod_eq_of_lt w.isLt

namespace State

variable {s : State} {m : Master} {i : Instr} {f : State → State} {n : Nat} {off : BitVec 14} {v mask : Word}

/-! ### Who may write -/

theorem ownerOnly_of_owner (h : s.owner.own = masterCode m) : s.ownerOnly m i f = f s := if_pos h

/-- Another master's write is discarded and counts. -/
theorem ownerOnly_of_other (h : s.owner.own ≠ masterCode m) (hc : ¬(m = .host ∧ s.owner.own = 0 ∧ s.owner.claimAt ≠ none)) :
    s.ownerOnly m i f = { s with owner := { s.owner with orej := s.owner.orej + 1 } } := by
  rw [Option.ne_none_iff_isSome] at hc
  rw [ownerOnly, if_neg h, if_neg hc]
  rfl

/-- The host's write waits while its claim does. -/
theorem ownerOnly_of_claim (h : s.owner.own ≠ masterCode m) (hc : m = .host ∧ s.owner.own = 0 ∧ s.owner.claimAt ≠ none) :
    s.ownerOnly m i f = { s with owner := { s.owner with waits := s.owner.waits ++ [i] } } := by
  rw [Option.ne_none_iff_isSome] at hc
  rw [ownerOnly, if_neg h, if_pos hc]
  rfl

/-! ### Watching the work queues -/

/-- Nothing but the events that are due in this wc has changed. -/
def onlyDue (s t : State) : Prop := ∃ a c, t = { s with agenda := a, closing := c }

theorem soon_onlyDue (s : State) (e : Instr) : s.onlyDue (s.soon e) := by
  unfold soon
  split
  · exact ⟨s.agenda, _, rfl⟩
  · exact ⟨_, s.closing, rfl⟩

/-- The watch of the work queues only brings admissions about. -/
theorem watchAll_onlyDue (s : State) : s.onlyDue s.watchAll := by
  unfold watchAll
  refine List.foldlRecOn _ _ (motive := s.onlyDue) ⟨s.agenda, s.closing, rfl⟩ ?_
  rintro t ⟨a, c, rfl⟩ q -
  obtain ⟨a', c', h⟩ := soon_onlyDue { s with agenda := a, closing := c } (.graphAdmission q)
  exact ⟨a', c', h⟩

/-! ### Writing a register that has no row of its own -/

/-- The registers that only the owner writes and that have no row of their own, with the bits that each holds (log 42). -/
def ownerMasks : List (Nat × Word) :=
  [(0x108, -1), (0x118, 0xffff), (0x120, 0xffff), (0x128, 0xffff), (0x130, 0x1f3f), (0x138, -1), (0x180, -1), (0x188, -1),
   (0x198, -1), (0x1200, 0xffffffff), (0x1208, 0xffff), (0x1210, 0x3f), (0x1218, 0xffff), (0x1220, -1), (0x1228, 0x7f),
   (0x2400, -1), (0x2408, -1), (0x2410, -1)]

/-- A write of WQTAB that finds the front end at work has it watch the queues of the new table. -/
theorem writeOwner_wqtab (s : State) (v : Word) : (s.onOwner fun o => { o with wqtab := v }).onlyDue (s.writeOwner 0x108 v) := by
  have hw : s.writeOwner 0x108 v =
      if s.owner.mstat.getLsbD 4 then (s.onOwner fun o => { o with wqtab := v }).watchAll else s.onOwner fun o => { o with wqtab := v } := rfl
  rw [hw]
  split
  · exact watchAll_onlyDue _
  · exact ⟨s.agenda, s.closing, rfl⟩

/-- A write of a register leaves memory, the cores and the budgets in force alone. -/
theorem writeOwner_frame (s : State) (n : Nat) (v : Word) :
    (s.writeOwner n v).mem = s.mem ∧ (s.writeOwner n v).cores = s.cores ∧ (s.writeOwner n v).power.pwbud = s.power.pwbud ∧
      (s.writeOwner n v).power.rklim = s.power.rklim := by
  by_cases h : n = 0x108
  · obtain ⟨a, c, hw⟩ := writeOwner_wqtab s v
    rw [h, hw]
    exact ⟨rfl, rfl, rfl, rfl⟩
  · unfold writeOwner
    split
    · exact ⟨rfl, rfl, rfl, rfl⟩
    · split
      · exact absurd rfl h
      all_goals exact ⟨rfl, rfl, rfl, rfl⟩

/-- The low bits of a word as the mask that keeps them. -/
theorem toNat_setWidth_eq_and (v : Word) : (v.setWidth 16).toNat = (v &&& 0xffff).toNat := by
  rw [BitVec.toNat_setWidth, BitVec.toNat_and]
  exact (Nat.and_two_pow_sub_one_eq_mod v.toNat 16).symm

theorem ownerValue_writeOwner (s : State) (v : Word) (h : (n, mask) ∈ ownerMasks) :
    (s.writeOwner n v).ownerValue n = some (v &&& mask).toNat := by
  have half := congrArg some (toNat_setWidth_eq_and v)
  have whole : v &&& -1 = v := BitVec.and_allOnes
  have each : ∀ r ∈ ownerMasks, (s.writeOwner r.1 v).ownerValue r.1 = some (v &&& r.2).toNat := by
    simp only [ownerMasks, List.forall_mem_cons, List.not_mem_nil, false_implies, implies_true, and_true, whole]
    refine ⟨?_, half, half, half, rfl, rfl, rfl, rfl, rfl, ?_, ?_, ?_, ?_, ?_, ?_, rfl, rfl, rfl⟩
    · obtain ⟨a, c, hw⟩ := writeOwner_wqtab s v
      rw [hw]
      rfl
    all_goals simp [writeOwner, ownerValue]
  exact each _ h

/-! ### CALBANK and ANONCE -/

theorem toNat_setWidth_and (v : Word) : (v.setWidth 8 &&& 0xbf : Byte).toNat = (v &&& 0xbf).toNat := by
  rw [BitVec.toNat_and, BitVec.toNat_setWidth, ← Nat.and_two_pow_sub_one_eq_mod, Nat.and_assoc, BitVec.toNat_and]
  rfl

theorem ownerValue_calbank (s : State) {j : Nat} (h : 0x1000 ≤ j ∧ j < 0x1200) :
    s.ownerValue j = (s.fabric.calbank[j - 0x1000]?).map BitVec.toNat := if_pos h

/-- A write of an entry of CALBANK writes its byte without the RES bit, and no other byte of the bank. -/
theorem writeOwner_calbank (s : State) (v : Word) (h : 0x1000 ≤ n ∧ n < 0x1200) :
    ∃ b, s.writeOwner n v = { s with fabric := { s.fabric with calbank := b } } ∧
      ∀ j, j < 0x200 → b[j]? = if j = n - 0x1000 then some (v.setWidth 8 &&& 0xbf) else s.fabric.calbank[j]? := by
  refine ⟨_, if_pos h, fun j hj => ?_⟩
  rw [Vector.getElem?_mapIdx]
  split <;> simp_all

theorem ownerValue_anonce (s : State) {n : Nat} (h : 0x2000 ≤ n ∧ n < 0x2040) :
    s.ownerValue n = some (bytes8 s.owner.anonce (n / 8 * 8 - 0x2000)) :=
  (if_neg (by omega)).trans (if_pos h)

/-! ### The two kinds of offset -/

/-- The registers that have a row of their own, with that row (log 66). -/
def ownerRows (m : Master) (v : Word) : List (Nat × Instr) :=
  [(0x8, .oclaim m), (0x10, .ohand m v), (0x100, .ptbrWrite m v), (0x110, .hbudgetWrite m v), (0x140, .ostop m v), (0x148, .opre m v),
   (0x1230, .bswitch m v), (0x1238, .rtset m v), (0x2040, .ago m), (0x2418, .fwgo m v)]

theorem exec_ownerRegisterWrite_of_row (h : (off.toNat, i) ∈ ownerRows m v) : exec (.ownerRegisterWrite m off v) s = exec i s := by
  have each : ∀ r ∈ ownerRows m v, off.toNat = r.1 → execOwnerRegisterWrite m off v s = exec r.2 s := by
    simp only [ownerRows, List.forall_mem_cons, List.not_mem_nil, false_implies, implies_true, and_true]
    and_intros
    all_goals
      intro ho
      rw [execOwnerRegisterWrite, ho]
      rfl
  exact each _ h rfl

/-- A write elsewhere goes to ANONCE, or to a register that only the owner writes. -/
theorem exec_ownerRegisterWrite_of_plain (h : ∀ i, (off.toNat, i) ∉ ownerRows m v) :
    exec (.ownerRegisterWrite m off v) s =
      if 0x2000 ≤ off.toNat ∧ off.toNat < 0x2040 then
        .next (s.onOwner fun o => { o with anonce := setBytes8 o.anonce (off.toNat / 8 * 8 - 0x2000) v })
      else .next (s.ownerOnly m (.ownerRegisterWrite m off v) fun t => t.writeOwner off.toNat v) := by
  show execOwnerRegisterWrite m off v s = _
  unfold execOwnerRegisterWrite
  simp only []
  split
  case h_11 => rfl
  all_goals next ho => simp [ownerRows, ho] at h

theorem execAgo_completes (m : Master) (s : State) : ∃ t, execAgo m s = .next t := by
  unfold execAgo
  split <;> exact ⟨_, rfl⟩

theorem exec_ownerRow_completes (h : (n, i) ∈ ownerRows m v) : ∃ t, exec i s = .next t := by
  have each : ∀ r ∈ ownerRows m v, ∃ t, exec r.2 s = .next t := by
    simp only [ownerRows, List.forall_mem_cons, List.not_mem_nil, false_implies, implies_true, and_true]
    exact ⟨⟨_, rfl⟩, ⟨_, rfl⟩, ⟨_, rfl⟩, ⟨_, rfl⟩, ⟨_, rfl⟩, ⟨_, rfl⟩, ⟨_, rfl⟩, ⟨_, rfl⟩, execAgo_completes m s, ⟨_, rfl⟩⟩
  exact each _ h

/-! ### What a write comes to -/

/-- An event that leaves memory and the cores alone. -/
theorem quiet_of_eq {t : State} (hm : t.mem = s.mem) (hc : t.cores = s.cores) : s.quiet t := by
  refine ⟨fun a => by rw [loadByte, hm]; rfl, fun c => ?_⟩
  have h : t.core c = s.core c := by rw [core, hc]; rfl
  rw [h]
  exact ⟨rfl, rfl, rfl, rfl⟩

theorem not_row_of_mask (h : (n, mask) ∈ ownerMasks) : (∀ i, (n, i) ∉ ownerRows m v) ∧ ¬(0x2000 ≤ n ∧ n < 0x2040) := by
  simp only [ownerMasks, List.mem_cons, Prod.mk.injEq, List.not_mem_nil, or_false] at h
  simp only [ownerRows, List.mem_cons, Prod.mk.injEq, List.not_mem_nil, or_false]
  refine ⟨fun i => ?_, ?_⟩ <;> omega

theorem not_row_of_window (h : 0x1000 ≤ n ∧ n < 0x1200 ∨ 0x2000 ≤ n ∧ n < 0x2040) : ∀ i, (n, i) ∉ ownerRows m v := by
  simp only [ownerRows, List.mem_cons, Prod.mk.injEq, List.not_mem_nil, or_false]
  omega

/-- Any master's write of ANONCE stands there. -/
theorem ownerRegisterWrite_anonce (h : 0x2000 ≤ off.toNat ∧ off.toNat < 0x2040) :
    ∃ t, exec (.ownerRegisterWrite m off v) s = .next t ∧ t = { s with owner := t.owner } ∧ t.ownerValue off.toNat = some v.toNat := by
  refine ⟨_, (exec_ownerRegisterWrite_of_plain (not_row_of_window (.inr h))).trans (if_pos h), rfl, ?_⟩
  rw [ownerValue_anonce _ h]
  exact congrArg some (bytes8_setBytes8 _ v (by omega))

theorem ownerRegisterWrite_register (ho : s.owner.own = masterCode m) (h : (off.toNat, mask) ∈ ownerMasks) :
    ∃ t, exec (.ownerRegisterWrite m off v) s = .next t ∧ s.quiet t ∧ t.cores = s.cores ∧
        t.ownerValue off.toNat = some (v &&& mask).toNat ∧ t.power.pwbud = s.power.pwbud ∧ t.power.rklim = s.power.rklim := by
  obtain ⟨hrow, hnonce⟩ := not_row_of_mask (m := m) (v := v) h
  obtain ⟨hm, hc, hp, hr⟩ := writeOwner_frame s off.toNat v
  refine ⟨s.writeOwner off.toNat v, ?_, quiet_of_eq hm hc, hc, ownerValue_writeOwner s v h, hp, hr⟩
  rw [exec_ownerRegisterWrite_of_plain hrow, if_neg hnonce, ownerOnly_of_owner ho]

theorem ownerRegisterWrite_calbank (ho : s.owner.own = masterCode m) (h : 0x1000 ≤ off.toNat ∧ off.toNat < 0x1200) :
    ∃ t, exec (.ownerRegisterWrite m off v) s = .next t ∧ t = { s with fabric := t.fabric } ∧
      t.ownerValue off.toNat = some (v &&& 0xbf).toNat ∧
      ∀ j, 0x1000 ≤ j → j < 0x1200 → j ≠ off.toNat → t.ownerValue j = s.ownerValue j := by
  obtain ⟨b, hw, hb⟩ := writeOwner_calbank s v h
  refine ⟨{ s with fabric := { s.fabric with calbank := b } }, ?_, rfl, ?_, fun j h1 h2 hj => ?_⟩
  · rw [exec_ownerRegisterWrite_of_plain (not_row_of_window (.inl h)), if_neg (by omega), ownerOnly_of_owner ho, hw]
  · rw [ownerValue_calbank _ h]
    show Option.map _ b[_]? = _
    rw [hb _ (by omega), if_pos rfl]
    exact congrArg some (toNat_setWidth_and v)
  · rw [ownerValue_calbank _ ⟨h1, h2⟩, ownerValue_calbank _ ⟨h1, h2⟩]
    show Option.map _ b[_]? = _
    rw [hb _ (by omega), if_neg (by omega)]

end State

/-- Settles O53: an offset has a row of its own, or it is ANONCE's, or only the owner writes it, and each such register reads back. -/
theorem ownerWrites : Obligations.OwnerWrites := by
  intro s m off v o claims registers rows
  have hrow : ∀ i, (off.toNat, i) ∈ rows → exec (.ownerRegisterWrite m off v) s = exec i s := fun i h =>
    State.exec_ownerRegisterWrite_of_row h
  refine ⟨?_, hrow, fun hother hoff hplain => ⟨fun hc => ?_, fun hc => ?_⟩, fun h1 h2 => State.ownerRegisterWrite_anonce ⟨h1, h2⟩,
    fun ho => ⟨fun mask h => State.ownerRegisterWrite_register ho h, fun h1 h2 => State.ownerRegisterWrite_calbank ho ⟨h1, h2⟩⟩⟩
  · by_cases h : ∃ i, (off.toNat, i) ∈ rows
    · obtain ⟨i, hi⟩ := h
      rw [hrow i hi]
      exact State.exec_ownerRow_completes hi
    · rw [State.exec_ownerRegisterWrite_of_plain fun i hi => h ⟨i, hi⟩]
      split <;> exact ⟨_, rfl⟩
  · rw [State.exec_ownerRegisterWrite_of_plain hplain, if_neg (by omega), State.ownerOnly_of_other hother hc]
  · rw [State.exec_ownerRegisterWrite_of_plain hplain, if_neg (by omega), State.ownerOnly_of_claim hother hc]

end Sys2Proof.Machine
end

section
/-! SUPPORT. X words (R22): what serialising, settling and a result leave alone. -/

namespace Sys2Proof.Machine

open Sys2Proof

namespace State

variable {s t : State} {srcs : List SReg} {d : SReg} {v : Word} {bound : Nat}

/-! ### Serialising and settling -/

@[simp] theorem serialise_me (s : State) : s.serialise.me = { s.me with
    shadows := [], outQ := s.me.outQ.map fun q => q.map fun o => { o with landsAt := min o.landsAt s.clock } } := s.onMe_me _

theorem serialise_onlyMe (s : State) : s.onlyMe s.serialise := s.onMe_onlyMe _

/-- A serialising word keeps the values of the outbound queues. -/
theorem serialise_samePushes (s : State) : s.samePushes s.serialise := by
  intro q
  rw [serialise_me]
  simp [Function.comp_def]

@[simp] theorem settle_me (s : State) (bound : Nat) :
    (s.settle bound).me = { s.me with issueAt := s.clock + 1 + s.freeNat 2 % bound } := by
  rw [settle, bump_me, onMe_me]

theorem settle_onlyMe (s : State) (bound : Nat) : s.onlyMe (s.settle bound) := onlyMe_bump (s.onMe_onlyMe _)

@[simp] theorem advance_clock (s : State) : s.advance.clock = s.clock := rfl

/-- Popping and serialising, the start of an X word. -/
theorem popAll_serialise_onlyMe (s : State) (srcs : List SReg) : s.onlyMe (s.popAll srcs).serialise :=
  onlyMe_trans (popAll_onlyMe s srcs) (serialise_onlyMe _)

/-- Issue goes on behind an X word within its bound. -/
theorem settlesOn_advance_settle (hc : t.clock = s.clock) (hpc : t.me.pc = s.me.pc) (hb : 0 < bound) :
    s.settlesOn (t.advance.settle bound) (s.me.pc + 4) bound := by
  have hlt : t.advance.freeNat 2 % bound < bound := Nat.mod_lt _ hb
  rw [settlesOn, settle_me, advance_me, advance_clock, hc]
  refine ⟨congrArg (· + 4) hpc, ?_, ?_, rfl⟩
  · show s.clock < s.clock + 1 + t.advance.freeNat 2 % bound
    omega
  · show s.clock + 1 + t.advance.freeNat 2 % bound ≤ s.clock + bound
    omega

/-! ### An X word with a result -/

/-- What an X word with a result leaves: its pops, its result, the next word. -/
def serialEnd (s : State) (srcs : List SReg) (d : SReg) (v : Word) (bound : Nat) : State :=
  ((s.popAll srcs).serialise.writeReg d v 1).bump.advance.settle bound

theorem serialEnd_onlyMe : s.onlyMe (s.serialEnd srcs d v bound) :=
  onlyMe_trans (popAll_serialise_onlyMe s srcs)
    (onlyMe_trans (onlyMe_bump (writeReg_onlyMe _ d v 1)) (onlyMe_trans (advance_onlyMe _) (settle_onlyMe _ bound)))

theorem serialEnd_me (s : State) (srcs : List SReg) (d : SReg) (v : Word) (bound : Nat) :
    (s.serialEnd srcs d v bound).me =
      { ((s.popAll srcs).serialise.writeReg d v 1).me.advance ((s.popAll srcs).serialise.writeReg d v 1).clock with
        issueAt := (s.serialEnd srcs d v bound).me.issueAt } := by
  rw [serialEnd, settle_me, bump_advance_me]

/-- It touches of its core what a serialising word touches, with registers and the queues that it names. -/
theorem serialEnd_frame (s : State) (srcs : List SReg) (d : SReg) (v : Word) (bound : Nat) :
    let y := (s.serialEnd srcs d v bound).me
    y = { s.me.serialFrame y with
      regs := y.regs, inQ := y.inQ, pushes := y.pushes, shadows := y.shadows, dirtyS := y.dirtyS, dirtyQ := y.dirtyQ } := by
  obtain ⟨iq, dq, hp⟩ := popAll_me s srcs
  obtain ⟨r, o, p, h, b, c, hw⟩ := writeReg_me (s.popAll srcs).serialise d v 1
  rw [serialEnd_me, hw, serialise_me, hp]
  rfl

theorem serialEnd_preds (s : State) (srcs : List SReg) (d : SReg) (v : Word) (bound : Nat) :
    (s.serialEnd srcs d v bound).me.preds = s.me.preds := by
  rw [serialEnd_frame]
  rfl

theorem serialEnd_handles (s : State) (srcs : List SReg) (d : SReg) (v : Word) (bound : Nat) :
    (s.serialEnd srcs d v bound).me.handles = s.me.handles := by
  rw [serialEnd_frame]
  rfl

theorem serialEnd_popped (s : State) (srcs : List SReg) (d : SReg) (v : Word) (bound : Nat) :
    s.popped (s.serialEnd srcs d v bound) srcs := by
  intro q
  obtain ⟨r, o, p, h, b, c, hw⟩ := writeReg_me (s.popAll srcs).serialise d v 1
  rw [serialEnd_me, hw, serialise_me]
  exact popAll_popped s srcs q

theorem serialEnd_wroteX (s : State) (srcs : List SReg) (d : SReg) (v : Word) (bound : Nat) :
    s.wroteX (s.serialEnd srcs d v bound) d v := by
  obtain ⟨iq, dq, hp⟩ := popAll_me s srcs
  obtain ⟨-, hreg, hout⟩ := writeReg_wrote (s.popAll srcs).serialise d v 1
  have hregs : (s.popAll srcs).serialise.me.regs = s.me.regs := by rw [serialise_me, hp]
  have hpush : ∀ q : Fin 4, ((s.popAll srcs).serialise.me.outQ[q]).map OutEntry.value = (s.me.outQ[q]).map OutEntry.value := fun q =>
    (serialise_samePushes (s.popAll srcs) q).trans (by rw [hp])
  rw [wroteX, serialEnd_me]
  refine ⟨fun r => ?_, fun q => ?_⟩
  · have h := hreg r
    rw [hregs] at h
    exact h
  · show (((s.popAll srcs).serialise.writeReg d v 1).me.outQ[q]).map OutEntry.value = _
    by_cases hd : d = queueReg q
    · obtain ⟨o, ho, hv, -⟩ := (hout q).2 hd
      rw [ho, List.map_append, hpush, if_pos hd, List.map_singleton, hv]
    · rw [(hout q).1 hd, hpush, if_neg hd, List.append_nil]

theorem serialEnd_settlesOn (s : State) (srcs : List SReg) (d : SReg) (v : Word) (hb : 0 < bound) :
    s.settlesOn (s.serialEnd srcs d v bound) (s.me.pc + 4) bound := by
  obtain ⟨iq, dq, hp⟩ := popAll_me s srcs
  obtain ⟨r, o, p, h, b, c, hw⟩ := writeReg_me (s.popAll srcs).serialise d v 1
  refine settlesOn_advance_settle ?_ ?_ hb
  · rw [bump_clock, writeReg_clock]
    exact popAll_clock s srcs
  · rw [bump_me, hw, serialise_me, hp]

end State

end Sys2Proof.Machine
end

section
/-! SUPPORT. The special registers (R342): what a write of one changes, what each reads, and the two words that reach them. -/

namespace Sys2Proof.Machine

open Sys2Proof

/-! ### Writing a special register -/

/-- A block of registers numbered from `base` once register n has been written; any other number writes none of them. -/
def writeBlock {α : Type} {m : Nat} (x : Vector α m) (base n : Nat) (w : α) : Vector α m :=
  if h : base ≤ n ∧ n < base + m then x.set (n - base) w else x

theorem writeBlock_getElem {α : Type} {m : Nat} (x : Vector α m) (base n : Nat) (w : α) (k : Fin m) :
    (writeBlock x base n w)[k] = if n = base + k.val then w else x[k] := by
  unfold writeBlock
  split
  · rw [Fin.getElem_fin, Vector.getElem_set]
    have hk : n - base = k.val ↔ n = base + k.val := by omega
    simp only [hk, Fin.getElem_fin]
  · exact (if_neg (by omega)).symm

theorem writeBlock_outside {α : Type} {m : Nat} (x : Vector α m) (base n : Nat) (w : α) (h : ∀ k : Fin m, n ≠ base + k.val) :
    writeBlock x base n w = x := by
  ext i hi
  exact (writeBlock_getElem x base n w ⟨i, hi⟩).trans (if_neg (h ⟨i, hi⟩))

/-- A core once SPWR has written its special register n: an RW one takes the value without its RES bits, any other stays (R5, R342). -/
def CoreState.written (x : CoreState) (n : Nat) (v : Word) : CoreState :=
  { x with
    checked := if n = 0x001 then v.getLsbD 0 else x.checked
    qptr := writeBlock x.qptr 0x008 n (v &&& ~~~7)
    mcw := writeBlock x.mcw 0x024 n (v.setWidth 16)
    heatEnable := if n = 0x045 then v.getLsbD 63 else x.heatEnable
    heatLevel := if n = 0x045 then v.setWidth 32 else x.heatLevel
    xpc := if n = 0x060 then v else x.xpc
    rxn := if n = 0x087 then v.setWidth 9 else x.rxn }

namespace State

variable {n : Nat}

/-- SPWR's register, and no other state of its core. -/
theorem writeSpecial_me (s : State) (n : Nat) (v : Word) : (s.writeSpecial n v).me = s.me.written n v := by
  unfold writeSpecial
  split
  case h_11 =>
    have h8 : n ≠ 0x008 ∧ n ≠ 0x009 := ⟨‹_›, ‹_›⟩
    have h24 : n ≠ 0x024 ∧ n ≠ 0x025 ∧ n ≠ 0x026 ∧ n ≠ 0x027 := ⟨‹_›, ‹_›, ‹_›, ‹_›⟩
    have hw : s.me.written n v = s.me := by
      simp only [CoreState.written, if_neg ‹¬n = 0x001›, if_neg ‹¬n = 0x045›, if_neg ‹¬n = 0x060›, if_neg ‹¬n = 0x087›,
        writeBlock_outside s.me.qptr 0x008 n _ fun k => by omega, writeBlock_outside s.me.mcw 0x024 n _ fun k => by omega]
    rw [hw]
    split <;> rfl
  all_goals
    rw [onMe_me]
    rfl

/-- A write of any register but a ring's changes the executing core alone. -/
theorem writeSpecial_onlyMe (s : State) (v : Word) (h : n < 0x380 ∨ 0x800 ≤ n) : s.onlyMe (s.writeSpecial n v) := by
  unfold writeSpecial
  split
  case h_11 =>
    rw [if_neg (by omega)]
    exact s.onlyMe_refl
  all_goals exact s.onMe_onlyMe _

/-- A write of a ring's register waits for the next wc. -/
theorem writeSpecial_ring (s : State) (v : Word) (h : 0x380 ≤ n ∧ n < 0x800) :
    s.writeSpecial n v = s.timer (s.clock + 1) (.orngWrite (Fin.ofNat 1152 (n - 0x380)) v) := by
  unfold writeSpecial
  split
  case h_11 => exact if_pos h
  all_goals omega

end State

/-! ### Bits of a register -/

theorem bitsOf_succ (n : Nat) (f : Nat → Bool) : bitsOf (n + 1) f = 2 ^ n * (f n).toNat + bitsOf n f := by
  simp only [bitsOf, List.range_succ, List.map_append, List.sum_append, List.map_singleton, List.sum_singleton]
  cases f n <;> simp [Nat.add_comm]

theorem bitsOf_lt (n : Nat) (f : Nat → Bool) : bitsOf n f < 2 ^ n := by
  induction n with
  | zero => simp [bitsOf]
  | succ n ih =>
    rw [bitsOf_succ, Nat.pow_succ]
    have := Nat.mul_le_mul_left (2 ^ n) (Bool.toNat_le (f n))
    omega

theorem testBit_bitsOf {n k : Nat} (f : Nat → Bool) (h : k < n) : (bitsOf n f).testBit k = f k := by
  induction n with
  | zero => omega
  | succ n ih =>
    rw [bitsOf_succ, Nat.testBit_two_pow_mul_add _ (bitsOf_lt n f)]
    split
    next hk => exact ih hk
    next hk =>
      rw [show k = n by omega, Nat.sub_self]
      cases f n <;> rfl

/-- A bit of a field that starts at bit `lo` of a register and has w bits. -/
theorem testBit_field {v a lo w b k : Nat} (h : v / 2 ^ lo = 2 ^ w * a + b) (hb : b < 2 ^ w) (hk : k < w) :
    v.testBit (lo + k) = b.testBit k := by
  rw [Nat.add_comm, ← Nat.testBit_div_two_pow, h, Nat.testBit_two_pow_mul_add _ hb, if_pos hk]

/-- A flag at bit k of a register. -/
theorem testBit_flag {v k : Nat} {b : Bool} (h : v / 2 ^ k % 2 = b.toNat) : v.testBit k = b := by
  rw [Nat.testBit_eq_decide_div_mod_eq, h]
  cases b <;> rfl

theorem getElem?_beq_some {α : Type} [BEq α] {n : Nat} (x : Vector α n) (k : Fin n) (a : α) : (x[k.val]? == some a) = (x[k] == a) := by
  simp

namespace State

variable (s : State) (c : CoreId)

/-- The fields of LSTAT (R241). -/
theorem lstat_fields (p : PortId) :
    let y := s.port p
    let v := s.lstat p
    v / 2 ^ 48 = y.rtcnt.toNat ∧ (∀ k : Fin 16, v.testBit (32 + k.val) = (y.groups[k] == .gated)) ∧
      v / 2 ^ 24 % 256 = y.mgen.toNat ∧ v / 2 ^ 8 % 2 ^ 16 = 0 ∧ v.testBit 7 = y.rtdue ∧ v.testBit 6 = y.train ∧
      v.testBit 5 = s.portDrained p ∧ v.testBit 4 = y.held ∧ v % 16 = phaseCode y.phase := by
  intro y v
  have hv : v = y.rtcnt.toNat * 2 ^ 48 + bitsOf 16 (fun k => y.groups[k]? == some .gated) * 2 ^ 32 + y.mgen.toNat * 2 ^ 24 +
    y.rtdue.toNat * 128 + y.train.toNat * 64 + (s.portDrained p).toNat * 32 + y.held.toNat * 16 + phaseCode y.phase := rfl
  have hg := bitsOf_lt 16 fun k => y.groups[k]? == some GroupStatus.gated
  have hm := y.mgen.isLt
  have hd := Bool.toNat_le y.rtdue
  have ht := Bool.toNat_le y.train
  have hr := Bool.toNat_le (s.portDrained p)
  have hh := Bool.toNat_le y.held
  have hp : phaseCode y.phase < 16 := by cases y.phase <;> decide
  refine ⟨by omega, fun k => ?_, by omega, by omega, testBit_flag (by omega), testBit_flag (by omega), testBit_flag (by omega),
    testBit_flag (by omega), by omega⟩
  rw [testBit_field (a := y.rtcnt.toNat) (by omega) hg k.isLt, testBit_bitsOf _ k.isLt]
  exact getElem?_beq_some ..

/-- The fields of LPWR (R245). -/
theorem lpwr_fields (p : PortId) :
    let y := s.port p
    let v := s.lpwr p
    v / 2 ^ 48 = y.drops.toNat ∧ v / 2 ^ 32 % 2 ^ 16 = y.lastDrop.toNat ∧
      (∀ k : Fin 16, v.testBit (16 + k.val) = (y.groups[k] == .waking)) ∧
      ∀ k : Fin 16, v.testBit k.val = (y.groups[k] == .asleep) := by
  intro y v
  have hv : v = y.drops.toNat * 2 ^ 48 + y.lastDrop.toNat * 2 ^ 32 + bitsOf 16 (fun k => y.groups[k]? == some .waking) * 2 ^ 16 +
    bitsOf 16 (fun k => y.groups[k]? == some .asleep) := rfl
  have hw := bitsOf_lt 16 fun k => y.groups[k]? == some GroupStatus.waking
  have ha := bitsOf_lt 16 fun k => y.groups[k]? == some GroupStatus.asleep
  have hl := y.lastDrop.isLt
  refine ⟨by omega, by omega, fun k => ?_, fun k => ?_⟩
  · rw [testBit_field (a := y.drops.toNat * 2 ^ 16 + y.lastDrop.toNat) (by omega) hw k.isLt, testBit_bitsOf _ k.isLt]
    exact getElem?_beq_some ..
  · have hk := testBit_field (v := v) (lo := 0) (a := v / 2 ^ 16) (by omega) ha k.isLt
    rw [Nat.zero_add] at hk
    rw [hk, testBit_bitsOf _ k.isLt]
    exact getElem?_beq_some ..

/-! ### Reading a special register -/

/-- The special registers that no range of ports or rings holds (R342). -/
def fixedSpecials : List Nat :=
  [0x001, 0x002, 0x003, 0x008, 0x009, 0x00c, 0x010, 0x011, 0x012, 0x013, 0x014, 0x020, 0x024, 0x025, 0x026, 0x027, 0x040, 0x041, 0x042,
   0x043, 0x044, 0x045, 0x048, 0x060, 0x061, 0x062, 0x063, 0x064, 0x070, 0x080, 0x081, 0x082, 0x083, 0x084, 0x085, 0x086, 0x087, 0x088,
   0x089, 0x0b0, 0x0b1, 0x0b2, 0x0b3, 0x0b4, 0x0b5, 0x0b6, 0x0b8, 0x0b9, 0x0ba, 0x0bb]

/-- A number that is not fixed names a register of a port or of a ring, or nothing. -/
theorem special_of_not_fixed {n : Nat} (h : n ∉ fixedSpecials) : s.special c n =
    if 0x090 ≤ n ∧ n < 0x098 then some (s.lstat (Fin.ofNat 8 (n - 0x090)))
    else if 0x098 ≤ n ∧ n < 0x0a0 then some (s.port (Fin.ofNat 8 (n - 0x098))).shed.toNat
    else if 0x0a0 ≤ n ∧ n < 0x0a8 then some (s.lpwr (Fin.ofNat 8 (n - 0x0a0)))
    else if 0x380 ≤ n ∧ n < 0x800 then (s.rings[n - 0x380]?).map ringWord
    else none := by
  unfold special
  simp only []
  split
  case h_51 => rfl
  all_goals exact absurd (by decide) h

theorem special_lstat (p : PortId) : s.special c (0x090 + p.val) = some (s.lstat p) := by
  rw [special_of_not_fixed, if_pos (by omega)]
  · exact congrArg (fun q => some (s.lstat q)) (Fin.ext (by simp))
  · simp [fixedSpecials]; omega

theorem special_lshed (p : PortId) : s.special c (0x098 + p.val) = some (s.port p).shed.toNat := by
  rw [special_of_not_fixed, if_neg (by omega), if_pos (by omega)]
  · exact congrArg (fun q => some (s.port q).shed.toNat) (Fin.ext (by simp))
  · simp [fixedSpecials]; omega

theorem special_lpwr (p : PortId) : s.special c (0x0a0 + p.val) = some (s.lpwr p) := by
  rw [special_of_not_fixed, if_neg (by omega), if_neg (by omega), if_pos (by omega)]
  · exact congrArg (fun q => some (s.lpwr q)) (Fin.ext (by simp))
  · simp [fixedSpecials]; omega

theorem special_ring (k : Fin 1152) : s.special c (0x380 + k.val) = some (ringWord s.rings[k]) := by
  rw [special_of_not_fixed, if_neg (by omega), if_neg (by omega), if_neg (by omega), if_pos (by omega)]
  · simp
  · simp [fixedSpecials]; omega

/-- A number beside every assigned one reads nothing (R69, R342). -/
theorem special_unassigned {n : Nat} (h : n ∉ fixedSpecials) (hp : n < 0x090 ∨ 0x0a7 < n) (hr : n < 0x380 ∨ 0x7ff < n) :
    s.special c n = none := by
  rw [special_of_not_fixed _ _ h, if_neg (by omega), if_neg (by omega), if_neg (by omega), if_neg (by omega)]

/-- The busy channels of a core (R89). -/
theorem special_channels : ∃ v, s.special c 0x048 = some v ∧ v < 256 ∧ ∀ k : Fin 8, v.testBit k.val = (s.core c).channels[k].isSome := by
  refine ⟨_, rfl, bitsOf_lt 8 _, fun k => ?_⟩
  rw [testBit_bitsOf _ k.isLt, Fin.getElem_fin, Vector.getElem?_eq_getElem k.isLt]
  cases (s.core c).channels[k.val] <;> rfl

/-- The rails of the clusters (R250). -/
theorem special_rails : ∃ v, s.special c 0x0b3 = some v ∧ v < 2 ^ 16 ∧ ∀ k : Fin 16, v.testBit k.val = s.power.railHigh k.val :=
  ⟨_, rfl, bitsOf_lt 16 _, fun k => testBit_bitsOf _ k.isLt⟩

theorem special_qptr (k : Fin 2) : s.special c (0x008 + k.val) = some (s.core c).qptr[k].toNat := by
  match k with
  | 0 | 1 => rfl

theorem special_counters (k : Fin 5) : s.special c (0x010 + k.val) = some (s.core c).counters[k].toNat := by
  match k with
  | 0 | 1 | 2 | 3 | 4 => rfl

theorem special_mcw (k : Fin 4) : s.special c (0x024 + k.val) = some (s.core c).mcw[k].toNat := by
  match k with
  | 0 | 1 | 2 | 3 => rfl

/-- The entries that stand in the inbound queues. -/
theorem special_inQ : s.special c 0x00c =
    some (((s.core c).inQ[(0 : Fin 4)]).length + 16 * ((s.core c).inQ[(1 : Fin 4)]).length +
      256 * ((s.core c).inQ[(2 : Fin 4)]).length + 4096 * ((s.core c).inQ[(3 : Fin 4)]).length) := by
  rw [Nat.mul_comm 16, Nat.mul_comm 256, Nat.mul_comm 4096]
  rfl

variable {s} in
/-- The quota that the graph of a core has used. -/
theorem special_quse {g : Graph} (h : s.graphOf c = some g) : s.special c 0x070 = some (g.quse / 5) := by
  show some (match s.graphOf c with | some g => g.quse / 5 | none => 0) = _
  rw [h]

variable {s} in
/-- The active calendar (R207). -/
theorem special_calendar {b : Bank} (h : s.fabric.active = some b) :
    s.special c 0x080 = some b.slen ∧ s.special c 0x081 = some b.guard ∧ s.special c 0x082 = some b.slots ∧
      s.special c 0x083 = some b.epoch ∧ s.special c 0x084 = some b.flight ∧
      s.special c 0x085 = some (s.fabric.self.val + b.pod * 256) := by
  simp [special, h]

/-- The rail of a core's cluster (R250). -/
theorem special_rail : s.special c 0x0b4 = some (s.power.ovr.toNat + 2 * (s.power.forced.getLsbD (c.val / 4)).toNat) := by
  rw [Nat.mul_comm]
  rfl

theorem special_rkid : s.special c 0x0bb = some (s.power.rkid.toNat % 64 + 256 * (s.power.rkid.toNat / 256 % 32)) := by
  rw [Nat.mul_comm]
  show some (s.power.rkid.toNat / 2 ^ 0 % 2 ^ 6 + _) = _
  rw [Nat.pow_zero, Nat.div_one]
  rfl

end State

/-! ### SPRD and SPWR -/

/-- SPRD of an assigned number. -/
theorem sprd_assigned {s : State} {x y : SReg} {code : BitVec 11} {v : Nat} (hf : s.Free [y] [] x)
    (hv : s.special s.cur (code.toNat + (s.src 0 y).toNat) = some v) :
    exec (.sprd x y code) s = .next (s.serialEnd [y] x (BitVec.ofNat 64 v) 2) := by
  show execSprd x y code s = _
  rw [execSprd, State.issueGate_of_free hf, specialNumber, hv]
  rfl

theorem sprd_unassigned {s : State} {x y : SReg} {code : BitVec 11} (hf : s.Free [y] [] x)
    (hn : s.special s.cur (code.toNat + (s.src 0 y).toNat) = none) :
    exec (.sprd x y code) s = .next (s.illegalHere (.sprd x y code)) := by
  show execSprd x y code s = _
  rw [execSprd, State.issueGate_of_free hf, specialNumber, hn]

namespace State

variable {s t : State} {n : Nat}

/-- What SPWR leaves: its pops, its register, the next word. -/
def spwrEnd (s : State) (srcs : List SReg) (n : Nat) (v : Word) : State :=
  ((s.popAll srcs).serialise.writeSpecial n v).advance.settle 2

/-- Nothing but the cores, the events to come and the model's own free values has changed. -/
def onlyCoresTimers (s t : State) : Prop := ∃ c w f, t = { s with cores := c, timers := w, free := f }

theorem onlyCoresTimers_of_onlyMe (h : s.onlyMe t) : s.onlyCoresTimers t := ⟨_, s.timers, _, h.1⟩

theorem onlyCoresTimers_trans {u : State} (h : s.onlyCoresTimers t) (k : t.onlyCoresTimers u) : s.onlyCoresTimers u := by
  obtain ⟨_, _, _, rfl⟩ := h
  obtain ⟨_, _, _, rfl⟩ := k
  exact ⟨_, _, _, rfl⟩

theorem writeSpecial_onlyCoresTimers (s : State) (n : Nat) (v : Word) : s.onlyCoresTimers (s.writeSpecial n v) := by
  by_cases h : 0x380 ≤ n ∧ n < 0x800
  · exact ⟨s.cores, _, s.free, writeSpecial_ring s v h⟩
  · exact onlyCoresTimers_of_onlyMe (writeSpecial_onlyMe s v (by omega))

theorem advance_settle_onlyMe (s : State) (bound : Nat) : s.onlyMe (s.advance.settle bound) :=
  onlyMe_trans (advance_onlyMe s) (settle_onlyMe _ bound)

theorem spwrEnd_onlyCoresTimers (s : State) (srcs : List SReg) (n : Nat) (v : Word) : s.onlyCoresTimers (s.spwrEnd srcs n v) :=
  onlyCoresTimers_trans (onlyCoresTimers_of_onlyMe (popAll_serialise_onlyMe s srcs))
    (onlyCoresTimers_trans (writeSpecial_onlyCoresTimers _ n v) (onlyCoresTimers_of_onlyMe (advance_settle_onlyMe _ 2)))

theorem spwrEnd_onlyMe (s : State) (srcs : List SReg) (v : Word) (h : n < 0x380 ∨ 0x800 ≤ n) : s.onlyMe (s.spwrEnd srcs n v) :=
  onlyMe_trans (popAll_serialise_onlyMe s srcs) (onlyMe_trans (writeSpecial_onlyMe _ v h) (advance_settle_onlyMe _ 2))

theorem mem_timer (s : State) (w : Nat) (e : Instr) : (w, e) ∈ (s.timer w e).timers := by simp [timer]

/-- The write of a ring's register waits for the next wc (R247). -/
theorem spwrEnd_ring (s : State) (srcs : List SReg) (v : Word) (h : 0x380 ≤ n ∧ n < 0x800) :
    (s.clock + 1, .orngWrite (Fin.ofNat 1152 (n - 0x380)) v) ∈ (s.spwrEnd srcs n v).timers := by
  have hc : (s.popAll srcs).serialise.clock = s.clock := popAll_clock s srcs
  show _ ∈ ((s.popAll srcs).serialise.writeSpecial n v).timers
  rw [writeSpecial_ring _ v h, hc]
  exact mem_timer ..

theorem spwrEnd_me (s : State) (srcs : List SReg) (n : Nat) (v : Word) :
    (s.spwrEnd srcs n v).me =
      { ((s.popAll srcs).serialise.me.written n v).advance ((s.popAll srcs).serialise.writeSpecial n v).clock with
        issueAt := (s.spwrEnd srcs n v).me.issueAt } := by
  rw [spwrEnd, settle_me, advance_me, writeSpecial_me]

/-- SPWR touches of its core the issue stage, the queues that it names, the shadows and its register. -/
theorem spwrEnd_written (s : State) (srcs : List SReg) (n : Nat) (v : Word) :
    ∃ pc sq w iq oq dq, (s.spwrEnd srcs n v).me = { s.me.written n v with
      pc := pc, squeue := sq, issueAt := w, inQ := iq, outQ := oq, dirtyQ := dq, shadows := [], held := none } := by
  obtain ⟨iq, dq, hp⟩ := popAll_me s srcs
  rw [spwrEnd_me, serialise_me, hp]
  exact ⟨_, _, _, _, _, _, rfl⟩

theorem spwrEnd_popped (s : State) (srcs : List SReg) (n : Nat) (v : Word) : s.popped (s.spwrEnd srcs n v) srcs := by
  intro q
  rw [spwrEnd_me, serialise_me]
  exact popAll_popped s srcs q

theorem spwrEnd_settlesOn (s : State) (srcs : List SReg) (n : Nat) (v : Word) :
    s.settlesOn (s.spwrEnd srcs n v) (s.me.pc + 4) 2 := by
  obtain ⟨iq, dq, hp⟩ := popAll_me s srcs
  obtain ⟨c, w, f, hw⟩ := writeSpecial_onlyCoresTimers (s.popAll srcs).serialise n v
  refine settlesOn_advance_settle ?_ ?_ (by decide)
  · rw [hw]
    exact popAll_clock s srcs
  · rw [writeSpecial_me, serialise_me, hp]
    rfl

end State

/-- SPWR of an assigned number. -/
theorem spwr_assigned {s : State} {x y : SReg} {code : BitVec 11} (hf : s.Free [x, y] [] 0)
    (hs : (s.special s.cur (code.toNat + (s.src 1 y).toNat)).isSome) :
    exec (.spwr x y code) s = .next (s.spwrEnd [x, y] (code.toNat + (s.src 1 y).toNat) (s.src 0 x)) := by
  obtain ⟨v, hv⟩ := Option.isSome_iff_exists.1 hs
  show execSpwr x y code s = _
  rw [execSpwr, State.issueGate_of_free hf, specialNumber, hv]
  rfl

theorem spwr_unassigned {s : State} {x y : SReg} {code : BitVec 11} (hf : s.Free [x, y] [] 0)
    (hn : s.special s.cur (code.toNat + (s.src 1 y).toNat) = none) :
    exec (.spwr x y code) s = .next (s.illegalHere (.spwr x y code)) := by
  show execSpwr x y code s = _
  rw [execSpwr, State.issueGate_of_free hf, specialNumber, hn]

/-- Settles O23: a word whose number is assigned reads or writes its register and changes nothing else, any other traps with its own word as
XINFO; and each number reads the state that it names. -/
theorem specialRegisters : Obligations.SpecialRegisters := by
  refine ⟨fun s x y code hf => ⟨fun v hv => ?_, fun hn => sprd_unassigned hf hn⟩,
    fun s x y code hf => ⟨fun hn => spwr_unassigned hf hn, fun hs => ?_⟩, fun s c => ?_⟩
  · exact ⟨_, sprd_assigned hf hv, State.serialEnd_wroteX .., fun q => State.serialEnd_popped _ _ _ _ _ q,
      State.serialEnd_settlesOn _ _ _ _ (by decide), State.serialEnd_preds .., State.serialEnd_handles ..,
      State.sameMemory_of_onlyMe State.serialEnd_onlyMe, State.serialEnd_onlyMe⟩
  · obtain ⟨_, _, _, _, _, _, hme⟩ := State.spwrEnd_written s [x, y] (code.toNat + (s.src 1 y).toNat) (s.src 0 x)
    obtain ⟨_, _, _, heq⟩ := State.spwrEnd_onlyCoresTimers s [x, y] (code.toNat + (s.src 1 y).toNat) (s.src 0 x)
    refine ⟨_, spwr_assigned hf hs, fun q => State.spwrEnd_popped _ _ _ _ q, State.spwrEnd_settlesOn .., ?_, fun a => by rw [heq]; rfl,
      ?_, ?_, ?_, fun k => ?_, ?_, ?_, ?_, ?_, ?_, ?_, ?_, ?_, ?_, ?_, ?_, ?_, ?_, by rw [heq], by rw [heq], by rw [heq],
      State.spwrEnd_onlyMe _ _ _, fun h1 h2 => State.spwrEnd_ring _ _ _ ⟨h1, h2⟩⟩
    case refine_1 => rw [State.sameRegs, hme]; rfl
    case refine_3 => rw [hme]; exact writeBlock_getElem _ _ _ _ 0
    case refine_4 => rw [hme]; exact writeBlock_getElem _ _ _ _ 1
    case refine_5 => rw [hme]; exact writeBlock_getElem ..
    all_goals
      rw [hme]
      rfl
  · intro x o is
    refine ⟨rfl, rfl, rfl, s.special_qptr c, s.special_inQ c, s.special_counters c, rfl, s.special_mcw c,
      rfl, rfl, rfl, rfl, rfl, rfl, s.special_channels c, rfl, rfl, rfl, rfl, rfl, fun g => State.special_quse c, fun b => State.special_calendar c,
      rfl, rfl, rfl, rfl, fun p => ⟨⟨_, s.special_lstat c p, s.lstat_fields p⟩, s.special_lshed c p, _, s.special_lpwr c p, s.lpwr_fields p⟩,
      rfl, rfl, rfl, s.special_rails c, s.special_rail c, rfl, rfl, rfl, rfl, rfl, s.special_rkid c, s.special_ring c, fun n => ?_⟩
    intro h1 h2 h3 h4 h5 h6 h7 h8 h9
    refine s.special_unassigned c ?_ h7 h9
    simp only [State.fixedSpecials, List.mem_cons, List.not_mem_nil, or_false] at h1 ⊢
    omega

end Sys2Proof.Machine
end

section
/-! SUPPORT. Reset and bring-up (R260, R261, R265): what a start leaves, and what each later step to READY does. -/

namespace Sys2Proof.Machine

open Sys2Proof

/-! ### The parts of the module at reset -/

namespace State

@[simp] theorem reset_core (c : CoreId) : State.reset.core c = CoreState.reset := Vector.getElem_replicate c.isLt

@[simp] theorem reset_array (d : DieId) : State.reset.array d = MxArray.reset := Vector.getElem_replicate d.isLt

@[simp] theorem reset_grid (c : CoreId) : State.reset.grid c = Grid.reset := Vector.getElem_replicate c.isLt

@[simp] theorem reset_port (p : PortId) : State.reset.port p = Port.reset := Vector.getElem_replicate p.isLt

end State

/-- Settles O59: the module's own registers are fields of the reset state; its cores, arrays, grids and ports are replicas of the reset value
of one. -/
theorem resetState : Obligations.ResetState := by
  refine ⟨Memory.wf_reset, rfl, rfl, rfl, rfl, rfl, rfl, rfl, rfl, rfl, fun c => ?core, fun d => ?array, fun c b hb => ?grid, fun p => ?port⟩
  case core =>
    rw [State.reset_core]
    exact ⟨rfl, rfl, rfl⟩
  case array =>
    rw [State.reset_array]
    exact ⟨rfl, rfl, fun r => Vector.getElem_replicate r.isLt, fun h => Vector.getElem_replicate h.isLt⟩
  case grid =>
    have hnull : b = Board.null := by simpa [Grid.reset] using hb
    rw [hnull]
    exact ⟨rfl, rfl, rfl, rfl, rfl⟩
  case port =>
    rw [State.reset_port]
    exact ⟨rfl, rfl, fun k => Vector.getElem_replicate k.isLt⟩

/-! ### What a start keeps of memory and of the owner window -/

/-- Memory of which only the addresses that meet p are kept. -/
theorem Memory.read_filter_address (m : Memory) (p : Nat → Prop) [DecidablePred p] (a : Nat) :
    Memory.read (m.filter fun cell => decide (p cell.1)) a = if p a then m.read a else Memory.unlisted := by
  have hp : (fun cell : Host.Cell => decide (decide (p cell.1) = true ∧ (cell.1 == a) = true)) = fun cell => decide (p a) && cell.1 == a := by
    funext cell
    by_cases h : cell.1 = a
    · simp [h]
    · simp [beq_false_of_ne h]
  rw [Memory.read, List.find?_filter, hp]
  by_cases ha : p a
  · simp [ha, Memory.read]
  · have hnone : m.find? (fun _ => false) = none := List.find?_eq_none.2 (by simp)
    simp [ha, hnone]

namespace Owner

variable {o : Owner} {clock wait : Nat}

/-- The image that runs from the next start passes its checks (R260). -/
def startAccepted (o : Owner) : Bool :=
  imageAccepted (if o.fwNext.isSome then o.fwNextKey else o.fwKey) (o.fwNext.getD o.fwAddr)

/-- Measuring the stages of an image writes MEAS, the log and LOGLEN alone. -/
theorem foldl_measure (stages : List (List Byte)) (o : Owner) :
    ∃ m l n, stages.foldl measure o = { o with meas := m, log := l, loglen := n } := by
  induction stages generalizing o with
  | nil => exact ⟨_, _, _, rfl⟩
  | cons stage rest ih => exact ih (o.measure stage)

/-- An image that passes its checks sets FW and has its DRAM step to come. -/
theorem start_of_accepted (h : o.startAccepted = true) :
    (o.start clock wait).own = 0 ∧ (o.start clock wait).mstat = 1 ∧ (o.start clock wait).stepAt = some (clock + 1 + wait, 1) := by
  rw [startAccepted] at h
  rw [start, if_pos h]
  refine ⟨?_, rfl, rfl⟩
  obtain ⟨m, l, n, hf⟩ := foldl_measure (Config.bootStages (if o.fwNext.isSome then o.fwNextKey else o.fwKey))
    { Owner.reset with
      nokey := o.nokey || o.eraseAt.isSome
      fwKey := if o.fwNext.isSome then o.fwNextKey else o.fwKey
      fwAddr := o.fwNext.getD o.fwAddr }
  exact congrArg Owner.own hf

/-- An image that fails its checks leaves no step done and none to come. -/
theorem start_of_rejected (h : o.startAccepted = false) :
    (o.start clock wait).own = 0 ∧ (o.start clock wait).mstat = 0 ∧ (o.start clock wait).stepAt = none := by
  rw [startAccepted] at h
  rw [start, if_neg (Bool.eq_false_iff.1 h)]
  exact ⟨rfl, rfl, rfl⟩

end Owner

namespace State

variable {s : State} {at_ : Nat}

/-- Of memory, a start keeps HOST's, and a reset the scratchpads' too. -/
theorem loadByte_start (s : State) (clock : Nat) (pads : Bool) (a : Nat) :
    (s.start clock pads).loadByte a = if (if pads then devSize else hostBase) ≤ a then s.loadByte a else 0 := by
  have hdev : devSize ≤ hostBase := by decide
  have hkept : (fun cell : Host.Cell => decide (hostBase ≤ cell.1) || (pads && decide (devSize ≤ cell.1))) =
      fun cell => decide ((if pads then devSize else hostBase) ≤ cell.1) := by
    funext cell
    cases pads
    · simp
    · simp only [Bool.true_and, if_true, ← Bool.decide_or, decide_eq_decide]
      omega
  exact (congrArg (fun kept => Memory.read (s.mem.filter kept) a) hkept).trans (Memory.read_filter_address s.mem _ a)

/-! ### The steps behind FW -/

/-- The DRAM step: DEV is zeroed. -/
theorem bringUp_dram (h : s.owner.stepAt = some (at_, 1)) (hdue : at_ ≤ s.clock) :
    s.bringUp = { s with
      owner := { s.owner with stepAt := none, mstat := s.owner.mstat ||| 2 }
      mem := s.mem.filter fun cell => decide (devSize ≤ cell.1) } := by
  rw [bringUp, h]
  exact if_neg (by omega)

/-- OPT is set, and the rings and the transmit groups are ready. -/
def opticsDone (s : State) : State := (s.onOwner fun o => { o with stepAt := none, mstat := o.mstat ||| 8 }).tuneOptics

theorem opticsDone_opt (s : State) : s.opticsDone.owner.mstat.getLsbD 3 = true := by
  show (s.owner.mstat ||| 8).getLsbD 3 = true
  simp

theorem opticsDone_groups (s : State) (p : PortId) (k : Fin 16) : (s.opticsDone.port p).groups[k] = .on := by
  simp [opticsDone, tuneOptics, port]

/-- The optics step, behind which READY may follow. -/
theorem bringUp_optics (h : s.owner.stepAt = some (at_, 3)) (hdue : at_ ≤ s.clock) : s.bringUp = s.opticsDone.readyTest := by
  rw [bringUp, h]
  exact if_neg (by omega)

/-- READY changes MSTAT, and brings admissions about; once OPT is set and a bank is loaded it stands. -/
theorem readyTest_eq (s : State) :
    ∃ a c m, s.readyTest = { s with agenda := a, closing := c, owner := { s.owner with mstat := m } } ∧
      m.getLsbD 3 = s.owner.mstat.getLsbD 3 ∧
      (s.owner.mstat.getLsbD 3 = true → s.fabric.active.isSome = true → m.getLsbD 4 = true) := by
  unfold readyTest
  split
  · obtain ⟨a, c, hw⟩ := watchAll_onlyDue (s.onOwner fun o => { o with mstat := o.mstat ||| 16 })
    exact ⟨a, c, _, hw, by simp, by simp⟩
  next hidle =>
    refine ⟨s.agenda, s.closing, s.owner.mstat, rfl, rfl, fun hopt hbank => ?_⟩
    simpa [hopt, hbank] using hidle

end State

/-- Settles O55: a start leaves the reset values and what it keeps of memory and the owner window; then DRAM, COLD, and the optics with READY
behind them follow, each a case of the model's bring-up. -/
theorem bringUp : Obligations.BringUp := by
  refine ⟨?start, fun s hdram hcold => ?cold, fun s at_ hdue => ⟨fun hstep => ?dram, fun hstep => ?optics⟩⟩
  case start =>
    intro s o accepted fresh
    have hfresh : ∀ clock pads, fresh (s.start clock pads) := by
      intro clock pads
      refine ⟨rfl, rfl, rfl, rfl, rfl, rfl, rfl, rfl, ?_⟩
      cases hacc : accepted with
      | true =>
        obtain ⟨hown, hmstat, hnext⟩ := Owner.start_of_accepted (o := s.owner) (clock := clock) (wait := s.freeNat 2) hacc
        exact ⟨hown, hmstat, fun _ => ⟨_, hnext, show clock < clock + 1 + s.freeNat 2 by omega⟩, nofun⟩
      | false =>
        obtain ⟨hown, hmstat, hnext⟩ := Owner.start_of_rejected (o := s.owner) (clock := clock) (wait := s.freeNat 2) hacc
        exact ⟨hown, hmstat, nofun, fun _ => hnext⟩
    exact ⟨⟨_, rfl, rfl, hfresh 0 false, rfl, s.loadByte_start 0 false⟩, _, rfl, rfl, hfresh s.clock true, rfl, s.loadByte_start s.clock true⟩
  case cold =>
    have hnext : ¬(s.owner.mstat.getLsbD 1 = false ∨ s.owner.mstat.getLsbD 2 = true) := by
      rw [hdram, hcold]
      decide
    exact ⟨_, s.clock + 1 + s.freeNat 2, if_neg hnext, State.quiet_of_eq rfl rfl, rfl, rfl, rfl, by omega⟩
  case dram =>
    rw [State.bringUp_dram hstep hdue]
    exact ⟨rfl, rfl, rfl, fun a => Memory.read_filter_address s.mem (devSize ≤ ·) a⟩
  case optics =>
    obtain ⟨a, c, m, hready, hopt, hbank⟩ := s.opticsDone.readyTest_eq
    rw [State.bringUp_optics hstep hdue, hready]
    exact ⟨State.quiet_of_eq rfl rfl, rfl, hopt.trans s.opticsDone_opt, rfl, hbank s.opticsDone_opt, s.opticsDone_groups⟩

end Sys2Proof.Machine
end
